-- ==== Sys2Proof/Word.lean ====
section
/-! DEFINITION. The widths of the engine's values (00_scope.md rules R7, R8, R9, R11, R17): every value is an unsigned
number of a fixed width, so each is a bit vector of that width. -/

namespace Sys2Proof

/-- A host register, a counter, a weight or a command word: `REG_BITS = CNT_BITS = CTR_BITS = CMD_BITS = 32` (rule R9). -/
abbrev Word := BitVec 32

/-- A data symbol, `SYMBOL_BITS = 8` (rule R7). -/
abbrev Byte := BitVec 8

/-- A symbol 0..256 in a value field of `VALUE_BITS = 9` bits (rule R7). -/
abbrev Symbol := BitVec 9

/-- A node index 0..512 in `NODE_IDX_BITS = 10` bits (rule R8). -/
abbrev NodeIdx := BitVec 10

end Sys2Proof
end

