-- ==== Sys2Proof/Config.lean ====
section
/-! DEFINITION. The engine's fixed parameters (00_scope.md rules R7, R8), the open parameter `HUFF_MAGIC` (rule R10)
and the free values of the model, the values the spec says are any value (93_implementation_defined.md I6, I7, I11).
A constant declared `opaque` has no body: nothing in Lean can compute it. -/

namespace Sys2Proof.Config

/-- `PSEUDO_EOF`, the reserved end-marker symbol (rule R7). -/
def pseudoEof : Symbol := 256

/-- `NUM_SYMBOLS`, the entries of FREQ and of the code table (rule R7). -/
def numSymbols : Nat := 257

/-- `MAX_INTERNAL`, the most internal nodes of a tree (rule R8). -/
def maxInternal : Nat := 256

/-- `MAX_NODES`, the entries of the node store (rule R8). -/
def maxNodes : Nat := 513

/-- `HEAP_CAP`, the most node indices in the priority queue (rule R8). -/
def heapCap : Nat := 257

/-- `MAX_CODE_LEN`, the greatest depth of a leaf (rule R8). -/
def maxCodeLen : Nat := 256

/-- `HUFF_MAGIC` (rule R10), an open parameter: assumption log 1. -/
opaque huffMagic : Word

/-- A word the spec says is any value: RESULT after an error (I7, assumption log 2) and a register read while BUSY = 1
(I6, assumption log 3). The argument is the model's draw counter, so each use is a fresh value. -/
opaque freeWord : Nat → Word

/-- Whether a port primitive that a reset abandoned took effect at its collaborator (I11, assumption log 4). -/
opaque freeBool : Nat → Bool

end Sys2Proof.Config
end

