-- ==== Sys2Proof/Syntax.lean ====
section
/-! DEFINITION. The command set: one constructor per row of the opcode table (30_encoding.md rule R95), with its operand
in the width of its form (rules R91, R92). -/

namespace Sys2Proof

/-- A command (00_scope.md rule R2). Form Z commands have no operand, form B a data byte, form S a symbol, form N a node
index. SRESET keeps the 24 operand bits that the engine ignores, so that no bit of its word is lost. -/
inductive Instr
  | nop
  | sreset (operand : BitVec 24)
  | fcInit
  | fcAdd (b : Byte)
  | fcScan
  | fcRead (s : Symbol)
  | tbLoad
  | tbStep
  | tbBuild
  | tbNodeRead (n : NodeIdx)
  | cgGen
  | cgLookup (s : Symbol)
  | hsWriteMagic
  | hsWriteTree
  | hdReadMagic
  | hdReadTree
  | enSymbol (b : Byte)
  | enEof
  | enBody
  | enClose
  | deStep
  | deBody
  | deClose
  | compress
  | decompress
  deriving DecidableEq, Repr

end Sys2Proof
end

