-- ==== Sys2Proof/Machine/State.lean ====
section
/-! DEFINITION. The machine's state as plain data: the host registers (10_state.md rule R21), the internal memories (rules
R40 to R43), the hidden sequencer state (rule R48), the collaborators at the four stream ports (20_memory.md rules R63 to
R70), and what the host and the collaborators do next. -/

namespace Sys2Proof.Machine

/-- The flags of STATUS (10_state.md rule R23), bits 10..0; bits 31:11 are reserved and read 0. -/
structure Status where
  busy       : Bool := false
  done       : Bool := false
  err        : Bool := false
  reject     : Bool := false
  freqValid  : Bool := false
  heapLoaded : Bool := false
  treeValid  : Bool := false
  codesValid : Bool := false
  eofWritten : Bool := false
  eofSeen    : Bool := false
  magicOk    : Bool := false
  deriving DecidableEq, Repr

/-- CTRL's two interrupt enables (10_state.md rule R33); the other bits are reserved and read 0. -/
structure Ctrl where
  ieDone : Bool := false
  ieErr  : Bool := false
  deriving DecidableEq, Repr

/-- The cause names of 60_exceptions.md rule R301; no other value is ever written to CAUSE. -/
inductive Cause
  | none
  | fmtBadMagic
  | fmtMagicEos
  | fmtHdrEos
  | fmtHdrOverflow
  | fmtHdrBadValue
  | fmtHdrLeafRoot
  | fmtBodyEos
  | cntOverflow
  | encNoCode
  | cgDupSymbol
  | illegalOpcode
  | illegalOperand
  | seqError
  deriving DecidableEq, Repr

/-- ERR_CAUSE's fields (10_state.md rule R34). -/
structure ErrCause where
  cause  : Cause := .none
  opcode : Byte := 0
  phase  : Byte := 0
  deriving DecidableEq, Repr

/-- One entry of the node store (10_state.md rule R40). -/
structure Node where
  leaf   : Bool
  value  : Symbol
  weight : Word
  left   : NodeIdx
  right  : NodeIdx
  deriving DecidableEq, Repr

/-- One entry of the code table (10_state.md rule R43): `len` 0 means no code, `bits` is the code right-aligned. -/
structure Code where
  len  : BitVec 9 := 0
  bits : BitVec 256 := 0
  deriving DecidableEq, Repr

/-- The internal memories (20_memory.md rule R60). An entry holds a value iff its index is below the list's length
(10_state.md rules R40, R50; assumption log 5). NODE_COUNT is `nodes.length` and HEAP_SIZE is `heap.length`. The queue is a
set (42_tree_builder.md rule R160), held as the rising list of its members. -/
structure Memory where
  freq  : List Word := []
  nodes : List Node := []
  heap  : List NodeIdx := []
  codes : List Code := []
  deriving DecidableEq, Repr

/-- The internal memories' names, for `Fault`. -/
inductive MemName
  | freq | node | heap | code
  deriving DecidableEq, Repr

/-- The port primitives (20_memory.md rules R64, R65, R67, R68). -/
inductive Prim
  | ibRead
  | ibRewind
  | ibRelease
  | obWrite (n : Nat) (v : Word)
  | obClose
  | obAbort
  | biRead (n : Nat)
  | biRelease
  | boWrite (b : Byte)
  | boClose
  | boAbort
  deriving DecidableEq, Repr

/-- The parts of command bodies, in the order their pseudocode runs them. What is left of a running command is a list of
these (10_state.md rule R48(a)). Each part is what a command resumes at after a port has held it. -/
inductive Task
  /-- start of a composite command's sub-step: PHASE <- op (47_composite.md rule R280) -/
  | phase (op : Byte)
  /-- R140 -/
  | fcInit
  /-- R142 -/
  | fcAdd (b : Byte)
  /-- R144 up to its loop -/
  | scanStart
  /-- R144, the loop -/
  | scan
  /-- R146 -/
  | fcRead (s : Symbol)
  /-- R164 -/
  | tbLoad
  /-- R166 -/
  | tbStep
  /-- R168, the loop -/
  | tbMerge
  /-- R168: RESULT <- ROOT -/
  | rootResult
  /-- R170 with the check of R94 -/
  | nodeRead (n : NodeIdx)
  /-- R190 -/
  | cgGen
  /-- R192 -/
  | cgLookup (s : Symbol)
  /-- R210 -/
  | writeMagic
  /-- R211 -/
  | writeTree
  /-- `ob_write`s still to be issued, each (n, v) -/
  | writes (ws : List (Nat × Word))
  /-- RESULT <- v -/
  | setResult (v : Word)
  /-- R214 -/
  | readMagic
  /-- R217 up to the root's tag bit -/
  | hdStart
  /-- R217, the root's tag bit -/
  | hdRoot
  /-- R217, the recursive descent below the root -/
  | hdTree
  /-- R217, READ_LEAF -/
  | hdLeaf
  /-- R219 and R217's RESULT -/
  | hdFinish
  /-- R240 and R242: one symbol's code, if it has one -/
  | enSymbol (s : Symbol)
  /-- R242: EOF_WRITTEN <- 1 -/
  | eofWritten
  /-- R244: `ib_rewind()` -/
  | ibRewind
  /-- R244: BYTES_IN <- 0 -/
  | bytesInClear
  /-- R244: BYTES_IN <- BYTES_IN + 1 -/
  | bytesInNext
  /-- R244, the loop -/
  | encLoop
  /-- R144, R244: RESULT <- BYTES_IN -/
  | bytesInResult
  /-- R246: RESULT <- BITS_OUT -/
  | bitsOutResult
  /-- R246: `ob_close()` -/
  | obClose
  /-- R246: `ib_release()` -/
  | ibRelease
  /-- R246: BITS_OUT <- 0, EOF_WRITTEN <- 0 -/
  | enClosed
  /-- R260 -/
  | deStep
  /-- R260 from the emission of the leaf CUR on; `d` is the bit read -/
  | deEmit (d : Bool)
  /-- R262, the loop -/
  | deLoop
  /-- R262, R264: RESULT <- BYTES_OUT -/
  | bytesOutResult
  /-- R264: `bo_close()` -/
  | boClose
  /-- R264: `bi_release()` -/
  | biRelease
  /-- R264: the counters and flags of a closed stream -/
  | deClosed
  deriving DecidableEq, Repr

/-- The hidden state of the sequencer (10_state.md rule R48). It exists only while BUSY = 1; an idle sequencer holds these
defaults (assumption log 21). -/
structure Seq where
  /-- OPCODE of the accepted command (60_exceptions.md rule R303) -/
  opcode  : Byte := 0
  /-- opcode of the primitive body that runs (10_state.md rule R34) -/
  phase   : Byte := 0
  /-- F, the flags STATUS[10:4] as they stood at acceptance (40_control.md rule R122) -/
  flags   : Status := {}
  /-- what is left of the body, where a port holds it -/
  tasks   : List Task := []
  /-- the primitive the engine waits on -/
  pending : Option Prim := none
  /-- the traversal stack of HD_READ_TREE: an internal node and whether its RIGHT child is the one being read -/
  stack   : List (NodeIdx × Bool) := []
  /-- internal nodes allocated by the running HD_READ_TREE -/
  icount  : Nat := 0
  /-- the cleanup primitives still to be answered, where a port holds an error entry (60_exceptions.md rule R303, 20_memory.md rule
  R66) -/
  todo    : List Prim := []
  deriving DecidableEq, Repr

/-- Port IB and its rewindable byte source (20_memory.md rule R64). -/
structure IbPort where
  /-- bytes of the current pass not read yet -/
  left   : List Byte := []
  /-- all bytes of the current pass, for `ib_rewind()` -/
  all    : List Byte := []
  /-- whether the pass ends after these bytes; if not, a read past them holds -/
  ended  : Bool := false
  /-- what later passes deliver, where the collaborator breaks duty H4; empty: the same bytes again -/
  later  : List (List Byte × Bool) := []
  /-- whether a stream is open (rule R70) -/
  isOpen : Bool := false
  deriving DecidableEq, Repr

/-- Port OB and its bit sink (20_memory.md rules R65, R69). -/
structure ObPort where
  /-- bits of the open stream, stream bit 0 first -/
  bits      : List Bool := []
  isOpen    : Bool := false
  /-- streams committed, the last one last -/
  committed : List (List Byte) := []
  /-- streams ended without committing them; the sink discards them (duty H5) -/
  aborted   : List (List Bool) := []
  deriving DecidableEq, Repr

/-- Port BI and its bit source (20_memory.md rule R67). -/
structure BiPort where
  /-- bits not read yet, the next one first -/
  bits   : List Bool := []
  /-- whether the stream ends after these bits; if not, a read past them holds -/
  ended  : Bool := false
  isOpen : Bool := false
  deriving DecidableEq, Repr

/-- Port BO and its byte sink (20_memory.md rules R68, R69). -/
structure BoPort where
  bytes     : List Byte := []
  isOpen    : Bool := false
  committed : List (List Byte) := []
  aborted   : List (List Byte) := []
  deriving DecidableEq, Repr

/-- The four stream ports (20_memory.md rule R63). -/
structure Ports where
  ib : IbPort := {}
  ob : ObPort := {}
  bi : BiPort := {}
  bo : BoPort := {}
  /-- how many more primitives the collaborators answer before they hold (rule R66); `none`: no limit -/
  credit : Option Nat := none
  deriving DecidableEq, Repr

/-- What the world outside the engine does (70_reset_and_hazards.md rule R361): accesses of the host to the register window,
the reset input, and what the collaborators at the ports do. -/
inductive Input
  /-- a host write of `size` bytes at a byte offset of the window -/
  | busWrite (offset size : Nat) (v : Word)
  /-- a host read of `size` bytes at a byte offset of the window -/
  | busRead (offset size : Nat)
  /-- the hardware reset input is asserted (rule R340) -/
  | hardReset
  /-- port IB is presented with a source at its first byte -/
  | ibPresent (bytes : List Byte) (ended : Bool) (later : List (List Byte × Bool))
  /-- more bytes of the current pass arrive at IB's source -/
  | ibSupply (bytes : List Byte) (ended : Bool)
  /-- port BI is presented with a source at its first bit -/
  | biPresent (bits : List Bool) (ended : Bool)
  /-- more bits arrive at BI's source -/
  | biSupply (bits : List Bool) (ended : Bool)
  /-- the collaborators answer this many more primitives before they hold -/
  | portCredit (c : Option Nat)
  deriving DecidableEq, Repr

/-- The machine. -/
@[ext]
structure State where
  status      : Status := {}
  ctrl        : Ctrl := {}
  errCause    : ErrCause := {}
  errExpected : Word := 0
  errFound    : Word := 0
  result      : Word := 0
  root        : NodeIdx := 0
  cur         : NodeIdx := 0
  total       : Word := 0
  bytesIn     : Word := 0
  bytesOut    : Word := 0
  bitsIn      : Word := 0
  bitsOut     : Word := 0
  nodeOut     : Word := 0
  /-- CODE_OUT7..CODE_OUT0 as one value (10_state.md rule R45) -/
  codeOut     : BitVec 256 := 0
  /-- MAGIC, constant (10_state.md rule R46) -/
  magic       : Word
  mem         : Memory := {}
  seq         : Seq := {}
  ports       : Ports := {}
  /-- what the outside world does next, in order (the model's own field, assumption log 6) -/
  inputs      : List Input := []
  /-- the word the last register read gave the host (the model's own field, assumption log 18) -/
  readData    : Word := 0
  /-- the draw counter of the free values (the model's own field, assumption log 2) -/
  draws       : Nat := 0
  deriving DecidableEq, Repr

/-- Hardware reset at power-on (70_reset_and_hazards.md rule R340; 10_state.md rule R50): every register of rule R21 at its
reset value, MAGIC at `HUFF_MAGIC`, no memory entry holding a value, an idle sequencer, no open stream. -/
def State.reset : State := { magic := Config.huffMagic }

/-- Why the model stops. No run from reset meets one: the spec proves each case unreachable (10_state.md rule R51,
20_memory.md rule R62, 42_tree_builder.md rule R167, 70_reset_and_hazards.md rule R362). Stopping is safe. -/
inductive Fault
  /-- a command reads an entry of an internal memory that holds no value; raised by the memory reads (rule R51). Safe. -/
  | noValue (m : MemName) (index : Nat)
  /-- a command writes past the last entry of an internal memory; raised by allocation and PQ_INSERT (rule R62). Safe. -/
  | noEntry (m : MemName)
  /-- PQ_REMOVE_MIN of an empty queue; raised by TB_STEP (rule R163). Safe. -/
  | emptyQueue
  /-- a tree walk deeper than the traversal stack; raised by CG_GEN and HS_WRITE_TREE (rule R362). Safe. -/
  | traversalDepth
  deriving DecidableEq, Repr

/-- What the model gives no meaning. -/
inductive Refusal
  /-- an instruction rejected by name; raised by `exec`'s arms without a meaning (there is none). Safe. -/
  | notModelled (mnemonic : String)
  /-- a host access to the register window that is not an aligned 32-bit word (10_state.md rule R22(e): a model refuses it);
  raised by the register window. Safe. -/
  | unalignedAccess (offset size : Nat)
  deriving DecidableEq, Repr

end Sys2Proof.Machine
end

