-- ==== Sys2Proof/Machine/Flags.lean ====
section
/-! DEFINITION. STATUS and CTRL as words (10_state.md rules R23, R33), the prerequisite masks (40_control.md rule R124), the
invalidation of derived flags (41_frequency.md) and the interrupt output (60_exceptions.md rule R320). -/

namespace Sys2Proof.Machine

/-- The flags of STATUS[10:4], the ones prerequisites name (40_control.md rule R122). -/
inductive Flag
  | freqValid | heapLoaded | treeValid | codesValid | eofWritten | eofSeen | magicOk
  deriving DecidableEq, Repr

/-- A flag's value. -/
def Status.get (st : Status) : Flag → Bool
  | .freqValid => st.freqValid
  | .heapLoaded => st.heapLoaded
  | .treeValid => st.treeValid
  | .codesValid => st.codesValid
  | .eofWritten => st.eofWritten
  | .eofSeen => st.eofSeen
  | .magicOk => st.magicOk

/-- A flag's mask in STATUS, at its bit position (10_state.md rule R23). -/
def Flag.mask : Flag → Word
  | .freqValid => 0x010
  | .heapLoaded => 0x020
  | .treeValid => 0x040
  | .codesValid => 0x080
  | .eofWritten => 0x100
  | .eofSeen => 0x200
  | .magicOk => 0x400

/-- STATUS as the host reads it (10_state.md rule R23): bit 0 BUSY up to bit 10 MAGIC_OK, bits 31:11 read 0. -/
def Status.word (st : Status) : Word :=
  (0 : BitVec 21) ++ BitVec.ofBool st.magicOk ++ BitVec.ofBool st.eofSeen ++ BitVec.ofBool st.eofWritten ++
    BitVec.ofBool st.codesValid ++ BitVec.ofBool st.treeValid ++ BitVec.ofBool st.heapLoaded ++
    BitVec.ofBool st.freqValid ++ BitVec.ofBool st.reject ++ BitVec.ofBool st.err ++ BitVec.ofBool st.done ++
    BitVec.ofBool st.busy

/-- STATUS[10:4] shifted left by 4, i.e. at its own bit positions (60_exceptions.md rule R302). -/
def Status.flagWord (st : Status) : Word := st.word &&& 0x7F0

/-- CTRL as the host reads it (10_state.md rule R33). -/
def Ctrl.word (c : Ctrl) : Word := (0 : BitVec 30) ++ BitVec.ofBool c.ieErr ++ BitVec.ofBool c.ieDone

/-- What a write of `v` to CTRL leaves (10_state.md rules R22(d), R33): reserved bits are not kept. -/
def Ctrl.ofWord (v : Word) : Ctrl := { ieDone := v.getLsbD 0, ieErr := v.getLsbD 1 }

/-- The flags a command needs to be 1 and to be 0 (40_control.md rule R124). -/
structure Need where
  set   : List Flag := []
  clear : List Flag := []
  deriving DecidableEq, Repr

/-- The prerequisite check (40_control.md rule R124). -/
def Need.holds (n : Need) (st : Status) : Bool := n.set.all st.get && n.clear.all fun f => !st.get f

/-- The masks of some flags together. -/
def maskOf (fs : List Flag) : Word := fs.foldr (fun f m => f.mask ||| m) 0

/-- SEQ_ERROR's expected word: `set_mask | (clear_mask << 16)` (40_control.md rule R124). -/
def Need.word (n : Need) : Word := maskOf n.set ||| (maskOf n.clear <<< 16)

/-- Commands without a prerequisite (40_control.md rule R124). -/
def needNothing : Need := {}

/-- FC_ADD, FC_SCAN, FC_READ, TB_LOAD, TB_BUILD (40_control.md rule R124). -/
def needFreq : Need := { set := [.freqValid] }

/-- TB_STEP (40_control.md rule R124). -/
def needHeap : Need := { set := [.heapLoaded] }

/-- CG_GEN, HS_WRITE_TREE (40_control.md rule R124). -/
def needTree : Need := { set := [.treeValid] }

/-- CG_LOOKUP (40_control.md rule R124). -/
def needCodes : Need := { set := [.codesValid] }

/-- EN_SYMBOL, EN_EOF, EN_BODY (40_control.md rule R124). -/
def needEncode : Need := { set := [.codesValid], clear := [.eofWritten] }

/-- EN_CLOSE (40_control.md rule R124). -/
def needEofWritten : Need := { set := [.eofWritten] }

/-- DE_STEP, DE_BODY (40_control.md rule R124). -/
def needDecode : Need := { set := [.treeValid], clear := [.eofSeen] }

/-- DE_CLOSE (40_control.md rule R124). -/
def needEofSeen : Need := { set := [.eofSeen] }

/-- COMPRESS (40_control.md rule R124). -/
def needNoEofWritten : Need := { clear := [.eofWritten] }

/-- DECOMPRESS (40_control.md rule R124). -/
def needNoEofSeen : Need := { clear := [.eofSeen] }

/-- INVALIDATE_TREE (41_frequency.md). -/
def Status.invalidateTree (st : Status) : Status :=
  { st with heapLoaded := false, treeValid := false, codesValid := false }

/-- A rejected CMD write sets REJECT and nothing else (40_control.md rule R121). -/
def Status.rejected (st : Status) : Status := { st with reject := true }

/-- Acceptance (40_control.md rule R122). -/
def Status.accepted (st : Status) : Status := { st with busy := true, done := false, reject := false }

/-- Completion (40_control.md rule R127). -/
def Status.completed (st : Status) : Status := { st with busy := false, done := true }

/-- Error entry (60_exceptions.md rule R303): ERR is set, DONE and every flag of STATUS[10:4] are cleared, REJECT is not changed.
BUSY stays until the ports have answered the cleanup primitives (20_memory.md rule R66, assumption log 13). -/
def Status.failed (st : Status) : Status := { busy := st.busy, err := true, reject := st.reject }

/-- STATUS after SRESET: DONE = 1, every other flag 0 (40_control.md rule R131). -/
def Status.softReset : Status := { done := true }

/-- The interrupt output, a level without a latch (10_state.md rule R49, 60_exceptions.md rule R320). -/
def State.irq (s : State) : Bool := (s.status.done && s.ctrl.ieDone) || (s.status.err && s.ctrl.ieErr)

end Sys2Proof.Machine
end

