-- ==== Sys2Proof/WellFormed.lean ====
section
/-! DEFINITION. The part of the static operand check (30_encoding.md rule R93) that the widths of `Instr`'s fields do not
already say: a form S symbol is at most 256 (rule R91). Reserved operand bits have no place in `Instr`; `decode` checks
them. -/

namespace Sys2Proof

/-- Form S: `s` in 0..256 (rule R91). -/
def symbolLegal (s : Symbol) : Bool := s.toNat ≤ 256

/-- The instruction passes rule R93's check on its value field. TB_NODE_READ's index is checked at run time (rule R94). -/
def Instr.wellFormed : Instr → Bool
  | .nop => true
  | .sreset _ => true
  | .fcInit => true
  | .fcAdd _ => true
  | .fcScan => true
  | .fcRead s => symbolLegal s
  | .tbLoad => true
  | .tbStep => true
  | .tbBuild => true
  | .tbNodeRead _ => true
  | .cgGen => true
  | .cgLookup s => symbolLegal s
  | .hsWriteMagic => true
  | .hsWriteTree => true
  | .hdReadMagic => true
  | .hdReadTree => true
  | .enSymbol _ => true
  | .enEof => true
  | .enBody => true
  | .enClose => true
  | .deStep => true
  | .deBody => true
  | .deClose => true
  | .compress => true
  | .decompress => true

end Sys2Proof
end

