-- ==== Sys2Proof/Decode.lean ====
section
/-! DEFINITION. Decoding a command word (30_encoding.md rules R90 to R96), total and rejecting by name, and the encoder
written from the same opcode map. A command is one 32-bit word written to CMD; it is never laid out in bytes (20_memory.md
rule R78), so there is no byte order here. -/

namespace Sys2Proof

/-- Why a word is no legal command: the two usage errors of 30_encoding.md rules R93 and R96. -/
inductive DecodeError
  /-- the OPCODE field is not in the opcode map (rule R96) -/
  | illegalOpcode
  /-- a reserved operand bit is 1, or a form S symbol is above 256 (rule R93) -/
  | illegalOperand
  deriving DecidableEq, Repr

/-- OPCODE, bits [31:24] (rule R90). -/
def opcodeOf (w : Word) : Byte := w.extractLsb' 24 8

/-- OPERAND, bits [23:0] (rule R90). -/
def operandOf (w : Word) : BitVec 24 := w.extractLsb' 0 24

/-- Form Z: OPERAND = 0 (rule R91). -/
def formZ (x : BitVec 24) (i : Instr) : Except DecodeError Instr :=
  if x = 0 then .ok i else .error .illegalOperand

/-- Form B: a data byte in [7:0], bits [23:8] reserved (rule R91). -/
def formB (x : BitVec 24) (f : Byte → Instr) : Except DecodeError Instr :=
  if x.extractLsb' 8 16 = 0 then .ok (f (x.extractLsb' 0 8)) else .error .illegalOperand

/-- Form S: a symbol 0..256 in [8:0], bits [23:9] reserved (rule R91). -/
def formS (x : BitVec 24) (f : Symbol → Instr) : Except DecodeError Instr :=
  if x.extractLsb' 9 15 = 0 && symbolLegal (x.extractLsb' 0 9) then .ok (f (x.extractLsb' 0 9))
  else .error .illegalOperand

/-- Form N: a node index in [9:0], bits [23:10] reserved (rule R91). -/
def formN (x : BitVec 24) (f : NodeIdx → Instr) : Except DecodeError Instr :=
  if x.extractLsb' 10 14 = 0 then .ok (f (x.extractLsb' 0 10)) else .error .illegalOperand

/-- The opcode map (rule R95): the form each opcode names, applied to the operand. SRESET's operand is ignored. -/
def decodeFields (op : Byte) (x : BitVec 24) : Except DecodeError Instr :=
  match op.toNat with
  | 0x00 => formZ x .nop
  | 0x01 => .ok (.sreset x)
  | 0x10 => formZ x .fcInit
  | 0x11 => formB x .fcAdd
  | 0x12 => formZ x .fcScan
  | 0x13 => formS x .fcRead
  | 0x20 => formZ x .tbLoad
  | 0x21 => formZ x .tbStep
  | 0x22 => formZ x .tbBuild
  | 0x23 => formN x .tbNodeRead
  | 0x30 => formZ x .cgGen
  | 0x31 => formS x .cgLookup
  | 0x40 => formZ x .hsWriteMagic
  | 0x41 => formZ x .hsWriteTree
  | 0x42 => formZ x .hdReadMagic
  | 0x43 => formZ x .hdReadTree
  | 0x50 => formB x .enSymbol
  | 0x51 => formZ x .enEof
  | 0x52 => formZ x .enBody
  | 0x53 => formZ x .enClose
  | 0x60 => formZ x .deStep
  | 0x61 => formZ x .deBody
  | 0x62 => formZ x .deClose
  | 0x70 => formZ x .compress
  | 0x71 => formZ x .decompress
  | _ => .error .illegalOpcode

/-- The command a word stands for, or why it stands for none. -/
def decode (w : Word) : Except DecodeError Instr := decodeFields (opcodeOf w) (operandOf w)

/-- An instruction's OPCODE (rule R95). -/
def Instr.opcode : Instr → Byte
  | .nop => 0x00
  | .sreset _ => 0x01
  | .fcInit => 0x10
  | .fcAdd _ => 0x11
  | .fcScan => 0x12
  | .fcRead _ => 0x13
  | .tbLoad => 0x20
  | .tbStep => 0x21
  | .tbBuild => 0x22
  | .tbNodeRead _ => 0x23
  | .cgGen => 0x30
  | .cgLookup _ => 0x31
  | .hsWriteMagic => 0x40
  | .hsWriteTree => 0x41
  | .hdReadMagic => 0x42
  | .hdReadTree => 0x43
  | .enSymbol _ => 0x50
  | .enEof => 0x51
  | .enBody => 0x52
  | .enClose => 0x53
  | .deStep => 0x60
  | .deBody => 0x61
  | .deClose => 0x62
  | .compress => 0x70
  | .decompress => 0x71

/-- An instruction's OPERAND, its value field zero-extended and every reserved bit 0 (rules R91, R92). -/
def Instr.operand : Instr → BitVec 24
  | .nop => 0
  | .sreset x => x
  | .fcInit => 0
  | .fcAdd b => b.setWidth 24
  | .fcScan => 0
  | .fcRead s => s.setWidth 24
  | .tbLoad => 0
  | .tbStep => 0
  | .tbBuild => 0
  | .tbNodeRead n => n.setWidth 24
  | .cgGen => 0
  | .cgLookup s => s.setWidth 24
  | .hsWriteMagic => 0
  | .hsWriteTree => 0
  | .hdReadMagic => 0
  | .hdReadTree => 0
  | .enSymbol b => b.setWidth 24
  | .enEof => 0
  | .enBody => 0
  | .enClose => 0
  | .deStep => 0
  | .deBody => 0
  | .deClose => 0
  | .compress => 0
  | .decompress => 0

/-- The 32-bit word of an instruction (rule R90). -/
def encode (i : Instr) : Word := i.opcode ++ i.operand

/-- The command that the table's bits `w` of an `nbits`-bit row stand for; every bit above `nbits` is 0. A command is one
32-bit word, numbered as the table numbers it. -/
def decodeTableWord (nbits w : Nat) : Option Instr :=
  match decode (BitVec.ofNat 32 (w % 2 ^ nbits)) with
  | .ok i => some i
  | .error _ => none

end Sys2Proof
end

