-- ==== Sys2Proof/Machine/Operands.lean ====
section
/-! DEFINITION. The operand forms as values the bodies use (30_encoding.md rules R91, R92, R94), and the fields of a bit
stream: every multi-bit field goes most significant bit first, and stream bit k is bit 7 - k mod 8 of byte k / 8
(20_memory.md rule R71). -/

namespace Sys2Proof.Machine

/-- A data byte as a symbol 0..255: form B cannot name PSEUDO_EOF (30_encoding.md rule R92). -/
def symbolOfByte (b : Byte) : Symbol := b.setWidth 9

/-- The dynamic operand check: a node index must be below NODE_COUNT (30_encoding.md rule R94). -/
def nodeIndexLegal (n : NodeIdx) (nodeCount : Nat) : Bool := n.toNat < nodeCount

/-- The low `n` bits of `v`, most significant first (20_memory.md rule R65). -/
def fieldBits (n : Nat) (v : Word) : List Bool := (List.range n).map fun i => v.getLsbD (n - 1 - i)

/-- The unsigned value of a field whose first bit is its most significant (20_memory.md rule R67). -/
def fieldValue (bits : List Bool) : Word := bits.foldl (fun v b => (v <<< 1) ||| (BitVec.ofBool b).setWidth 32) 0

/-- Byte `k` of a bit stream; bits past its end are the pad, 0 (20_memory.md rules R65, R71). -/
def streamByte (bits : List Bool) (k : Nat) : Byte :=
  (fieldValue ((List.range 8).map fun j => bits.getD (8 * k + j) false)).setWidth 8

/-- A bit stream as whole bytes, the last one padded with 0 bits (20_memory.md rules R65, R71). -/
def packBits (bits : List Bool) : List Byte := (List.range ((bits.length + 7) / 8)).map (streamByte bits)

/-- The bit stream that some bytes carry (20_memory.md rule R71). -/
def unpackBytes (bytes : List Byte) : List Bool := bytes.flatMap fun b => fieldBits 8 (b.setWidth 32)

/-- A code's bits, first path bit first: CODE_BITS[len-1] down to CODE_BITS[0] (10_state.md rule R45, 45_encoder.md rule
R241). -/
def Code.path (c : Code) : List Bool := (List.range c.len.toNat).map fun i => c.bits.getLsbD (c.len.toNat - 1 - i)

/-- EMIT_CODE's port writes: one bit each (45_encoder.md rule R241). -/
def Code.writes (c : Code) : List (Nat × Word) := c.path.map fun b => (1, (BitVec.ofBool b).setWidth 32)

end Sys2Proof.Machine
end

