-- ==== Sys2Proof/Machine/Ports.lean ====
section
/-! DEFINITION. The collaborators at the four stream ports and their primitives (20_memory.md rules R63 to R72). A primitive is
answered or it holds (rule R66); it holds where the collaborator has no answer yet, or answers no more for now. -/

namespace Sys2Proof.Machine

/-- What a primitive answers (rules R64, R67); `done` for one that only acts. -/
inductive Answer
  | done
  | byte (b : Byte)
  | bits (v : Word)
  | eos
  deriving DecidableEq, Repr

/-- `ib_read()` (rule R64). At the end of the pass the answer is EOS, each time it is asked (assumption log 10). -/
def IbPort.read (p : IbPort) : Option (Answer × IbPort) :=
  match p.left with
  | b :: rest => some (.byte b, { p with left := rest, isOpen := true })
  | [] => if p.ended then some (.eos, { p with isOpen := true }) else none

/-- `ib_rewind()` (rule R64): back to the first byte. What the next pass delivers is the collaborator's duty H4 (60_exceptions.md
rule R325): the same bytes, unless it is given to break the duty (rule R80, assumption log 16). -/
def IbPort.rewind (p : IbPort) : IbPort :=
  match p.later with
  | [] => { p with left := p.all, isOpen := true }
  | (bytes, ended) :: rest => { p with left := bytes, all := bytes, ended := ended, later := rest, isOpen := true }

/-- `ib_release()` (rules R64, R70): the engine is done with the open source, which is then gone (assumption log 9). -/
def IbPort.release (p : IbPort) : IbPort := if p.isOpen then {} else p

/-- `ob_write(n, v)` (rule R65). -/
def ObPort.write (p : ObPort) (n : Nat) (v : Word) : ObPort := { p with bits := p.bits ++ fieldBits n v, isOpen := true }

/-- `ob_close()` (rules R65, R70): pads the open stream to whole bytes with 0 bits and commits it; a stream of zero bits commits
empty, and a port with no open stream stays as it is. -/
def ObPort.close (p : ObPort) : ObPort :=
  if p.isOpen then { p with bits := [], isOpen := false, committed := p.committed ++ [packBits p.bits] } else p

/-- `ob_abort()` (rules R65, R69, R70): the stream ends uncommitted, and the sink discards it (duty H5, assumption log 12). -/
def ObPort.abort (p : ObPort) : ObPort :=
  if p.isOpen then { p with bits := [], isOpen := false, aborted := p.aborted ++ [p.bits] } else p

/-- `bi_read(n)` (rule R67): EOS if the stream ends with fewer than `n` bits left. -/
def BiPort.read (p : BiPort) (n : Nat) : Option (Answer × BiPort) :=
  if n ≤ p.bits.length then
    some (.bits (fieldValue (p.bits.take n)), { p with bits := p.bits.drop n, isOpen := true })
  else if p.ended then some (.eos, { p with isOpen := true })
  else none

/-- `bi_release()` (rules R67, R70, assumption log 9). -/
def BiPort.release (p : BiPort) : BiPort := if p.isOpen then {} else p

/-- `bo_write(b)` (rule R68). -/
def BoPort.write (p : BoPort) (b : Byte) : BoPort := { p with bytes := p.bytes ++ [b], isOpen := true }

/-- The output's stream opens with the port's first primitive (rule R70), which is DE_CLOSE's `bo_close()` where no byte was
written (46_decoder.md rule R264, assumption log 11). -/
def BoPort.opened (p : BoPort) : BoPort := { p with isOpen := true }

/-- `bo_close()` (rules R68, R70): commits the open stream. -/
def BoPort.close (p : BoPort) : BoPort :=
  if p.isOpen then { p with bytes := [], isOpen := false, committed := p.committed ++ [p.bytes] } else p

/-- `bo_abort()` (rules R68, R69, R70). -/
def BoPort.abort (p : BoPort) : BoPort :=
  if p.isOpen then { p with bytes := [], isOpen := false, aborted := p.aborted ++ [p.bytes] } else p

/-- The effect and the answer of a primitive that its collaborator can answer now; `none` where it has no answer yet. -/
def Ports.perform (ps : Ports) : Prim → Option (Answer × Ports)
  | .ibRead => ps.ib.read.map fun (a, p) => (a, { ps with ib := p })
  | .ibRewind => some (.done, { ps with ib := ps.ib.rewind })
  | .ibRelease => some (.done, { ps with ib := ps.ib.release })
  | .obWrite n v => some (.done, { ps with ob := ps.ob.write n v })
  | .obClose => some (.done, { ps with ob := ps.ob.close })
  | .obAbort => some (.done, { ps with ob := ps.ob.abort })
  | .biRead n => (ps.bi.read n).map fun (a, p) => (a, { ps with bi := p })
  | .biRelease => some (.done, { ps with bi := ps.bi.release })
  | .boWrite b => some (.done, { ps with bo := ps.bo.write b })
  | .boClose => some (.done, { ps with bo := ps.bo.opened.close })
  | .boAbort => some (.done, { ps with bo := ps.bo.abort })

/-- A primitive that holds has opened its port's stream all the same (rule R70, assumption log 14). A release, a
close or an abort leaves the port as it is until it is answered. -/
def Ports.touch (ps : Ports) : Prim → Ports
  | .ibRead => { ps with ib := { ps.ib with isOpen := true } }
  | .ibRewind => { ps with ib := { ps.ib with isOpen := true } }
  | .ibRelease => ps
  | .obWrite _ _ => { ps with ob := { ps.ob with isOpen := true } }
  | .obClose => ps
  | .obAbort => ps
  | .biRead _ => { ps with bi := { ps.bi with isOpen := true } }
  | .biRelease => ps
  | .boWrite _ => { ps with bo := { ps.bo with isOpen := true } }
  | .boClose => ps
  | .boAbort => ps

/-- One primitive fewer before the collaborators hold (rule R66, assumption log 8). -/
def Ports.spend (ps : Ports) : Ports := { ps with credit := ps.credit.map fun c => c - 1 }

/-- The collaborators' answer to a primitive, or `none`: it holds (rule R66). -/
def Ports.answer (ps : Ports) (p : Prim) : Option (Answer × Ports) :=
  if ps.credit = some 0 then none else (ps.perform p).map fun (a, ps') => (a, ps'.spend)

/-- The four cleanup primitives, in order (60_exceptions.md rule R303). -/
def cleanupPrims : List Prim := [.obAbort, .boAbort, .ibRelease, .biRelease]

/-- The four cleanup primitives answered at once: what a reset makes of the ports (40_control.md rule R131, 70_reset_and_hazards.md
rule R340; a reset never waits, 90_conflicts.md C10, assumption log 13). -/
def Ports.cleanup (ps : Ports) : Ports :=
  { ps with ob := ps.ob.abort, bo := ps.bo.abort, ib := ps.ib.release, bi := ps.bi.release }

end Sys2Proof.Machine
end

