-- ==== Sys2Proof/Machine/Store.lean ====
section
/-! DEFINITION. The internal memories (20_memory.md rule R60): reads and writes of one entry, allocation of nodes, and the
priority queue (42_tree_builder.md rules R160 to R163). A read of an entry that holds no value, and a write past the last
entry, fault; no command reaches either (10_state.md rule R51, 20_memory.md rule R62). -/

namespace Sys2Proof.Machine

/-- FREQ[s] (10_state.md rule R41). -/
def Memory.readFreq (m : Memory) (s : Symbol) : Except Fault Word :=
  match m.freq[s.toNat]? with
  | some c => .ok c
  | none => .error (.noValue .freq s.toNat)

/-- FREQ[s] <- c, for an entry that holds a value. -/
def Memory.writeFreq (m : Memory) (s : Symbol) (c : Word) : Memory := { m with freq := m.freq.set s.toNat c }

/-- NODE[n] (10_state.md rule R40: a model faults a read of an entry at or above NODE_COUNT). -/
def Memory.readNode (m : Memory) (n : NodeIdx) : Except Fault Node :=
  match m.nodes[n.toNat]? with
  | some nd => .ok nd
  | none => .error (.noValue .node n.toNat)

/-- NODE[n] <- nd, for an entry that holds a value. -/
def Memory.writeNode (m : Memory) (n : NodeIdx) (nd : Node) : Memory := { m with nodes := m.nodes.set n.toNat nd }

/-- CODE[s] (10_state.md rule R43). -/
def Memory.readCode (m : Memory) (s : Symbol) : Except Fault Code :=
  match m.codes[s.toNat]? with
  | some c => .ok c
  | none => .error (.noValue .code s.toNat)

/-- `n <- NODE_COUNT; NODE[n] <- nd; NODE_COUNT <- n + 1` (42_tree_builder.md rules R164 to R166, 44_header_codec.md rule
R217). -/
def Memory.alloc (m : Memory) (nd : Node) : Except Fault (NodeIdx × Memory) :=
  if m.nodes.length < Config.maxNodes then
    .ok (BitVec.ofNat 10 m.nodes.length, { m with nodes := m.nodes ++ [nd] })
  else .error (.noEntry .node)

/-- `NODE_COUNT <- 0; Q <- {}; HEAP_SIZE <- 0` (42_tree_builder.md rule R164, 44_header_codec.md rule R217). -/
def Memory.clearTree (m : Memory) : Memory := { m with nodes := [], heap := [] }

/-- A member put into a rising list at its place. -/
def insertIdx (n : NodeIdx) : List NodeIdx → List NodeIdx
  | [] => [n]
  | x :: q => if n.toNat < x.toNat then n :: x :: q else if n = x then x :: q else x :: insertIdx n q

/-- PQ_INSERT (42_tree_builder.md rule R162). -/
def Memory.pqInsert (m : Memory) (n : NodeIdx) : Except Fault Memory :=
  if m.heap.length < Config.heapCap then .ok { m with heap := insertIdx n m.heap } else .error (.noEntry .heap)

/-- The order of the keys (WEIGHT, node index), lexicographic (42_tree_builder.md rule R161). -/
def keyLt (w₁ : Word) (n₁ : NodeIdx) (w₂ : Word) (n₂ : NodeIdx) : Bool :=
  w₁.toNat < w₂.toNat || (w₁ = w₂ && n₁.toNat < n₂.toNat)

/-- The member with the smallest key among `best` and the members of a list (42_tree_builder.md rules R161, R163). -/
def Memory.minKey (m : Memory) (best : NodeIdx) : List NodeIdx → Except Fault NodeIdx
  | [] => .ok best
  | n :: q => do
    let b ← m.readNode best
    let c ← m.readNode n
    m.minKey (if keyLt c.weight n b.weight best then n else best) q

/-- PQ_REMOVE_MIN (42_tree_builder.md rule R163). -/
def Memory.pqRemoveMin (m : Memory) : Except Fault (NodeIdx × Memory) :=
  match m.heap with
  | [] => .error .emptyQueue
  | n :: q => do
    let x ← m.minKey n q
    .ok (x, { m with heap := (n :: q).erase x })

/-- A rising list of node indices: the canonical form of a set. -/
def rising : List NodeIdx → Bool
  | [] => true
  | n :: q => q.all (fun x => n.toNat < x.toNat) && rising q

/-- The form of the memories: FREQ and CODE hold all their 257 entries or none (41_frequency.md rule R140, 43_code_table.md
rule R190), NODE at most 513 (00_scope.md rule R8), and the queue is a set of at most 257 allocated node indices
(42_tree_builder.md rule R160). -/
def Memory.wf (m : Memory) : Bool :=
  (m.freq.length == 0 || m.freq.length == Config.numSymbols) &&
  (m.codes.length == 0 || m.codes.length == Config.numSymbols) &&
  m.nodes.length ≤ Config.maxNodes && m.heap.length ≤ Config.heapCap &&
  rising m.heap && m.heap.all fun n => n.toNat < m.nodes.length

end Sys2Proof.Machine
end

