-- ==== Sys2Proof/Machine/Ops.lean ====
section
/-! DEFINITION. The operations that command bodies and the command protocol share: the flow of a body, port primitives that
may hold, acceptance, completion, taking an error (60_exceptions.md rule R303) and the two resets that return from it
(40_control.md rule R131, 70_reset_and_hazards.md rule R340). -/

namespace Sys2Proof.Machine

/-! ### `R <- v` (00_scope.md rule R12), one write per register -/

/-- STATUS <- v. -/
def State.setStatus (s : State) (v : Status) : State := { s with status := v }

/-- RESULT <- v. -/
def State.setResult (s : State) (v : Word) : State := { s with result := v }

/-- ROOT <- v. -/
def State.setRoot (s : State) (v : NodeIdx) : State := { s with root := v }

/-- CUR <- v. -/
def State.setCur (s : State) (v : NodeIdx) : State := { s with cur := v }

/-- TOTAL <- v. -/
def State.setTotal (s : State) (v : Word) : State := { s with total := v }

/-- BYTES_IN <- v. -/
def State.setBytesIn (s : State) (v : Word) : State := { s with bytesIn := v }

/-- BYTES_OUT <- v. -/
def State.setBytesOut (s : State) (v : Word) : State := { s with bytesOut := v }

/-- BITS_IN <- v. -/
def State.setBitsIn (s : State) (v : Word) : State := { s with bitsIn := v }

/-- BITS_OUT <- v. -/
def State.setBitsOut (s : State) (v : Word) : State := { s with bitsOut := v }

/-- NODE_OUT <- v. -/
def State.setNodeOut (s : State) (v : Word) : State := { s with nodeOut := v }

/-- CODE_OUT7..CODE_OUT0 <- v. -/
def State.setCodeOut (s : State) (v : BitVec 256) : State := { s with codeOut := v }

/-- the internal memories <- v. -/
def State.setMem (s : State) (v : Memory) : State := { s with mem := v }

/-- the hidden sequencer state <- v. -/
def State.setSeq (s : State) (v : Seq) : State := { s with seq := v }

/-- the stream ports <- v. -/
def State.setPorts (s : State) (v : Ports) : State := { s with ports := v }

/-! ### The flow of a body -/

/-- Where a part of a body has come to (40_control.md rule R126): it ended, a port holds it, it raised an error with its two
diagnostic words, or the model stops. -/
inductive Flow
  | ok (s : State)
  | hold (s : State)
  | raise (c : Cause) (expected found : Word) (s : State)
  | fault (f : Fault)
  deriving DecidableEq, Repr

/-- What is left of a held body, and more behind it. -/
def State.pushTasks (s : State) (ts : List Task) : State :=
  s.setSeq { s.seq with tasks := s.seq.tasks ++ ts }

/-- What follows a part of a body: `k` now, or its tasks `ts` after a hold. -/
def Flow.andThen (f : Flow) (ts : List Task) (k : State → Flow) : Flow :=
  match f with
  | .ok s => k s
  | .hold s => .hold (s.pushTasks ts)
  | .raise c e d s => .raise c e d s
  | .fault g => .fault g

/-- A memory operation inside a body. -/
def Flow.ofExcept {α : Type} (e : Except Fault α) (k : α → Flow) : Flow :=
  match e with
  | .ok a => k a
  | .error f => .fault f

/-- The engine waits on a port primitive (20_memory.md rule R66): BUSY stays 1, and the tasks are where it goes on. -/
def State.waitOn (s : State) (p : Prim) (ts : List Task) : State :=
  (s.setSeq { s.seq with tasks := ts, pending := some p }).setPorts (s.ports.touch p)

/-- One port primitive (20_memory.md rules R64 to R68): answered, the body goes on with the answer; otherwise it holds, and
resumes at the tasks `ts`, which issue the primitive again. The collaborator sees it once. -/
def State.port (s : State) (p : Prim) (ts : List Task) (k : Answer → State → Flow) : Flow :=
  match s.ports.answer p with
  | some (a, ps) => k a (s.setPorts ps)
  | none => .hold (s.waitOn p ts)

/-- Acceptance of word `w` (40_control.md rule R122); PHASE = OPCODE until a composite command's first sub-step
(60_exceptions.md rule R303). -/
def State.accept (s : State) (w : Word) : State :=
  (s.setStatus s.status.accepted).setSeq { opcode := opcodeOf w, phase := opcodeOf w, flags := s.status }

/-- Completion (40_control.md rule R127). The hidden sequencer state ends with the command (10_state.md rule R48). -/
def State.complete (s : State) : State := (s.setStatus s.status.completed).setSeq {}

/-- What error entry writes, at once (60_exceptions.md rule R303). RESULT becomes any value (93_implementation_defined.md I7). -/
def State.recordError (s : State) (c : Cause) (expected found : Word) : State :=
  { s with
    status := s.status.failed
    errCause := { cause := c, opcode := s.seq.opcode, phase := s.seq.phase }
    errExpected := expected
    errFound := found
    result := Config.freeWord s.draws
    draws := s.draws + 1 }

/-- The end of an error entry: BUSY <- 0 (60_exceptions.md rule R303). The hidden sequencer state ends with the command
(10_state.md rule R48). -/
def State.endError (s : State) : State := (s.setStatus { s.status with busy := false }).setSeq {}

/-- The cleanup primitives that an error entry still has to issue (60_exceptions.md rule R303). Each may hold, like every port
primitive (20_memory.md rule R66): BUSY stays 1 until the last one is answered (10_state.md rule R24, assumption log 13). -/
def State.cleanUp (s : State) : List Prim → State
  | [] => s.endError
  | p :: ps =>
    match s.ports.answer p with
    | some (_, q) => (s.setPorts q).cleanUp ps
    | none => s.setSeq { s.seq with tasks := [], pending := some p, todo := p :: ps }

/-- ERROR ENTRY, the engine's exception (60_exceptions.md rule R303): `raise cause(expected, found)`. -/
def State.enterError (s : State) (c : Cause) (expected found : Word) : State :=
  (s.recordError c expected found).cleanUp cleanupPrims

/-- A running command is abandoned at once; whether the primitive it waits on took effect at its collaborator is any value
(40_control.md rule R131, 93_implementation_defined.md I11). -/
def State.abandon (s : State) : State :=
  if s.status.busy then
    { s with
      ports :=
        match s.seq.pending with
        | some p => if Config.freeBool s.draws then ((s.ports.perform p).map (·.2)).getD s.ports else s.ports
        | none => s.ports
      draws := s.draws + 1 }
  else s

/-- What both resets do: abandon the running command, issue the cleanup primitives, give every register of 10_state.md rule
R21 but CTRL and MAGIC its reset value, leave the memories without values and the hidden state idle (40_control.md rule R131,
70_reset_and_hazards.md rules R340, R341). The outside world stays as it is. -/
def State.clear (s : State) : State :=
  { magic := s.magic
    ctrl := s.ctrl
    ports := s.abandon.ports.cleanup
    draws := s.abandon.draws
    inputs := s.inputs
    readData := s.readData }

/-- The soft reset (40_control.md rule R131): CTRL stays, DONE = 1. The only command that leaves the error state
(60_exceptions.md rule R310). -/
def State.softReset (s : State) : State := s.clear.setStatus Status.softReset

/-- The hardware reset input (70_reset_and_hazards.md rules R340, R341): CTRL = 0, STATUS = 0. -/
def State.hardReset (s : State) : State := { s.clear with ctrl := {} }

/-- A CMD write that is not accepted (40_control.md rule R121): REJECT, and nothing else changes. -/
def State.rejectCommand (s : State) : State := s.setStatus s.status.rejected

/-- Whether a command other than SRESET is accepted (40_control.md rule R121). -/
def State.accepts (s : State) : Bool := !s.status.busy && !s.status.err

/-- A word that is no legal command (40_control.md rules R121, R123): rejected like any other, else accepted and its error
raised, with the word as the found word (60_exceptions.md rule R302). -/
def State.illegalCommand (s : State) (w : Word) : DecodeError → State
  | .illegalOpcode => if s.accepts then (s.accept w).enterError .illegalOpcode 0 w else s.rejectCommand
  | .illegalOperand => if s.accepts then (s.accept w).enterError .illegalOperand 0 w else s.rejectCommand

/-- The end of a body: completion, a hold, error entry (40_control.md rules R126, R127), or the model's stop. -/
def Flow.finish : Flow → Host.Outcome State Fault Refusal
  | .ok s => .next s.complete
  | .hold s => .next s
  | .raise c e f s => .next (s.enterError c e f)
  | .fault f => .fault f

end Sys2Proof.Machine
end

