-- ==== Sys2Proof/Machine/CodeUnit.lean ====
section
/-! DEFINITION. The code-table generator's bodies (43_code_table.md). -/

namespace Sys2Proof.Machine

/-- What a walk of the tree has come to (rule R190): the table and the number of codes so far, a symbol met twice, or the
model's stop. -/
inductive Walk
  | ok (codes : List Code) (count : Nat)
  | dup (codes : List Code) (s : Symbol)
  | fault (f : Fault)
  deriving DecidableEq, Repr

/-- WALK's visit of a leaf (rule R190). -/
def walkLeaf (v : Symbol) (len : Nat) (bits : BitVec 256) (codes : List Code) (count : Nat) : Walk :=
  match codes[v.toNat]? with
  | none => .fault (.noValue .code v.toNat)
  | some c =>
    if c.len = 0 then .ok (codes.set v.toNat { len := BitVec.ofNat 9 len, bits := bits }) (count + 1)
    else .dup codes v

/-- WALK (rule R190): pre-order, the left subtree first; a left step appends 0 and a right step 1. The first number is how
much deeper the traversal stack lets the walk go (70_reset_and_hazards.md rule R362). -/
def walk (nodes : List Node) : Nat → NodeIdx → Nat → BitVec 256 → List Code → Nat → Walk
  | 0, _, _, _, _, _ => .fault .traversalDepth
  | d + 1, n, len, bits, codes, count =>
    match nodes[n.toNat]? with
    | none => .fault (.noValue .node n.toNat)
    | some nd =>
      if nd.leaf then walkLeaf nd.value len bits codes count
      else
        match walk nodes d nd.left (len + 1) (bits <<< 1) codes count with
        | .ok codes' count' => walk nodes d nd.right (len + 1) ((bits <<< 1) ||| 1) codes' count'
        | r => r

/-- CG_GEN's cleared table (rule R190). -/
def clearedCodes : List Code := List.replicate Config.numSymbols {}

/-- The body of CG_GEN (rule R190). -/
def cgGenBody (s : State) : Flow :=
  match walk s.mem.nodes (Config.maxInternal + 1) s.root 0 0 clearedCodes 0 with
  | .ok codes count =>
    .ok (((s.setMem { s.mem with codes := codes }).setStatus { s.status with codesValid := true }).setResult
      (BitVec.ofNat 32 count))
  | .dup codes v =>
    .raise .cgDupSymbol 0 (v.setWidth 32)
      ((s.setMem { s.mem with codes := codes }).setStatus { s.status with codesValid := false })
  | .fault f => .fault f

/-- The body of CG_LOOKUP s (rule R192); CODE_OUT7..CODE_OUT0 are one 256-bit value (10_state.md rule R45). -/
def cgLookupBody (sym : Symbol) (s : State) : Flow :=
  Flow.ofExcept (s.mem.readCode sym) fun c => .ok ((s.setResult (c.len.setWidth 32)).setCodeOut c.bits)

end Sys2Proof.Machine
end

