-- ==== Sys2Proof/Machine/EncoderUnit.lean ====
section
/-! DEFINITION. The symbol-to-bits encoder's bodies (45_encoder.md), and the port OB writes that the header serializer
shares. -/

namespace Sys2Proof.Machine

/-- `ob_write`s in order; BITS_OUT adds n for each (10_state.md rule R47, assumption log 15). -/
def writeAll : List (Nat × Word) → State → Flow
  | [], s => .ok s
  | (n, v) :: ws, s =>
    s.port (.obWrite n v) [.writes ((n, v) :: ws)] fun _ s' =>
      writeAll ws (s'.setBitsOut (s'.bitsOut + BitVec.ofNat 32 n))

/-- `RESULT <- v`. -/
def setResultBody (v : Word) (s : State) : Flow := .ok (s.setResult v)

/-- EN_SYMBOL and EN_EOF up to their code's last bit and RESULT (rules R240, R241, R242): ENC_NO_CODE for a symbol without a
code. -/
def enSymbolBody (sym : Symbol) (s : State) : Flow :=
  Flow.ofExcept (s.mem.readCode sym) fun c =>
    if c.len = 0 then .raise .encNoCode 0 (sym.setWidth 32) s
    else (writeAll c.writes s).andThen [.setResult (c.len.setWidth 32)] (setResultBody (c.len.setWidth 32))

/-- `STATUS.EOF_WRITTEN <- 1` (rule R242). -/
def eofWrittenBody (s : State) : Flow := .ok (s.setStatus { s.status with eofWritten := true })

/-- `ib_rewind()` (rule R244). -/
def ibRewindBody (s : State) : Flow := s.port .ibRewind [.ibRewind] fun _ s' => .ok s'

/-- `BYTES_IN <- 0` (rule R244). -/
def bytesInClearBody (s : State) : Flow := .ok (s.setBytesIn 0)

/-- `BYTES_IN <- BYTES_IN + 1` (rule R244). -/
def bytesInNextBody (s : State) : Flow := .ok (s.setBytesIn (s.bytesIn + 1))

/-- Encoding one byte of EN_BODY's loop (rule R244): BYTES_IN counts a byte after its code is written
(assumption log 29). -/
def encodeByte (b : Byte) (s : State) : Flow :=
  Flow.ofExcept (s.mem.readCode (symbolOfByte b)) fun c =>
    if c.len = 0 then .raise .encNoCode 0 (b.setWidth 32) s
    else (writeAll c.writes s).andThen [.bytesInNext] bytesInNextBody

/-- EN_BODY's loop (rule R244): every byte's code, in the order port IB delivers the bytes (rule R245). The number bounds the
reads before the body gives way at a point where it may resume. -/
def encLoop : Nat → State → Flow
  | 0, s => .hold (s.waitOn .ibRead [.encLoop])
  | n + 1, s => s.port .ibRead [.encLoop] fun a s' =>
    match a with
    | .byte b => (encodeByte b s').andThen [.encLoop] (encLoop n)
    | _ => .ok s'

/-- EN_BODY's loop over what port IB has (rule R244). -/
def encBody (s : State) : Flow := encLoop (s.ports.ib.left.length + 1) s

/-- `RESULT <- BITS_OUT` (rule R246). -/
def bitsOutResultBody (s : State) : Flow := .ok (s.setResult s.bitsOut)

/-- `ob_close()` (rule R246). -/
def obCloseBody (s : State) : Flow := s.port .obClose [.obClose] fun _ s' => .ok s'

/-- `ib_release()` (rule R246). -/
def ibReleaseBody (s : State) : Flow := s.port .ibRelease [.ibRelease] fun _ s' => .ok s'

/-- `BITS_OUT <- 0; STATUS.EOF_WRITTEN <- 0` (rule R246). -/
def enClosedBody (s : State) : Flow := .ok ((s.setBitsOut 0).setStatus { s.status with eofWritten := false })

end Sys2Proof.Machine
end

