-- ==== Sys2Proof/Machine/TreeUnit.lean ====
section
/-! DEFINITION. The tree builder's bodies (42_tree_builder.md). -/

namespace Sys2Proof.Machine

/-- A leaf of a symbol (rules R164, R165). -/
def leafNode (v : Symbol) (w : Word) : Node := { leaf := true, value := v, weight := w, left := 0, right := 0 }

/-- An internal node (rule R166). -/
def internalNode (w : Word) (l r : NodeIdx) : Node := { leaf := false, value := 0, weight := w, left := l, right := r }

/-- A node is created and enters the queue at once (rule R161). -/
def Memory.addNode (m : Memory) (nd : Node) : Except Fault (NodeIdx × Memory) := do
  let (n, m') ← m.alloc nd
  let m'' ← m'.pqInsert n
  .ok (n, m'')

/-- TB_LOAD's loop over the symbols (rule R164): one leaf for each with a non-zero count. -/
def loadLeaves : List Nat → Memory → Except Fault Memory
  | [], m => .ok m
  | s :: rest, m => do
    let c ← m.readFreq (BitVec.ofNat 9 s)
    if c = 0 then loadLeaves rest m
    else
      let (_, m') ← m.addNode (leafNode (BitVec.ofNat 9 s) c)
      loadLeaves rest m'

/-- PAD_LEAF, where one leaf alone was loaded (rule R165): symbol 0 with weight 0. -/
def padLeaf (m : Memory) : Except Fault Memory :=
  if m.heap.length = 1 then do
    let (_, m') ← m.addNode (leafNode 0 0)
    .ok m'
  else .ok m

/-- TB_LOAD on the memories (rule R164), symbols in ascending order. -/
def Memory.load (m : Memory) : Except Fault Memory := do
  let m' ← loadLeaves (List.range Config.numSymbols) m.clearTree
  padLeaf m'

/-- HEAP_SIZE as the host reads it, 9 bits zero-extended (10_state.md rule R21). -/
def Memory.heapSizeWord (m : Memory) : Word := (BitVec.ofNat 9 m.heap.length).setWidth 32

/-- NODE_COUNT as the host reads it, 10 bits zero-extended (10_state.md rule R21). -/
def Memory.nodeCountWord (m : Memory) : Word := (BitVec.ofNat 10 m.nodes.length).setWidth 32

/-- The body of TB_LOAD (rule R164). -/
def tbLoadBody (s : State) : Flow :=
  Flow.ofExcept s.mem.load fun m =>
    .ok (((s.setMem m).setStatus { s.status.invalidateTree with heapLoaded := true }).setResult m.heapSizeWord)

/-- One merge on the memories (rule R166): the two smallest keys leave the queue, the first becomes the left child, and their
parent enters. -/
def Memory.merge (m : Memory) : Except Fault (NodeIdx × Memory) := do
  let (l, m₁) ← m.pqRemoveMin
  let (r, m₂) ← m₁.pqRemoveMin
  let a ← m₂.readNode l
  let b ← m₂.readNode r
  m₂.addNode (internalNode (a.weight + b.weight) l r)

/-- The body of TB_STEP (rule R166). -/
def tbStepBody (s : State) : Flow :=
  Flow.ofExcept s.mem.merge fun (n, m) =>
    if m.heap.length = 1 then
      .ok (((((s.setMem m).setRoot n).setCur n).setStatus
        { s.status with heapLoaded := false, treeValid := true, eofSeen := false }).setResult (n.setWidth 32))
    else .ok ((s.setMem m).setResult (n.setWidth 32))

/-- TB_BUILD's loop (rule R168). The number bounds the merges; `tbMergeBody` gives it as many as the queue has members, and
each merge takes one away (rule R167). -/
def mergeLoop : Nat → State → Flow
  | 0, s => if s.status.heapLoaded then .fault .emptyQueue else .ok s
  | n + 1, s => if s.status.heapLoaded then (tbStepBody s).andThen [.tbMerge] (mergeLoop n) else .ok s

/-- TB_BUILD's loop (rule R168). -/
def tbMergeBody (s : State) : Flow := mergeLoop s.mem.heap.length s

/-- `RESULT <- zext_32(ROOT)` (rule R168). -/
def rootResultBody (s : State) : Flow := .ok (s.setResult (s.root.setWidth 32))

/-- NODE_OUT's fields (10_state.md rule R44): RIGHT [29:20], LEFT [19:10], LEAF [9], VALUE [8:0]. -/
def Node.word (nd : Node) : Word := (0 : BitVec 2) ++ nd.right ++ nd.left ++ BitVec.ofBool nd.leaf ++ nd.value

/-- The body of TB_NODE_READ n (rule R170), after the dynamic operand check (30_encoding.md rule R94). -/
def nodeReadBody (n : NodeIdx) (s : State) : Flow :=
  if nodeIndexLegal n s.mem.nodes.length then
    Flow.ofExcept (s.mem.readNode n) fun nd => .ok ((s.setNodeOut nd.word).setResult nd.weight)
  else .raise .illegalOperand s.mem.nodeCountWord (n.setWidth 32) s

end Sys2Proof.Machine
end

