-- ==== Sys2Proof/Machine/HeaderUnit.lean ====
section
/-! DEFINITION. The header serializer's and deserializer's bodies (44_header_codec.md). -/

namespace Sys2Proof.Machine

/-- The body of HS_WRITE_MAGIC (rule R210). -/
def writeMagicBody (s : State) : Flow :=
  (writeAll [(32, s.magic)] s).andThen [.setResult s.magic] (setResultBody s.magic)

/-- EMIT (rule R211): the `ob_write`s of a subtree in pre-order, left before right: 0 for an internal node, 1 and the 9-bit
value for a leaf (rule R212). The number is how much deeper the traversal stack lets the walk go. -/
def emit (nodes : List Node) : Nat → NodeIdx → Except Fault (List (Nat × Word))
  | 0, _ => .error .traversalDepth
  | d + 1, n =>
    match nodes[n.toNat]? with
    | none => .error (.noValue .node n.toNat)
    | some nd =>
      if nd.leaf then .ok [(1, 1), (9, nd.value.setWidth 32)]
      else do
        let l ← emit nodes d nd.left
        let r ← emit nodes d nd.right
        .ok ((1, 0) :: (l ++ r))

/-- The bits that some writes carry together (rule R211's count). -/
def writesLength (ws : List (Nat × Word)) : Nat := (ws.map fun w => w.1).sum

/-- The body of HS_WRITE_TREE (rule R211). The tree does not change while it is written. -/
def writeTreeBody (s : State) : Flow :=
  Flow.ofExcept (emit s.mem.nodes (Config.maxInternal + 1) s.root) fun ws =>
    (writeAll ws s).andThen [.setResult (BitVec.ofNat 32 (writesLength ws))]
      (setResultBody (BitVec.ofNat 32 (writesLength ws)))

/-- BITS_IN adds n for an answered `bi_read(n)` (10_state.md rule R47). -/
def State.addBitsIn (s : State) (n : Nat) : State := s.setBitsIn (s.bitsIn + BitVec.ofNat 32 n)

/-- The body of HD_READ_MAGIC (rule R214). -/
def readMagicBody (s : State) : Flow :=
  (s.setStatus { s.status with magicOk := false }).port (.biRead 32) [.readMagic] fun a s' =>
    match a with
    | .bits v =>
      if v = s'.magic then
        .ok (((s'.addBitsIn 32).setStatus { s'.status with magicOk := true }).setResult v)
      else .raise .fmtBadMagic s'.magic v (s'.addBitsIn 32)
    | _ => .raise .fmtMagicEos 32 s'.bitsIn s'

/-- HD_READ_TREE up to the root's tag (rule R217). -/
def hdStartBody (s : State) : Flow :=
  .ok (((s.setStatus { s.status.invalidateTree with eofSeen := false }).setMem s.mem.clearTree).setSeq
    { s.seq with stack := [], icount := 0 })

/-- READ_INTERNAL up to its children (rule R217): its tag bit has just been read. The traversal stack then reads its left
child next. -/
def readInternal (s : State) (k : State → Flow) : Flow :=
  if s.seq.icount = Config.maxInternal then .raise .fmtHdrOverflow 256 s.bitsIn s
  else Flow.ofExcept (s.mem.alloc (internalNode 0 0 0)) fun (n, m) =>
    k ((s.setMem m).setSeq { s.seq with stack := (n, false) :: s.seq.stack, icount := s.seq.icount + 1 })

/-- READ_NODE's return of child `c` (rule R217): it becomes the child that the traversal stack's top waits for, and a node
whose right child has come returns too. -/
def returnChild (m : Memory) (c : NodeIdx) : List (NodeIdx × Bool) → Except Fault (Memory × List (NodeIdx × Bool))
  | [] => .ok (m, [])
  | (p, false) :: st => do
    let nd ← m.readNode p
    .ok (m.writeNode p { nd with left := c }, (p, true) :: st)
  | (p, true) :: st => do
    let nd ← m.readNode p
    returnChild (m.writeNode p { nd with right := c }) p st

/-- The root's tag (rules R217, R219): a leaf root is refused before any value bit is read. -/
def hdRootBody (s : State) : Flow :=
  s.port (.biRead 1) [.hdRoot] fun a s' =>
    match a with
    | .bits v => if v = 1 then .raise .fmtHdrLeafRoot 0 1 (s'.addBitsIn 1) else readInternal (s'.addBitsIn 1) .ok
    | _ => .raise .fmtHdrEos 1 s'.bitsIn s'

/-- READ_LEAF (rules R217, R218): its tag bit has just been read; CHECK_VALUE refuses a value above 256. -/
def hdLeafBody (s : State) : Flow :=
  s.port (.biRead 9) [.hdLeaf] fun a s' =>
    match a with
    | .bits v =>
      if v.toNat > 256 then .raise .fmtHdrBadValue 256 v (s'.addBitsIn 9)
      else Flow.ofExcept ((s'.addBitsIn 9).mem.alloc (leafNode (v.setWidth 9) 0)) fun (n, m) =>
        Flow.ofExcept (returnChild m n s'.seq.stack) fun (m', st) =>
          .ok (((s'.addBitsIn 9).setMem m').setSeq { s'.seq with stack := st })
    | _ => .raise .fmtHdrEos 9 s'.bitsIn s'

/-- The descent below the root (rule R217), until the root returns and the traversal stack is empty. The number bounds the
nodes read before the body gives way at a point where it may resume; `hdTreeBody` gives it as many as the source can answer. -/
def hdLoop : Nat → State → Flow
  | 0, s => .hold (s.waitOn (.biRead 1) [.hdTree])
  | n + 1, s =>
    if s.seq.stack = [] then .ok s
    else s.port (.biRead 1) [.hdTree] fun a s' =>
      match a with
      | .bits v =>
        if v = 1 then (hdLeafBody (s'.addBitsIn 1)).andThen [.hdTree] (hdLoop n)
        else readInternal (s'.addBitsIn 1) (hdLoop n)
      | _ => .raise .fmtHdrEos 1 s'.bitsIn s'

/-- The descent below the root over what port BI has (rule R217). -/
def hdTreeBody (s : State) : Flow := hdLoop (s.ports.bi.bits.length + 1) s

/-- FINISH (rule R219) and HD_READ_TREE's RESULT. The root is the node allocated first, index 0 (92_eei_decisions.md D31). The
traversal is over, also for a composite command that goes on (10_state.md rule R48). -/
def hdFinishBody (s : State) : Flow :=
  .ok (((((s.setRoot 0).setCur 0).setStatus { s.status with treeValid := true, eofSeen := false }).setResult
    s.mem.nodeCountWord).setSeq { s.seq with stack := [], icount := 0 })

end Sys2Proof.Machine
end

