-- ==== Sys2Proof/Machine/DecoderUnit.lean ====
section
/-! DEFINITION. The bits-to-symbol decoder's bodies (46_decoder.md). -/

namespace Sys2Proof.Machine

/-- DE_STEP's RESULT (rule R260): [11] the bit read, [10] PSEUDO_EOF reached, [9] a leaf reached, [8:0] the leaf's value. -/
def stepResult (d eof leaf : Bool) (v : Symbol) : Word :=
  (0 : BitVec 20) ++ BitVec.ofBool d ++ BitVec.ofBool eof ++ BitVec.ofBool leaf ++ v

/-- DE_STEP from the leaf CUR on (rules R260, R261): PSEUDO_EOF emits nothing; any other leaf emits its byte. CUR returns to
ROOT. -/
def deEmitBody (d : Bool) (s : State) : Flow :=
  Flow.ofExcept (s.mem.readNode s.cur) fun nd =>
    if nd.value = Config.pseudoEof then
      .ok (((s.setStatus { s.status with eofSeen := true }).setResult (stepResult d true true nd.value)).setCur s.root)
    else
      s.port (.boWrite (nd.value.setWidth 8)) [.deEmit d] fun _ s' =>
        .ok (((s'.setBytesOut (s'.bytesOut + 1)).setResult (stepResult d false true nd.value)).setCur s'.root)

/-- DE_STEP's move from CUR on bit `d`, and what it does where it arrives (rule R260). -/
def deMove (d : Bool) (s : State) : Flow :=
  Flow.ofExcept (s.mem.readNode s.cur) fun nd =>
    Flow.ofExcept (s.mem.readNode (if d then nd.right else nd.left)) fun child =>
      if child.leaf then deEmitBody d (s.setCur (if d then nd.right else nd.left))
      else .ok ((s.setCur (if d then nd.right else nd.left)).setResult (stepResult d false false 0))

/-- The body of DE_STEP (rule R260). -/
def deStepBody (s : State) : Flow :=
  s.port (.biRead 1) [.deStep] fun a s' =>
    match a with
    | .bits v => deMove (v = 1) (s'.addBitsIn 1)
    | _ => .raise .fmtBodyEos 1 s'.bitsIn s'

/-- DE_BODY's loop (rule R262): until EOF_SEEN. The number bounds the steps before the body gives way at a point where it may
resume; it is no bound on the body (rule R265). -/
def deLoop : Nat → State → Flow
  | 0, s => if s.status.eofSeen then .ok s else .hold (s.waitOn (.biRead 1) [.deLoop])
  | n + 1, s => if s.status.eofSeen then .ok s else (deStepBody s).andThen [.deLoop] (deLoop n)

/-- DE_BODY's loop over what port BI has (rule R262). -/
def deLoopBody (s : State) : Flow := deLoop (s.ports.bi.bits.length + 1) s

/-- `RESULT <- BYTES_OUT` (rules R262, R264). -/
def bytesOutResultBody (s : State) : Flow := .ok (s.setResult s.bytesOut)

/-- `bo_close()` (rule R264). -/
def boCloseBody (s : State) : Flow := s.port .boClose [.boClose] fun _ s' => .ok s'

/-- `bi_release()` (rule R264). -/
def biReleaseBody (s : State) : Flow := s.port .biRelease [.biRelease] fun _ s' => .ok s'

/-- DE_CLOSE's counters and flags (rule R264). -/
def deClosedBody (s : State) : Flow :=
  .ok (((s.setBytesOut 0).setBitsIn 0).setStatus { s.status with eofSeen := false, magicOk := false })

end Sys2Proof.Machine
end

