-- ==== Sys2Proof/Machine/FrequencyUnit.lean ====
section
/-! DEFINITION. The frequency counter's bodies (41_frequency.md): what runs between acceptance and completion. -/

namespace Sys2Proof.Machine

/-- INVALIDATE_TREE (41_frequency.md). -/
def State.invalidateTree (s : State) : State := s.setStatus s.status.invalidateTree

/-- FC_INIT's table (rule R140): FREQ[0..255] = 0 and FREQ[256] = 1. -/
def initialFreq : List Word := List.replicate 256 0 ++ [1]

/-- The body of FC_INIT (rule R140). -/
def fcInitBody (s : State) : Flow :=
  .ok ((((s.setMem { s.mem with freq := initialFreq }).setTotal 1).setStatus
    { s.status.invalidateTree with freqValid := true }).setResult 1)

/-- Counting one byte (rules R142, R144): CNT_OVERFLOW before an increment that TOTAL cannot take. `k` gets the new count. -/
def countByte (b : Byte) (s : State) (k : Word → State → Flow) : Flow :=
  if s.total = 0xFFFFFFFF then .raise .cntOverflow 0xFFFFFFFF (b.setWidth 32) s
  else Flow.ofExcept (s.mem.readFreq (symbolOfByte b)) fun c =>
    k (c + 1) ((s.setMem (s.mem.writeFreq (symbolOfByte b) (c + 1))).setTotal (s.total + 1))

/-- The body of FC_ADD b (rule R142). -/
def fcAddBody (b : Byte) (s : State) : Flow :=
  countByte b s fun c s' => .ok (s'.invalidateTree.setResult c)

/-- FC_SCAN up to its loop (rule R144). -/
def scanStartBody (s : State) : Flow := .ok (s.invalidateTree.setBytesIn 0)

/-- FC_SCAN's loop (rule R144): reads until EOS and counts every byte; BYTES_IN counts a byte after its check (assumption log 29). The
number bounds the reads before the body gives way at a point where it may resume; `scanBody` gives it as many as the source can answer. -/
def scanLoop : Nat → State → Flow
  | 0, s => .hold (s.waitOn .ibRead [.scan])
  | n + 1, s => s.port .ibRead [.scan] fun a s' =>
    match a with
    | .byte b => countByte b s' fun _ s'' => scanLoop n (s''.setBytesIn (s''.bytesIn + 1))
    | _ => .ok s'

/-- FC_SCAN's loop over what port IB has (rule R144). -/
def scanBody (s : State) : Flow := scanLoop (s.ports.ib.left.length + 1) s

/-- `RESULT <- BYTES_IN` (rule R144; 45_encoder.md rule R244). -/
def bytesInResultBody (s : State) : Flow := .ok (s.setResult s.bytesIn)

/-- The body of FC_READ s (rule R146). -/
def fcReadBody (sym : Symbol) (s : State) : Flow :=
  Flow.ofExcept (s.mem.readFreq sym) fun c => .ok (s.setResult c)

end Sys2Proof.Machine
end

