-- ==== Sys2Proof/Machine/Sequencer.lean ====
section
/-! DEFINITION. The sequencer: running the parts of a body in order, the command protocol around a body (40_control.md rules
R120 to R127), and going on with a command that a port held (20_memory.md rule R66). -/

namespace Sys2Proof.Machine

/-- `PHASE <- op` (47_composite.md rule R280). -/
def phaseBody (op : Byte) (s : State) : Flow := .ok (s.setSeq { s.seq with phase := op })

/-- One part of a body. -/
def runTask (t : Task) (s : State) : Flow :=
  match t with
  | .phase op => phaseBody op s
  | .fcInit => fcInitBody s
  | .fcAdd b => fcAddBody b s
  | .scanStart => scanStartBody s
  | .scan => scanBody s
  | .fcRead sym => fcReadBody sym s
  | .tbLoad => tbLoadBody s
  | .tbStep => tbStepBody s
  | .tbMerge => tbMergeBody s
  | .rootResult => rootResultBody s
  | .nodeRead n => nodeReadBody n s
  | .cgGen => cgGenBody s
  | .cgLookup sym => cgLookupBody sym s
  | .writeMagic => writeMagicBody s
  | .writeTree => writeTreeBody s
  | .writes ws => writeAll ws s
  | .setResult v => setResultBody v s
  | .readMagic => readMagicBody s
  | .hdStart => hdStartBody s
  | .hdRoot => hdRootBody s
  | .hdTree => hdTreeBody s
  | .hdLeaf => hdLeafBody s
  | .hdFinish => hdFinishBody s
  | .enSymbol sym => enSymbolBody sym s
  | .eofWritten => eofWrittenBody s
  | .ibRewind => ibRewindBody s
  | .bytesInClear => bytesInClearBody s
  | .bytesInNext => bytesInNextBody s
  | .encLoop => encBody s
  | .bytesInResult => bytesInResultBody s
  | .bitsOutResult => bitsOutResultBody s
  | .obClose => obCloseBody s
  | .ibRelease => ibReleaseBody s
  | .enClosed => enClosedBody s
  | .deStep => deStepBody s
  | .deEmit d => deEmitBody d s
  | .deLoop => deLoopBody s
  | .bytesOutResult => bytesOutResultBody s
  | .boClose => boCloseBody s
  | .biRelease => biReleaseBody s
  | .deClosed => deClosedBody s

/-- The parts of a body in order (20_memory.md rule R75). -/
def runTasks : List Task → State → Flow
  | [], s => .ok s
  | t :: ts, s => (runTask t s).andThen ts (runTasks ts)

/-- A command other than SRESET, written to CMD: rejected, or accepted, checked (operand, then prerequisites) and its body
run (40_control.md rules R121 to R127, 60_exceptions.md rule R307). The prerequisites are those of the flags as they stood at acceptance
(F of rule R122). The operand check stands here for an instruction that
`decode` would not give (30_encoding.md rule R93). -/
def runCommand (i : Instr) (need : Need) (body : List Task) (s : State) : Host.Outcome State Fault Refusal :=
  if s.accepts then
    if i.wellFormed then
      if need.holds (s.accept (encode i)).seq.flags then (runTasks body (s.accept (encode i))).finish
      else .next ((s.accept (encode i)).enterError .seqError need.word (s.accept (encode i)).seq.flags.flagWord)
    else .next ((s.accept (encode i)).enterError .illegalOperand 0 (encode i))
  else .next s.rejectCommand

/-- The engine goes on with the command that a port held, or with the cleanup primitives of its error entry, as far as the ports let it
(20_memory.md rule R66); an idle engine does nothing. -/
def State.resume (s : State) : Host.Outcome State Fault Refusal :=
  if s.status.busy then
    if s.status.err then .next (s.cleanUp s.seq.todo)
    else (runTasks s.seq.tasks (s.setSeq { s.seq with tasks := [], pending := none })).finish
  else .next s

end Sys2Proof.Machine
end

