-- ==== Sys2Proof/Machine/CodeTable.lean ====
section
/-! DEFINITION. The code-table generator's commands (43_code_table.md). -/

namespace Sys2Proof.Machine

/-- CG_GEN (rule R190). -/
def execCgGen (s : State) : Host.Outcome State Fault Refusal := runCommand .cgGen needTree [.cgGen] s

/-- CG_LOOKUP s (rule R192). -/
def execCgLookup (sym : Symbol) (s : State) : Host.Outcome State Fault Refusal :=
  runCommand (.cgLookup sym) needCodes [.cgLookup sym] s

end Sys2Proof.Machine
end

