-- ==== Sys2Proof/Machine/Decoder.lean ====
section
/-! DEFINITION. The decoder's commands (46_decoder.md). -/

namespace Sys2Proof.Machine

/-- DE_STEP (rule R260). -/
def execDeStep (s : State) : Host.Outcome State Fault Refusal := runCommand .deStep needDecode [.deStep] s

/-- The parts of DE_BODY's body (rule R262). -/
def deBodyTasks : List Task := [.deLoop, .bytesOutResult]

/-- DE_BODY (rules R262, R263). -/
def execDeBody (s : State) : Host.Outcome State Fault Refusal := runCommand .deBody needDecode deBodyTasks s

/-- The parts of DE_CLOSE's body (rule R264). -/
def deCloseTasks : List Task := [.bytesOutResult, .boClose, .biRelease, .deClosed]

/-- DE_CLOSE (rule R264). -/
def execDeClose (s : State) : Host.Outcome State Fault Refusal := runCommand .deClose needEofSeen deCloseTasks s

end Sys2Proof.Machine
end

