-- ==== Sys2Proof/Machine/Encoder.lean ====
section
/-! DEFINITION. The encoder's commands (45_encoder.md). -/

namespace Sys2Proof.Machine

/-- EN_SYMBOL b (rule R240). -/
def execEnSymbol (b : Byte) (s : State) : Host.Outcome State Fault Refusal :=
  runCommand (.enSymbol b) needEncode [.enSymbol (symbolOfByte b)] s

/-- The parts of EN_EOF's body (rule R242). -/
def enEofTasks : List Task := [.enSymbol Config.pseudoEof, .eofWritten]

/-- EN_EOF (rule R242). -/
def execEnEof (s : State) : Host.Outcome State Fault Refusal := runCommand .enEof needEncode enEofTasks s

/-- The parts of EN_BODY's body (rule R244). -/
def enBodyTasks : List Task := [.ibRewind, .bytesInClear, .encLoop] ++ enEofTasks ++ [.bytesInResult]

/-- EN_BODY (rules R244, R245). -/
def execEnBody (s : State) : Host.Outcome State Fault Refusal := runCommand .enBody needEncode enBodyTasks s

/-- The parts of EN_CLOSE's body (rule R246). -/
def enCloseTasks : List Task := [.bitsOutResult, .obClose, .ibRelease, .enClosed]

/-- EN_CLOSE (rule R246). -/
def execEnClose (s : State) : Host.Outcome State Fault Refusal := runCommand .enClose needEofWritten enCloseTasks s

end Sys2Proof.Machine
end

