-- ==== Sys2Proof/Machine/Frequency.lean ====
section
/-! DEFINITION. The frequency counter's commands (41_frequency.md). -/

namespace Sys2Proof.Machine

/-- FC_INIT (rule R140). -/
def execFcInit (s : State) : Host.Outcome State Fault Refusal := runCommand .fcInit needNothing [.fcInit] s

/-- FC_ADD b (rule R142). -/
def execFcAdd (b : Byte) (s : State) : Host.Outcome State Fault Refusal := runCommand (.fcAdd b) needFreq [.fcAdd b] s

/-- The parts of FC_SCAN's body (rule R144). -/
def fcScanTasks : List Task := [.scanStart, .scan, .bytesInResult]

/-- FC_SCAN (rule R144). -/
def execFcScan (s : State) : Host.Outcome State Fault Refusal := runCommand .fcScan needFreq fcScanTasks s

/-- FC_READ s (rule R146). -/
def execFcRead (sym : Symbol) (s : State) : Host.Outcome State Fault Refusal :=
  runCommand (.fcRead sym) needFreq [.fcRead sym] s

end Sys2Proof.Machine
end

