-- ==== Sys2Proof/Machine/HeaderCodec.lean ====
section
/-! DEFINITION. The header serializer's and deserializer's commands (44_header_codec.md). -/

namespace Sys2Proof.Machine

/-- HS_WRITE_MAGIC (rule R210). -/
def execHsWriteMagic (s : State) : Host.Outcome State Fault Refusal := runCommand .hsWriteMagic needNothing [.writeMagic] s

/-- HS_WRITE_TREE (rule R211). -/
def execHsWriteTree (s : State) : Host.Outcome State Fault Refusal := runCommand .hsWriteTree needTree [.writeTree] s

/-- HD_READ_MAGIC (rules R214, R215). -/
def execHdReadMagic (s : State) : Host.Outcome State Fault Refusal := runCommand .hdReadMagic needNothing [.readMagic] s

/-- The parts of HD_READ_TREE's body (rule R217). -/
def hdReadTreeTasks : List Task := [.hdStart, .hdRoot, .hdTree, .hdFinish]

/-- HD_READ_TREE (rules R217 to R221). -/
def execHdReadTree (s : State) : Host.Outcome State Fault Refusal := runCommand .hdReadTree needNothing hdReadTreeTasks s

end Sys2Proof.Machine
end

