-- ==== Sys2Proof/Machine/TreeBuilder.lean ====
section
/-! DEFINITION. The tree builder's commands (42_tree_builder.md). -/

namespace Sys2Proof.Machine

/-- TB_LOAD (rules R164, R165). -/
def execTbLoad (s : State) : Host.Outcome State Fault Refusal := runCommand .tbLoad needFreq [.tbLoad] s

/-- TB_STEP (rule R166). -/
def execTbStep (s : State) : Host.Outcome State Fault Refusal := runCommand .tbStep needHeap [.tbStep] s

/-- The parts of TB_BUILD's body (rule R168). -/
def tbBuildTasks : List Task := [.tbLoad, .tbMerge, .rootResult]

/-- TB_BUILD (rule R168). -/
def execTbBuild (s : State) : Host.Outcome State Fault Refusal := runCommand .tbBuild needFreq tbBuildTasks s

/-- TB_NODE_READ n (rule R170; 30_encoding.md rule R94). -/
def execTbNodeRead (n : NodeIdx) (s : State) : Host.Outcome State Fault Refusal :=
  runCommand (.tbNodeRead n) needNothing [.nodeRead n] s

end Sys2Proof.Machine
end

