-- ==== Sys2Proof/Machine/Composite.lean ====
section
/-! DEFINITION. The composite commands (47_composite.md): each sub-step is the body of a primitive command, with PHASE its opcode. -/

namespace Sys2Proof.Machine

/-- COMPRESS's sub-steps (rule R281); EOF_SEEN is as they leave it (assumption log 28). -/
def compressTasks : List Task :=
  [.phase 0x10, .fcInit] ++ .phase 0x12 :: fcScanTasks ++ .phase 0x22 :: tbBuildTasks ++ [.phase 0x30, .cgGen] ++
    [.phase 0x40, .writeMagic] ++ [.phase 0x41, .writeTree] ++ .phase 0x52 :: enBodyTasks ++ .phase 0x53 :: enCloseTasks

/-- COMPRESS (rules R280, R281). -/
def execCompress (s : State) : Host.Outcome State Fault Refusal := runCommand .compress needNoEofWritten compressTasks s

/-- DECOMPRESS's sub-steps (rule R283). -/
def decompressTasks : List Task :=
  [.phase 0x42, .readMagic] ++ .phase 0x43 :: hdReadTreeTasks ++ .phase 0x61 :: deBodyTasks ++ .phase 0x62 :: deCloseTasks

/-- DECOMPRESS (rules R280, R283). -/
def execDecompress (s : State) : Host.Outcome State Fault Refusal :=
  runCommand .decompress needNoEofSeen decompressTasks s

end Sys2Proof.Machine
end

