-- ==== Sys2Proof/Machine/Control.lean ====
section
/-! DEFINITION. NOP and SRESET (40_control.md). -/

namespace Sys2Proof.Machine

/-- NOP (rule R128): nothing but acceptance and completion. -/
def execNop (s : State) : Host.Outcome State Fault Refusal := runCommand .nop needNothing [] s

/-- SRESET (rules R121, R131): accepted in every state, its operand ignored. -/
def execSreset (_operand : BitVec 24) (s : State) : Host.Outcome State Fault Refusal := .next s.softReset

end Sys2Proof.Machine
end

