-- ==== Sys2Proof/Machine/Dispatch.lean ====
section
/-! DEFINITION. One arm per command of the opcode table (30_encoding.md rule R95), each a direct call of its meaning. -/

namespace Sys2Proof.Machine

def exec (i : Instr) (s : State) : Host.Outcome State Fault Refusal :=
  match i with
  | .nop => Sys2Proof.Machine.execNop s
  | .sreset operand => Sys2Proof.Machine.execSreset operand s
  | .fcInit => Sys2Proof.Machine.execFcInit s
  | .fcAdd b => Sys2Proof.Machine.execFcAdd b s
  | .fcScan => Sys2Proof.Machine.execFcScan s
  | .fcRead sym => Sys2Proof.Machine.execFcRead sym s
  | .tbLoad => Sys2Proof.Machine.execTbLoad s
  | .tbStep => Sys2Proof.Machine.execTbStep s
  | .tbBuild => Sys2Proof.Machine.execTbBuild s
  | .tbNodeRead n => Sys2Proof.Machine.execTbNodeRead n s
  | .cgGen => Sys2Proof.Machine.execCgGen s
  | .cgLookup sym => Sys2Proof.Machine.execCgLookup sym s
  | .hsWriteMagic => Sys2Proof.Machine.execHsWriteMagic s
  | .hsWriteTree => Sys2Proof.Machine.execHsWriteTree s
  | .hdReadMagic => Sys2Proof.Machine.execHdReadMagic s
  | .hdReadTree => Sys2Proof.Machine.execHdReadTree s
  | .enSymbol b => Sys2Proof.Machine.execEnSymbol b s
  | .enEof => Sys2Proof.Machine.execEnEof s
  | .enBody => Sys2Proof.Machine.execEnBody s
  | .enClose => Sys2Proof.Machine.execEnClose s
  | .deStep => Sys2Proof.Machine.execDeStep s
  | .deBody => Sys2Proof.Machine.execDeBody s
  | .deClose => Sys2Proof.Machine.execDeClose s
  | .compress => Sys2Proof.Machine.execCompress s
  | .decompress => Sys2Proof.Machine.execDecompress s

end Sys2Proof.Machine
end

