-- ==== Sys2Proof/Machine/Window.lean ====
section
/-! DEFINITION. The host register window (10_state.md rules R21, R22), issuing a command (40_control.md rule R120), and what
each event of the outside world does (70_reset_and_hazards.md rule R361). -/

namespace Sys2Proof.Machine

/-- CAUSE's code (60_exceptions.md rule R301). -/
def Cause.code : Cause → Byte
  | .none => 0x00
  | .fmtBadMagic => 0x01
  | .fmtMagicEos => 0x02
  | .fmtHdrEos => 0x03
  | .fmtHdrOverflow => 0x04
  | .fmtHdrBadValue => 0x05
  | .fmtHdrLeafRoot => 0x06
  | .fmtBodyEos => 0x07
  | .cntOverflow => 0x10
  | .encNoCode => 0x11
  | .cgDupSymbol => 0x12
  | .illegalOpcode => 0x20
  | .illegalOperand => 0x21
  | .seqError => 0x22

/-- ERR_CAUSE as the host reads it (10_state.md rule R34): PHASE [23:16], OPCODE [15:8], CAUSE [7:0]. -/
def ErrCause.word (e : ErrCause) : Word := (0 : BitVec 8) ++ e.phase ++ e.opcode ++ e.cause.code

/-- CODE_OUTk = C[32k+31 : 32k] (10_state.md rule R45). -/
def State.codeOutWord (s : State) (k : Nat) : Word := s.codeOut.extractLsb' (32 * k) 32

/-- A register of the window by its byte offset, with its exact value (10_state.md rule R21); `none` for an offset that the
table does not list. CMD reads 0 (rule R22(a)). -/
def State.register (s : State) : Nat → Option Word
  | 0x00 => some 0
  | 0x04 => some s.status.word
  | 0x08 => some s.ctrl.word
  | 0x0C => some s.errCause.word
  | 0x10 => some s.errExpected
  | 0x14 => some s.errFound
  | 0x18 => some s.result
  | 0x1C => some (s.root.setWidth 32)
  | 0x20 => some s.mem.heapSizeWord
  | 0x24 => some s.mem.nodeCountWord
  | 0x28 => some s.total
  | 0x2C => some s.bytesIn
  | 0x30 => some s.bytesOut
  | 0x34 => some s.bitsIn
  | 0x38 => some s.bitsOut
  | 0x3C => some s.nodeOut
  | 0x40 => some s.magic
  | 0x44 => some (s.cur.setWidth 32)
  | 0x60 => some (s.codeOutWord 0)
  | 0x64 => some (s.codeOutWord 1)
  | 0x68 => some (s.codeOutWord 2)
  | 0x6C => some (s.codeOutWord 3)
  | 0x70 => some (s.codeOutWord 4)
  | 0x74 => some (s.codeOutWord 5)
  | 0x78 => some (s.codeOutWord 6)
  | 0x7C => some (s.codeOutWord 7)
  | _ => none

/-- An aligned whole 32-bit word (10_state.md rules R21, R22(e)). -/
def alignedWord (offset size : Nat) : Bool := size = 4 && offset % 4 = 0

/-- A host read (10_state.md rule R22): an offset not listed reads 0; while BUSY = 1, any register but STATUS reads any value
(93_implementation_defined.md I6). -/
def State.readWindow (s : State) (offset : Nat) : State :=
  match s.register offset with
  | none => { s with readData := 0 }
  | some v =>
    if s.status.busy && offset != 0x04 then { s with readData := Config.freeWord s.draws, draws := s.draws + 1 }
    else { s with readData := v }

/-- A CMD write issues the command its word stands for (40_control.md rules R120, R123). -/
def issue (w : Word) (s : State) : Host.Outcome State Fault Refusal :=
  match decode w with
  | .ok i => exec i s
  | .error e => .next (s.illegalCommand w e)

/-- A host write (10_state.md rules R21, R22, R33): CMD issues, CTRL takes the two enables at once, and a write to any other
offset has no effect. -/
def State.writeWindow (s : State) (offset : Nat) (v : Word) : Host.Outcome State Fault Refusal :=
  match offset with
  | 0x00 => issue v s
  | 0x08 => .next { s with ctrl := Ctrl.ofWord v }
  | _ => .next s

/-- What one event does (70_reset_and_hazards.md rule R361). What a collaborator does lets a held command go on at once. -/
def State.react (s : State) : Input → Host.Outcome State Fault Refusal
  | .busWrite offset size v =>
    if alignedWord offset size then s.writeWindow offset v else .refused (.unalignedAccess offset size)
  | .busRead offset size =>
    if alignedWord offset size then .next (s.readWindow offset) else .refused (.unalignedAccess offset size)
  | .hardReset => .next s.hardReset
  | .ibPresent bytes ended later =>
    (s.setPorts { s.ports with
      ib := { s.ports.ib with left := bytes, all := bytes, ended := ended, later := later } }).resume
  | .ibSupply bytes ended =>
    (s.setPorts { s.ports with
      ib := { s.ports.ib with
        left := s.ports.ib.left ++ bytes, all := s.ports.ib.all ++ bytes, ended := ended } }).resume
  | .biPresent bits ended =>
    (s.setPorts { s.ports with bi := { s.ports.bi with bits := bits, ended := ended } }).resume
  | .biSupply bits ended =>
    (s.setPorts { s.ports with
      bi := { s.ports.bi with bits := s.ports.bi.bits ++ bits, ended := ended } }).resume
  | .portCredit c => (s.setPorts { s.ports with credit := c }).resume

end Sys2Proof.Machine
end

