-- ==== Sys2Proof/Machine/Step.lean ====
section
/-! DEFINITION. One step of the machine: the next event of the outside world (70_reset_and_hazards.md rule R361), or, where it
does nothing more, the running command as far as the ports let it. -/

namespace Sys2Proof.Machine

/-- One step. A step of an idle engine without an event leaves the state as it is, and so does one of an engine whose port
never answers: that run is infinite (20_memory.md rule R66). -/
def step (s : State) : Host.Outcome State Fault Refusal :=
  match s.inputs with
  | [] => s.resume
  | i :: rest => State.react { s with inputs := rest } i

/-- The host writes the word `w` of an `nbits`-bit table row to CMD next (40_control.md rule R120). The engine fetches nothing
(20_memory.md rule R78): this stands for the host, whose commands are the program. -/
def State.withFetchWord (s : State) (nbits w : Nat) : State :=
  { s with inputs := .busWrite 0x00 4 (BitVec.ofNat 32 (w % 2 ^ nbits)) :: s.inputs }

end Sys2Proof.Machine
end

