-- ==== Sys2Proof/Safety.lean ====
section
/-! DEFINITION. What claims about the machine speak of: trees as values, their header and their codes (30_encoding.md Part B,
43_code_table.md), the tree that a node store holds, and the conditions that every step keeps. -/

namespace Sys2Proof.Machine

/-- A full binary tree with a symbol in each leaf (00_scope.md rule R15: every node is a leaf or has two children). -/
inductive Shape
  | leaf (v : Symbol)
  | node (l r : Shape)
  deriving DecidableEq, Repr

/-- The leaves' symbols in pre-order. -/
def Shape.leaves : Shape → List Symbol
  | .leaf v => [v]
  | .node l r => l.leaves ++ r.leaves

/-- How many internal nodes a tree has. -/
def Shape.internals : Shape → Nat
  | .leaf _ => 0
  | .node l r => l.internals + r.internals + 1

/-- The greatest depth of a leaf. -/
def Shape.depth : Shape → Nat
  | .leaf _ => 0
  | .node l r => max l.depth r.depth + 1

/-- The number of nodes of a tree. -/
def Shape.size : Shape → Nat
  | .leaf _ => 1
  | .node l r => 1 + l.size + r.size

/-- The entries of a tree that HD_READ_TREE reads, its root at index `k`: the node indices are in pre-order, a node before its
left subtree and that before its right one, and no node has a weight (44_header_codec.md rule R217; 92_eei_decisions.md D31). -/
def Shape.nodesAt : Shape → Nat → List Node
  | .leaf v, _ => [{ leaf := true, value := v, weight := 0, left := 0, right := 0 }]
  | .node l r, k =>
    { leaf := false, value := 0, weight := 0, left := BitVec.ofNat 10 (k + 1), right := BitVec.ofNat 10 (k + 1 + l.size) } ::
      (l.nodesAt (k + 1) ++ r.nodesAt (k + 1 + l.size))

/-- The header of a tree (30_encoding.md rule R101): 0 for an internal node, then left, then right; 1 and the 9-bit value,
most significant bit first, for a leaf. -/
def Shape.header : Shape → List Bool
  | .leaf v => true :: fieldBits 9 (v.setWidth 32)
  | .node l r => false :: (l.header ++ r.header)

/-- The codes of a tree in pre-order (43_code_table.md rule R190): the path to each leaf, 0 for left and 1 for right. -/
def Shape.codes : Shape → List (Symbol × List Bool)
  | .leaf v => [(v, [])]
  | .node l r =>
    l.codes.map (fun c => (c.1, false :: c.2)) ++ r.codes.map (fun c => (c.1, true :: c.2))

/-- The code of a symbol in a tree. -/
def Shape.code (t : Shape) (v : Symbol) : List Bool := ((t.codes.find? fun c => c.1 = v).map (·.2)).getD []

/-- A tree is internal at its root: no code is empty (10_state.md rule R52(a)). -/
def Shape.internal : Shape → Bool
  | .leaf _ => false
  | .node _ _ => true

/-- The node store holds the tree `t` at index `n`. -/
def TreeAt (nodes : List Node) (n : NodeIdx) : Shape → Prop
  | .leaf v => ∃ nd, nodes[n.toNat]? = some nd ∧ nd.leaf = true ∧ nd.value = v
  | .node l r => ∃ nd, nodes[n.toNat]? = some nd ∧ nd.leaf = false ∧ TreeAt nodes nd.left l ∧ TreeAt nodes nd.right r

/-- A tree the engine may hold (10_state.md rule R52, 44_header_codec.md rule R219): its root internal, at most 256 internal
nodes, every leaf value at most 256. -/
def Shape.valid (t : Shape) : Bool :=
  t.internal && t.internals ≤ Config.maxInternal && t.leaves.all fun v => v.toNat ≤ 256

/-- The index that a path leads to from index `n`: false is a left step and true a right one; no step leaves a leaf. -/
def walkTo (nodes : List Node) (n : NodeIdx) : List Bool → Option NodeIdx
  | [] => some n
  | b :: p =>
    match nodes[n.toNat]? with
    | some nd => if nd.leaf then none else walkTo nodes (if b then nd.right else nd.left) p
    | none => none

/-- What DE_STEPs make of some bits, CUR standing at index `cur` and ROOT naming `root` (46_decoder.md rules R260, R261): the bytes
emitted, where CUR then stands, and the bits behind PSEUDO_EOF's code, `none` where they run out before its leaf. -/
def decodeBits (nodes : List Node) (root cur : NodeIdx) : List Bool → List Byte × NodeIdx × Option (List Bool)
  | [] => ([], cur, none)
  | d :: bits =>
    match nodes[cur.toNat]? with
    | none => ([], cur, none)
    | some nd =>
      match nodes[(if d then nd.right else nd.left).toNat]? with
      | none => ([], cur, none)
      | some child =>
        if child.leaf then
          if child.value = Config.pseudoEof then ([], root, some bits)
          else
            (child.value.setWidth 8 :: (decodeBits nodes root root bits).1, (decodeBits nodes root root bits).2)
        else decodeBits nodes root (if d then nd.right else nd.left) bits

/-- What comes of reading a header (44_header_codec.md rule R217), and the bits that are left: a tree; a read of 1 or 9 bits
that the bits left do not cover; a 257th internal node; a value field above 256; a leaf as the root. -/
inductive HeaderRead
  | tree (t : Shape) (rest : List Bool)
  | runsOut (asked : Nat) (rest : List Bool)
  | overflow (rest : List Bool)
  | badValue (v : Word) (rest : List Bool)
  | leafRoot (rest : List Bool)
  deriving DecidableEq, Repr

/-- The bits that reading leaves. -/
def HeaderRead.rest : HeaderRead → List Bool
  | .tree _ r => r
  | .runsOut _ r => r
  | .overflow r => r
  | .badValue _ r => r
  | .leafRoot r => r

/-- The error that reading a header raises, with its expected and found words, where BITS_IN is `n` (60_exceptions.md rules R301,
R302). -/
def HeaderRead.error (n : Word) : HeaderRead → Option (Cause × Word × Word)
  | .tree _ _ => none
  | .runsOut k _ => some (.fmtHdrEos, BitVec.ofNat 32 k, n)
  | .overflow _ => some (.fmtHdrOverflow, 256, n)
  | .badValue v _ => some (.fmtHdrBadValue, 256, v)
  | .leafRoot _ => some (.fmtHdrLeafRoot, 0, 1)

/-- READ_NODE where `icount` internal nodes are allocated already (44_header_codec.md rules R217, R218). The first number bounds
the depth; a depth above the number of bits is never reached. -/
def readNode : Nat → Nat → List Bool → HeaderRead
  | 0, _, bits => .runsOut 1 bits
  | _ + 1, _, [] => .runsOut 1 []
  | _ + 1, _, true :: bits =>
    if bits.length < 9 then .runsOut 9 bits
    else if 256 < (fieldValue (bits.take 9)).toNat then .badValue (fieldValue (bits.take 9)) (bits.drop 9)
    else .tree (.leaf ((fieldValue (bits.take 9)).setWidth 9)) (bits.drop 9)
  | d + 1, icount, false :: bits =>
    if icount = 256 then .overflow bits
    else
      match readNode d (icount + 1) bits with
      | .tree l rest =>
        match readNode d (icount + 1 + l.internals) rest with
        | .tree r rest' => .tree (.node l r) rest'
        | e => e
      | e => e

/-- Reading a whole header: a leaf root is refused at its tag (44_header_codec.md rules R217, R219). -/
def readHeader (bits : List Bool) : HeaderRead :=
  match bits with
  | true :: rest => .leafRoot rest
  | _ => readNode (bits.length + 1) 0 bits

/-- How many nodes READ_NODE has allocated when reading ends, in a tree or short of it: one for each internal node's tag that was
taken, and one for each leaf whose value was (44_header_codec.md rule R217). -/
def nodesRead : Nat → Nat → List Bool → Nat
  | 0, _, _ => 0
  | _ + 1, _, [] => 0
  | _ + 1, _, true :: bits => if bits.length < 9 ∨ 256 < (fieldValue (bits.take 9)).toNat then 0 else 1
  | d + 1, icount, false :: bits =>
    if icount = 256 then 0
    else
      match readNode d (icount + 1) bits with
      | .tree l rest => 1 + l.size + nodesRead d (icount + 1 + l.internals) rest
      | _ => 1 + nodesRead d (icount + 1) bits

/-- The nodes that reading a whole header has allocated when it ends (44_header_codec.md rules R217, R219). -/
def headerNodes (bits : List Bool) : Nat :=
  match bits with
  | true :: _ => 0
  | _ => nodesRead (bits.length + 1) 0 bits

/-- The table entry of a path (10_state.md rule R45): its length, and its bits right-aligned, the first bit the most
significant. -/
def Code.ofPath (p : List Bool) : Code :=
  { len := BitVec.ofNat 9 p.length, bits := p.foldl (fun v b => (v <<< 1) ||| (BitVec.ofBool b).setWidth 256) 0 }

/-- The code table of a tree (43_code_table.md rule R190): each leaf's path, and no code for any other symbol. -/
def CodesOf (codes : List Code) (t : Shape) : Prop :=
  codes.length = Config.numSymbols ∧ (∀ c ∈ t.codes, codes[c.1.toNat]? = some (Code.ofPath c.2)) ∧
    ∀ v : Symbol, v.toNat ≤ 256 → v ∉ t.leaves → codes[v.toNat]? = some {}

/-- The body of a compressed stream (30_encoding.md rule R103): the bytes' codes in order, then PSEUDO_EOF's. -/
def Shape.body (t : Shape) (bytes : List Byte) : List Bool :=
  (bytes.flatMap fun b => t.code (symbolOfByte b)) ++ t.code Config.pseudoEof

/-- A compressed stream before padding (30_encoding.md rule R100): magic, header, body. -/
def streamBits (magic : Word) (t : Shape) (bytes : List Byte) : List Bool :=
  fieldBits 32 magic ++ t.header ++ t.body bytes

/-- The symbols with a non-zero count, in ascending order, with their counts (42_tree_builder.md rule R164). -/
def countedSymbols (freq : List Word) : List (Symbol × Word) :=
  ((List.range Config.numSymbols).filter fun s => freq.getD s 0 != 0).map fun s => (BitVec.ofNat 9 s, freq.getD s 0)

/-- The leaves that TB_LOAD makes, in the order of their node indices: the counted symbols, and where PSEUDO_EOF is alone the
pad leaf, symbol 0 with weight 0 (42_tree_builder.md rules R164, R165). -/
def loadedLeaves (freq : List Word) : List (Symbol × Word) :=
  if (countedSymbols freq).length = 1 then countedSymbols freq ++ [(0, 0)] else countedSymbols freq

/-- The weight of a node of the store, 0 where the entry holds no value. -/
def Memory.weightOf (m : Memory) (n : NodeIdx) : Word :=
  match m.nodes[n.toNat]? with
  | some nd => nd.weight
  | none => 0

/-- Node `a`'s key (WEIGHT, node index) is smaller than `b`'s (42_tree_builder.md rule R161). -/
def Memory.before (m : Memory) (a b : NodeIdx) : Prop :=
  (m.weightOf a).toNat < (m.weightOf b).toNat ∨ (m.weightOf a = m.weightOf b ∧ a.toNat < b.toNat)

/-- The collaborators at the ports answer as soon as they can (60_exceptions.md rule R325, duty H9). -/
def State.portsReady (s : State) : Prop := s.ports.credit = none

/-- Port IB presents exactly the bytes `bytes` at their first byte, the same in every pass (duties H3, H4). -/
def State.presents (s : State) (bytes : List Byte) : Prop :=
  s.ports.ib.left = bytes ∧ s.ports.ib.all = bytes ∧ s.ports.ib.ended = true ∧ s.ports.ib.later = []

/-- The counters are a table (41_frequency.md rules R141, R143, R147): 257 counts, PSEUDO_EOF's is 1, and TOTAL is their
exact sum. -/
def FreqOk (freq : List Word) (total : Word) : Prop :=
  freq.length = Config.numSymbols ∧ freq[256]? = some 1 ∧ (freq.map BitVec.toNat).sum = total.toNat

/-- `after` is `before` with every byte of `bytes` counted once (41_frequency.md rules R144, R145). -/
def Counted (before after : List Word) (bytes : List Byte) : Prop :=
  after.length = before.length ∧ ∀ i, i < before.length →
    after.getD i 0 = before.getD i 0 + BitVec.ofNat 32 (bytes.countP fun b => b.toNat = i)

/-- A symbol's entry of the code table; an entry of length 0 is no code (10_state.md rule R43). -/
def Memory.codeOf (m : Memory) (v : Symbol) : Code := m.codes.getD v.toNat {}

/-- Whenever FREQ_VALID = 1 the counters are a table. -/
def State.freqOk (s : State) : Prop := s.status.freqValid = true → FreqOk s.mem.freq s.total

/-- What the queue is between TB_LOAD and the last merge: its members are the roots of trees whose leaves together are `L`,
and their weights add up to `W` (42_tree_builder.md rules R160, R166, R167). -/
structure Forest (m : Memory) (L : List Symbol) (W : Nat) : Prop where
  alloc : ∀ y ∈ m.heap, y.toNat < m.nodes.length
  rise : rising m.heap = true
  trees : ∃ ts : List (NodeIdx × Shape), (ts.map (·.1)).Perm m.heap ∧ (∀ p ∈ ts, TreeAt m.nodes p.1 p.2) ∧
    (ts.flatMap (·.2.leaves)).Perm L
  weight : (m.heap.map fun n => (m.weightOf n).toNat).sum = W
  count : m.nodes.length + m.heap.length = 2 * L.length

/-- HEAP_LOADED = 1 means that a build is part-way: two trees or more are left, and no symbol has two leaves (10_state.md rule
R29, 43_code_table.md rule R193). -/
def State.queueOk (s : State) : Prop :=
  s.status.heapLoaded = true → s.status.treeValid = false ∧ 2 ≤ s.mem.heap.length ∧
    ∃ L, L.length ≤ Config.numSymbols ∧ (∀ v ∈ L, v.toNat ≤ 256) ∧ L.Nodup ∧ Forest s.mem L s.total.toNat

/-- ROOT names a valid tree (10_state.md rule R52(a) to (d)). -/
def State.rootOk (s : State) : Prop := ∃ t : Shape, t.valid = true ∧ TreeAt s.mem.nodes s.root t

/-- CUR is an internal node, reached from ROOT (10_state.md rule R52(e)). -/
def State.curOk (s : State) : Prop :=
  ∃ p, walkTo s.mem.nodes s.root p = some s.cur ∧ ∃ nd, s.mem.nodes[s.cur.toNat]? = some nd ∧ nd.leaf = false

/-- TREE_VALID = 1 means that ROOT names a valid tree, and that CUR is an internal node of it (10_state.md rule R52). -/
def State.treeOk (s : State) : Prop := s.status.treeValid = true → s.rootOk ∧ s.curOk

/-- The code table holds values (10_state.md rule R51). -/
def State.codesWhole (s : State) : Prop := s.mem.codes.length = Config.numSymbols

/-- CODES_VALID = 1 means that the tree is still valid, and that the code table is the table of the tree at ROOT, no symbol of
which has two leaves (10_state.md rule R30; 43_code_table.md rules R190, R191). -/
def State.codesOk (s : State) : Prop :=
  s.status.codesValid = true → s.status.treeValid = true ∧
    ∃ t : Shape, t.valid = true ∧ t.leaves.Nodup ∧ TreeAt s.mem.nodes s.root t ∧ CodesOf s.mem.codes t

/-- EOF_WRITTEN = 1 means that the stream it was written to is still open at port OB (10_state.md rule R31). -/
def State.streamOk (s : State) : Prop := s.status.eofWritten = true → s.ports.ob.isOpen = true

/-- In the error state DONE is 0 and no flag of STATUS[10:4] is 1 (60_exceptions.md rule R303). -/
def State.errOk (s : State) : Prop := s.status.err = true → s.status.done = false ∧ s.status.flagWord = 0

/-- BUSY and DONE are never both 1 (10_state.md rules R24, R25). -/
def State.busyOk (s : State) : Prop := s.status.busy = true → s.status.done = false

/-- No command runs, there is no error, and the hidden sequencer state is that of an idle engine (assumption log 21). -/
def State.idle (s : State) : Prop := s.status.busy = false ∧ s.status.err = false ∧ s.seq = {}

/-- An idle engine, in an error or not, whose flags mean what 10_state.md rules R28 to R31, R41 and R52 say. -/
structure State.sound (s : State) : Prop where
  notBusy : s.status.busy = false
  noSequence : s.seq = {}
  memory : s.mem.wf = true
  freq : s.freqOk
  queue : s.queueOk
  tree : s.treeOk
  codes : s.codesOk
  stream : s.streamOk

/-- The collaborators answer every primitive: they hold none, and every pass of their sources ends (60_exceptions.md rule
R325, duty H9). -/
def State.answered (s : State) : Prop :=
  s.ports.credit = none ∧ s.ports.ib.ended = true ∧ (∀ p ∈ s.ports.ib.later, p.2 = true) ∧ s.ports.bi.ended = true

/-- Commands in turn: each is issued once the one before it is done, and a command that is not done is the last. -/
def execAll : List Instr → State → Host.Outcome State Fault Refusal
  | [], s => .next s
  | i :: is, s =>
    match exec i s with
    | .next t => if t.status.done then execAll is t else .next t
    | r => r

/-- The primitive commands whose bodies COMPRESS runs (47_composite.md rule R281). -/
def compressSteps : List Instr := [.fcInit, .fcScan, .tbBuild, .cgGen, .hsWriteMagic, .hsWriteTree, .enBody, .enClose]

/-- The primitive commands whose bodies DECOMPRESS runs (47_composite.md rule R283). -/
def decompressSteps : List Instr := [.hdReadMagic, .hdReadTree, .deBody, .deClose]

/-- The states of the engine while the command word `w`, written in state `s`, keeps it busy: a port holds the command or its
error entry, and events come meanwhile (20_memory.md rule R66). -/
inductive Running (w : Word) (s : State) : State → Prop
  | held {t : State} (h : issue w s = .next t) (b : t.status.busy = true) : Running w s t
  | step {t u : State} (r : Running w s t) (h : step t = .next u) (b : u.status.busy = true) : Running w s u

/-- The command word `w`, written in state `s`, has the engine busy no more in state `t`. -/
def Ends (w : Word) (s t : State) : Prop :=
  (issue w s = .next t ∨ ∃ u, Running w s u ∧ step u = .next t) ∧ t.status.busy = false

/-- A sound engine that runs nothing, or one that runs a command it was given when it was such an engine. -/
def State.live (s : State) : Prop := s.sound ∨ ∃ w s₀, s₀.sound ∧ Running w s₀ s

/-- The next event is no unaligned access of the host, which the model refuses (10_state.md rule R22(e)). -/
def State.alignedNext (s : State) : Prop :=
  (∀ o n v rest, s.inputs = .busWrite o n v :: rest → n = 4 ∧ o % 4 = 0) ∧
    ∀ o n rest, s.inputs = .busRead o n :: rest → n = 4 ∧ o % 4 = 0

/-- What acceptance and completion together leave of STATUS (40_control.md rules R122, R127). -/
def Status.ended (st : Status) : Status := { st with busy := false, done := true, reject := false }

/-- `t` is what error entry makes of `s`, for a command accepted in an idle engine: ERR = 1 and every other flag 0, ERR_CAUSE
with the cause, OPCODE and PHASE, the two words, and the cleanup primitives issued. RESULT is any value, so nothing is said of
it; everything else is as in `s` (60_exceptions.md rule R303). -/
def State.failsTo (s t : State) (opcode phase : Byte) (c : Cause) (expected found : Word) : Prop :=
  { t with result := s.result, draws := s.draws } =
    { s with
      status := { err := true }
      errCause := { cause := c, opcode := opcode, phase := phase }
      errExpected := expected
      errFound := found
      ports := s.ports.cleanup }

/-- `t` is what error entry makes of `s` once its cleanup primitives are answered, where the collaborators then answer `credit` more
(60_exceptions.md rule R303); RESULT is any value. -/
def State.failedAs (s t : State) (c : Cause) (expected found : Word) (credit : Option Nat) : Prop :=
  { t with result := s.result, draws := s.draws } =
    { s with
      status := { err := true, reject := s.status.reject }
      errCause := { cause := c, opcode := s.seq.opcode, phase := s.seq.phase }
      errExpected := expected
      errFound := found
      ports := { s.ports.cleanup with credit := credit }
      seq := {} }

/-- No stream is open at any of the four ports (20_memory.md rule R70). -/
def State.noStream (s : State) : Prop :=
  s.ports.ib.isOpen = false ∧ s.ports.ob.isOpen = false ∧ s.ports.bi.isOpen = false ∧ s.ports.bo.isOpen = false

/-- The prerequisite table: the flags that must be 1 and the flags that must be 0, as masks of STATUS (40_control.md rule
R124). -/
def prerequisite : Instr → Word × Word
  | .nop => (0, 0)
  | .sreset _ => (0, 0)
  | .fcInit => (0, 0)
  | .fcAdd _ => (0x10, 0)
  | .fcScan => (0x10, 0)
  | .fcRead _ => (0x10, 0)
  | .tbLoad => (0x10, 0)
  | .tbStep => (0x20, 0)
  | .tbBuild => (0x10, 0)
  | .tbNodeRead _ => (0, 0)
  | .cgGen => (0x40, 0)
  | .cgLookup _ => (0x80, 0)
  | .hsWriteMagic => (0, 0)
  | .hsWriteTree => (0x40, 0)
  | .hdReadMagic => (0, 0)
  | .hdReadTree => (0, 0)
  | .enSymbol _ => (0x80, 0x100)
  | .enEof => (0x80, 0x100)
  | .enBody => (0x80, 0x100)
  | .enClose => (0x100, 0)
  | .deStep => (0x40, 0x200)
  | .deBody => (0x40, 0x200)
  | .deClose => (0x200, 0)
  | .compress => (0, 0x100)
  | .decompress => (0, 0x200)

/-- The codes of the causes (60_exceptions.md rule R301). -/
def causeCodes : List (Cause × Byte) :=
  [(.none, 0x00), (.fmtBadMagic, 0x01), (.fmtMagicEos, 0x02), (.fmtHdrEos, 0x03), (.fmtHdrOverflow, 0x04),
    (.fmtHdrBadValue, 0x05), (.fmtHdrLeafRoot, 0x06), (.fmtBodyEos, 0x07), (.cntOverflow, 0x10), (.encNoCode, 0x11),
    (.cgDupSymbol, 0x12), (.illegalOpcode, 0x20), (.illegalOperand, 0x21), (.seqError, 0x22)]

/-- The primitive that a command issues first (41_frequency.md to 47_composite.md), for each command that issues one whatever the tree,
the codes and the source are; `magic` is MAGIC. -/
def firstPrimitives (magic : Word) : List (Instr × Prim) :=
  [(.fcScan, .ibRead), (.hsWriteMagic, .obWrite 32 magic), (.hdReadMagic, .biRead 32), (.hdReadTree, .biRead 1),
    (.enBody, .ibRewind), (.enClose, .obClose), (.deStep, .biRead 1), (.deBody, .biRead 1), (.deClose, .boClose),
    (.compress, .ibRead), (.decompress, .biRead 32)]

/-- The errors that the execution of a command can raise, each with the PHASE it is recorded with (60_exceptions.md rule R301's
column "raised by"; 40_control.md rule R124; 47_composite.md rules R280 to R283). The usage errors of a bad command word are not
among them. -/
def raisable : Instr → List (Cause × Byte)
  | .nop => []
  | .sreset _ => []
  | .fcInit => []
  | .fcAdd _ => [(.seqError, 0x11), (.cntOverflow, 0x11)]
  | .fcScan => [(.seqError, 0x12), (.cntOverflow, 0x12)]
  | .fcRead _ => [(.seqError, 0x13)]
  | .tbLoad => [(.seqError, 0x20)]
  | .tbStep => [(.seqError, 0x21)]
  | .tbBuild => [(.seqError, 0x22)]
  | .tbNodeRead _ => [(.illegalOperand, 0x23)]
  | .cgGen => [(.seqError, 0x30), (.cgDupSymbol, 0x30)]
  | .cgLookup _ => [(.seqError, 0x31)]
  | .hsWriteMagic => []
  | .hsWriteTree => [(.seqError, 0x41)]
  | .hdReadMagic => [(.fmtMagicEos, 0x42), (.fmtBadMagic, 0x42)]
  | .hdReadTree => [(.fmtHdrEos, 0x43), (.fmtHdrOverflow, 0x43), (.fmtHdrBadValue, 0x43), (.fmtHdrLeafRoot, 0x43)]
  | .enSymbol _ => [(.seqError, 0x50), (.encNoCode, 0x50)]
  | .enEof => [(.seqError, 0x51), (.encNoCode, 0x51)]
  | .enBody => [(.seqError, 0x52), (.encNoCode, 0x52)]
  | .enClose => [(.seqError, 0x53)]
  | .deStep => [(.seqError, 0x60), (.fmtBodyEos, 0x60)]
  | .deBody => [(.seqError, 0x61), (.fmtBodyEos, 0x61)]
  | .deClose => [(.seqError, 0x62)]
  | .compress => [(.seqError, 0x70), (.cntOverflow, 0x12), (.encNoCode, 0x52)]
  | .decompress => [(.seqError, 0x71), (.fmtMagicEos, 0x42), (.fmtBadMagic, 0x42), (.fmtHdrEos, 0x43),
      (.fmtHdrOverflow, 0x43), (.fmtHdrBadValue, 0x43), (.fmtHdrLeafRoot, 0x43), (.fmtBodyEos, 0x61)]

/-- The errors that a command word can raise, each with its PHASE: those of its command, or the one of an illegal word
(40_control.md rule R123). -/
def raisableWord (w : Word) : List (Cause × Byte) :=
  match decode w with
  | .ok i => raisable i
  | .error .illegalOpcode => [(.illegalOpcode, opcodeOf w)]
  | .error .illegalOperand => [(.illegalOperand, opcodeOf w)]

/-- The opcodes of the map (30_encoding.md rule R95). -/
def opcodeMap : List Byte :=
  [0x00, 0x01, 0x10, 0x11, 0x12, 0x13, 0x20, 0x21, 0x22, 0x23, 0x30, 0x31, 0x40, 0x41, 0x42, 0x43, 0x50, 0x51, 0x52, 0x53,
    0x60, 0x61, 0x62, 0x70, 0x71]

/-- The match and mask of each row of the map, and whether its operand is a symbol, which must be at most 256
(30_encoding.md rule R95). -/
def opcodeRows : List (Word × Word × Bool) :=
  [(0x00000000, 0xFFFFFFFF, false), (0x01000000, 0xFF000000, false), (0x10000000, 0xFFFFFFFF, false),
    (0x11000000, 0xFFFFFF00, false), (0x12000000, 0xFFFFFFFF, false), (0x13000000, 0xFFFFFE00, true),
    (0x20000000, 0xFFFFFFFF, false), (0x21000000, 0xFFFFFFFF, false), (0x22000000, 0xFFFFFFFF, false)] ++
  [(0x23000000, 0xFFFFFC00, false), (0x30000000, 0xFFFFFFFF, false), (0x31000000, 0xFFFFFE00, true),
    (0x40000000, 0xFFFFFFFF, false), (0x41000000, 0xFFFFFFFF, false), (0x42000000, 0xFFFFFFFF, false),
    (0x43000000, 0xFFFFFFFF, false), (0x50000000, 0xFFFFFF00, false), (0x51000000, 0xFFFFFFFF, false)] ++
  [(0x52000000, 0xFFFFFFFF, false), (0x53000000, 0xFFFFFFFF, false), (0x60000000, 0xFFFFFFFF, false),
    (0x61000000, 0xFFFFFFFF, false), (0x62000000, 0xFFFFFFFF, false), (0x70000000, 0xFFFFFFFF, false),
    (0x71000000, 0xFFFFFFFF, false)]

end Sys2Proof.Machine
end

