-- ==== Sys2Proof/Certificates/Slice0/Obligations.lean ====
section
/-! DEFINITION. The statements about the engine. An engine that is `idle` runs no command and is in no error; `portsReady` says
that the collaborators answer as soon as they can, an error entry's cleanup primitives among them. `failsTo` leaves RESULT after an
error unconstrained. -/

open Sys2Proof Sys2Proof.Machine

/-! ### Command words -/

/-- 30_encoding.md rule R99: the encoding examples. -/
def Obligations.SpecWordsDecode : Prop :=
  (decode 0x11000041 = .ok (.fcAdd 0x41) ∧ encode (.fcAdd 0x41) = 0x11000041) ∧
  (decode 0x31000100 = .ok (.cgLookup 256) ∧ encode (.cgLookup 256) = 0x31000100) ∧
  (decode 0x2300000A = .ok (.tbNodeRead 10) ∧ encode (.tbNodeRead 10) = 0x2300000A) ∧
  (decode 0x70000000 = .ok .compress ∧ encode .compress = 0x70000000) ∧
  ∀ s : State, s.idle → s.portsReady →
    (∃ t, issue 0x11000141 s = .next t ∧ s.failsTo t 0x11 0x11 .illegalOperand 0 0x11000141) ∧
    (∃ t, issue 0x31000101 s = .next t ∧ s.failsTo t 0x31 0x31 .illegalOperand 0 0x31000101) ∧
    ∃ t, issue 0x02000000 s = .next t ∧ s.failsTo t 0x02 0x02 .illegalOpcode 0 0x02000000

/-- Every well-formed command decodes from its own word (30_encoding.md rules R90 to R92, R95). -/
def Obligations.DecodeOfEncode : Prop := ∀ i : Instr, i.wellFormed = true → decode (encode i) = .ok i

/-- A word that decodes is the word of the well-formed command it decodes to: no bit of it is dropped (30_encoding.md rules R90
to R93). -/
def Obligations.EncodeOfDecode : Prop := ∀ (w : Word) (i : Instr), decode w = .ok i → i.wellFormed = true ∧ encode i = w

/-- 30_encoding.md rules R93, R95, R96: a word is a command exactly if it matches a row of the opcode map; a word whose opcode is
in the map and which is no command has an illegal operand, and any other opcode is illegal. -/
def Obligations.DecodeFollowsOpcodeMap : Prop :=
  ∀ w : Word,
    ((∃ i, decode w = .ok i) ↔ ∃ r ∈ opcodeRows, w &&& r.2.1 = r.1 ∧ (r.2.2 = true → (w.extractLsb' 0 9).toNat ≤ 256)) ∧
    (decode w = .error .illegalOpcode ↔ opcodeOf w ∉ opcodeMap)

/-- A host write of a word to CMD issues that word: the step runs the command that the word decodes to, or takes the error of
an illegal word (40_control.md rules R120, R123). `withFetchWord` makes such a write the next event. The list of
events `inputs` is the model's (assumption log 6). -/
def Obligations.StepRunsCommandWord : Prop :=
  ∀ (s : State) (w : Word) (rest : List Input),
    (s.inputs = .busWrite 0 4 w :: rest →
      (∀ i, decode w = .ok i → step s = exec i { s with inputs := rest }) ∧
      ∀ e, decode w = .error e → step s = .next (State.illegalCommand { s with inputs := rest } w e)) ∧
    ∀ i, decode w = .ok i → step (s.withFetchWord 32 w.toNat) = exec i s

/-! ### The command protocol -/

/-- 10_state.md rule R27. -/
def Obligations.RejectedCommandWord : Prop :=
  ∀ (s : State) (w : Word),
    (opcodeOf w ≠ 0x01 → (s.status.busy = true ∨ s.status.err = true) →
      issue w s = .next { s with status := { s.status with reject := true } }) ∧
    ∀ t, issue w s = .next t →
      (t.status.reject = true ↔ opcodeOf w ≠ 0x01 ∧ (s.status.busy = true ∨ s.status.err = true))

/-- After an accepted command other than SRESET the engine has completed it, waits on a port with it, or is in the error state, with no
flag of STATUS[10:4] left; there BUSY is 1 only while a port holds one of the cleanup primitives. REJECT is 0 (40_control.md rules R122,
R126, R127; 10_state.md rules R24 to R26; 60_exceptions.md rule R303 and 20_memory.md rule R66: assumption log 13). -/
def Obligations.AcceptedCommandOutcome : Prop :=
  ∀ (s t : State) (w : Word), s.status.busy = false → s.status.err = false → opcodeOf w ≠ 0x01 → issue w s = .next t →
    t.status.reject = false ∧
    ((t.status.done = true ∧ t.status.busy = false ∧ t.status.err = false ∧ t.seq = {}) ∨
     (t.status.done = false ∧ t.status.busy = true ∧ t.status.err = false) ∨
     (t.status.done = false ∧ t.status.err = true ∧ t.status.flagWord = 0 ∧
       ((t.status.busy = false ∧ t.seq = {}) ∨
        (t.status.busy = true ∧ ∃ p ∈ cleanupPrims, t.seq.pending = some p ∧ t.ports.answer p = none))))

/-- 40_control.md rule R123. -/
def Obligations.IllegalWordsRaise : Prop :=
  ∀ (s : State) (w : Word), s.idle → s.portsReady →
    (opcodeOf w ∉ opcodeMap →
      ∃ t, issue w s = .next t ∧ s.failsTo t (opcodeOf w) (opcodeOf w) .illegalOpcode 0 w) ∧
    (opcodeOf w ∈ opcodeMap →
      (∀ r ∈ opcodeRows, w &&& r.2.1 = r.1 → r.2.2 = true ∧ 256 < (w.extractLsb' 0 9).toNat) →
      ∃ t, issue w s = .next t ∧ s.failsTo t (opcodeOf w) (opcodeOf w) .illegalOperand 0 w)

/-- 40_control.md rule R124: a command whose flags are not as its row asks raises SEQ_ERROR with the two masks and the flags as
they stood; a command whose flags are as it asks raises no SEQ_ERROR. -/
def Obligations.PrerequisiteCheck : Prop :=
  ∀ (i : Instr) (s : State), s.idle → i.wellFormed = true →
    (s.portsReady →
      ¬ (s.status.word &&& (prerequisite i).1 = (prerequisite i).1 ∧ s.status.word &&& (prerequisite i).2 = 0) →
      ∃ t, exec i s = .next t ∧ s.failsTo t i.opcode i.opcode .seqError
        ((prerequisite i).1 ||| (prerequisite i).2 <<< 16) (s.status.word &&& 0x7F0)) ∧
    (s.status.word &&& (prerequisite i).1 = (prerequisite i).1 → s.status.word &&& (prerequisite i).2 = 0 →
      ∀ t, exec i s = .next t → t.status.err = true → t.errCause.cause ≠ .seqError)

/-! ### Errors -/

/-- Error entry from any state of a running command (60_exceptions.md rule R303): the flags, the record of the error with its cause's
code (rule R301), and the cleanup of the ports; RESULT is any value, and nothing else changes. All of it is written at once: where the
collaborators answer fewer than its four primitives, it holds at the first one not answered, BUSY alone stays as it is, and it ends once
they answer (20_memory.md rule R66, 10_state.md rule R24; the model's reading, assumption log 13). -/
def Obligations.ErrorEntryRecord : Prop :=
  ∀ (s : State) (c : Cause) (e f : Word),
    ((∀ n, s.ports.credit = some n → 4 ≤ n) →
      s.failedAs (s.enterError c e f) c e f (s.ports.credit.map (· - 4)) ∧ (s.enterError c e f).noStream ∧
      ∃ code, (c, code) ∈ causeCodes ∧
        (s.enterError c e f).register 0x0C = some (0#8 ++ s.seq.phase ++ s.seq.opcode ++ code)) ∧
    ∀ n, s.ports.credit = some n → n < 4 →
      { s.enterError c e f with result := s.result, draws := s.draws, seq := s.seq, ports := s.ports } = { s with
        status := { busy := s.status.busy, err := true, reject := s.status.reject }
        errCause := { cause := c, opcode := s.seq.opcode, phase := s.seq.phase }
        errExpected := e
        errFound := f } ∧
      (s.enterError c e f).seq.pending = [.obAbort, .boAbort, .ibRelease, .biRelease][n]? ∧
      (s.status.busy = true → ∃ t, (s.enterError c e f).react (.portCredit none) = .next t ∧ s.failedAs t c e f none)

/-- Every error that the execution of a command raises is one that 60_exceptions.md rule R301 and the command's own rule list,
recorded with the command's opcode and the phase of the failing sub-step (10_state.md rule R34; 47_composite.md rules R280 to
R283); also where a port holds its error entry, and where ports held the command or its error entry in between. -/
def Obligations.ErrorCausesByCommand : Prop :=
  (∀ (i : Instr) (s t : State), s.idle → i.wellFormed = true → exec i s = .next t → t.status.err = true →
    t.errCause.opcode = i.opcode ∧ (t.errCause.cause, t.errCause.phase) ∈ raisable i) ∧
  ∀ (w : Word) (s t : State), s.sound → s.status.err = false → Ends w s t → t.status.err = true →
    t.errCause.opcode = opcodeOf w ∧ (t.errCause.cause, t.errCause.phase) ∈ raisableWord w

/-- 60_exceptions.md rule R304, R305: a command that raises an error commits nothing, and leaves no stream open once its error entry is
over (BUSY = 0); also where ports held the command or its error entry in between. -/
def Obligations.ErrorsCommitNothing : Prop :=
  (∀ (s t : State) (w : Word), s.status.busy = false → s.status.err = false → issue w s = .next t → t.status.err = true →
    (t.status.busy = false → t.noStream) ∧ t.ports.ob.committed = s.ports.ob.committed ∧
    t.ports.bo.committed = s.ports.bo.committed) ∧
  ∀ (w : Word) (s t : State), s.sound → s.status.err = false → Ends w s t → t.status.err = true →
    t.noStream ∧ t.ports.ob.committed = s.ports.ob.committed ∧ t.ports.bo.committed = s.ports.bo.committed

/-- 60_exceptions.md rule R310: the error state ends with SRESET or hardware reset alone, and then the error's record is cleared.
Until then every register keeps its value and can be read, but for REJECT, which every other command write sets, CTRL, which the host can
still write, and BUSY, which goes to 0 when the ports have answered the cleanup primitives of the error entry (assumption log 13); while
BUSY = 1 a read gives any value (10_state.md rule R22). -/
def Obligations.ErrorStateExit : Prop :=
  ∀ s t : State, s.errOk → s.status.err = true → step s = .next t →
    (((∃ w rest, s.inputs = .busWrite 0x00 4 w :: rest ∧ opcodeOf w = 0x01) ∨ ∃ rest, s.inputs = .hardReset :: rest) →
      t.status.err = false ∧ t.errCause = {} ∧ t.errExpected = 0 ∧ t.errFound = 0) ∧
    (¬ ((∃ w rest, s.inputs = .busWrite 0x00 4 w :: rest ∧ opcodeOf w = 0x01) ∨ ∃ rest, s.inputs = .hardReset :: rest) →
      t.status.err = true ∧ (∃ b r, t.status = { s.status with busy := b, reject := r } ∧ (s.status.busy = false → b = false)) ∧
      { t with
        status := s.status, ctrl := s.ctrl, ports := s.ports, inputs := s.inputs, readData := s.readData, seq := s.seq,
        draws := s.draws } = s ∧
      (s.status.busy = false → t.seq = s.seq ∧ t.draws = s.draws) ∧
      (∀ w rest, s.inputs = .busWrite 0x00 4 w :: rest → t.status.reject = true) ∧
      (∀ v rest, s.inputs = .busWrite 0x08 4 v :: rest → t.ctrl = { ieDone := v.getLsbD 0, ieErr := v.getLsbD 1 }) ∧
      ∀ offset rest r, s.inputs = .busRead offset 4 :: rest → s.register offset = some r →
        s.status.busy = false ∨ offset = 0x04 → t.readData = r)

/-! ### Resets -/

/-- SRESET from any state (40_control.md rule R131): every register but CTRL and MAGIC at its reset value, DONE = 1, no memory
entry holding a value, no stream open. A command that was running is abandoned; the port primitive it waited on may or may not
have taken effect at its collaborator (93_implementation_defined.md I11). What the collaborators hold is the model's (assumption
log 6, 9). -/
def Obligations.SoftResetState : Prop :=
  ∀ (x : BitVec 24) (s : State), ∃ (t : State) (ps : Ports),
    exec (.sreset x) s = .next t ∧
    t = { State.reset with
      status := { done := true }
      ctrl := s.ctrl
      magic := s.magic
      ports := ps.cleanup
      inputs := s.inputs
      readData := s.readData
      draws := t.draws } ∧
    t.noStream ∧ t.irq = s.ctrl.ieDone ∧ (s.status.busy = false → ps = s.ports) ∧
    (ps = s.ports ∨ ∃ p a, s.seq.pending = some p ∧ s.ports.perform p = some (a, ps))

/-- The hardware reset input (70_reset_and_hazards.md rules R340, R341): as SRESET, but CTRL = 0 and STATUS = 0. It is an event of
`inputs` (assumption log 6, 24). -/
def Obligations.HardResetState : Prop :=
  ∀ (s : State) (rest : List Input), s.inputs = .hardReset :: rest → ∃ (t : State) (ps : Ports),
    step s = .next t ∧
    t = { State.reset with
      magic := s.magic, ports := ps.cleanup, inputs := rest, readData := s.readData, draws := t.draws } ∧
    t.noStream ∧ t.irq = false ∧ (s.status.busy = false → ps = s.ports) ∧
    (ps = s.ports ∨ ∃ p a, s.seq.pending = some p ∧ s.ports.perform p = some (a, ps))

/-- 10_state.md rule R50. -/
def Obligations.ResetValues : Prop :=
  (∀ (offset : Nat) (v : Word), State.reset.register offset = some v →
    v = if offset = 0x40 then Config.huffMagic else 0) ∧
  State.reset.mem = { freq := [], nodes := [], heap := [], codes := [] } ∧ State.reset.seq = {}

/-! ### The register window -/

/-- The registers of the window (10_state.md rule R21) and their fields (rules R23, R33, R34, R45), with the causes' codes
(60_exceptions.md rule R301). -/
def Obligations.RegisterFields : Prop :=
  (∀ s : State,
    [0x00, 0x04, 0x08, 0x0C, 0x10, 0x14, 0x18, 0x1C, 0x20, 0x24, 0x28, 0x2C, 0x30, 0x34, 0x38, 0x3C, 0x40, 0x44].map s.register =
      [0, s.status.word, s.ctrl.word, s.errCause.word, s.errExpected, s.errFound, s.result, s.root.setWidth 32,
        s.mem.heapSizeWord, s.mem.nodeCountWord, s.total, s.bytesIn, s.bytesOut, s.bitsIn, s.bitsOut, s.nodeOut, s.magic,
        s.cur.setWidth 32].map some ∧
    (∀ k, k < 8 → s.register (0x60 + 4 * k) = some (s.codeOut.extractLsb' (32 * k) 32)) ∧
    ∀ offset, 0x44 < offset → offset < 0x60 ∨ 0x7C < offset → s.register offset = none) ∧
  (∀ st : Status, (List.range 32).map st.word.getLsbD =
    [st.busy, st.done, st.err, st.reject, st.freqValid, st.heapLoaded, st.treeValid, st.codesValid, st.eofWritten, st.eofSeen,
      st.magicOk] ++ List.replicate 21 false) ∧
  (∀ c : Ctrl, (List.range 32).map c.word.getLsbD = [c.ieDone, c.ieErr] ++ List.replicate 30 false) ∧
  ∀ e : ErrCause, (e.cause, e.word.extractLsb' 0 8) ∈ causeCodes ∧ e.word.extractLsb' 8 8 = e.opcode ∧
    e.word.extractLsb' 16 8 = e.phase ∧ e.word.extractLsb' 24 8 = 0

/-- 10_state.md rule R22: host accesses to the window. A read changes nothing but the word the host gets (and the model's draw
counter); while BUSY = 1 it gets any value but from STATUS. A write outside CMD and CTRL has no effect. An access that is no
aligned word is refused. An offset past the table's last reads 0 too (the model's choice, assumption log 17). -/
def Obligations.WindowAccesses : Prop :=
  ∀ (s : State) (offset size : Nat) (v : Word) (rest : List Input),
    (offset % 4 = 0 → s.inputs = .busRead offset 4 :: rest →
      ∃ t, step s = .next t ∧ { t with readData := s.readData, draws := s.draws } = { s with inputs := rest } ∧
        (s.register offset = none → t.readData = 0) ∧
        ∀ r, s.register offset = some r → s.status.busy = false ∨ offset = 0x04 → t.readData = r) ∧
    (offset % 4 = 0 → offset ≠ 0x00 → offset ≠ 0x08 → s.inputs = .busWrite offset 4 v :: rest →
      step s = .next { s with inputs := rest }) ∧
    (s.inputs = .busWrite 0x08 4 v :: rest →
      step s = .next { s with inputs := rest, ctrl := { ieDone := v.getLsbD 0, ieErr := v.getLsbD 1 } }) ∧
    (size ≠ 4 ∨ offset % 4 ≠ 0 →
      (s.inputs = .busRead offset size :: rest → step s = .refused (.unalignedAccess offset size)) ∧
      (s.inputs = .busWrite offset size v :: rest → step s = .refused (.unalignedAccess offset size)))

/-- CTRL changes by a host write and by hardware reset alone, and IRQ follows CTRL, DONE and ERR at once (10_state.md rules R33,
R49; 60_exceptions.md rule R320; 70_reset_and_hazards.md rule R353). -/
def Obligations.ControlAndInterrupt : Prop :=
  (∀ s : State, s.irq = true ↔
    (s.status.done = true ∧ s.ctrl.ieDone = true) ∨ (s.status.err = true ∧ s.ctrl.ieErr = true)) ∧
  ∀ s t : State, step s = .next t → t.ctrl = s.ctrl ∨
    (∃ v rest, s.inputs = .busWrite 0x08 4 v :: rest ∧ t.ctrl = { ieDone := v.getLsbD 0, ieErr := v.getLsbD 1 }) ∨
    ∃ rest, s.inputs = .hardReset :: rest ∧ t.ctrl = { ieDone := false, ieErr := false }

/-- 10_state.md rule R46. -/
def Obligations.MagicConstant : Prop :=
  State.reset.magic = Config.huffMagic ∧ (∀ s : State, s.register 0x40 = some s.magic) ∧
    ∀ s t : State, step s = .next t → t.magic = s.magic

/-! ### NOP and the frequency counter -/

/-- NOP (40_control.md rule R128). -/
def Obligations.NopCompletes : Prop := ∀ s : State, s.idle → exec .nop s = .next { s with status := s.status.ended }

/-- FC_INIT (41_frequency.md rule R140). -/
def Obligations.FcInitCompletes : Prop :=
  ∀ s : State, s.idle → exec .fcInit s = .next { s with
    status := { s.status.ended with freqValid := true, heapLoaded := false, treeValid := false, codesValid := false }
    mem := { s.mem with freq := List.replicate 256 0 ++ [1] }
    total := 1
    result := 1 }

/-- FC_ADD (41_frequency.md rule R142): it counts the byte, or raises CNT_OVERFLOW where TOTAL cannot grow. -/
def Obligations.FcAddCounts : Prop :=
  ∀ (b : Byte) (s : State), s.idle → s.status.freqValid = true → s.freqOk →
    (s.total ≠ 0xFFFFFFFF → exec (.fcAdd b) s = .next { s with
      status := { s.status.ended with heapLoaded := false, treeValid := false, codesValid := false }
      mem := { s.mem with freq := s.mem.freq.set b.toNat (s.mem.freq.getD b.toNat 0 + 1) }
      total := s.total + 1
      result := s.mem.freq.getD b.toNat 0 + 1 }) ∧
    (s.portsReady → s.total = 0xFFFFFFFF →
      ∃ t, exec (.fcAdd b) s = .next t ∧ s.failsTo t 0x11 0x11 .cntOverflow 0xFFFFFFFF (b.setWidth 32))

/-- FC_SCAN (41_frequency.md rules R144, R145): it counts every byte that port IB has left in the pass, each once. Where TOTAL
cannot grow at a byte it raises CNT_OVERFLOW, with the bytes before it counted, in BYTES_IN too (10_state.md rule R47: assumption log 29). -/
def Obligations.FcScanCounts : Prop :=
  ∀ s : State, s.idle → s.status.freqValid = true → s.freqOk → s.portsReady → s.ports.ib.ended = true →
    (s.total.toNat + s.ports.ib.left.length < 2 ^ 32 → ∃ freq, Counted s.mem.freq freq s.ports.ib.left ∧
      exec .fcScan s = .next { s with
        status := { s.status.ended with heapLoaded := false, treeValid := false, codesValid := false }
        mem := { s.mem with freq := freq }
        total := s.total + BitVec.ofNat 32 s.ports.ib.left.length
        bytesIn := BitVec.ofNat 32 s.ports.ib.left.length
        result := BitVec.ofNat 32 s.ports.ib.left.length
        ports := { s.ports with ib := { s.ports.ib with left := [], isOpen := true } } }) ∧
    ∀ pre b post, s.ports.ib.left = pre ++ b :: post → s.total.toNat + pre.length = 2 ^ 32 - 1 →
      ∃ freq t, Counted s.mem.freq freq pre ∧ exec .fcScan s = .next t ∧
        State.failsTo { s with
          mem := { s.mem with freq := freq }
          total := 0xFFFFFFFF
          bytesIn := BitVec.ofNat 32 pre.length
          ports := { s.ports with ib := { s.ports.ib with left := post, isOpen := true } } }
          t 0x12 0x12 .cntOverflow 0xFFFFFFFF (b.setWidth 32)

/-- FC_READ (41_frequency.md rule R146). -/
def Obligations.FcReadReturnsCount : Prop :=
  ∀ (v : Symbol) (s : State), s.idle → s.status.freqValid = true → s.freqOk → v.toNat ≤ 256 →
    exec (.fcRead v) s = .next { s with status := s.status.ended, result := s.mem.freq.getD v.toNat 0 } ∧
    (v = 256 → s.mem.freq.getD v.toNat 0 = 1)

/-! ### Tree builder -/

/-- TB_LOAD (42_tree_builder.md rules R164, R165): a leaf for each counted symbol in ascending order, and the pad leaf where
PSEUDO_EOF is alone; every leaf enters the queue. -/
def Obligations.TbLoadMakesLeaves : Prop :=
  ∀ s : State, s.idle → s.status.freqValid = true → s.freqOk →
    (2 ≤ (loadedLeaves s.mem.freq).length ∧ (loadedLeaves s.mem.freq).length ≤ 257) ∧
    exec .tbLoad s = .next { s with
      status := { s.status.ended with heapLoaded := true, treeValid := false, codesValid := false }
      mem := { s.mem with
        nodes := (loadedLeaves s.mem.freq).map fun p =>
          { leaf := true, value := p.1, weight := p.2, left := 0, right := 0 }
        heap := (List.range (loadedLeaves s.mem.freq).length).map (BitVec.ofNat 10) }
      result := BitVec.ofNat 32 (loadedLeaves s.mem.freq).length }

/-- TB_STEP (42_tree_builder.md rules R161 to R163, R166): the two smallest keys leave the queue, the smallest becomes the left
child, and the new node enters; the last merge makes the tree valid. -/
def Obligations.TbStepMerges : Prop :=
  ∀ s : State, s.idle → s.status.heapLoaded = true → s.queueOk → ∃ l ∈ s.mem.heap, ∃ r ∈ s.mem.heap, r ≠ l ∧
    (∀ y ∈ s.mem.heap, y ≠ l → s.mem.before l y) ∧ (∀ y ∈ s.mem.heap, y ≠ l → y ≠ r → s.mem.before r y) ∧
    (2 < s.mem.heap.length → exec .tbStep s = .next { s with
      status := s.status.ended
      mem := { s.mem with
        nodes := s.mem.nodes ++
          [{ leaf := false, value := 0, weight := s.mem.weightOf l + s.mem.weightOf r, left := l, right := r }]
        heap := (s.mem.heap.erase l).erase r ++ [BitVec.ofNat 10 s.mem.nodes.length] }
      result := BitVec.ofNat 32 s.mem.nodes.length }) ∧
    (s.mem.heap.length = 2 → exec .tbStep s = .next { s with
      status := { s.status.ended with heapLoaded := false, treeValid := true, eofSeen := false }
      mem := { s.mem with
        nodes := s.mem.nodes ++
          [{ leaf := false, value := 0, weight := s.mem.weightOf l + s.mem.weightOf r, left := l, right := r }]
        heap := [BitVec.ofNat 10 s.mem.nodes.length] }
      root := BitVec.ofNat 10 s.mem.nodes.length
      cur := BitVec.ofNat 10 s.mem.nodes.length
      result := BitVec.ofNat 32 s.mem.nodes.length })

/-- TB_BUILD (42_tree_builder.md rules R167, R168, R171; 41_frequency.md rule R147): what TB_LOAD and L - 1 TB_STEPs after it leave; a
valid tree whose leaves are the loaded symbols, with 2L - 1 nodes, the last one the root, and the root's weight TOTAL. -/
def Obligations.TbBuildMakesTree : Prop :=
  ∀ s : State, s.idle → s.status.freqValid = true → s.freqOk →
    exec .tbBuild s = execAll (.tbLoad :: List.replicate ((loadedLeaves s.mem.freq).length - 1) .tbStep) s ∧
    ∃ (m : Memory) (x : NodeIdx) (t : Shape), exec .tbBuild s = .next { s with
      status := { s.status.ended with heapLoaded := false, treeValid := true, codesValid := false, eofSeen := false }
      mem := m
      root := x
      cur := x
      result := x.setWidth 32 } ∧
    m.freq = s.mem.freq ∧ m.codes = s.mem.codes ∧ m.heap = [x] ∧ TreeAt m.nodes x t ∧ t.valid = true ∧
    t.leaves.Perm ((loadedLeaves s.mem.freq).map (·.1)) ∧ m.weightOf x = s.total ∧
    m.nodes.length = 2 * (loadedLeaves s.mem.freq).length - 1 ∧ x.toNat = 2 * (loadedLeaves s.mem.freq).length - 2

/-- The tree is a function of the counters alone (42_tree_builder.md rule R169). -/
def Obligations.TbBuildDeterministic : Prop :=
  ∀ s u s' u' : State, s.idle → u.idle → s.status.freqValid = true → u.status.freqValid = true → s.freqOk → u.freqOk →
    u.mem.freq = s.mem.freq → exec .tbBuild s = .next s' → exec .tbBuild u = .next u' →
    u'.mem.nodes = s'.mem.nodes ∧ u'.root = s'.root

/-- TB_NODE_READ (42_tree_builder.md rule R170) and its index check (30_encoding.md rule R94): an allocated node's fields and
weight, or ILLEGAL_OPERAND with NODE_COUNT and the index. -/
def Obligations.TbNodeReadReturns : Prop :=
  ∀ (n : NodeIdx) (s : State), s.idle → s.mem.wf = true →
    (∀ nd, s.mem.nodes[n.toNat]? = some nd → exec (.tbNodeRead n) s = .next { s with
      status := s.status.ended
      nodeOut := 0#2 ++ nd.right ++ nd.left ++ BitVec.ofBool nd.leaf ++ nd.value
      result := nd.weight }) ∧
    (s.portsReady → s.mem.nodes.length ≤ n.toNat → ∃ t, exec (.tbNodeRead n) s = .next t ∧
      s.failsTo t 0x23 0x23 .illegalOperand (BitVec.ofNat 32 s.mem.nodes.length) (n.setWidth 32))

/-! ### Code table -/

/-- CG_GEN (43_code_table.md rule R190): the table of the tree's paths, or CG_DUP_SYMBOL for the first symbol met twice. -/
def Obligations.CgGenMakesTable : Prop :=
  ∀ (s : State) (t : Shape), s.idle → s.status.treeValid = true → t.valid = true → TreeAt s.mem.nodes s.root t →
    (t.leaves.Nodup → ∃ codes, CodesOf codes t ∧ exec .cgGen s = .next { s with
      status := { s.status.ended with codesValid := true }
      mem := { s.mem with codes := codes }
      result := BitVec.ofNat 32 t.leaves.length }) ∧
    ∀ pre v post, s.portsReady → t.leaves = pre ++ v :: post → pre.Nodup → v ∈ pre → ∃ codes u, exec .cgGen s = .next u ∧
      State.failsTo { s with mem := { s.mem with codes := codes } } u 0x30 0x30 .cgDupSymbol 0 (v.setWidth 32)

/-- 43_code_table.md rule R191: no code of the table is a prefix of another symbol's code. In the engine, that the table is one is
`codesOk`, which every sound state has. -/
def Obligations.CodesPrefixFree : Prop :=
  (∀ (t : Shape) (codes : List Code), t.valid = true → CodesOf codes t → ∀ (u v : Symbol) (a b : Code), u ≠ v →
    codes[u.toNat]? = some a → codes[v.toNat]? = some b → a.len ≠ 0 → b.len ≠ 0 → ¬ a.path <+: b.path) ∧
  ∀ s : State, s.codesOk → s.status.codesValid = true → ∀ u v : Symbol, u ≠ v → (s.mem.codeOf u).len ≠ 0 →
    (s.mem.codeOf v).len ≠ 0 → ¬ (s.mem.codeOf u).path <+: (s.mem.codeOf v).path

/-- CG_LOOKUP (43_code_table.md rule R192): the symbol's entry. Where the table is one, which it is in every sound engine (`codesOk`), a
symbol without a code gives RESULT = 0 and CODE_OUT = 0. -/
def Obligations.CgLookupReturnsCode : Prop :=
  ∀ (v : Symbol) (s : State), s.idle → s.status.codesValid = true → s.codesWhole → v.toNat ≤ 256 →
    exec (.cgLookup v) s = .next { s with
      status := s.status.ended
      result := (s.mem.codeOf v).len.setWidth 32
      codeOut := (s.mem.codeOf v).bits } ∧
    (s.codesOk → (s.mem.codeOf v).len = 0 →
      exec (.cgLookup v) s = .next { s with status := s.status.ended, result := 0, codeOut := 0 })

/-! ### Header codec -/

/-- HS_WRITE_MAGIC (44_header_codec.md rule R210). -/
def Obligations.HsWriteMagicWrites : Prop :=
  ∀ s : State, s.idle → s.portsReady → exec .hsWriteMagic s = .next { s with
    status := s.status.ended
    bitsOut := s.bitsOut + 32
    result := s.magic
    ports := { s.ports with
      ob := { s.ports.ob with bits := s.ports.ob.bits ++ fieldBits 32 s.magic, isOpen := true } } }

/-- HS_WRITE_TREE (44_header_codec.md rules R211, R212): the tree's header, 11L - 1 bits. -/
def Obligations.HsWriteTreeWrites : Prop :=
  ∀ (s : State) (t : Shape), s.idle → s.portsReady → s.status.treeValid = true → t.valid = true →
    TreeAt s.mem.nodes s.root t → exec .hsWriteTree s = .next { s with
      status := s.status.ended
      bitsOut := s.bitsOut + BitVec.ofNat 32 (11 * t.leaves.length - 1)
      result := BitVec.ofNat 32 (11 * t.leaves.length - 1)
      ports := { s.ports with ob := { s.ports.ob with bits := s.ports.ob.bits ++ t.header, isOpen := true } } }

/-- 30_encoding.md rule R102. -/
def Obligations.HeaderLength : Prop :=
  ∀ t : Shape, t.internals = t.leaves.length - 1 ∧ t.header.length = 11 * t.leaves.length - 1 ∧
    (t.valid = true → 2 ≤ t.leaves.length ∧ t.leaves.length ≤ 257 ∧ 21 ≤ t.header.length ∧ t.header.length ≤ 2826)

/-- HD_READ_MAGIC (44_header_codec.md rules R214, R215): the magic word, another word, or too few bits. -/
def Obligations.HdReadMagicChecks : Prop :=
  ∀ s : State, s.idle → s.portsReady →
    (∀ rest, s.ports.bi.bits = fieldBits 32 s.magic ++ rest → exec .hdReadMagic s = .next { s with
      status := { s.status.ended with magicOk := true }
      bitsIn := s.bitsIn + 32
      result := s.magic
      ports := { s.ports with bi := { s.ports.bi with bits := rest, isOpen := true } } }) ∧
    (∀ v rest, s.ports.bi.bits = fieldBits 32 v ++ rest → v ≠ s.magic → ∃ t, exec .hdReadMagic s = .next t ∧
      State.failsTo { s with
        bitsIn := s.bitsIn + 32
        ports := { s.ports with bi := { s.ports.bi with bits := rest, isOpen := true } } }
        t 0x42 0x42 .fmtBadMagic s.magic v) ∧
    (s.ports.bi.bits.length < 32 → s.ports.bi.ended = true → ∃ t, exec .hdReadMagic s = .next t ∧
      State.failsTo { s with ports := { s.ports with bi := { s.ports.bi with isOpen := true } } }
        t 0x42 0x42 .fmtMagicEos 32 s.bitsIn)

/-- HD_READ_TREE on the header of a valid tree (44_header_codec.md rules R217, R219): it reads the header's bits and no more,
and the nodes it allocates are the tree's in pre-order, without weights, the root at index 0. -/
def Obligations.HdReadTreeReads : Prop :=
  ∀ (s : State) (t : Shape) (rest : List Bool), s.idle → s.portsReady → t.valid = true →
    s.ports.bi.bits = t.header ++ rest →
      (TreeAt (t.nodesAt 0) 0 t ∧ (t.nodesAt 0).length = 2 * t.leaves.length - 1) ∧ exec .hdReadTree s = .next { s with
        status := { s.status.ended with heapLoaded := false, treeValid := true, codesValid := false, eofSeen := false }
        mem := { s.mem with nodes := t.nodesAt 0, heap := [] }
        root := 0
        cur := 0
        bitsIn := s.bitsIn + BitVec.ofNat 32 t.header.length
        result := BitVec.ofNat 32 (2 * t.leaves.length - 1)
        ports := { s.ports with bi := { s.ports.bi with bits := rest, isOpen := true } } }

/-- HD_READ_TREE on any other bits (44_header_codec.md rules R217 to R221). `readHeader` reads them as these rules say: it comes to a
tree exactly on a valid tree's header, and otherwise to the error that the first bits call for. HD_READ_TREE raises that error, with
its two words (60_exceptions.md rule R302), BITS_IN where it is met and NODE_COUNT the nodes allocated so far (`headerNodes`); where the
bits run out and the source has not ended, it waits for the bits it asks for. A valid header cut off anywhere raises FMT_HDR_EOS at the
first read that cannot be satisfied. -/
def Obligations.HdReadTreeRejects : Prop :=
  (∀ (bits : List Bool) (t : Shape) (rest : List Bool),
    readHeader bits = .tree t rest ↔ t.valid = true ∧ bits = t.header ++ rest) ∧
  (∀ rest : List Bool, readHeader (true :: rest) = .leafRoot rest ∧
    readHeader (List.replicate 257 false ++ rest) = .overflow rest) ∧
  (∀ (s : State) (n : Word), s.idle → s.portsReady →
    n = s.bitsIn + BitVec.ofNat 32 (s.ports.bi.bits.length - (readHeader s.ports.bi.bits).rest.length) →
    (∀ (c : Cause) (e f : Word), (readHeader s.ports.bi.bits).error n = some (c, e, f) →
      (c = .fmtHdrEos → s.ports.bi.ended = true) → ∃ (nodes : List Node) (u : State),
        nodes.length = headerNodes s.ports.bi.bits ∧ exec .hdReadTree s = .next u ∧ State.failsTo { s with
          mem := { s.mem with nodes := nodes, heap := [] }
          bitsIn := n
          ports := { s.ports with bi := { s.ports.bi with isOpen := true } } } u 0x43 0x43 c e f) ∧
    ∀ k rest, readHeader s.ports.bi.bits = .runsOut k rest → s.ports.bi.ended = false → ∃ u, exec .hdReadTree s = .next u ∧
      u.status.busy = true ∧ u.status.err = false ∧ u.seq.pending = some (.biRead k)) ∧
  ∀ (s : State) (t : Shape) (k : Nat), s.idle → s.portsReady → s.ports.bi.ended = true → t.valid = true →
    k < t.header.length → s.ports.bi.bits = t.header.take k →
      ∃ (nodes : List Node) (e : Word) (j : Nat) (u : State), nodes.length = headerNodes (t.header.take k) ∧
        exec .hdReadTree s = .next u ∧ State.failsTo { s with
          mem := { s.mem with nodes := nodes, heap := [] }
          bitsIn := s.bitsIn + BitVec.ofNat 32 j
          ports := { s.ports with bi := { s.ports.bi with isOpen := true } } } u 0x43 0x43 .fmtHdrEos e
          (s.bitsIn + BitVec.ofNat 32 j) ∧
        ((e = 1 ∧ j = k) ∨ (e = 9 ∧ j ≤ k ∧ k < j + 9))

/-- 44_header_codec.md rule R222: the header of a valid tree, written by one engine and read by another, gives the same tree, so
the same code table, and the same header when it is written again. -/
def Obligations.HeaderRoundTrip : Prop :=
  ∀ (s u : State) (t : Shape) (rest : List Bool), s.idle → s.portsReady → s.status.treeValid = true → t.valid = true →
    TreeAt s.mem.nodes s.root t → s.ports.ob.bits = [] → u.idle → u.portsReady →
    ∃ s', exec .hsWriteTree s = .next s' ∧ (u.ports.bi.bits = s'.ports.ob.bits ++ rest →
      ∃ u', exec .hdReadTree u = .next u' ∧ TreeAt u'.mem.nodes u'.root t ∧ u'.ports.bi.bits = rest ∧
        (∃ u'', exec .hsWriteTree u' = .next u'' ∧ u''.ports.ob.bits = u.ports.ob.bits ++ s'.ports.ob.bits) ∧
        ∃ a b, exec .cgGen s' = .next a ∧ exec .cgGen u' = .next b ∧ b.mem.codes = a.mem.codes)

/-! ### Encoder -/

/-- EN_SYMBOL (45_encoder.md rules R240, R241): the symbol's code, or ENC_NO_CODE. -/
def Obligations.EnSymbolWritesCode : Prop :=
  ∀ (b : Byte) (s : State), s.idle → s.portsReady → s.status.codesValid = true → s.status.eofWritten = false → s.codesWhole →
    ((s.mem.codeOf (symbolOfByte b)).len ≠ 0 → exec (.enSymbol b) s = .next { s with
      status := s.status.ended
      bitsOut := s.bitsOut + (s.mem.codeOf (symbolOfByte b)).len.setWidth 32
      result := (s.mem.codeOf (symbolOfByte b)).len.setWidth 32
      ports := { s.ports with
        ob := { s.ports.ob with
          bits := s.ports.ob.bits ++ (s.mem.codeOf (symbolOfByte b)).path, isOpen := true } } }) ∧
    ((s.mem.codeOf (symbolOfByte b)).len = 0 →
      ∃ t, exec (.enSymbol b) s = .next t ∧ s.failsTo t 0x50 0x50 .encNoCode 0 (b.setWidth 32))

/-- EN_EOF (45_encoder.md rule R242). -/
def Obligations.EnEofWritesCode : Prop :=
  ∀ s : State, s.idle → s.portsReady → s.status.codesValid = true → s.status.eofWritten = false → s.codesWhole →
    ((s.mem.codeOf 256).len ≠ 0 → exec .enEof s = .next { s with
      status := { s.status.ended with eofWritten := true }
      bitsOut := s.bitsOut + (s.mem.codeOf 256).len.setWidth 32
      result := (s.mem.codeOf 256).len.setWidth 32
      ports := { s.ports with
        ob := { s.ports.ob with bits := s.ports.ob.bits ++ (s.mem.codeOf 256).path, isOpen := true } } }) ∧
    ((s.mem.codeOf 256).len = 0 → ∃ t, exec .enEof s = .next t ∧ s.failsTo t 0x51 0x51 .encNoCode 0 256)

/-- EN_BODY (45_encoder.md rules R244, R245): from the start of port IB's source again, every byte's code in order, then
PSEUDO_EOF's; at the first byte without a code, or at a PSEUDO_EOF without one, ENC_NO_CODE, with the codes before it written. What the
source delivers after `ib_rewind()` is the same bytes again, or, where it breaks its duty H4, what `later` says (20_memory.md rule
R80; assumption log 16). BYTES_IN does not count the byte without a code (10_state.md rule R47: assumption log 29). -/
def Obligations.EnBodyWritesBody : Prop :=
  (∀ p : IbPort, (p.later = [] → p.rewind = { p with left := p.all, isOpen := true }) ∧
    ∀ bytes ended rest, p.later = (bytes, ended) :: rest →
      p.rewind = { left := bytes, all := bytes, ended := ended, later := rest, isOpen := true }) ∧
  ∀ (s : State) (bytes : List Byte), s.idle → s.portsReady → s.status.codesValid = true → s.status.eofWritten = false →
    s.codesWhole → s.ports.ib.rewind.left = bytes →
    (s.ports.ib.rewind.ended = true → (∀ b ∈ bytes, (s.mem.codeOf (symbolOfByte b)).len ≠ 0) →
      ((s.mem.codeOf 256).len ≠ 0 → ∃ body,
        body = (bytes.flatMap fun b => (s.mem.codeOf (symbolOfByte b)).path) ++ (s.mem.codeOf 256).path ∧
        exec .enBody s = .next { s with
          status := { s.status.ended with eofWritten := true }
          bytesIn := BitVec.ofNat 32 bytes.length
          bitsOut := s.bitsOut + BitVec.ofNat 32 body.length
          result := BitVec.ofNat 32 bytes.length
          ports := { s.ports with
            ib := { s.ports.ib.rewind with left := [] }
            ob := { s.ports.ob with bits := s.ports.ob.bits ++ body, isOpen := true } } }) ∧
      ((s.mem.codeOf 256).len = 0 → ∃ body t, body = (bytes.flatMap fun b => (s.mem.codeOf (symbolOfByte b)).path) ∧
        exec .enBody s = .next t ∧ State.failsTo { s with
          bytesIn := BitVec.ofNat 32 bytes.length
          bitsOut := s.bitsOut + BitVec.ofNat 32 body.length
          ports := { s.ports with
            ib := { s.ports.ib.rewind with left := [] }
            ob := { s.ports.ob with
              bits := s.ports.ob.bits ++ body, isOpen := s.ports.ob.isOpen || !bytes.isEmpty } } }
          t 0x52 0x52 .encNoCode 0 256)) ∧
    ∀ pre b post, bytes = pre ++ b :: post → (∀ x ∈ pre, (s.mem.codeOf (symbolOfByte x)).len ≠ 0) →
      (s.mem.codeOf (symbolOfByte b)).len = 0 → ∃ body t, body = (pre.flatMap fun x => (s.mem.codeOf (symbolOfByte x)).path) ∧
        exec .enBody s = .next t ∧ State.failsTo { s with
          bytesIn := BitVec.ofNat 32 pre.length
          bitsOut := s.bitsOut + BitVec.ofNat 32 body.length
          ports := { s.ports with
            ib := { s.ports.ib.rewind with left := post }
            ob := { s.ports.ob with
              bits := s.ports.ob.bits ++ body, isOpen := s.ports.ob.isOpen || !pre.isEmpty } } }
          t 0x52 0x52 .encNoCode 0 (b.setWidth 32)

/-- EN_CLOSE (45_encoder.md rule R246): the open stream is padded and committed, the source released; a port OB without an open stream
stays as it is (20_memory.md rule R70). In a sound engine EOF_WRITTEN = 1 comes with an open stream. A released source is gone (the
model's choice, assumption log 9). -/
def Obligations.EnCloseCommits : Prop :=
  ∀ s : State, s.idle → s.portsReady → s.status.eofWritten = true → exec .enClose s = .next { s with
    status := { s.status.ended with eofWritten := false }
    bitsOut := 0
    result := s.bitsOut
    ports := { s.ports with
      ib := if s.ports.ib.isOpen then {} else s.ports.ib
      ob := if s.ports.ob.isOpen then
          { s.ports.ob with
            bits := [], isOpen := false, committed := s.ports.ob.committed ++ [packBits s.ports.ob.bits] }
        else s.ports.ob } }

/-- The bytes of a bit stream (20_memory.md rules R65, R71; 30_encoding.md rule R104): stream bit k is bit 7 - k mod 8 of byte
k / 8, the pad is 0 bits up to a whole byte, and a 32-bit field at the start is its four bytes in big-endian order. -/
def Obligations.StreamBytes : Prop :=
  (∀ bits : List Bool, (packBits bits).length = (bits.length + 7) / 8 ∧
    ∀ k, k < 8 * (packBits bits).length → ((packBits bits).getD (k / 8) 0).getLsbD (7 - k % 8) = bits.getD k false) ∧
  ∀ (v : Word) (bits : List Bool), (packBits (fieldBits 32 v ++ bits)).take 4 =
    [v.extractLsb' 24 8, v.extractLsb' 16 8, v.extractLsb' 8 8, v.extractLsb' 0 8]

/-! ### Decoder -/

/-- DE_STEP (46_decoder.md rules R260, R261): one bit, one move to NODE[CUR].LEFT or NODE[CUR].RIGHT, and at a leaf one byte or the end; at
the end of the source FMT_BODY_EOS. -/
def Obligations.DeStepMoves : Prop :=
  ∀ (s : State) (l r : Shape), s.idle → s.portsReady → s.status.treeValid = true → s.status.eofSeen = false →
    TreeAt s.mem.nodes s.cur (.node l r) →
    (∀ d rest, s.ports.bi.bits = d :: rest →
      (∀ v, (if d then r else l) = .leaf v → v = 256 → exec .deStep s = .next { s with
        status := { s.status.ended with eofSeen := true }
        cur := s.root
        bitsIn := s.bitsIn + 1
        result := 0#20 ++ BitVec.ofBool d ++ 1#1 ++ 1#1 ++ v
        ports := { s.ports with bi := { s.ports.bi with bits := rest, isOpen := true } } }) ∧
      (∀ v, (if d then r else l) = .leaf v → v ≠ 256 → exec .deStep s = .next { s with
        status := s.status.ended
        cur := s.root
        bitsIn := s.bitsIn + 1
        bytesOut := s.bytesOut + 1
        result := 0#20 ++ BitVec.ofBool d ++ 0#1 ++ 1#1 ++ v
        ports := { s.ports with
          bi := { s.ports.bi with bits := rest, isOpen := true }
          bo := { s.ports.bo with bytes := s.ports.bo.bytes ++ [v.setWidth 8], isOpen := true } } }) ∧
      ((if d then r else l).internal = true → ∃ nd, s.mem.nodes[s.cur.toNat]? = some nd ∧
        TreeAt s.mem.nodes (if d then nd.right else nd.left) (if d then r else l) ∧ exec .deStep s = .next { s with
          status := s.status.ended
          cur := if d then nd.right else nd.left
          bitsIn := s.bitsIn + 1
          result := 0#20 ++ BitVec.ofBool d ++ 0#11
          ports := { s.ports with bi := { s.ports.bi with bits := rest, isOpen := true } } })) ∧
    (s.ports.bi.bits = [] → s.ports.bi.ended = true → ∃ t, exec .deStep s = .next t ∧
      State.failsTo { s with ports := { s.ports with bi := { s.ports.bi with isOpen := true } } }
        t 0x60 0x60 .fmtBodyEos 1 s.bitsIn)

/-- A port that has no answer holds the command, whichever port and command it is (20_memory.md rule R66): BUSY = 1, no other end of the
command, however long the wait (with ERR = 1 it is the command's error entry that waits); and once the collaborator answers (bytes or bits
arrive, or it is ready for more primitives), the command does what it would have done had they come before it. The first primitive of each
command is as its rule says. The collaborators' events are the model's (assumption log 6, 8). -/
def Obligations.HeldCommandResumes : Prop :=
  (∀ (i : Instr) (s t : State), s.idle → exec i s = .next t → t.status.busy = true →
    t.status.done = false ∧ (∃ p, t.seq.pending = some p ∧ t.ports.answer p = none ∧ (t.status.err = true → p ∈ cleanupPrims)) ∧
    (t.inputs = [] → step t = .next t) ∧
    (∀ c d, s.ports.credit = some c → t.ports.credit = some 0 → t.react (.portCredit d) =
      exec i { s with ports := { s.ports with credit := d.map (c + ·) } }) ∧
    (∀ n bits ended, t.seq.pending = some (.biRead n) → s.ports.bi.ended = false → t.react (.biSupply bits ended) =
      exec i { s with ports := { s.ports with bi := { s.ports.bi with bits := s.ports.bi.bits ++ bits, ended := ended } } }) ∧
    ∀ bytes ended, t.seq.pending = some .ibRead → s.ports.ib.ended = false → s.ports.ib.later = [] →
      t.react (.ibSupply bytes ended) = exec i { s with ports := { s.ports with
        ib := { s.ports.ib with
          left := s.ports.ib.left ++ bytes, all := s.ports.ib.all ++ bytes, ended := ended } } }) ∧
  (∀ (s : State) (i : Instr) (p : Prim), (i, p) ∈ firstPrimitives s.magic → s.idle → s.ports.credit = some 0 →
    s.status.word &&& (prerequisite i).1 = (prerequisite i).1 → s.status.word &&& (prerequisite i).2 = 0 →
    ∃ t, exec i s = .next t ∧ t.status.busy = true ∧ t.seq.pending = some p ∧ t.ports.credit = some 0) ∧
  ∀ s : State, s.idle → s.portsReady → s.status.treeValid = true → s.status.eofSeen = false → s.ports.bi.bits = [] →
    s.ports.bi.ended = false → ∃ t, exec .deStep s = .next t ∧ t.status.busy = true ∧ t.status.done = false ∧
      t.seq.pending = some (.biRead 1) ∧ t.mem = s.mem ∧ t.cur = s.cur ∧ t.bitsIn = s.bitsIn ∧ t.result = s.result ∧
      (t.inputs = [] → step t = .next t) ∧
      ∀ bits ended, bits ≠ [] ∨ ended = true → t.react (.biSupply bits ended) =
        exec .deStep { s with ports := { s.ports with bi := { s.ports.bi with bits := bits, ended := ended } } }

/-- DE_BODY (46_decoder.md rules R262, R263), from wherever CUR stands: it is DE_STEPs up to the one that reaches PSEUDO_EOF, and then
RESULT <- BYTES_OUT, or up to the one at which the bits run out, and then FMT_BODY_EOS. What the bits decode to is `decodeBits`; on a
tree without PSEUDO_EOF they run out, whatever they are. On the codes of some bytes, from ROOT, it emits those bytes, stops at PSEUDO_EOF
and reads no bit after it; on such a body cut off before its end it has emitted (`out`) the bytes whose codes were whole, and CUR stands
where the bits of the code that is cut lead. -/
def Obligations.DeBodyDecodes : Prop :=
  (∀ (s u : State) (n : Nat), s.idle → s.status.treeValid = true → s.status.eofSeen = false →
    execAll (List.replicate n .deStep) s = .next u → u.status.busy = false →
    (u.status.err = true → u.errCause.cause ≠ .seqError) →
    (u.status.err = false → u.status.eofSeen = true → exec .deBody s = .next { u with result := u.bytesOut }) ∧
    (u.status.err = true →
      exec .deBody s = .next { u with errCause := { u.errCause with opcode := 0x61, phase := 0x61 } })) ∧
  (∀ (s : State) (out : List Byte) (c : NodeIdx) (behind : Option (List Bool)), s.idle → s.portsReady → s.status.treeValid = true →
    s.status.eofSeen = false → s.treeOk → decodeBits s.mem.nodes s.root s.cur s.ports.bi.bits = (out, c, behind) →
    (∀ rest, behind = some rest → exec .deBody s = .next { s with
      status := { s.status.ended with eofSeen := true }
      cur := s.root
      bitsIn := s.bitsIn + BitVec.ofNat 32 (s.ports.bi.bits.length - rest.length)
      bytesOut := s.bytesOut + BitVec.ofNat 32 out.length
      result := s.bytesOut + BitVec.ofNat 32 out.length
      ports := { s.ports with
        bi := { s.ports.bi with bits := rest, isOpen := true }
        bo := { s.ports.bo with
          bytes := s.ports.bo.bytes ++ out, isOpen := s.ports.bo.isOpen || !out.isEmpty } } }) ∧
    (behind = none → s.ports.bi.ended = true → ∃ u, exec .deBody s = .next u ∧ State.failsTo { s with
      cur := c
      bitsIn := s.bitsIn + BitVec.ofNat 32 s.ports.bi.bits.length
      bytesOut := s.bytesOut + BitVec.ofNat 32 out.length
      ports := { s.ports with
        bi := { s.ports.bi with bits := [], isOpen := true }
        bo := { s.ports.bo with
          bytes := s.ports.bo.bytes ++ out, isOpen := s.ports.bo.isOpen || !out.isEmpty } } }
      u 0x61 0x61 .fmtBodyEos 1 (s.bitsIn + BitVec.ofNat 32 s.ports.bi.bits.length)) ∧
    (behind = none → s.ports.bi.ended = false → ∃ u, exec .deBody s = .next u ∧ u.status.busy = true ∧ u.status.err = false ∧
      u.seq.pending = some (.biRead 1)) ∧
    ∀ t, TreeAt s.mem.nodes s.root t → 256#9 ∉ t.leaves → behind = none) ∧
  ∀ (s : State) (t : Shape) (bytes : List Byte), s.idle → s.portsReady → s.status.treeValid = true →
    s.status.eofSeen = false → t.valid = true → TreeAt s.mem.nodes s.root t → s.cur = s.root → 256#9 ∈ t.leaves →
    (∀ b ∈ bytes, symbolOfByte b ∈ t.leaves) →
    (∀ rest, s.ports.bi.bits = t.body bytes ++ rest → exec .deBody s = .next { s with
      status := { s.status.ended with eofSeen := true }
      bitsIn := s.bitsIn + BitVec.ofNat 32 (t.body bytes).length
      bytesOut := s.bytesOut + BitVec.ofNat 32 bytes.length
      result := s.bytesOut + BitVec.ofNat 32 bytes.length
      ports := { s.ports with
        bi := { s.ports.bi with bits := rest, isOpen := true }
        bo := { s.ports.bo with
          bytes := s.ports.bo.bytes ++ bytes, isOpen := s.ports.bo.isOpen || !bytes.isEmpty } } }) ∧
    ∀ k, k < (t.body bytes).length → s.ports.bi.bits = (t.body bytes).take k → s.ports.bi.ended = true →
      ∃ (out : List Byte) (c : NodeIdx) (u : State), out <+: bytes ∧
        (out.flatMap fun b => t.code (symbolOfByte b)).length ≤ k ∧
        (∀ b post, bytes = out ++ b :: post → k < ((out ++ [b]).flatMap fun b => t.code (symbolOfByte b)).length) ∧
        walkTo s.mem.nodes s.root
          (((t.body bytes).take k).drop (out.flatMap fun b => t.code (symbolOfByte b)).length) = some c ∧
        exec .deBody s = .next u ∧ State.failsTo { s with
          cur := c
          bitsIn := s.bitsIn + BitVec.ofNat 32 k
          bytesOut := s.bytesOut + BitVec.ofNat 32 out.length
          ports := { s.ports with
            bi := { s.ports.bi with bits := [], isOpen := true }
            bo := { s.ports.bo with
              bytes := s.ports.bo.bytes ++ out, isOpen := s.ports.bo.isOpen || !out.isEmpty } } }
          u 0x61 0x61 .fmtBodyEos 1 (s.bitsIn + BitVec.ofNat 32 k)

/-- DE_CLOSE (46_decoder.md rule R264): the output is committed, the source released. That a released source is gone, and that an
output without bytes commits empty, are the model's reading (assumption log 9, 11). -/
def Obligations.DeCloseCommits : Prop :=
  ∀ s : State, s.idle → s.portsReady → s.status.eofSeen = true → exec .deClose s = .next { s with
    status := { s.status.ended with eofSeen := false, magicOk := false }
    bytesOut := 0
    bitsIn := 0
    result := s.bytesOut
    ports := { s.ports with
      bi := s.ports.bi.release
      bo := { s.ports.bo with
        bytes := [], isOpen := false, committed := s.ports.bo.committed ++ [s.ports.bo.bytes] } } }

/-! ### Composite commands -/

/-- COMPRESS (47_composite.md rule R281): it counts the bytes that port IB delivers in the first pass, builds their tree and its code
table, and commits magic word, header and body as one padded stream (30_encoding.md rules R100 to R104). The body is of the bytes of
the second pass (`out`), which are the same unless the source breaks its duty H4 (20_memory.md rule R80). EOF_SEEN at the end is 0, as
its sub-step TB_BUILD leaves it (rule R280, 42_tree_builder.md rule R168; rule R281: assumption log 28); the released source is gone
(assumption log 9). -/
def Obligations.CompressCommitsStream : Prop :=
  ∀ (s : State) (bytes out : List Byte), s.idle → s.portsReady → s.status.eofWritten = false → s.ports.ib.left = bytes →
    s.ports.ib.ended = true → s.ports.ib.rewind.left = out → s.ports.ib.rewind.ended = true → (∀ b ∈ out, b ∈ bytes) →
    bytes.length < 2 ^ 32 - 1 → ∃ (m : Memory) (x : NodeIdx) (t : Shape),
      exec .compress s = .next { s with
        status := { s.status.ended with
          freqValid := true, heapLoaded := false, treeValid := true, codesValid := true, eofWritten := false,
          eofSeen := false }
        mem := m
        root := x
        cur := x
        total := BitVec.ofNat 32 (bytes.length + 1)
        bytesIn := BitVec.ofNat 32 out.length
        bitsOut := 0
        result := s.bitsOut + BitVec.ofNat 32 (streamBits s.magic t out).length
        ports := { s.ports with
          ib := {}
          ob := { s.ports.ob with
            bits := [], isOpen := false,
            committed := s.ports.ob.committed ++ [packBits (s.ports.ob.bits ++ streamBits s.magic t out)] } } } ∧
      Counted (List.replicate 256 0 ++ [1]) m.freq bytes ∧ m.heap = [x] ∧ TreeAt m.nodes x t ∧ t.valid = true ∧
      t.leaves.Nodup ∧ t.leaves.Perm ((loadedLeaves m.freq).map (·.1)) ∧ CodesOf m.codes t ∧
      m.nodes.length = 2 * t.leaves.length - 1

/-- DECOMPRESS (47_composite.md rule R283) on a compressed stream, whatever follows it: the bytes, committed. That the released
source is gone, and that an output without bytes commits empty, are the model's reading (assumption log 9, 11). -/
def Obligations.DecompressCommitsBytes : Prop :=
  ∀ (s : State) (t : Shape) (bytes : List Byte) (rest : List Bool), s.idle → s.portsReady → s.status.eofSeen = false →
    t.valid = true → 256#9 ∈ t.leaves → (∀ b ∈ bytes, symbolOfByte b ∈ t.leaves) →
    s.ports.bi.bits = streamBits s.magic t bytes ++ rest → TreeAt (t.nodesAt 0) 0 t ∧
      exec .decompress s = .next { s with
        status := { s.status.ended with
          heapLoaded := false, treeValid := true, codesValid := false, eofSeen := false, magicOk := false }
        mem := { s.mem with nodes := t.nodesAt 0, heap := [] }
        root := 0
        cur := 0
        bytesOut := 0
        bitsIn := 0
        result := s.bytesOut + BitVec.ofNat 32 bytes.length
        ports := { s.ports with
          bi := {}
          bo := { s.ports.bo with
            bytes := [], isOpen := false, committed := s.ports.bo.committed ++ [s.ports.bo.bytes ++ bytes] } } }

/-- 47_composite.md rule R284: the bytes that COMPRESS committed from a source come back from DECOMPRESS, whatever follows the
stream at port BI. -/
def Obligations.CompressRoundTrip : Prop :=
  ∀ (bytes : List Byte) (s u : State) (trail : List Bool), s.idle → s.portsReady → s.status.eofWritten = false →
    s.presents bytes → s.ports.ob.bits = [] → u.idle → u.portsReady → u.status.eofSeen = false → u.magic = s.magic →
    u.bytesOut = 0 → u.ports.bo.bytes = [] →
    (bytes.length < 2 ^ 32 - 1 → ∃ s', exec .compress s = .next s' ∧ s'.status.done = true) ∧
    ∀ s', exec .compress s = .next s' → s'.status.done = true →
      ∃ stream, s'.ports.ob.committed = s.ports.ob.committed ++ [stream] ∧
        (u.ports.bi.bits = unpackBytes stream ++ trail →
          ∃ u', exec .decompress u = .next u' ∧ u'.status.done = true ∧
            u'.ports.bo.committed = u.ports.bo.committed ++ [bytes] ∧ u'.result = BitVec.ofNat 32 bytes.length)

/-- 47_composite.md rule R285: two engines commit the same stream from the same bytes. -/
def Obligations.CompressDeterministic : Prop :=
  ∀ (bytes : List Byte) (s u s' u' : State), s.idle → u.idle → s.portsReady → u.portsReady →
    s.status.eofWritten = false → u.status.eofWritten = false → s.presents bytes → u.presents bytes → u.magic = s.magic →
    s.ports.ob.bits = [] → u.ports.ob.bits = [] → exec .compress s = .next s' → exec .compress u = .next u' →
    s'.status.done = true → u'.status.done = true →
    ∃ stream, s'.ports.ob.committed = s.ports.ob.committed ++ [stream] ∧
      u'.ports.ob.committed = u.ports.ob.committed ++ [stream]

/-! ### Invariants -/

/-- Every step keeps the memories' form: FREQ and the code table whole or without values, at most 513 nodes, and a queue of at
most 257 distinct allocated nodes (20_memory.md rules R60, R62; 42_tree_builder.md rule R160). -/
def Obligations.MemoryFormKept : Prop := ∀ s t : State, s.mem.wf = true → step s = .next t → t.mem.wf = true

/-- Every step keeps the counters a table: whenever FREQ_VALID = 1, there are 257 counts, PSEUDO_EOF's is 1, TOTAL is their exact
sum, and so no count exceeds TOTAL (41_frequency.md rules R141, R143, R147). -/
def Obligations.CountersKept : Prop :=
  (∀ s t : State, s.freqOk → step s = .next t → t.freqOk) ∧
  ∀ s : State, s.freqOk → s.status.freqValid = true → ∀ c ∈ s.mem.freq, c.toNat ≤ s.total.toNat

/-- Every step keeps these: in the error state DONE is 0 and no flag of STATUS[10:4] is 1; BUSY and DONE are never both 1;
an engine that runs nothing has no sequencer state (10_state.md rules R24 to R26, R48; 60_exceptions.md rule R303). -/
def Obligations.StatusFlagsKept : Prop :=
  ∀ s t : State, s.errOk → s.busyOk → (s.status.busy = false → s.seq = {}) → step s = .next t →
    t.errOk ∧ t.busyOk ∧ (t.status.busy = false → t.seq = {})

/-- From a sound engine every command answers a next state, sound again if the engine is not busy with it: no command reads an entry
without a value, forms an index out of range, empties the queue or overflows the traversal stack (10_state.md rules R30, R51, R52;
20_memory.md rule R62; 42_tree_builder.md rule R167; 44_header_codec.md rule R220; 70_reset_and_hazards.md rule R362). If the
collaborators answer, it is not busy. And every step, also of a command that a port has held, leaves a sound engine or one that runs
such a command; an unaligned access of the host is the one event that the model refuses. -/
def Obligations.EngineStaysSound : Prop :=
  (∀ (i : Instr) (s : State), s.sound → ∃ t, exec i s = .next t ∧ (t.status.busy = false → t.sound)) ∧
  (∀ (i : Instr) (s : State), s.sound → s.answered → ∃ t, exec i s = .next t ∧ t.sound) ∧
  ∀ s : State, s.live → s.alignedNext → ∃ t, step s = .next t ∧ t.live

/-- The engine right after reset has every invariant. -/
def Obligations.InvariantsAtReset : Prop :=
  State.reset.mem.wf = true ∧ State.reset.freqOk ∧ State.reset.errOk ∧ State.reset.busyOk ∧ State.reset.idle ∧
    State.reset.sound ∧ State.reset.live

/-! ### Composite commands and their sub-steps -/

/-- A composite command leaves what the primitive commands whose bodies it runs leave, one issued after the other, with every register and
memory; where one of them raises an error, the composite ends in that error with its own opcode (47_composite.md rules R280 to R283;
70_reset_and_hazards.md rule R345). No sub-step checks its prerequisites inside the composite, so a SEQ_ERROR of a primitive command is
left out (rule R280). -/
def Obligations.CompositeRunsSubSteps : Prop :=
  (∀ s u : State, s.idle → s.status.eofWritten = false →
    execAll [.fcInit, .fcScan, .tbBuild, .cgGen, .hsWriteMagic, .hsWriteTree, .enBody, .enClose] s = .next u →
    u.status.busy = false → (u.status.err = true → u.errCause.cause ≠ .seqError) →
    (u.status.err = false → exec .compress s = .next u) ∧
    (u.status.err = true → exec .compress s = .next { u with errCause := { u.errCause with opcode := 0x70 } })) ∧
  ∀ s u : State, s.idle → s.status.eofSeen = false →
    execAll [.hdReadMagic, .hdReadTree, .deBody, .deClose] s = .next u →
    u.status.busy = false → (u.status.err = true → u.errCause.cause ≠ .seqError) →
    (u.status.err = false → exec .decompress s = .next u) ∧
    (u.status.err = true → exec .decompress s = .next { u with errCause := { u.errCause with opcode := 0x71 } })

/-- COMPRESS raises CNT_OVERFLOW at the byte that TOTAL cannot take, which is there from 2^32 - 1 bytes on (47_composite.md rule R281;
41_frequency.md rule R144), and ENC_NO_CODE at a byte of the second pass that has no code (45_encoder.md rule R244), which the pad leaf of
an empty input gives to byte 0 alone (42_tree_builder.md rule R165). BYTES_IN counts neither byte (assumption log 29). DECOMPRESS raises
FMT_BAD_MAGIC or FMT_MAGIC_EOS on another magic word, the header's error on a bad header, and FMT_BODY_EOS on bits that do not reach
PSEUDO_EOF: a body that is cut off, or any bits where the tree has no PSEUDO_EOF (47_composite.md rule R283), each with the sub-step's
PHASE, and commits nothing. -/
def Obligations.CompositeRejects : Prop :=
  (∀ s : State, s.idle → s.portsReady → s.status.eofWritten = false →
    (∀ pre b post, s.ports.ib.left = pre ++ b :: post → pre.length = 2 ^ 32 - 2 →
      ∃ freq u, Counted (List.replicate 256 0 ++ [1]) freq pre ∧
        exec .compress s = .next u ∧ State.failsTo { s with
          mem := { s.mem with freq := freq }
          total := 0xFFFFFFFF
          bytesIn := BitVec.ofNat 32 pre.length
          ports := { s.ports with ib := { s.ports.ib with left := post, isOpen := true } } }
          u 0x70 0x12 .cntOverflow 0xFFFFFFFF (b.setWidth 32)) ∧
    ∀ bytes pre b post, s.ports.ib.left = bytes → s.ports.ib.ended = true → bytes.length < 2 ^ 32 - 1 →
      s.ports.ib.rewind.left = pre ++ b :: post → (∀ x ∈ pre, x ∈ bytes) → b ∉ bytes → ¬ (bytes = [] ∧ b = 0) →
      ∃ (m : Memory) (x : NodeIdx) (t : Shape) (bits : List Bool) (u : State),
        Counted (List.replicate 256 0 ++ [1]) m.freq bytes ∧ TreeAt m.nodes x t ∧ t.valid = true ∧ CodesOf m.codes t ∧
        bits = fieldBits 32 s.magic ++ t.header ++ pre.flatMap (fun y => t.code (symbolOfByte y)) ∧
        exec .compress s = .next u ∧ State.failsTo { s with
          mem := m
          root := x
          cur := x
          total := BitVec.ofNat 32 (bytes.length + 1)
          bytesIn := BitVec.ofNat 32 pre.length
          bitsOut := s.bitsOut + BitVec.ofNat 32 bits.length
          ports := { s.ports with
            ib := { s.ports.ib.rewind with left := post }
            ob := { s.ports.ob with bits := s.ports.ob.bits ++ bits, isOpen := true } } }
          u 0x70 0x52 .encNoCode 0 (b.setWidth 32)) ∧
  ∀ s : State, s.idle → s.portsReady → s.status.eofSeen = false →
    (∀ v rest, s.ports.bi.bits = fieldBits 32 v ++ rest → v ≠ s.magic → ∃ u, exec .decompress s = .next u ∧
      State.failsTo { s with
        bitsIn := s.bitsIn + 32
        ports := { s.ports with bi := { s.ports.bi with bits := rest, isOpen := true } } }
        u 0x71 0x42 .fmtBadMagic s.magic v) ∧
    (s.ports.bi.bits.length < 32 → s.ports.bi.ended = true → ∃ u, exec .decompress s = .next u ∧
      State.failsTo { s with ports := { s.ports with bi := { s.ports.bi with isOpen := true } } }
        u 0x71 0x42 .fmtMagicEos 32 s.bitsIn) ∧
    (∀ bits n c e f, s.ports.bi.bits = fieldBits 32 s.magic ++ bits →
      n = s.bitsIn + 32 + BitVec.ofNat 32 (bits.length - (readHeader bits).rest.length) →
      (readHeader bits).error n = some (c, e, f) → (c = .fmtHdrEos → s.ports.bi.ended = true) →
      ∃ (nodes : List Node) (u : State), nodes.length = headerNodes bits ∧ exec .decompress s = .next u ∧ State.failsTo { s with
        mem := { s.mem with nodes := nodes, heap := [] }
        bitsIn := n
        ports := { s.ports with bi := { s.ports.bi with isOpen := true } } } u 0x71 0x43 c e f) ∧
    (∀ (t : Shape) (bits : List Bool) (out : List Byte) (c : NodeIdx) (behind : Option (List Bool)) (n : Word), t.valid = true →
      s.ports.bi.bits = fieldBits 32 s.magic ++ t.header ++ bits → s.ports.bi.ended = true →
      decodeBits (t.nodesAt 0) 0 0 bits = (out, c, behind) → n = s.bitsIn + 32 + BitVec.ofNat 32 (t.header.length + bits.length) →
      (256#9 ∉ t.leaves → behind = none) ∧
      (behind = none → ∃ u, exec .decompress s = .next u ∧ State.failsTo { s with
        mem := { s.mem with nodes := t.nodesAt 0, heap := [] }
        root := 0
        cur := c
        bitsIn := n
        bytesOut := s.bytesOut + BitVec.ofNat 32 out.length
        ports := { s.ports with
          bi := { s.ports.bi with bits := [], isOpen := true }
          bo := { s.ports.bo with
            bytes := s.ports.bo.bytes ++ out, isOpen := s.ports.bo.isOpen || !out.isEmpty } } }
        u 0x71 0x61 .fmtBodyEos 1 n)) ∧
    ∀ (t : Shape) (bytes : List Byte) (k : Nat), t.valid = true → 256#9 ∈ t.leaves →
      (∀ b ∈ bytes, symbolOfByte b ∈ t.leaves) → k < (t.body bytes).length →
      s.ports.bi.bits = fieldBits 32 s.magic ++ t.header ++ (t.body bytes).take k → s.ports.bi.ended = true →
      ∃ (out : List Byte) (c : NodeIdx) (n : Word) (u : State), out <+: bytes ∧
        (out.flatMap fun b => t.code (symbolOfByte b)).length ≤ k ∧
        (∀ b post, bytes = out ++ b :: post → k < ((out ++ [b]).flatMap fun b => t.code (symbolOfByte b)).length) ∧
        walkTo (t.nodesAt 0) 0
          (((t.body bytes).take k).drop (out.flatMap fun b => t.code (symbolOfByte b)).length) = some c ∧
        n = s.bitsIn + 32 + BitVec.ofNat 32 (t.header.length + k) ∧ exec .decompress s = .next u ∧ State.failsTo { s with
          mem := { s.mem with nodes := t.nodesAt 0, heap := [] }
          root := 0
          cur := c
          bitsIn := n
          bytesOut := s.bytesOut + BitVec.ofNat 32 out.length
          ports := { s.ports with
            bi := { s.ports.bi with bits := [], isOpen := true }
            bo := { s.ports.bo with
              bytes := s.ports.bo.bytes ++ out, isOpen := s.ports.bo.isOpen || !out.isEmpty } } }
          u 0x71 0x61 .fmtBodyEos 1 n
end

