-- ==== Sys2Proof/Laws/Bits.lean ====
section
/-! SUPPORT. Fields, bytes and codes as bit lists: reading back what was written. -/

namespace Sys2Proof.Machine

theorem bitsFold_getLsbD {w : Nat} (bits : List Bool) (i : Nat) :
    (bits.foldl (fun (v : BitVec w) b => (v <<< 1) ||| (BitVec.ofBool b).setWidth w) 0).getLsbD i =
      (decide (i < w) && bits.reverse.getD i false) := by
  induction bits using List.reverseRecOn generalizing i with
  | nil => simp
  | append_singleton bits b ih =>
    rw [List.foldl_append, List.reverse_append]
    simp only [List.foldl_cons, List.foldl_nil, List.reverse_cons, List.reverse_nil, List.nil_append,
      List.singleton_append, BitVec.getLsbD_or, BitVec.getLsbD_shiftLeft, BitVec.getLsbD_setWidth, ih]
    cases i with
    | zero => cases b <;> simp
    | succ i =>
      by_cases h : i + 1 < w
      · have h' : i < w := by omega
        simp [h, h']
      · simp [h]

theorem fieldValue_getLsbD (bits : List Bool) (i : Nat) :
    (fieldValue bits).getLsbD i = (decide (i < 32) && bits.reverse.getD i false) := bitsFold_getLsbD bits i

@[simp] theorem fieldBits_length (n : Nat) (v : Word) : (fieldBits n v).length = n := by simp [fieldBits]

theorem fieldBits_getD (n : Nat) (v : Word) (i : Nat) :
    (fieldBits n v).getD i false = (decide (i < n) && v.getLsbD (n - 1 - i)) := by
  by_cases h : i < n <;> simp [fieldBits, List.getD_eq_getElem?_getD, h]

theorem fieldBits_reverse_getD (n : Nat) (v : Word) (i : Nat) :
    (fieldBits n v).reverse.getD i false = (decide (i < n) && v.getLsbD i) := by
  by_cases h : i < n
  · rw [List.getD_eq_getElem?_getD, List.getElem?_reverse (by simpa using h), ← List.getD_eq_getElem?_getD,
      fieldBits_getD, fieldBits_length]
    simp only [h, decide_true, Bool.true_and, show n - 1 - i < n by omega, show n - 1 - (n - 1 - i) = i by omega]
  · simp [List.getD_eq_getElem?_getD, h]

theorem fieldValue_fieldBits (n : Nat) (v : Word) : fieldValue (fieldBits n v) = (v.setWidth n).setWidth 32 := by
  ext i hi
  rw [← BitVec.getLsbD_eq_getElem, ← BitVec.getLsbD_eq_getElem, fieldValue_getLsbD, fieldBits_reverse_getD]
  simp [hi]

@[simp] theorem fieldValue_magic (v : Word) : fieldValue (fieldBits 32 v) = v := by
  simp [fieldValue_fieldBits]

@[simp] theorem fieldValue_symbol (v : Symbol) : fieldValue (fieldBits 9 (v.setWidth 32)) = v.setWidth 32 := by
  rw [fieldValue_fieldBits]
  ext i hi; simp

theorem fieldBits_streamByte (bits : List Bool) (k : Nat) :
    fieldBits 8 ((streamByte bits k).setWidth 32) = (List.range 8).map fun j => bits.getD (8 * k + j) false := by
  apply List.ext_getElem (by simp)
  intro i h₁ h₂
  have hi : i < 8 := by simpa using h₁
  have := fieldBits_getD 8 ((streamByte bits k).setWidth 32) i
  rw [List.getD_eq_getElem _ _ h₁] at this
  rw [this]
  simp only [streamByte, BitVec.getLsbD_setWidth, fieldValue_getLsbD]
  rw [List.getD_eq_getElem?_getD, List.getElem?_reverse (by simp; omega)]
  simp [hi, show 7 - i < 8 by omega, show 7 - i < 32 by omega, show 7 - (7 - i) = i by omega]

theorem range_flatMap_eight {α : Type} (f : Nat → α) (n : Nat) :
    (List.range n).flatMap (fun k => (List.range 8).map fun j => f (8 * k + j)) = (List.range (8 * n)).map f := by
  induction n with
  | zero => simp
  | succ n ih =>
    rw [List.range_succ (n := n), List.flatMap_append, ih, show 8 * (n + 1) = 8 * n + 8 by omega, List.range_add]
    simp

/-- The bytes of a packed stream carry its bits and then the pad, 0 bits up to a whole byte (30_encoding.md rule R104). -/
theorem unpackBytes_packBits (bits : List Bool) :
    unpackBytes (packBits bits) = bits ++ List.replicate (8 * ((bits.length + 7) / 8) - bits.length) false := by
  have : unpackBytes (packBits bits) = (List.range (8 * ((bits.length + 7) / 8))).map fun i => bits.getD i false := by
    rw [← range_flatMap_eight]
    simp only [unpackBytes, packBits, List.flatMap_map]
    congr 1
    funext k
    exact fieldBits_streamByte bits k
  rw [this]
  apply List.ext_getElem (by simp; omega)
  intro i h₁ h₂
  by_cases h : i < bits.length
  · simp [h]
  · simp [List.getElem_append, h]

theorem packBits_length (bits : List Bool) : (packBits bits).length = (bits.length + 7) / 8 := by simp [packBits]

theorem ofPath_len {p : List Bool} (h : p.length ≤ 256) : (Code.ofPath p).len.toNat = p.length := by
  simp [Code.ofPath]; omega

/-- A path of at most 256 bits is the path of its table entry (10_state.md rules R43, R45). -/
theorem ofPath_path {p : List Bool} (h : p.length ≤ 256) : (Code.ofPath p).path = p := by
  apply List.ext_getElem (by simp [Code.path, ofPath_len h])
  intro i h₁ h₂
  simp only [Code.path, ofPath_len h, List.getElem_map, List.getElem_range]
  simp only [Code.ofPath, bitsFold_getLsbD]
  rw [List.getD_eq_getElem?_getD, List.getElem?_reverse (by omega)]
  simp [show p.length - 1 - (p.length - 1 - i) = i by omega, show p.length - 1 - i < 256 by omega, h₂]

theorem ofPath_len_zero {p : List Bool} (h : p.length ≤ 256) : (Code.ofPath p).len = 0 ↔ p = [] := by
  rw [← BitVec.toNat_inj, ofPath_len h]
  simp

/-! ### STATUS and CTRL as words -/

theorem getLsbD_append_bit {n : Nat} (x : BitVec n) (b : Bool) (k : Nat) :
    (x ++ BitVec.ofBool b).getLsbD k = if k = 0 then b else x.getLsbD (k - 1) := by
  rw [BitVec.getLsbD_append]
  by_cases h : k = 0
  · subst h; simp
  · rw [if_neg h]; simp [show ¬ k < 1 by omega]

/-- STATUS's bits (10_state.md rule R23). -/
theorem Status.word_getLsbD (st : Status) (k : Nat) : st.word.getLsbD k =
    [st.busy, st.done, st.err, st.reject, st.freqValid, st.heapLoaded, st.treeValid, st.codesValid, st.eofWritten, st.eofSeen,
      st.magicOk].getD k false := by
  unfold Status.word
  iterate 11 erw [getLsbD_append_bit]
  rcases k with _ | _ | _ | _ | _ | _ | _ | _ | _ | _ | _ | k <;> simp

/-- CTRL's bits (10_state.md rule R33). -/
theorem Ctrl.word_getLsbD (c : Ctrl) (k : Nat) : c.word.getLsbD k = [c.ieDone, c.ieErr].getD k false := by
  unfold Ctrl.word
  iterate 2 erw [getLsbD_append_bit]
  rcases k with _ | _ | k <;> simp

end Sys2Proof.Machine
end

