-- ==== Sys2Proof/Laws/State.lean ====
section
/-! SUPPORT. One lemma per field of the state and per shared update of it, each true by unfolding the update once. -/

namespace Sys2Proof.Machine

variable (s : State)

@[simp] theorem State.setStatus_status (v : Status) : (s.setStatus v).status = v := rfl
@[simp] theorem State.setStatus_ctrl (v : Status) : (s.setStatus v).ctrl = s.ctrl := rfl
@[simp] theorem State.setStatus_errCause (v : Status) : (s.setStatus v).errCause = s.errCause := rfl
@[simp] theorem State.setStatus_errExpected (v : Status) : (s.setStatus v).errExpected = s.errExpected := rfl
@[simp] theorem State.setStatus_errFound (v : Status) : (s.setStatus v).errFound = s.errFound := rfl
@[simp] theorem State.setStatus_result (v : Status) : (s.setStatus v).result = s.result := rfl
@[simp] theorem State.setStatus_root (v : Status) : (s.setStatus v).root = s.root := rfl
@[simp] theorem State.setStatus_cur (v : Status) : (s.setStatus v).cur = s.cur := rfl
@[simp] theorem State.setStatus_total (v : Status) : (s.setStatus v).total = s.total := rfl
@[simp] theorem State.setStatus_bytesIn (v : Status) : (s.setStatus v).bytesIn = s.bytesIn := rfl
@[simp] theorem State.setStatus_bytesOut (v : Status) : (s.setStatus v).bytesOut = s.bytesOut := rfl
@[simp] theorem State.setStatus_bitsIn (v : Status) : (s.setStatus v).bitsIn = s.bitsIn := rfl
@[simp] theorem State.setStatus_bitsOut (v : Status) : (s.setStatus v).bitsOut = s.bitsOut := rfl
@[simp] theorem State.setStatus_nodeOut (v : Status) : (s.setStatus v).nodeOut = s.nodeOut := rfl
@[simp] theorem State.setStatus_codeOut (v : Status) : (s.setStatus v).codeOut = s.codeOut := rfl
@[simp] theorem State.setStatus_magic (v : Status) : (s.setStatus v).magic = s.magic := rfl
@[simp] theorem State.setStatus_mem (v : Status) : (s.setStatus v).mem = s.mem := rfl
@[simp] theorem State.setStatus_seq (v : Status) : (s.setStatus v).seq = s.seq := rfl
@[simp] theorem State.setStatus_ports (v : Status) : (s.setStatus v).ports = s.ports := rfl
@[simp] theorem State.setStatus_inputs (v : Status) : (s.setStatus v).inputs = s.inputs := rfl
@[simp] theorem State.setStatus_readData (v : Status) : (s.setStatus v).readData = s.readData := rfl
@[simp] theorem State.setStatus_draws (v : Status) : (s.setStatus v).draws = s.draws := rfl

@[simp] theorem State.setResult_status (v : Word) : (s.setResult v).status = s.status := rfl
@[simp] theorem State.setResult_ctrl (v : Word) : (s.setResult v).ctrl = s.ctrl := rfl
@[simp] theorem State.setResult_errCause (v : Word) : (s.setResult v).errCause = s.errCause := rfl
@[simp] theorem State.setResult_errExpected (v : Word) : (s.setResult v).errExpected = s.errExpected := rfl
@[simp] theorem State.setResult_errFound (v : Word) : (s.setResult v).errFound = s.errFound := rfl
@[simp] theorem State.setResult_result (v : Word) : (s.setResult v).result = v := rfl
@[simp] theorem State.setResult_root (v : Word) : (s.setResult v).root = s.root := rfl
@[simp] theorem State.setResult_cur (v : Word) : (s.setResult v).cur = s.cur := rfl
@[simp] theorem State.setResult_total (v : Word) : (s.setResult v).total = s.total := rfl
@[simp] theorem State.setResult_bytesIn (v : Word) : (s.setResult v).bytesIn = s.bytesIn := rfl
@[simp] theorem State.setResult_bytesOut (v : Word) : (s.setResult v).bytesOut = s.bytesOut := rfl
@[simp] theorem State.setResult_bitsIn (v : Word) : (s.setResult v).bitsIn = s.bitsIn := rfl
@[simp] theorem State.setResult_bitsOut (v : Word) : (s.setResult v).bitsOut = s.bitsOut := rfl
@[simp] theorem State.setResult_nodeOut (v : Word) : (s.setResult v).nodeOut = s.nodeOut := rfl
@[simp] theorem State.setResult_codeOut (v : Word) : (s.setResult v).codeOut = s.codeOut := rfl
@[simp] theorem State.setResult_magic (v : Word) : (s.setResult v).magic = s.magic := rfl
@[simp] theorem State.setResult_mem (v : Word) : (s.setResult v).mem = s.mem := rfl
@[simp] theorem State.setResult_seq (v : Word) : (s.setResult v).seq = s.seq := rfl
@[simp] theorem State.setResult_ports (v : Word) : (s.setResult v).ports = s.ports := rfl
@[simp] theorem State.setResult_inputs (v : Word) : (s.setResult v).inputs = s.inputs := rfl
@[simp] theorem State.setResult_readData (v : Word) : (s.setResult v).readData = s.readData := rfl
@[simp] theorem State.setResult_draws (v : Word) : (s.setResult v).draws = s.draws := rfl

@[simp] theorem State.setRoot_status (v : NodeIdx) : (s.setRoot v).status = s.status := rfl
@[simp] theorem State.setRoot_ctrl (v : NodeIdx) : (s.setRoot v).ctrl = s.ctrl := rfl
@[simp] theorem State.setRoot_errCause (v : NodeIdx) : (s.setRoot v).errCause = s.errCause := rfl
@[simp] theorem State.setRoot_errExpected (v : NodeIdx) : (s.setRoot v).errExpected = s.errExpected := rfl
@[simp] theorem State.setRoot_errFound (v : NodeIdx) : (s.setRoot v).errFound = s.errFound := rfl
@[simp] theorem State.setRoot_result (v : NodeIdx) : (s.setRoot v).result = s.result := rfl
@[simp] theorem State.setRoot_root (v : NodeIdx) : (s.setRoot v).root = v := rfl
@[simp] theorem State.setRoot_cur (v : NodeIdx) : (s.setRoot v).cur = s.cur := rfl
@[simp] theorem State.setRoot_total (v : NodeIdx) : (s.setRoot v).total = s.total := rfl
@[simp] theorem State.setRoot_bytesIn (v : NodeIdx) : (s.setRoot v).bytesIn = s.bytesIn := rfl
@[simp] theorem State.setRoot_bytesOut (v : NodeIdx) : (s.setRoot v).bytesOut = s.bytesOut := rfl
@[simp] theorem State.setRoot_bitsIn (v : NodeIdx) : (s.setRoot v).bitsIn = s.bitsIn := rfl
@[simp] theorem State.setRoot_bitsOut (v : NodeIdx) : (s.setRoot v).bitsOut = s.bitsOut := rfl
@[simp] theorem State.setRoot_nodeOut (v : NodeIdx) : (s.setRoot v).nodeOut = s.nodeOut := rfl
@[simp] theorem State.setRoot_codeOut (v : NodeIdx) : (s.setRoot v).codeOut = s.codeOut := rfl
@[simp] theorem State.setRoot_magic (v : NodeIdx) : (s.setRoot v).magic = s.magic := rfl
@[simp] theorem State.setRoot_mem (v : NodeIdx) : (s.setRoot v).mem = s.mem := rfl
@[simp] theorem State.setRoot_seq (v : NodeIdx) : (s.setRoot v).seq = s.seq := rfl
@[simp] theorem State.setRoot_ports (v : NodeIdx) : (s.setRoot v).ports = s.ports := rfl
@[simp] theorem State.setRoot_inputs (v : NodeIdx) : (s.setRoot v).inputs = s.inputs := rfl
@[simp] theorem State.setRoot_readData (v : NodeIdx) : (s.setRoot v).readData = s.readData := rfl
@[simp] theorem State.setRoot_draws (v : NodeIdx) : (s.setRoot v).draws = s.draws := rfl

@[simp] theorem State.setCur_status (v : NodeIdx) : (s.setCur v).status = s.status := rfl
@[simp] theorem State.setCur_ctrl (v : NodeIdx) : (s.setCur v).ctrl = s.ctrl := rfl
@[simp] theorem State.setCur_errCause (v : NodeIdx) : (s.setCur v).errCause = s.errCause := rfl
@[simp] theorem State.setCur_errExpected (v : NodeIdx) : (s.setCur v).errExpected = s.errExpected := rfl
@[simp] theorem State.setCur_errFound (v : NodeIdx) : (s.setCur v).errFound = s.errFound := rfl
@[simp] theorem State.setCur_result (v : NodeIdx) : (s.setCur v).result = s.result := rfl
@[simp] theorem State.setCur_root (v : NodeIdx) : (s.setCur v).root = s.root := rfl
@[simp] theorem State.setCur_cur (v : NodeIdx) : (s.setCur v).cur = v := rfl
@[simp] theorem State.setCur_total (v : NodeIdx) : (s.setCur v).total = s.total := rfl
@[simp] theorem State.setCur_bytesIn (v : NodeIdx) : (s.setCur v).bytesIn = s.bytesIn := rfl
@[simp] theorem State.setCur_bytesOut (v : NodeIdx) : (s.setCur v).bytesOut = s.bytesOut := rfl
@[simp] theorem State.setCur_bitsIn (v : NodeIdx) : (s.setCur v).bitsIn = s.bitsIn := rfl
@[simp] theorem State.setCur_bitsOut (v : NodeIdx) : (s.setCur v).bitsOut = s.bitsOut := rfl
@[simp] theorem State.setCur_nodeOut (v : NodeIdx) : (s.setCur v).nodeOut = s.nodeOut := rfl
@[simp] theorem State.setCur_codeOut (v : NodeIdx) : (s.setCur v).codeOut = s.codeOut := rfl
@[simp] theorem State.setCur_magic (v : NodeIdx) : (s.setCur v).magic = s.magic := rfl
@[simp] theorem State.setCur_mem (v : NodeIdx) : (s.setCur v).mem = s.mem := rfl
@[simp] theorem State.setCur_seq (v : NodeIdx) : (s.setCur v).seq = s.seq := rfl
@[simp] theorem State.setCur_ports (v : NodeIdx) : (s.setCur v).ports = s.ports := rfl
@[simp] theorem State.setCur_inputs (v : NodeIdx) : (s.setCur v).inputs = s.inputs := rfl
@[simp] theorem State.setCur_readData (v : NodeIdx) : (s.setCur v).readData = s.readData := rfl
@[simp] theorem State.setCur_draws (v : NodeIdx) : (s.setCur v).draws = s.draws := rfl

@[simp] theorem State.setTotal_status (v : Word) : (s.setTotal v).status = s.status := rfl
@[simp] theorem State.setTotal_ctrl (v : Word) : (s.setTotal v).ctrl = s.ctrl := rfl
@[simp] theorem State.setTotal_errCause (v : Word) : (s.setTotal v).errCause = s.errCause := rfl
@[simp] theorem State.setTotal_errExpected (v : Word) : (s.setTotal v).errExpected = s.errExpected := rfl
@[simp] theorem State.setTotal_errFound (v : Word) : (s.setTotal v).errFound = s.errFound := rfl
@[simp] theorem State.setTotal_result (v : Word) : (s.setTotal v).result = s.result := rfl
@[simp] theorem State.setTotal_root (v : Word) : (s.setTotal v).root = s.root := rfl
@[simp] theorem State.setTotal_cur (v : Word) : (s.setTotal v).cur = s.cur := rfl
@[simp] theorem State.setTotal_total (v : Word) : (s.setTotal v).total = v := rfl
@[simp] theorem State.setTotal_bytesIn (v : Word) : (s.setTotal v).bytesIn = s.bytesIn := rfl
@[simp] theorem State.setTotal_bytesOut (v : Word) : (s.setTotal v).bytesOut = s.bytesOut := rfl
@[simp] theorem State.setTotal_bitsIn (v : Word) : (s.setTotal v).bitsIn = s.bitsIn := rfl
@[simp] theorem State.setTotal_bitsOut (v : Word) : (s.setTotal v).bitsOut = s.bitsOut := rfl
@[simp] theorem State.setTotal_nodeOut (v : Word) : (s.setTotal v).nodeOut = s.nodeOut := rfl
@[simp] theorem State.setTotal_codeOut (v : Word) : (s.setTotal v).codeOut = s.codeOut := rfl
@[simp] theorem State.setTotal_magic (v : Word) : (s.setTotal v).magic = s.magic := rfl
@[simp] theorem State.setTotal_mem (v : Word) : (s.setTotal v).mem = s.mem := rfl
@[simp] theorem State.setTotal_seq (v : Word) : (s.setTotal v).seq = s.seq := rfl
@[simp] theorem State.setTotal_ports (v : Word) : (s.setTotal v).ports = s.ports := rfl
@[simp] theorem State.setTotal_inputs (v : Word) : (s.setTotal v).inputs = s.inputs := rfl
@[simp] theorem State.setTotal_readData (v : Word) : (s.setTotal v).readData = s.readData := rfl
@[simp] theorem State.setTotal_draws (v : Word) : (s.setTotal v).draws = s.draws := rfl

@[simp] theorem State.setBytesIn_status (v : Word) : (s.setBytesIn v).status = s.status := rfl
@[simp] theorem State.setBytesIn_ctrl (v : Word) : (s.setBytesIn v).ctrl = s.ctrl := rfl
@[simp] theorem State.setBytesIn_errCause (v : Word) : (s.setBytesIn v).errCause = s.errCause := rfl
@[simp] theorem State.setBytesIn_errExpected (v : Word) : (s.setBytesIn v).errExpected = s.errExpected := rfl
@[simp] theorem State.setBytesIn_errFound (v : Word) : (s.setBytesIn v).errFound = s.errFound := rfl
@[simp] theorem State.setBytesIn_result (v : Word) : (s.setBytesIn v).result = s.result := rfl
@[simp] theorem State.setBytesIn_root (v : Word) : (s.setBytesIn v).root = s.root := rfl
@[simp] theorem State.setBytesIn_cur (v : Word) : (s.setBytesIn v).cur = s.cur := rfl
@[simp] theorem State.setBytesIn_total (v : Word) : (s.setBytesIn v).total = s.total := rfl
@[simp] theorem State.setBytesIn_bytesIn (v : Word) : (s.setBytesIn v).bytesIn = v := rfl
@[simp] theorem State.setBytesIn_bytesOut (v : Word) : (s.setBytesIn v).bytesOut = s.bytesOut := rfl
@[simp] theorem State.setBytesIn_bitsIn (v : Word) : (s.setBytesIn v).bitsIn = s.bitsIn := rfl
@[simp] theorem State.setBytesIn_bitsOut (v : Word) : (s.setBytesIn v).bitsOut = s.bitsOut := rfl
@[simp] theorem State.setBytesIn_nodeOut (v : Word) : (s.setBytesIn v).nodeOut = s.nodeOut := rfl
@[simp] theorem State.setBytesIn_codeOut (v : Word) : (s.setBytesIn v).codeOut = s.codeOut := rfl
@[simp] theorem State.setBytesIn_magic (v : Word) : (s.setBytesIn v).magic = s.magic := rfl
@[simp] theorem State.setBytesIn_mem (v : Word) : (s.setBytesIn v).mem = s.mem := rfl
@[simp] theorem State.setBytesIn_seq (v : Word) : (s.setBytesIn v).seq = s.seq := rfl
@[simp] theorem State.setBytesIn_ports (v : Word) : (s.setBytesIn v).ports = s.ports := rfl
@[simp] theorem State.setBytesIn_inputs (v : Word) : (s.setBytesIn v).inputs = s.inputs := rfl
@[simp] theorem State.setBytesIn_readData (v : Word) : (s.setBytesIn v).readData = s.readData := rfl
@[simp] theorem State.setBytesIn_draws (v : Word) : (s.setBytesIn v).draws = s.draws := rfl

@[simp] theorem State.setBytesOut_status (v : Word) : (s.setBytesOut v).status = s.status := rfl
@[simp] theorem State.setBytesOut_ctrl (v : Word) : (s.setBytesOut v).ctrl = s.ctrl := rfl
@[simp] theorem State.setBytesOut_errCause (v : Word) : (s.setBytesOut v).errCause = s.errCause := rfl
@[simp] theorem State.setBytesOut_errExpected (v : Word) : (s.setBytesOut v).errExpected = s.errExpected := rfl
@[simp] theorem State.setBytesOut_errFound (v : Word) : (s.setBytesOut v).errFound = s.errFound := rfl
@[simp] theorem State.setBytesOut_result (v : Word) : (s.setBytesOut v).result = s.result := rfl
@[simp] theorem State.setBytesOut_root (v : Word) : (s.setBytesOut v).root = s.root := rfl
@[simp] theorem State.setBytesOut_cur (v : Word) : (s.setBytesOut v).cur = s.cur := rfl
@[simp] theorem State.setBytesOut_total (v : Word) : (s.setBytesOut v).total = s.total := rfl
@[simp] theorem State.setBytesOut_bytesIn (v : Word) : (s.setBytesOut v).bytesIn = s.bytesIn := rfl
@[simp] theorem State.setBytesOut_bytesOut (v : Word) : (s.setBytesOut v).bytesOut = v := rfl
@[simp] theorem State.setBytesOut_bitsIn (v : Word) : (s.setBytesOut v).bitsIn = s.bitsIn := rfl
@[simp] theorem State.setBytesOut_bitsOut (v : Word) : (s.setBytesOut v).bitsOut = s.bitsOut := rfl
@[simp] theorem State.setBytesOut_nodeOut (v : Word) : (s.setBytesOut v).nodeOut = s.nodeOut := rfl
@[simp] theorem State.setBytesOut_codeOut (v : Word) : (s.setBytesOut v).codeOut = s.codeOut := rfl
@[simp] theorem State.setBytesOut_magic (v : Word) : (s.setBytesOut v).magic = s.magic := rfl
@[simp] theorem State.setBytesOut_mem (v : Word) : (s.setBytesOut v).mem = s.mem := rfl
@[simp] theorem State.setBytesOut_seq (v : Word) : (s.setBytesOut v).seq = s.seq := rfl
@[simp] theorem State.setBytesOut_ports (v : Word) : (s.setBytesOut v).ports = s.ports := rfl
@[simp] theorem State.setBytesOut_inputs (v : Word) : (s.setBytesOut v).inputs = s.inputs := rfl
@[simp] theorem State.setBytesOut_readData (v : Word) : (s.setBytesOut v).readData = s.readData := rfl
@[simp] theorem State.setBytesOut_draws (v : Word) : (s.setBytesOut v).draws = s.draws := rfl

@[simp] theorem State.setBitsIn_status (v : Word) : (s.setBitsIn v).status = s.status := rfl
@[simp] theorem State.setBitsIn_ctrl (v : Word) : (s.setBitsIn v).ctrl = s.ctrl := rfl
@[simp] theorem State.setBitsIn_errCause (v : Word) : (s.setBitsIn v).errCause = s.errCause := rfl
@[simp] theorem State.setBitsIn_errExpected (v : Word) : (s.setBitsIn v).errExpected = s.errExpected := rfl
@[simp] theorem State.setBitsIn_errFound (v : Word) : (s.setBitsIn v).errFound = s.errFound := rfl
@[simp] theorem State.setBitsIn_result (v : Word) : (s.setBitsIn v).result = s.result := rfl
@[simp] theorem State.setBitsIn_root (v : Word) : (s.setBitsIn v).root = s.root := rfl
@[simp] theorem State.setBitsIn_cur (v : Word) : (s.setBitsIn v).cur = s.cur := rfl
@[simp] theorem State.setBitsIn_total (v : Word) : (s.setBitsIn v).total = s.total := rfl
@[simp] theorem State.setBitsIn_bytesIn (v : Word) : (s.setBitsIn v).bytesIn = s.bytesIn := rfl
@[simp] theorem State.setBitsIn_bytesOut (v : Word) : (s.setBitsIn v).bytesOut = s.bytesOut := rfl
@[simp] theorem State.setBitsIn_bitsIn (v : Word) : (s.setBitsIn v).bitsIn = v := rfl
@[simp] theorem State.setBitsIn_bitsOut (v : Word) : (s.setBitsIn v).bitsOut = s.bitsOut := rfl
@[simp] theorem State.setBitsIn_nodeOut (v : Word) : (s.setBitsIn v).nodeOut = s.nodeOut := rfl
@[simp] theorem State.setBitsIn_codeOut (v : Word) : (s.setBitsIn v).codeOut = s.codeOut := rfl
@[simp] theorem State.setBitsIn_magic (v : Word) : (s.setBitsIn v).magic = s.magic := rfl
@[simp] theorem State.setBitsIn_mem (v : Word) : (s.setBitsIn v).mem = s.mem := rfl
@[simp] theorem State.setBitsIn_seq (v : Word) : (s.setBitsIn v).seq = s.seq := rfl
@[simp] theorem State.setBitsIn_ports (v : Word) : (s.setBitsIn v).ports = s.ports := rfl
@[simp] theorem State.setBitsIn_inputs (v : Word) : (s.setBitsIn v).inputs = s.inputs := rfl
@[simp] theorem State.setBitsIn_readData (v : Word) : (s.setBitsIn v).readData = s.readData := rfl
@[simp] theorem State.setBitsIn_draws (v : Word) : (s.setBitsIn v).draws = s.draws := rfl

@[simp] theorem State.setBitsOut_status (v : Word) : (s.setBitsOut v).status = s.status := rfl
@[simp] theorem State.setBitsOut_ctrl (v : Word) : (s.setBitsOut v).ctrl = s.ctrl := rfl
@[simp] theorem State.setBitsOut_errCause (v : Word) : (s.setBitsOut v).errCause = s.errCause := rfl
@[simp] theorem State.setBitsOut_errExpected (v : Word) : (s.setBitsOut v).errExpected = s.errExpected := rfl
@[simp] theorem State.setBitsOut_errFound (v : Word) : (s.setBitsOut v).errFound = s.errFound := rfl
@[simp] theorem State.setBitsOut_result (v : Word) : (s.setBitsOut v).result = s.result := rfl
@[simp] theorem State.setBitsOut_root (v : Word) : (s.setBitsOut v).root = s.root := rfl
@[simp] theorem State.setBitsOut_cur (v : Word) : (s.setBitsOut v).cur = s.cur := rfl
@[simp] theorem State.setBitsOut_total (v : Word) : (s.setBitsOut v).total = s.total := rfl
@[simp] theorem State.setBitsOut_bytesIn (v : Word) : (s.setBitsOut v).bytesIn = s.bytesIn := rfl
@[simp] theorem State.setBitsOut_bytesOut (v : Word) : (s.setBitsOut v).bytesOut = s.bytesOut := rfl
@[simp] theorem State.setBitsOut_bitsIn (v : Word) : (s.setBitsOut v).bitsIn = s.bitsIn := rfl
@[simp] theorem State.setBitsOut_bitsOut (v : Word) : (s.setBitsOut v).bitsOut = v := rfl
@[simp] theorem State.setBitsOut_nodeOut (v : Word) : (s.setBitsOut v).nodeOut = s.nodeOut := rfl
@[simp] theorem State.setBitsOut_codeOut (v : Word) : (s.setBitsOut v).codeOut = s.codeOut := rfl
@[simp] theorem State.setBitsOut_magic (v : Word) : (s.setBitsOut v).magic = s.magic := rfl
@[simp] theorem State.setBitsOut_mem (v : Word) : (s.setBitsOut v).mem = s.mem := rfl
@[simp] theorem State.setBitsOut_seq (v : Word) : (s.setBitsOut v).seq = s.seq := rfl
@[simp] theorem State.setBitsOut_ports (v : Word) : (s.setBitsOut v).ports = s.ports := rfl
@[simp] theorem State.setBitsOut_inputs (v : Word) : (s.setBitsOut v).inputs = s.inputs := rfl
@[simp] theorem State.setBitsOut_readData (v : Word) : (s.setBitsOut v).readData = s.readData := rfl
@[simp] theorem State.setBitsOut_draws (v : Word) : (s.setBitsOut v).draws = s.draws := rfl

@[simp] theorem State.setNodeOut_status (v : Word) : (s.setNodeOut v).status = s.status := rfl
@[simp] theorem State.setNodeOut_ctrl (v : Word) : (s.setNodeOut v).ctrl = s.ctrl := rfl
@[simp] theorem State.setNodeOut_errCause (v : Word) : (s.setNodeOut v).errCause = s.errCause := rfl
@[simp] theorem State.setNodeOut_errExpected (v : Word) : (s.setNodeOut v).errExpected = s.errExpected := rfl
@[simp] theorem State.setNodeOut_errFound (v : Word) : (s.setNodeOut v).errFound = s.errFound := rfl
@[simp] theorem State.setNodeOut_result (v : Word) : (s.setNodeOut v).result = s.result := rfl
@[simp] theorem State.setNodeOut_root (v : Word) : (s.setNodeOut v).root = s.root := rfl
@[simp] theorem State.setNodeOut_cur (v : Word) : (s.setNodeOut v).cur = s.cur := rfl
@[simp] theorem State.setNodeOut_total (v : Word) : (s.setNodeOut v).total = s.total := rfl
@[simp] theorem State.setNodeOut_bytesIn (v : Word) : (s.setNodeOut v).bytesIn = s.bytesIn := rfl
@[simp] theorem State.setNodeOut_bytesOut (v : Word) : (s.setNodeOut v).bytesOut = s.bytesOut := rfl
@[simp] theorem State.setNodeOut_bitsIn (v : Word) : (s.setNodeOut v).bitsIn = s.bitsIn := rfl
@[simp] theorem State.setNodeOut_bitsOut (v : Word) : (s.setNodeOut v).bitsOut = s.bitsOut := rfl
@[simp] theorem State.setNodeOut_nodeOut (v : Word) : (s.setNodeOut v).nodeOut = v := rfl
@[simp] theorem State.setNodeOut_codeOut (v : Word) : (s.setNodeOut v).codeOut = s.codeOut := rfl
@[simp] theorem State.setNodeOut_magic (v : Word) : (s.setNodeOut v).magic = s.magic := rfl
@[simp] theorem State.setNodeOut_mem (v : Word) : (s.setNodeOut v).mem = s.mem := rfl
@[simp] theorem State.setNodeOut_seq (v : Word) : (s.setNodeOut v).seq = s.seq := rfl
@[simp] theorem State.setNodeOut_ports (v : Word) : (s.setNodeOut v).ports = s.ports := rfl
@[simp] theorem State.setNodeOut_inputs (v : Word) : (s.setNodeOut v).inputs = s.inputs := rfl
@[simp] theorem State.setNodeOut_readData (v : Word) : (s.setNodeOut v).readData = s.readData := rfl
@[simp] theorem State.setNodeOut_draws (v : Word) : (s.setNodeOut v).draws = s.draws := rfl

@[simp] theorem State.setCodeOut_status (v : BitVec 256) : (s.setCodeOut v).status = s.status := rfl
@[simp] theorem State.setCodeOut_ctrl (v : BitVec 256) : (s.setCodeOut v).ctrl = s.ctrl := rfl
@[simp] theorem State.setCodeOut_errCause (v : BitVec 256) : (s.setCodeOut v).errCause = s.errCause := rfl
@[simp] theorem State.setCodeOut_errExpected (v : BitVec 256) : (s.setCodeOut v).errExpected = s.errExpected := rfl
@[simp] theorem State.setCodeOut_errFound (v : BitVec 256) : (s.setCodeOut v).errFound = s.errFound := rfl
@[simp] theorem State.setCodeOut_result (v : BitVec 256) : (s.setCodeOut v).result = s.result := rfl
@[simp] theorem State.setCodeOut_root (v : BitVec 256) : (s.setCodeOut v).root = s.root := rfl
@[simp] theorem State.setCodeOut_cur (v : BitVec 256) : (s.setCodeOut v).cur = s.cur := rfl
@[simp] theorem State.setCodeOut_total (v : BitVec 256) : (s.setCodeOut v).total = s.total := rfl
@[simp] theorem State.setCodeOut_bytesIn (v : BitVec 256) : (s.setCodeOut v).bytesIn = s.bytesIn := rfl
@[simp] theorem State.setCodeOut_bytesOut (v : BitVec 256) : (s.setCodeOut v).bytesOut = s.bytesOut := rfl
@[simp] theorem State.setCodeOut_bitsIn (v : BitVec 256) : (s.setCodeOut v).bitsIn = s.bitsIn := rfl
@[simp] theorem State.setCodeOut_bitsOut (v : BitVec 256) : (s.setCodeOut v).bitsOut = s.bitsOut := rfl
@[simp] theorem State.setCodeOut_nodeOut (v : BitVec 256) : (s.setCodeOut v).nodeOut = s.nodeOut := rfl
@[simp] theorem State.setCodeOut_codeOut (v : BitVec 256) : (s.setCodeOut v).codeOut = v := rfl
@[simp] theorem State.setCodeOut_magic (v : BitVec 256) : (s.setCodeOut v).magic = s.magic := rfl
@[simp] theorem State.setCodeOut_mem (v : BitVec 256) : (s.setCodeOut v).mem = s.mem := rfl
@[simp] theorem State.setCodeOut_seq (v : BitVec 256) : (s.setCodeOut v).seq = s.seq := rfl
@[simp] theorem State.setCodeOut_ports (v : BitVec 256) : (s.setCodeOut v).ports = s.ports := rfl
@[simp] theorem State.setCodeOut_inputs (v : BitVec 256) : (s.setCodeOut v).inputs = s.inputs := rfl
@[simp] theorem State.setCodeOut_readData (v : BitVec 256) : (s.setCodeOut v).readData = s.readData := rfl
@[simp] theorem State.setCodeOut_draws (v : BitVec 256) : (s.setCodeOut v).draws = s.draws := rfl

@[simp] theorem State.setMem_status (v : Memory) : (s.setMem v).status = s.status := rfl
@[simp] theorem State.setMem_ctrl (v : Memory) : (s.setMem v).ctrl = s.ctrl := rfl
@[simp] theorem State.setMem_errCause (v : Memory) : (s.setMem v).errCause = s.errCause := rfl
@[simp] theorem State.setMem_errExpected (v : Memory) : (s.setMem v).errExpected = s.errExpected := rfl
@[simp] theorem State.setMem_errFound (v : Memory) : (s.setMem v).errFound = s.errFound := rfl
@[simp] theorem State.setMem_result (v : Memory) : (s.setMem v).result = s.result := rfl
@[simp] theorem State.setMem_root (v : Memory) : (s.setMem v).root = s.root := rfl
@[simp] theorem State.setMem_cur (v : Memory) : (s.setMem v).cur = s.cur := rfl
@[simp] theorem State.setMem_total (v : Memory) : (s.setMem v).total = s.total := rfl
@[simp] theorem State.setMem_bytesIn (v : Memory) : (s.setMem v).bytesIn = s.bytesIn := rfl
@[simp] theorem State.setMem_bytesOut (v : Memory) : (s.setMem v).bytesOut = s.bytesOut := rfl
@[simp] theorem State.setMem_bitsIn (v : Memory) : (s.setMem v).bitsIn = s.bitsIn := rfl
@[simp] theorem State.setMem_bitsOut (v : Memory) : (s.setMem v).bitsOut = s.bitsOut := rfl
@[simp] theorem State.setMem_nodeOut (v : Memory) : (s.setMem v).nodeOut = s.nodeOut := rfl
@[simp] theorem State.setMem_codeOut (v : Memory) : (s.setMem v).codeOut = s.codeOut := rfl
@[simp] theorem State.setMem_magic (v : Memory) : (s.setMem v).magic = s.magic := rfl
@[simp] theorem State.setMem_mem (v : Memory) : (s.setMem v).mem = v := rfl
@[simp] theorem State.setMem_seq (v : Memory) : (s.setMem v).seq = s.seq := rfl
@[simp] theorem State.setMem_ports (v : Memory) : (s.setMem v).ports = s.ports := rfl
@[simp] theorem State.setMem_inputs (v : Memory) : (s.setMem v).inputs = s.inputs := rfl
@[simp] theorem State.setMem_readData (v : Memory) : (s.setMem v).readData = s.readData := rfl
@[simp] theorem State.setMem_draws (v : Memory) : (s.setMem v).draws = s.draws := rfl

@[simp] theorem State.setSeq_status (v : Seq) : (s.setSeq v).status = s.status := rfl
@[simp] theorem State.setSeq_ctrl (v : Seq) : (s.setSeq v).ctrl = s.ctrl := rfl
@[simp] theorem State.setSeq_errCause (v : Seq) : (s.setSeq v).errCause = s.errCause := rfl
@[simp] theorem State.setSeq_errExpected (v : Seq) : (s.setSeq v).errExpected = s.errExpected := rfl
@[simp] theorem State.setSeq_errFound (v : Seq) : (s.setSeq v).errFound = s.errFound := rfl
@[simp] theorem State.setSeq_result (v : Seq) : (s.setSeq v).result = s.result := rfl
@[simp] theorem State.setSeq_root (v : Seq) : (s.setSeq v).root = s.root := rfl
@[simp] theorem State.setSeq_cur (v : Seq) : (s.setSeq v).cur = s.cur := rfl
@[simp] theorem State.setSeq_total (v : Seq) : (s.setSeq v).total = s.total := rfl
@[simp] theorem State.setSeq_bytesIn (v : Seq) : (s.setSeq v).bytesIn = s.bytesIn := rfl
@[simp] theorem State.setSeq_bytesOut (v : Seq) : (s.setSeq v).bytesOut = s.bytesOut := rfl
@[simp] theorem State.setSeq_bitsIn (v : Seq) : (s.setSeq v).bitsIn = s.bitsIn := rfl
@[simp] theorem State.setSeq_bitsOut (v : Seq) : (s.setSeq v).bitsOut = s.bitsOut := rfl
@[simp] theorem State.setSeq_nodeOut (v : Seq) : (s.setSeq v).nodeOut = s.nodeOut := rfl
@[simp] theorem State.setSeq_codeOut (v : Seq) : (s.setSeq v).codeOut = s.codeOut := rfl
@[simp] theorem State.setSeq_magic (v : Seq) : (s.setSeq v).magic = s.magic := rfl
@[simp] theorem State.setSeq_mem (v : Seq) : (s.setSeq v).mem = s.mem := rfl
@[simp] theorem State.setSeq_seq (v : Seq) : (s.setSeq v).seq = v := rfl
@[simp] theorem State.setSeq_ports (v : Seq) : (s.setSeq v).ports = s.ports := rfl
@[simp] theorem State.setSeq_inputs (v : Seq) : (s.setSeq v).inputs = s.inputs := rfl
@[simp] theorem State.setSeq_readData (v : Seq) : (s.setSeq v).readData = s.readData := rfl
@[simp] theorem State.setSeq_draws (v : Seq) : (s.setSeq v).draws = s.draws := rfl

@[simp] theorem State.setPorts_status (v : Ports) : (s.setPorts v).status = s.status := rfl
@[simp] theorem State.setPorts_ctrl (v : Ports) : (s.setPorts v).ctrl = s.ctrl := rfl
@[simp] theorem State.setPorts_errCause (v : Ports) : (s.setPorts v).errCause = s.errCause := rfl
@[simp] theorem State.setPorts_errExpected (v : Ports) : (s.setPorts v).errExpected = s.errExpected := rfl
@[simp] theorem State.setPorts_errFound (v : Ports) : (s.setPorts v).errFound = s.errFound := rfl
@[simp] theorem State.setPorts_result (v : Ports) : (s.setPorts v).result = s.result := rfl
@[simp] theorem State.setPorts_root (v : Ports) : (s.setPorts v).root = s.root := rfl
@[simp] theorem State.setPorts_cur (v : Ports) : (s.setPorts v).cur = s.cur := rfl
@[simp] theorem State.setPorts_total (v : Ports) : (s.setPorts v).total = s.total := rfl
@[simp] theorem State.setPorts_bytesIn (v : Ports) : (s.setPorts v).bytesIn = s.bytesIn := rfl
@[simp] theorem State.setPorts_bytesOut (v : Ports) : (s.setPorts v).bytesOut = s.bytesOut := rfl
@[simp] theorem State.setPorts_bitsIn (v : Ports) : (s.setPorts v).bitsIn = s.bitsIn := rfl
@[simp] theorem State.setPorts_bitsOut (v : Ports) : (s.setPorts v).bitsOut = s.bitsOut := rfl
@[simp] theorem State.setPorts_nodeOut (v : Ports) : (s.setPorts v).nodeOut = s.nodeOut := rfl
@[simp] theorem State.setPorts_codeOut (v : Ports) : (s.setPorts v).codeOut = s.codeOut := rfl
@[simp] theorem State.setPorts_magic (v : Ports) : (s.setPorts v).magic = s.magic := rfl
@[simp] theorem State.setPorts_mem (v : Ports) : (s.setPorts v).mem = s.mem := rfl
@[simp] theorem State.setPorts_seq (v : Ports) : (s.setPorts v).seq = s.seq := rfl
@[simp] theorem State.setPorts_ports (v : Ports) : (s.setPorts v).ports = v := rfl
@[simp] theorem State.setPorts_inputs (v : Ports) : (s.setPorts v).inputs = s.inputs := rfl
@[simp] theorem State.setPorts_readData (v : Ports) : (s.setPorts v).readData = s.readData := rfl
@[simp] theorem State.setPorts_draws (v : Ports) : (s.setPorts v).draws = s.draws := rfl

@[simp] theorem State.pushTasks_status (ts : List Task) : (s.pushTasks ts).status = s.status := rfl
@[simp] theorem State.pushTasks_ctrl (ts : List Task) : (s.pushTasks ts).ctrl = s.ctrl := rfl
@[simp] theorem State.pushTasks_errCause (ts : List Task) : (s.pushTasks ts).errCause = s.errCause := rfl
@[simp] theorem State.pushTasks_errExpected (ts : List Task) : (s.pushTasks ts).errExpected = s.errExpected := rfl
@[simp] theorem State.pushTasks_errFound (ts : List Task) : (s.pushTasks ts).errFound = s.errFound := rfl
@[simp] theorem State.pushTasks_result (ts : List Task) : (s.pushTasks ts).result = s.result := rfl
@[simp] theorem State.pushTasks_root (ts : List Task) : (s.pushTasks ts).root = s.root := rfl
@[simp] theorem State.pushTasks_cur (ts : List Task) : (s.pushTasks ts).cur = s.cur := rfl
@[simp] theorem State.pushTasks_total (ts : List Task) : (s.pushTasks ts).total = s.total := rfl
@[simp] theorem State.pushTasks_bytesIn (ts : List Task) : (s.pushTasks ts).bytesIn = s.bytesIn := rfl
@[simp] theorem State.pushTasks_bytesOut (ts : List Task) : (s.pushTasks ts).bytesOut = s.bytesOut := rfl
@[simp] theorem State.pushTasks_bitsIn (ts : List Task) : (s.pushTasks ts).bitsIn = s.bitsIn := rfl
@[simp] theorem State.pushTasks_bitsOut (ts : List Task) : (s.pushTasks ts).bitsOut = s.bitsOut := rfl
@[simp] theorem State.pushTasks_nodeOut (ts : List Task) : (s.pushTasks ts).nodeOut = s.nodeOut := rfl
@[simp] theorem State.pushTasks_codeOut (ts : List Task) : (s.pushTasks ts).codeOut = s.codeOut := rfl
@[simp] theorem State.pushTasks_magic (ts : List Task) : (s.pushTasks ts).magic = s.magic := rfl
@[simp] theorem State.pushTasks_mem (ts : List Task) : (s.pushTasks ts).mem = s.mem := rfl
@[simp] theorem State.pushTasks_seq (ts : List Task) : (s.pushTasks ts).seq = { s.seq with tasks := s.seq.tasks ++ ts } := rfl
@[simp] theorem State.pushTasks_ports (ts : List Task) : (s.pushTasks ts).ports = s.ports := rfl
@[simp] theorem State.pushTasks_inputs (ts : List Task) : (s.pushTasks ts).inputs = s.inputs := rfl
@[simp] theorem State.pushTasks_readData (ts : List Task) : (s.pushTasks ts).readData = s.readData := rfl
@[simp] theorem State.pushTasks_draws (ts : List Task) : (s.pushTasks ts).draws = s.draws := rfl

@[simp] theorem State.waitOn_status (p : Prim) (ts : List Task) : (s.waitOn p ts).status = s.status := rfl
@[simp] theorem State.waitOn_ctrl (p : Prim) (ts : List Task) : (s.waitOn p ts).ctrl = s.ctrl := rfl
@[simp] theorem State.waitOn_errCause (p : Prim) (ts : List Task) : (s.waitOn p ts).errCause = s.errCause := rfl
@[simp] theorem State.waitOn_errExpected (p : Prim) (ts : List Task) : (s.waitOn p ts).errExpected = s.errExpected := rfl
@[simp] theorem State.waitOn_errFound (p : Prim) (ts : List Task) : (s.waitOn p ts).errFound = s.errFound := rfl
@[simp] theorem State.waitOn_result (p : Prim) (ts : List Task) : (s.waitOn p ts).result = s.result := rfl
@[simp] theorem State.waitOn_root (p : Prim) (ts : List Task) : (s.waitOn p ts).root = s.root := rfl
@[simp] theorem State.waitOn_cur (p : Prim) (ts : List Task) : (s.waitOn p ts).cur = s.cur := rfl
@[simp] theorem State.waitOn_total (p : Prim) (ts : List Task) : (s.waitOn p ts).total = s.total := rfl
@[simp] theorem State.waitOn_bytesIn (p : Prim) (ts : List Task) : (s.waitOn p ts).bytesIn = s.bytesIn := rfl
@[simp] theorem State.waitOn_bytesOut (p : Prim) (ts : List Task) : (s.waitOn p ts).bytesOut = s.bytesOut := rfl
@[simp] theorem State.waitOn_bitsIn (p : Prim) (ts : List Task) : (s.waitOn p ts).bitsIn = s.bitsIn := rfl
@[simp] theorem State.waitOn_bitsOut (p : Prim) (ts : List Task) : (s.waitOn p ts).bitsOut = s.bitsOut := rfl
@[simp] theorem State.waitOn_nodeOut (p : Prim) (ts : List Task) : (s.waitOn p ts).nodeOut = s.nodeOut := rfl
@[simp] theorem State.waitOn_codeOut (p : Prim) (ts : List Task) : (s.waitOn p ts).codeOut = s.codeOut := rfl
@[simp] theorem State.waitOn_magic (p : Prim) (ts : List Task) : (s.waitOn p ts).magic = s.magic := rfl
@[simp] theorem State.waitOn_mem (p : Prim) (ts : List Task) : (s.waitOn p ts).mem = s.mem := rfl
@[simp] theorem State.waitOn_seq (p : Prim) (ts : List Task) : (s.waitOn p ts).seq = { s.seq with tasks := ts, pending := some p } := rfl
@[simp] theorem State.waitOn_ports (p : Prim) (ts : List Task) : (s.waitOn p ts).ports = s.ports.touch p := rfl
@[simp] theorem State.waitOn_inputs (p : Prim) (ts : List Task) : (s.waitOn p ts).inputs = s.inputs := rfl
@[simp] theorem State.waitOn_readData (p : Prim) (ts : List Task) : (s.waitOn p ts).readData = s.readData := rfl
@[simp] theorem State.waitOn_draws (p : Prim) (ts : List Task) : (s.waitOn p ts).draws = s.draws := rfl

@[simp] theorem State.accept_status (w : Word) : (s.accept w).status = s.status.accepted := rfl
@[simp] theorem State.accept_ctrl (w : Word) : (s.accept w).ctrl = s.ctrl := rfl
@[simp] theorem State.accept_errCause (w : Word) : (s.accept w).errCause = s.errCause := rfl
@[simp] theorem State.accept_errExpected (w : Word) : (s.accept w).errExpected = s.errExpected := rfl
@[simp] theorem State.accept_errFound (w : Word) : (s.accept w).errFound = s.errFound := rfl
@[simp] theorem State.accept_result (w : Word) : (s.accept w).result = s.result := rfl
@[simp] theorem State.accept_root (w : Word) : (s.accept w).root = s.root := rfl
@[simp] theorem State.accept_cur (w : Word) : (s.accept w).cur = s.cur := rfl
@[simp] theorem State.accept_total (w : Word) : (s.accept w).total = s.total := rfl
@[simp] theorem State.accept_bytesIn (w : Word) : (s.accept w).bytesIn = s.bytesIn := rfl
@[simp] theorem State.accept_bytesOut (w : Word) : (s.accept w).bytesOut = s.bytesOut := rfl
@[simp] theorem State.accept_bitsIn (w : Word) : (s.accept w).bitsIn = s.bitsIn := rfl
@[simp] theorem State.accept_bitsOut (w : Word) : (s.accept w).bitsOut = s.bitsOut := rfl
@[simp] theorem State.accept_nodeOut (w : Word) : (s.accept w).nodeOut = s.nodeOut := rfl
@[simp] theorem State.accept_codeOut (w : Word) : (s.accept w).codeOut = s.codeOut := rfl
@[simp] theorem State.accept_magic (w : Word) : (s.accept w).magic = s.magic := rfl
@[simp] theorem State.accept_mem (w : Word) : (s.accept w).mem = s.mem := rfl
@[simp] theorem State.accept_seq (w : Word) : (s.accept w).seq = { opcode := opcodeOf w, phase := opcodeOf w, flags := s.status } := rfl
@[simp] theorem State.accept_ports (w : Word) : (s.accept w).ports = s.ports := rfl
@[simp] theorem State.accept_inputs (w : Word) : (s.accept w).inputs = s.inputs := rfl
@[simp] theorem State.accept_readData (w : Word) : (s.accept w).readData = s.readData := rfl
@[simp] theorem State.accept_draws (w : Word) : (s.accept w).draws = s.draws := rfl

@[simp] theorem State.complete_status : (s.complete).status = s.status.completed := rfl
@[simp] theorem State.complete_ctrl : (s.complete).ctrl = s.ctrl := rfl
@[simp] theorem State.complete_errCause : (s.complete).errCause = s.errCause := rfl
@[simp] theorem State.complete_errExpected : (s.complete).errExpected = s.errExpected := rfl
@[simp] theorem State.complete_errFound : (s.complete).errFound = s.errFound := rfl
@[simp] theorem State.complete_result : (s.complete).result = s.result := rfl
@[simp] theorem State.complete_root : (s.complete).root = s.root := rfl
@[simp] theorem State.complete_cur : (s.complete).cur = s.cur := rfl
@[simp] theorem State.complete_total : (s.complete).total = s.total := rfl
@[simp] theorem State.complete_bytesIn : (s.complete).bytesIn = s.bytesIn := rfl
@[simp] theorem State.complete_bytesOut : (s.complete).bytesOut = s.bytesOut := rfl
@[simp] theorem State.complete_bitsIn : (s.complete).bitsIn = s.bitsIn := rfl
@[simp] theorem State.complete_bitsOut : (s.complete).bitsOut = s.bitsOut := rfl
@[simp] theorem State.complete_nodeOut : (s.complete).nodeOut = s.nodeOut := rfl
@[simp] theorem State.complete_codeOut : (s.complete).codeOut = s.codeOut := rfl
@[simp] theorem State.complete_magic : (s.complete).magic = s.magic := rfl
@[simp] theorem State.complete_mem : (s.complete).mem = s.mem := rfl
@[simp] theorem State.complete_seq : (s.complete).seq = {} := rfl
@[simp] theorem State.complete_ports : (s.complete).ports = s.ports := rfl
@[simp] theorem State.complete_inputs : (s.complete).inputs = s.inputs := rfl
@[simp] theorem State.complete_readData : (s.complete).readData = s.readData := rfl
@[simp] theorem State.complete_draws : (s.complete).draws = s.draws := rfl

@[simp] theorem State.recordError_status (c : Cause) (e f : Word) : (s.recordError c e f).status = s.status.failed := rfl
@[simp] theorem State.recordError_ctrl (c : Cause) (e f : Word) : (s.recordError c e f).ctrl = s.ctrl := rfl
@[simp] theorem State.recordError_errCause (c : Cause) (e f : Word) : (s.recordError c e f).errCause = { cause := c, opcode := s.seq.opcode, phase := s.seq.phase } := rfl
@[simp] theorem State.recordError_errExpected (c : Cause) (e f : Word) : (s.recordError c e f).errExpected = e := rfl
@[simp] theorem State.recordError_errFound (c : Cause) (e f : Word) : (s.recordError c e f).errFound = f := rfl
@[simp] theorem State.recordError_result (c : Cause) (e f : Word) : (s.recordError c e f).result = Config.freeWord s.draws := rfl
@[simp] theorem State.recordError_root (c : Cause) (e f : Word) : (s.recordError c e f).root = s.root := rfl
@[simp] theorem State.recordError_cur (c : Cause) (e f : Word) : (s.recordError c e f).cur = s.cur := rfl
@[simp] theorem State.recordError_total (c : Cause) (e f : Word) : (s.recordError c e f).total = s.total := rfl
@[simp] theorem State.recordError_bytesIn (c : Cause) (e f : Word) : (s.recordError c e f).bytesIn = s.bytesIn := rfl
@[simp] theorem State.recordError_bytesOut (c : Cause) (e f : Word) : (s.recordError c e f).bytesOut = s.bytesOut := rfl
@[simp] theorem State.recordError_bitsIn (c : Cause) (e f : Word) : (s.recordError c e f).bitsIn = s.bitsIn := rfl
@[simp] theorem State.recordError_bitsOut (c : Cause) (e f : Word) : (s.recordError c e f).bitsOut = s.bitsOut := rfl
@[simp] theorem State.recordError_nodeOut (c : Cause) (e f : Word) : (s.recordError c e f).nodeOut = s.nodeOut := rfl
@[simp] theorem State.recordError_codeOut (c : Cause) (e f : Word) : (s.recordError c e f).codeOut = s.codeOut := rfl
@[simp] theorem State.recordError_magic (c : Cause) (e f : Word) : (s.recordError c e f).magic = s.magic := rfl
@[simp] theorem State.recordError_mem (c : Cause) (e f : Word) : (s.recordError c e f).mem = s.mem := rfl
@[simp] theorem State.recordError_seq (c : Cause) (e f : Word) : (s.recordError c e f).seq = s.seq := rfl
@[simp] theorem State.recordError_ports (c : Cause) (e f : Word) : (s.recordError c e f).ports = s.ports := rfl
@[simp] theorem State.recordError_inputs (c : Cause) (e f : Word) : (s.recordError c e f).inputs = s.inputs := rfl
@[simp] theorem State.recordError_readData (c : Cause) (e f : Word) : (s.recordError c e f).readData = s.readData := rfl
@[simp] theorem State.recordError_draws (c : Cause) (e f : Word) : (s.recordError c e f).draws = s.draws + 1 := rfl

@[simp] theorem State.endError_status : s.endError.status = { s.status with busy := false } := rfl
@[simp] theorem State.endError_ctrl : s.endError.ctrl = s.ctrl := rfl
@[simp] theorem State.endError_errCause : s.endError.errCause = s.errCause := rfl
@[simp] theorem State.endError_errExpected : s.endError.errExpected = s.errExpected := rfl
@[simp] theorem State.endError_errFound : s.endError.errFound = s.errFound := rfl
@[simp] theorem State.endError_result : s.endError.result = s.result := rfl
@[simp] theorem State.endError_root : s.endError.root = s.root := rfl
@[simp] theorem State.endError_cur : s.endError.cur = s.cur := rfl
@[simp] theorem State.endError_total : s.endError.total = s.total := rfl
@[simp] theorem State.endError_bytesIn : s.endError.bytesIn = s.bytesIn := rfl
@[simp] theorem State.endError_bytesOut : s.endError.bytesOut = s.bytesOut := rfl
@[simp] theorem State.endError_bitsIn : s.endError.bitsIn = s.bitsIn := rfl
@[simp] theorem State.endError_bitsOut : s.endError.bitsOut = s.bitsOut := rfl
@[simp] theorem State.endError_nodeOut : s.endError.nodeOut = s.nodeOut := rfl
@[simp] theorem State.endError_codeOut : s.endError.codeOut = s.codeOut := rfl
@[simp] theorem State.endError_magic : s.endError.magic = s.magic := rfl
@[simp] theorem State.endError_mem : s.endError.mem = s.mem := rfl
@[simp] theorem State.endError_seq : s.endError.seq = {} := rfl
@[simp] theorem State.endError_ports : s.endError.ports = s.ports := rfl
@[simp] theorem State.endError_inputs : s.endError.inputs = s.inputs := rfl
@[simp] theorem State.endError_readData : s.endError.readData = s.readData := rfl
@[simp] theorem State.endError_draws : s.endError.draws = s.draws := rfl

/-- Error entry where the collaborators answer its cleanup primitives at once (60_exceptions.md rule R303). -/
def State.raiseError (c : Cause) (e f : Word) : State := ((s.recordError c e f).setPorts s.ports.cleanup).endError

@[simp] theorem State.raiseError_status (c : Cause) (e f : Word) : (s.raiseError c e f).status = { err := true, reject := s.status.reject } := rfl
@[simp] theorem State.raiseError_ctrl (c : Cause) (e f : Word) : (s.raiseError c e f).ctrl = s.ctrl := rfl
@[simp] theorem State.raiseError_errCause (c : Cause) (e f : Word) : (s.raiseError c e f).errCause = { cause := c, opcode := s.seq.opcode, phase := s.seq.phase } := rfl
@[simp] theorem State.raiseError_errExpected (c : Cause) (e f : Word) : (s.raiseError c e f).errExpected = e := rfl
@[simp] theorem State.raiseError_errFound (c : Cause) (e f : Word) : (s.raiseError c e f).errFound = f := rfl
@[simp] theorem State.raiseError_result (c : Cause) (e f : Word) : (s.raiseError c e f).result = Config.freeWord s.draws := rfl
@[simp] theorem State.raiseError_root (c : Cause) (e f : Word) : (s.raiseError c e f).root = s.root := rfl
@[simp] theorem State.raiseError_cur (c : Cause) (e f : Word) : (s.raiseError c e f).cur = s.cur := rfl
@[simp] theorem State.raiseError_total (c : Cause) (e f : Word) : (s.raiseError c e f).total = s.total := rfl
@[simp] theorem State.raiseError_bytesIn (c : Cause) (e f : Word) : (s.raiseError c e f).bytesIn = s.bytesIn := rfl
@[simp] theorem State.raiseError_bytesOut (c : Cause) (e f : Word) : (s.raiseError c e f).bytesOut = s.bytesOut := rfl
@[simp] theorem State.raiseError_bitsIn (c : Cause) (e f : Word) : (s.raiseError c e f).bitsIn = s.bitsIn := rfl
@[simp] theorem State.raiseError_bitsOut (c : Cause) (e f : Word) : (s.raiseError c e f).bitsOut = s.bitsOut := rfl
@[simp] theorem State.raiseError_nodeOut (c : Cause) (e f : Word) : (s.raiseError c e f).nodeOut = s.nodeOut := rfl
@[simp] theorem State.raiseError_codeOut (c : Cause) (e f : Word) : (s.raiseError c e f).codeOut = s.codeOut := rfl
@[simp] theorem State.raiseError_magic (c : Cause) (e f : Word) : (s.raiseError c e f).magic = s.magic := rfl
@[simp] theorem State.raiseError_mem (c : Cause) (e f : Word) : (s.raiseError c e f).mem = s.mem := rfl
@[simp] theorem State.raiseError_seq (c : Cause) (e f : Word) : (s.raiseError c e f).seq = {} := rfl
@[simp] theorem State.raiseError_ports (c : Cause) (e f : Word) : (s.raiseError c e f).ports = s.ports.cleanup := rfl
@[simp] theorem State.raiseError_inputs (c : Cause) (e f : Word) : (s.raiseError c e f).inputs = s.inputs := rfl
@[simp] theorem State.raiseError_readData (c : Cause) (e f : Word) : (s.raiseError c e f).readData = s.readData := rfl
@[simp] theorem State.raiseError_draws (c : Cause) (e f : Word) : (s.raiseError c e f).draws = s.draws + 1 := rfl

@[simp] theorem State.invalidateTree_status : (s.invalidateTree).status = s.status.invalidateTree := rfl
@[simp] theorem State.invalidateTree_ctrl : (s.invalidateTree).ctrl = s.ctrl := rfl
@[simp] theorem State.invalidateTree_errCause : (s.invalidateTree).errCause = s.errCause := rfl
@[simp] theorem State.invalidateTree_errExpected : (s.invalidateTree).errExpected = s.errExpected := rfl
@[simp] theorem State.invalidateTree_errFound : (s.invalidateTree).errFound = s.errFound := rfl
@[simp] theorem State.invalidateTree_result : (s.invalidateTree).result = s.result := rfl
@[simp] theorem State.invalidateTree_root : (s.invalidateTree).root = s.root := rfl
@[simp] theorem State.invalidateTree_cur : (s.invalidateTree).cur = s.cur := rfl
@[simp] theorem State.invalidateTree_total : (s.invalidateTree).total = s.total := rfl
@[simp] theorem State.invalidateTree_bytesIn : (s.invalidateTree).bytesIn = s.bytesIn := rfl
@[simp] theorem State.invalidateTree_bytesOut : (s.invalidateTree).bytesOut = s.bytesOut := rfl
@[simp] theorem State.invalidateTree_bitsIn : (s.invalidateTree).bitsIn = s.bitsIn := rfl
@[simp] theorem State.invalidateTree_bitsOut : (s.invalidateTree).bitsOut = s.bitsOut := rfl
@[simp] theorem State.invalidateTree_nodeOut : (s.invalidateTree).nodeOut = s.nodeOut := rfl
@[simp] theorem State.invalidateTree_codeOut : (s.invalidateTree).codeOut = s.codeOut := rfl
@[simp] theorem State.invalidateTree_magic : (s.invalidateTree).magic = s.magic := rfl
@[simp] theorem State.invalidateTree_mem : (s.invalidateTree).mem = s.mem := rfl
@[simp] theorem State.invalidateTree_seq : (s.invalidateTree).seq = s.seq := rfl
@[simp] theorem State.invalidateTree_ports : (s.invalidateTree).ports = s.ports := rfl
@[simp] theorem State.invalidateTree_inputs : (s.invalidateTree).inputs = s.inputs := rfl
@[simp] theorem State.invalidateTree_readData : (s.invalidateTree).readData = s.readData := rfl
@[simp] theorem State.invalidateTree_draws : (s.invalidateTree).draws = s.draws := rfl

@[simp] theorem State.addBitsIn_status (n : Nat) : (s.addBitsIn n).status = s.status := rfl
@[simp] theorem State.addBitsIn_ctrl (n : Nat) : (s.addBitsIn n).ctrl = s.ctrl := rfl
@[simp] theorem State.addBitsIn_errCause (n : Nat) : (s.addBitsIn n).errCause = s.errCause := rfl
@[simp] theorem State.addBitsIn_errExpected (n : Nat) : (s.addBitsIn n).errExpected = s.errExpected := rfl
@[simp] theorem State.addBitsIn_errFound (n : Nat) : (s.addBitsIn n).errFound = s.errFound := rfl
@[simp] theorem State.addBitsIn_result (n : Nat) : (s.addBitsIn n).result = s.result := rfl
@[simp] theorem State.addBitsIn_root (n : Nat) : (s.addBitsIn n).root = s.root := rfl
@[simp] theorem State.addBitsIn_cur (n : Nat) : (s.addBitsIn n).cur = s.cur := rfl
@[simp] theorem State.addBitsIn_total (n : Nat) : (s.addBitsIn n).total = s.total := rfl
@[simp] theorem State.addBitsIn_bytesIn (n : Nat) : (s.addBitsIn n).bytesIn = s.bytesIn := rfl
@[simp] theorem State.addBitsIn_bytesOut (n : Nat) : (s.addBitsIn n).bytesOut = s.bytesOut := rfl
@[simp] theorem State.addBitsIn_bitsIn (n : Nat) : (s.addBitsIn n).bitsIn = s.bitsIn + BitVec.ofNat 32 n := rfl
@[simp] theorem State.addBitsIn_bitsOut (n : Nat) : (s.addBitsIn n).bitsOut = s.bitsOut := rfl
@[simp] theorem State.addBitsIn_nodeOut (n : Nat) : (s.addBitsIn n).nodeOut = s.nodeOut := rfl
@[simp] theorem State.addBitsIn_codeOut (n : Nat) : (s.addBitsIn n).codeOut = s.codeOut := rfl
@[simp] theorem State.addBitsIn_magic (n : Nat) : (s.addBitsIn n).magic = s.magic := rfl
@[simp] theorem State.addBitsIn_mem (n : Nat) : (s.addBitsIn n).mem = s.mem := rfl
@[simp] theorem State.addBitsIn_seq (n : Nat) : (s.addBitsIn n).seq = s.seq := rfl
@[simp] theorem State.addBitsIn_ports (n : Nat) : (s.addBitsIn n).ports = s.ports := rfl
@[simp] theorem State.addBitsIn_inputs (n : Nat) : (s.addBitsIn n).inputs = s.inputs := rfl
@[simp] theorem State.addBitsIn_readData (n : Nat) : (s.addBitsIn n).readData = s.readData := rfl
@[simp] theorem State.addBitsIn_draws (n : Nat) : (s.addBitsIn n).draws = s.draws := rfl

@[simp] theorem State.rejectCommand_status : (s.rejectCommand).status = s.status.rejected := rfl
@[simp] theorem State.rejectCommand_ctrl : (s.rejectCommand).ctrl = s.ctrl := rfl
@[simp] theorem State.rejectCommand_errCause : (s.rejectCommand).errCause = s.errCause := rfl
@[simp] theorem State.rejectCommand_errExpected : (s.rejectCommand).errExpected = s.errExpected := rfl
@[simp] theorem State.rejectCommand_errFound : (s.rejectCommand).errFound = s.errFound := rfl
@[simp] theorem State.rejectCommand_result : (s.rejectCommand).result = s.result := rfl
@[simp] theorem State.rejectCommand_root : (s.rejectCommand).root = s.root := rfl
@[simp] theorem State.rejectCommand_cur : (s.rejectCommand).cur = s.cur := rfl
@[simp] theorem State.rejectCommand_total : (s.rejectCommand).total = s.total := rfl
@[simp] theorem State.rejectCommand_bytesIn : (s.rejectCommand).bytesIn = s.bytesIn := rfl
@[simp] theorem State.rejectCommand_bytesOut : (s.rejectCommand).bytesOut = s.bytesOut := rfl
@[simp] theorem State.rejectCommand_bitsIn : (s.rejectCommand).bitsIn = s.bitsIn := rfl
@[simp] theorem State.rejectCommand_bitsOut : (s.rejectCommand).bitsOut = s.bitsOut := rfl
@[simp] theorem State.rejectCommand_nodeOut : (s.rejectCommand).nodeOut = s.nodeOut := rfl
@[simp] theorem State.rejectCommand_codeOut : (s.rejectCommand).codeOut = s.codeOut := rfl
@[simp] theorem State.rejectCommand_magic : (s.rejectCommand).magic = s.magic := rfl
@[simp] theorem State.rejectCommand_mem : (s.rejectCommand).mem = s.mem := rfl
@[simp] theorem State.rejectCommand_seq : (s.rejectCommand).seq = s.seq := rfl
@[simp] theorem State.rejectCommand_ports : (s.rejectCommand).ports = s.ports := rfl
@[simp] theorem State.rejectCommand_inputs : (s.rejectCommand).inputs = s.inputs := rfl
@[simp] theorem State.rejectCommand_readData : (s.rejectCommand).readData = s.readData := rfl
@[simp] theorem State.rejectCommand_draws : (s.rejectCommand).draws = s.draws := rfl

@[simp] theorem State.softReset_ctrl : s.softReset.ctrl = s.ctrl := rfl
@[simp] theorem State.softReset_magic : s.softReset.magic = s.magic := rfl
@[simp] theorem State.softReset_inputs : s.softReset.inputs = s.inputs := rfl
@[simp] theorem State.softReset_readData : s.softReset.readData = s.readData := rfl
@[simp] theorem State.softReset_mem : s.softReset.mem = {} := rfl
@[simp] theorem State.softReset_seq : s.softReset.seq = {} := rfl
@[simp] theorem State.softReset_status : s.softReset.status = Status.softReset := rfl
@[simp] theorem State.softReset_result : s.softReset.result = 0 := rfl
@[simp] theorem State.softReset_ports : s.softReset.ports = s.abandon.ports.cleanup := rfl
@[simp] theorem State.softReset_draws : s.softReset.draws = s.abandon.draws := rfl
@[simp] theorem State.softReset_errCause : s.softReset.errCause = {} := rfl
@[simp] theorem State.softReset_errExpected : s.softReset.errExpected = 0 := rfl
@[simp] theorem State.softReset_errFound : s.softReset.errFound = 0 := rfl
@[simp] theorem State.softReset_root : s.softReset.root = 0 := rfl
@[simp] theorem State.softReset_cur : s.softReset.cur = 0 := rfl
@[simp] theorem State.softReset_total : s.softReset.total = 0 := rfl
@[simp] theorem State.softReset_bytesIn : s.softReset.bytesIn = 0 := rfl
@[simp] theorem State.softReset_bytesOut : s.softReset.bytesOut = 0 := rfl
@[simp] theorem State.softReset_bitsIn : s.softReset.bitsIn = 0 := rfl
@[simp] theorem State.softReset_bitsOut : s.softReset.bitsOut = 0 := rfl
@[simp] theorem State.softReset_nodeOut : s.softReset.nodeOut = 0 := rfl
@[simp] theorem State.softReset_codeOut : s.softReset.codeOut = 0 := rfl

@[simp] theorem State.hardReset_ctrl : s.hardReset.ctrl = {} := rfl
@[simp] theorem State.hardReset_magic : s.hardReset.magic = s.magic := rfl
@[simp] theorem State.hardReset_inputs : s.hardReset.inputs = s.inputs := rfl
@[simp] theorem State.hardReset_readData : s.hardReset.readData = s.readData := rfl
@[simp] theorem State.hardReset_mem : s.hardReset.mem = {} := rfl
@[simp] theorem State.hardReset_seq : s.hardReset.seq = {} := rfl
@[simp] theorem State.hardReset_status : s.hardReset.status = {} := rfl
@[simp] theorem State.hardReset_result : s.hardReset.result = 0 := rfl
@[simp] theorem State.hardReset_ports : s.hardReset.ports = s.abandon.ports.cleanup := rfl
@[simp] theorem State.hardReset_draws : s.hardReset.draws = s.abandon.draws := rfl
@[simp] theorem State.hardReset_errCause : s.hardReset.errCause = {} := rfl
@[simp] theorem State.hardReset_errExpected : s.hardReset.errExpected = 0 := rfl
@[simp] theorem State.hardReset_errFound : s.hardReset.errFound = 0 := rfl
@[simp] theorem State.hardReset_root : s.hardReset.root = 0 := rfl
@[simp] theorem State.hardReset_cur : s.hardReset.cur = 0 := rfl
@[simp] theorem State.hardReset_total : s.hardReset.total = 0 := rfl
@[simp] theorem State.hardReset_bytesIn : s.hardReset.bytesIn = 0 := rfl
@[simp] theorem State.hardReset_bytesOut : s.hardReset.bytesOut = 0 := rfl
@[simp] theorem State.hardReset_bitsIn : s.hardReset.bitsIn = 0 := rfl
@[simp] theorem State.hardReset_bitsOut : s.hardReset.bitsOut = 0 := rfl
@[simp] theorem State.hardReset_nodeOut : s.hardReset.nodeOut = 0 := rfl
@[simp] theorem State.hardReset_codeOut : s.hardReset.codeOut = 0 := rfl

/-- An idle engine has nothing to abandon. -/
theorem State.abandon_of_idle (h : s.status.busy = false) : s.abandon = s := by simp [State.abandon, h]

end Sys2Proof.Machine
end

