-- ==== Sys2Proof/Laws/Flow.lean ====
section
/-! SUPPORT. What the flow of a body, a port primitive and the command protocol can do, each said once. -/

namespace Sys2Proof.Machine

/-! ### Flow -/

@[simp] theorem Flow.andThen_ok (s : State) (ts k) : (Flow.ok s).andThen ts k = k s := rfl
@[simp] theorem Flow.andThen_hold (s : State) (ts k) : (Flow.hold s).andThen ts k = .hold (s.pushTasks ts) := rfl
@[simp] theorem Flow.andThen_raise (c e f) (s : State) (ts k) : (Flow.raise c e f s).andThen ts k = .raise c e f s := rfl
@[simp] theorem Flow.andThen_fault (g ts k) : (Flow.fault g).andThen ts k = .fault g := rfl

@[simp] theorem Flow.ofExcept_ok {α : Type} (a : α) (k : α → Flow) : Flow.ofExcept (.ok a) k = k a := rfl
@[simp] theorem Flow.ofExcept_error {α : Type} (f : Fault) (k : α → Flow) : Flow.ofExcept (.error f) k = .fault f := rfl

@[simp] theorem Flow.finish_ok (s : State) : (Flow.ok s).finish = .next s.complete := rfl
@[simp] theorem Flow.finish_hold (s : State) : (Flow.hold s).finish = .next s := rfl
@[simp] theorem Flow.finish_raise (c e f) (s : State) : (Flow.raise c e f s).finish = .next (s.enterError c e f) := rfl
@[simp] theorem Flow.finish_fault (g : Fault) : (Flow.fault g).finish = .fault g := rfl

@[simp] theorem runTasks_nil (s : State) : runTasks [] s = .ok s := rfl
@[simp] theorem runTasks_cons (t : Task) (ts : List Task) (s : State) :
    runTasks (t :: ts) s = (runTask t s).andThen ts (runTasks ts) := rfl

/-- A body in two halves. -/
theorem runTasks_append (a b : List Task) (s : State) : runTasks (a ++ b) s = (runTasks a s).andThen b (runTasks b) := by
  induction a generalizing s with
  | nil => rfl
  | cons t a ih =>
    simp only [List.cons_append, runTasks_cons]
    cases runTask t s with
    | ok z => exact ih z
    | hold z => simp [State.pushTasks, State.setSeq]
    | raise c e d z => rfl
    | fault g => rfl

/-- A property of every state that a flow carries. -/
def Flow.Carries (P : State → Prop) : Flow → Prop
  | .ok s => P s
  | .hold s => P s
  | .raise _ _ _ s => P s
  | .fault _ => True

@[simp] theorem Flow.carries_ok (P) (s : State) : (Flow.ok s).Carries P ↔ P s := Iff.rfl
@[simp] theorem Flow.carries_hold (P) (s : State) : (Flow.hold s).Carries P ↔ P s := Iff.rfl
@[simp] theorem Flow.carries_raise (P c e f) (s : State) : (Flow.raise c e f s).Carries P ↔ P s := Iff.rfl
@[simp] theorem Flow.carries_fault (P g) : (Flow.fault g).Carries P := trivial

theorem Flow.Carries.mono {P Q : State → Prop} (h : ∀ s, P s → Q s) {f : Flow} (hf : f.Carries P) : f.Carries Q := by
  cases f <;> simp_all [Flow.Carries]

/-- A property that more tasks do not touch goes from a flow and its continuation to both together. -/
theorem Flow.carries_andThen {P : State → Prop} (hpush : ∀ s ts, P s → P (s.pushTasks ts)) {f : Flow}
    (hf : f.Carries P) {k : State → Flow} (hk : ∀ s, P s → (k s).Carries P) (ts : List Task) :
    (f.andThen ts k).Carries P := by
  cases f with
  | ok s => exact hk s hf
  | hold s => exact hpush s ts hf
  | raise c e d s => exact hf
  | fault g => trivial

theorem Flow.carries_ofExcept {P : State → Prop} {α : Type} {e : Except Fault α} {k : α → Flow}
    (hk : ∀ a, e = .ok a → (k a).Carries P) : (Flow.ofExcept e k).Carries P := by
  cases e with
  | ok a => exact hk a rfl
  | error f => trivial

/-- A port primitive: every state it carries comes from the ports' answer or from the wait. -/
theorem State.carries_port {P : State → Prop} {s : State} {p : Prim} {ts : List Task} {k : Answer → State → Flow}
    (hw : P (s.waitOn p ts)) (hk : ∀ a ps, s.ports.answer p = some (a, ps) → (k a (s.setPorts ps)).Carries P) :
    (s.port p ts k).Carries P := by
  unfold State.port
  split
  · exact hk _ _ (by assumption)
  · exact hw

/-- The end of a body: if every state the flow carries has `P`, and completion and error entry lead from `P` to `Q`, so has
the next state. -/
theorem Flow.finish_of_carries {P Q : State → Prop} {f : Flow} (hf : f.Carries P) (hok : ∀ s, P s → Q s.complete)
    (hhold : ∀ s, P s → Q s) (hraise : ∀ s c e d, P s → Q (s.enterError c e d)) {t : State} (ht : f.finish = .next t) :
    Q t := by
  cases f with
  | ok s => cases ht; exact hok _ hf
  | hold s => cases ht; exact hhold _ hf
  | raise c e d s => cases ht; exact hraise _ _ _ _ hf
  | fault g => cases ht

/-! ### The ports -/

/-- With no limit on their answers, the collaborators answer a primitive as soon as they can. -/
theorem Ports.answer_of_ready {ps : Ports} (h : ps.credit = none) (p : Prim) : ps.answer p = ps.perform p := by
  have hc : ∀ a ps', ps.perform p = some (a, ps') → ps'.spend = ps' := by
    intro a ps' hp
    have : ps'.credit = none := by
      cases p <;> simp only [Ports.perform, Option.map_eq_some_iff, Option.some.injEq, Prod.mk.injEq] at hp <;>
        first
        | (obtain ⟨-, rfl⟩ := hp; exact h)
        | (obtain ⟨⟨x, y⟩, -, -, rfl⟩ := hp; exact h)
    simp [Ports.spend, this]
    rw [← this]
  simp only [Ports.answer, h, reduceCtorEq, if_false]
  cases hp : ps.perform p with
  | none => rfl
  | some r => simp [hc _ _ hp]

/-- A port primitive that is answered. -/
theorem State.port_answered {s : State} {p : Prim} {ts : List Task} {k : Answer → State → Flow} {a : Answer} {ps : Ports}
    (hr : s.ports.credit = none) (h : s.ports.perform p = some (a, ps)) :
    s.port p ts k = k a (s.setPorts ps) := by
  simp [State.port, Ports.answer_of_ready hr, h]

/-! ### Error entry -/

theorem State.cleanUp_answered {s : State} {p : Prim} {a : Answer} {q : Ports} (h : s.ports.answer p = some (a, q))
    (ps : List Prim) : s.cleanUp (p :: ps) = (s.setPorts q).cleanUp ps := by
  simp only [State.cleanUp, h]

theorem State.cleanUp_held {s : State} {p : Prim} (h : s.ports.answer p = none) (ps : List Prim) :
    s.cleanUp (p :: ps) = s.setSeq { s.seq with tasks := [], pending := some p, todo := p :: ps } := by
  simp only [State.cleanUp, h]

/-- Cleanup ends, or a port holds one of its primitives: it changes the ports, and at its end BUSY and the hidden sequencer state. -/
theorem State.cleanUp_cases : ∀ (ps : List Prim) (s : State), ∃ q : Ports, s.cleanUp ps = (s.setPorts q).endError ∨
    ∃ p rest, (∃ done, ps = done ++ p :: rest) ∧ q.answer p = none ∧
      s.cleanUp ps = (s.setPorts q).setSeq { s.seq with tasks := [], pending := some p, todo := p :: rest }
  | [], s => ⟨s.ports, .inl rfl⟩
  | p :: ps, s => by
    cases h : s.ports.answer p with
    | none => exact ⟨s.ports, .inr ⟨p, ps, ⟨[], rfl⟩, h, s.cleanUp_held h ps⟩⟩
    | some r =>
      rw [State.cleanUp_answered (a := r.1) (q := r.2) h ps]
      obtain ⟨q, e | ⟨p', rest, ⟨done, hd⟩, hn, e⟩⟩ := State.cleanUp_cases ps (s.setPorts r.2)
      · exact ⟨q, .inl e⟩
      · exact ⟨q, .inr ⟨p', rest, ⟨p :: done, by rw [hd]; rfl⟩, hn, e⟩⟩

/-- Cleanup does not look at what the engine has waited on. -/
theorem State.cleanUp_seq (a : List Task) (b : Option Prim) (c : List Prim) : ∀ (ps : List Prim) (s : State),
    (s.setSeq { s.seq with tasks := a, pending := b, todo := c }).cleanUp ps = s.cleanUp ps
  | [], _ => rfl
  | p :: ps, s => by
    cases h : s.ports.answer p with
    | none => rw [State.cleanUp_held h, State.cleanUp_held (by exact h)]; rfl
    | some r =>
      rw [State.cleanUp_answered (a := r.1) (q := r.2) h, State.cleanUp_answered (a := r.1) (q := r.2) (by exact h)]
      exact State.cleanUp_seq a b c ps (s.setPorts r.2)

/-- Cleanup leaves all of STATUS but BUSY, and the error's record. -/
theorem State.cleanUp_record (ps : List Prim) (s : State) : (∃ b, (s.cleanUp ps).status = { s.status with busy := b }) ∧
    (s.cleanUp ps).errCause = s.errCause := by
  obtain ⟨q, e | ⟨_, _, _, _, e⟩⟩ := s.cleanUp_cases ps <;> rw [e]
  exacts [⟨⟨false, rfl⟩, rfl⟩, ⟨⟨s.status.busy, rfl⟩, rfl⟩]

/-- An error entry, over or held, has recorded its error (60_exceptions.md rule R303). -/
theorem State.enterError_record (s : State) (c : Cause) (e f : Word) :
    (∃ b, (s.enterError c e f).status = { err := true, busy := b, reject := s.status.reject }) ∧
    (s.enterError c e f).errCause = { cause := c, opcode := s.seq.opcode, phase := s.seq.phase } := by
  obtain ⟨⟨b, h⟩, h'⟩ := (s.recordError c e f).cleanUp_record cleanupPrims
  exact ⟨⟨b, h⟩, h'⟩

/-- An error entry that a port holds goes on with its cleanup primitives. -/
theorem State.resume_failing {s : State} (hb : s.status.busy = true) (he : s.status.err = true) :
    s.resume = .next (s.cleanUp s.seq.todo) := by
  simp [State.resume, hb, he]

/-- A command that a port holds goes on with what is left of it. -/
theorem State.resume_running {s : State} (hb : s.status.busy = true) (he : s.status.err = false) :
    s.resume = (runTasks s.seq.tasks (s.setSeq { s.seq with tasks := [], pending := none })).finish := by
  simp [State.resume, hb, he]

/-- With no limit on their answers, the collaborators answer the cleanup primitives at once. -/
theorem State.enterError_ready {s : State} (h : s.ports.credit = none) (c : Cause) (e f : Word) :
    s.enterError c e f = s.raiseError c e f := by
  have ha : ∀ (u : State) (p : Prim), u.ports.credit = none → u.ports.answer p = u.ports.perform p :=
    fun u p hu => Ports.answer_of_ready hu p
  rw [State.enterError, cleanupPrims, State.cleanUp_answered (by rw [ha _ _ (by exact h)]; rfl),
    State.cleanUp_answered (by rw [ha _ _ (by exact h)]; rfl), State.cleanUp_answered (by rw [ha _ _ (by exact h)]; rfl),
    State.cleanUp_answered (by rw [ha _ _ (by exact h)]; rfl)]
  rfl

/-! ### The command protocol -/

theorem runCommand_rejected {i : Instr} {need : Need} {body : List Task} {s : State} (h : s.accepts = false) :
    runCommand i need body s = .next s.rejectCommand := by simp [runCommand, h]

theorem runCommand_illegal {i : Instr} {need : Need} {body : List Task} {s : State} (h : s.accepts = true)
    (hw : i.wellFormed = false) :
    runCommand i need body s = .next ((s.accept (encode i)).enterError .illegalOperand 0 (encode i)) := by
  simp [runCommand, h, hw]

theorem runCommand_sequence {i : Instr} {need : Need} {body : List Task} {s : State} (h : s.accepts = true)
    (hw : i.wellFormed = true) (hn : need.holds s.status = false) :
    runCommand i need body s = .next ((s.accept (encode i)).enterError .seqError need.word s.status.flagWord) := by
  simp [runCommand, h, hw, hn]

theorem runCommand_runs {i : Instr} {need : Need} {body : List Task} {s : State} (h : s.accepts = true)
    (hw : i.wellFormed = true) (hn : need.holds s.status = true) :
    runCommand i need body s = (runTasks body (s.accept (encode i))).finish := by
  simp [runCommand, h, hw, hn]

/-- Everything a command other than SRESET can do (40_control.md rules R121 to R127). -/
theorem runCommand_cases {i : Instr} {need : Need} {body : List Task} {s t : State}
    (h : runCommand i need body s = .next t) :
    (s.accepts = false ∧ t = s.rejectCommand) ∨
    (s.accepts = true ∧ ∃ c e d, t = (s.accept (encode i)).enterError c e d ∧
      ((c = .illegalOperand ∧ i.wellFormed = false) ∨ (c = .seqError ∧ need.holds s.status = false))) ∨
    (s.accepts = true ∧ need.holds s.status = true ∧ (runTasks body (s.accept (encode i))).finish = .next t) := by
  unfold runCommand at h
  split at h
  · rename_i ha
    split at h
    · split at h
      · rename_i hn; exact .inr (.inr ⟨ha, hn, h⟩)
      · rename_i hn; cases h; exact .inr (.inl ⟨ha, _, _, _, rfl, .inr ⟨rfl, by simpa using hn⟩⟩)
    · rename_i hw; cases h; exact .inr (.inl ⟨ha, _, _, _, rfl, .inl ⟨rfl, by simpa using hw⟩⟩)
  · rename_i ha
    cases h
    exact .inl ⟨by simpa using ha, rfl⟩

end Sys2Proof.Machine
end

