-- ==== Sys2Proof/Laws/Ready.lean ====
section
/-! SUPPORT. The port primitives and the loops over them when the collaborators answer as soon as they can: one lemma per
primitive and per loop, with the whole state it leaves. -/

namespace Sys2Proof.Machine

section Primitives

variable {s : State} {ts : List Task} {k : Answer → State → Flow} (hr : s.ports.credit = none)
include hr

theorem port_ibRead_byte {b : Byte} {rest : List Byte} (h : s.ports.ib.left = b :: rest) :
    s.port .ibRead ts k =
      k (.byte b) (s.setPorts { s.ports with ib := { s.ports.ib with left := rest, isOpen := true } }) :=
  State.port_answered hr (by simp [Ports.perform, IbPort.read, h])

theorem port_ibRead_eos (h : s.ports.ib.left = []) (he : s.ports.ib.ended = true) :
    s.port .ibRead ts k = k .eos (s.setPorts { s.ports with ib := { s.ports.ib with isOpen := true } }) :=
  State.port_answered hr (by simp [Ports.perform, IbPort.read, h, he])

theorem port_ibRewind :
    s.port .ibRewind ts k = k .done (s.setPorts { s.ports with ib := s.ports.ib.rewind }) :=
  State.port_answered hr rfl

theorem port_ibRelease :
    s.port .ibRelease ts k = k .done (s.setPorts { s.ports with ib := s.ports.ib.release }) :=
  State.port_answered hr rfl

theorem port_obWrite (n : Nat) (v : Word) :
    s.port (.obWrite n v) ts k = k .done (s.setPorts { s.ports with ob := s.ports.ob.write n v }) :=
  State.port_answered hr rfl

theorem port_obClose :
    s.port .obClose ts k = k .done (s.setPorts { s.ports with ob := s.ports.ob.close }) :=
  State.port_answered hr rfl

theorem port_biRead {n : Nat} (h : n ≤ s.ports.bi.bits.length) :
    s.port (.biRead n) ts k = k (.bits (fieldValue (s.ports.bi.bits.take n)))
      (s.setPorts { s.ports with bi := { s.ports.bi with bits := s.ports.bi.bits.drop n, isOpen := true } }) :=
  State.port_answered hr (by simp [Ports.perform, BiPort.read, h])

theorem port_biRead_eos {n : Nat} (h : s.ports.bi.bits.length < n) (he : s.ports.bi.ended = true) :
    s.port (.biRead n) ts k = k .eos (s.setPorts { s.ports with bi := { s.ports.bi with isOpen := true } }) :=
  State.port_answered hr (by simp [Ports.perform, BiPort.read, show ¬ n ≤ s.ports.bi.bits.length by omega, he])

theorem port_biRelease :
    s.port .biRelease ts k = k .done (s.setPorts { s.ports with bi := s.ports.bi.release }) :=
  State.port_answered hr rfl

theorem port_boWrite (b : Byte) :
    s.port (.boWrite b) ts k = k .done (s.setPorts { s.ports with bo := s.ports.bo.write b }) :=
  State.port_answered hr rfl

theorem port_boClose :
    s.port .boClose ts k = k .done (s.setPorts { s.ports with bo := s.ports.bo.opened.close }) :=
  State.port_answered hr rfl

end Primitives

/-- The bits that some writes give to the sink, in order. -/
def bitsOfWrites (ws : List (Nat × Word)) : List Bool := ws.flatMap fun w => fieldBits w.1 w.2

@[simp] theorem bitsOfWrites_nil : bitsOfWrites [] = [] := rfl
@[simp] theorem bitsOfWrites_cons (w : Nat × Word) (ws) : bitsOfWrites (w :: ws) = fieldBits w.1 w.2 ++ bitsOfWrites ws := rfl
@[simp] theorem bitsOfWrites_append (a b) : bitsOfWrites (a ++ b) = bitsOfWrites a ++ bitsOfWrites b := by
  simp [bitsOfWrites]
@[simp] theorem writesLength_nil : writesLength [] = 0 := rfl
@[simp] theorem writesLength_cons (w : Nat × Word) (ws) : writesLength (w :: ws) = w.1 + writesLength ws := by
  simp [writesLength]
@[simp] theorem writesLength_append (a b) : writesLength (a ++ b) = writesLength a + writesLength b := by
  simp [writesLength]

theorem bitsOfWrites_length : ∀ ws, (bitsOfWrites ws).length = writesLength ws
  | [] => rfl
  | w :: ws => by simp [bitsOfWrites_length ws]

/-- The state after some writes that port OB answered. -/
def State.wrote (s : State) (ws : List (Nat × Word)) : State :=
  (s.setPorts { s.ports with
    ob := { s.ports.ob with
      bits := s.ports.ob.bits ++ bitsOfWrites ws, isOpen := s.ports.ob.isOpen || !ws.isEmpty } }).setBitsOut
    (s.bitsOut + BitVec.ofNat 32 (writesLength ws))

theorem State.wrote_nil (s : State) : s.wrote [] = s := by
  apply State.ext <;> simp [State.wrote]

theorem writeAll_ready : ∀ (ws : List (Nat × Word)) (s : State), s.ports.credit = none → writeAll ws s = .ok (s.wrote ws)
  | [], s, _ => by simp [writeAll, State.wrote_nil]
  | (n, v) :: ws, s, hr => by
    rw [writeAll, port_obWrite hr]
    rw [writeAll_ready ws _ (by simpa using hr)]
    congr 1
    apply State.ext <;> simp [State.wrote, ObPort.write, BitVec.add_assoc, BitVec.ofNat_add]

@[simp] theorem bitsOfWrites_codeWrites (c : Code) : bitsOfWrites c.writes = c.path := by
  simp only [bitsOfWrites, Code.writes, List.flatMap_map]
  induction c.path with
  | nil => rfl
  | cons b p ih => cases b <;> simp [fieldBits]

@[simp] theorem writesLength_codeWrites (c : Code) : writesLength c.writes = c.len.toNat := by
  rw [← bitsOfWrites_length, bitsOfWrites_codeWrites]; simp [Code.path]

end Sys2Proof.Machine
end

