-- ==== Sys2Proof/Laws/Frequency.lean ====
section
/-! SUPPORT. The frequency counter: counting bytes, the sum of the counts, and the scan of a whole source. -/

namespace Sys2Proof.Machine

theorem ofNat_length_cons {α : Type} (b : α) (bs : List α) :
    BitVec.ofNat 32 (b :: bs).length = 1 + BitVec.ofNat 32 bs.length := by
  rw [List.length_cons, Nat.add_comm, BitVec.ofNat_add]
  rfl

/-- The table after counting some bytes. -/
def countAll (freq : List Word) (bytes : List Byte) : List Word :=
  bytes.foldl (fun f b => f.set b.toNat (f.getD b.toNat 0 + 1)) freq

@[simp] theorem countAll_nil (freq : List Word) : countAll freq [] = freq := rfl
@[simp] theorem countAll_cons (freq : List Word) (b : Byte) (bs : List Byte) :
    countAll freq (b :: bs) = countAll (freq.set b.toNat (freq.getD b.toNat 0 + 1)) bs := rfl

@[simp] theorem countAll_length (freq : List Word) (bs : List Byte) : (countAll freq bs).length = freq.length := by
  induction bs generalizing freq with
  | nil => rfl
  | cons b bs ih => simp [ih]

@[simp] theorem symbolOfByte_toNat (b : Byte) : (symbolOfByte b).toNat = b.toNat := by
  simp only [symbolOfByte, BitVec.toNat_setWidth]; omega

/-- Counting adds to each entry how often its byte occurs. -/
theorem countAll_getD (freq : List Word) (bs : List Byte) (i : Nat) (h : i < freq.length) :
    (countAll freq bs).getD i 0 = freq.getD i 0 + BitVec.ofNat 32 (bs.countP fun b => b.toNat = i) := by
  induction bs generalizing freq with
  | nil => simp
  | cons b bs ih =>
    rw [countAll_cons, ih _ (by simpa using h), List.countP_cons]
    by_cases hb : b.toNat = i
    · subst hb
      simp only [List.getD_eq_getElem?_getD, h, BitVec.ofNat_add, List.getElem?_set_self, Option.getD_some, decide_true,
        if_true]
      rw [BitVec.add_assoc, BitVec.add_comm (1 : Word)]
      rfl
    · simp [List.getD_eq_getElem?_getD, List.getElem?_set_ne hb, hb]

/-- `countAll` counts every byte once (41_frequency.md rules R144, R145). -/
theorem counted_countAll (freq : List Word) (bs : List Byte) : Counted freq (countAll freq bs) bs :=
  ⟨countAll_length _ _, fun _ hi => countAll_getD _ _ _ hi⟩

theorem sum_set (l : List Nat) (i x : Nat) (h : i < l.length) : (l.set i x).sum + l.getD i 0 = l.sum + x := by
  induction l generalizing i with
  | nil => simp at h
  | cons a l ih =>
    cases i with
    | zero => simp; omega
    | succ i => have := ih i (by simpa using h); simp at this ⊢; omega

theorem getD_le_sum (l : List Nat) (i : Nat) : l.getD i 0 ≤ l.sum := by
  induction l generalizing i with
  | nil => simp
  | cons a l ih => cases i with
    | zero => simp
    | succ i => have := ih i; simp at this ⊢; omega

/-- Every count is at most TOTAL (41_frequency.md rule R143). -/
theorem FreqOk.count_le {freq : List Word} {total : Word} (h : FreqOk freq total) (i : Nat) :
    (freq.getD i 0).toNat ≤ total.toNat := by
  have := getD_le_sum (freq.map BitVec.toNat) i
  rw [h.2.2] at this
  by_cases hi : i < freq.length
  · simpa [List.getD_eq_getElem?_getD, hi] using this
  · simp [List.getD_eq_getElem?_getD, hi]

/-- Counting one byte keeps the counters a table. -/
theorem FreqOk.count {freq : List Word} {total : Word} (h : FreqOk freq total) (b : Byte) (ht : total ≠ 0xFFFFFFFF) :
    FreqOk (freq.set b.toNat (freq.getD b.toNat 0 + 1)) (total + 1) := by
  have hlt : total.toNat < 2 ^ 32 - 1 := by
    have h₁ := total.isLt
    have : total.toNat ≠ 2 ^ 32 - 1 := fun e => ht (BitVec.eq_of_toNat_eq (by simpa using e))
    omega
  have hb : b.toNat < freq.length := by have := b.isLt; rw [h.1]; simp [Config.numSymbols]; omega
  refine ⟨by simpa using h.1, ?_, ?_⟩
  · rw [List.getElem?_set_ne (by have := b.isLt; omega)]; exact h.2.1
  · have hc : (freq.getD b.toNat 0 + 1).toNat = (freq.getD b.toNat 0).toNat + 1 := by
      have := h.count_le b.toNat
      rw [BitVec.toNat_add, show (1 : Word).toNat = 1 from rfl]; omega
    have := sum_set (freq.map BitVec.toNat) b.toNat ((freq.getD b.toNat 0).toNat + 1) (by simpa using hb)
    rw [h.2.2] at this
    rw [List.map_set, hc, BitVec.toNat_add, show (1 : Word).toNat = 1 from rfl]
    have hg : (freq.map BitVec.toNat).getD b.toNat 0 = (freq.getD b.toNat 0).toNat := by
      simp [List.getD_eq_getElem?_getD, hb]
    rw [hg] at this
    omega

theorem FreqOk.readFreq {m : Memory} {total : Word} (h : FreqOk m.freq total) (b : Byte) :
    m.readFreq (symbolOfByte b) = .ok (m.freq.getD b.toNat 0) := by
  have hb : b.toNat < m.freq.length := by have := b.isLt; rw [h.1]; simp [Config.numSymbols]; omega
  simp [Memory.readFreq, List.getD_eq_getElem?_getD, hb]

/-- One byte counted (41_frequency.md rules R142, R144). -/
theorem countByte_ok {s : State} (h : FreqOk s.mem.freq s.total) (b : Byte) (ht : s.total ≠ 0xFFFFFFFF)
    (k : Word → State → Flow) :
    countByte b s k = k (s.mem.freq.getD b.toNat 0 + 1)
      ((s.setMem { s.mem with freq := s.mem.freq.set b.toNat (s.mem.freq.getD b.toNat 0 + 1) }).setTotal (s.total + 1)) := by
  rw [countByte, if_neg ht, h.readFreq b]
  simp [Memory.writeFreq]

theorem countByte_overflow {s : State} (b : Byte) (ht : s.total = 0xFFFFFFFF) (k : Word → State → Flow) :
    countByte b s k = .raise .cntOverflow 0xFFFFFFFF (b.setWidth 32) s := by simp [countByte, ht]

/-- The state after a scan of the rest of IB's source. -/
def State.scanned (s : State) (bs : List Byte) : State :=
  (((s.setMem { s.mem with freq := countAll s.mem.freq bs }).setTotal (s.total + BitVec.ofNat 32 bs.length)).setBytesIn
    (s.bytesIn + BitVec.ofNat 32 bs.length)).setPorts
    { s.ports with ib := { s.ports.ib with left := [], isOpen := true } }

/-- FC_SCAN's loop counts every byte up to EOS (41_frequency.md rules R144, R145). -/
theorem scanLoop_ready (bs : List Byte) (n : Nat) (s : State) (hn : bs.length < n) (hr : s.ports.credit = none)
    (hl : s.ports.ib.left = bs) (he : s.ports.ib.ended = true) (hf : FreqOk s.mem.freq s.total)
    (ht : s.total.toNat + bs.length < 4294967296) :
    scanLoop n s = .ok (s.scanned bs) ∧ FreqOk (s.scanned bs).mem.freq (s.scanned bs).total := by
  induction bs generalizing n s with
  | nil =>
    obtain ⟨n, rfl⟩ : ∃ m, n = m + 1 := ⟨n - 1, by simp at hn; omega⟩
    rw [scanLoop, port_ibRead_eos hr hl he]
    simp only
    constructor
    · congr 1
      apply State.ext <;> simp [State.scanned, hl]
    · simpa [State.scanned] using hf
  | cons b bs ih =>
    obtain ⟨n, rfl⟩ : ∃ m, n = m + 1 := ⟨n - 1, by simp at hn; omega⟩
    have hne : s.total ≠ 0xFFFFFFFF := by
      intro e
      rw [e, show (0xFFFFFFFF : Word).toNat = 4294967295 from rfl] at ht
      simp at ht
      omega
    have ht1 : (s.total + 1).toNat = s.total.toNat + 1 := by
      rw [BitVec.toNat_add, show (1 : Word).toNat = 1 from rfl]; simp at ht; omega
    rw [scanLoop, port_ibRead_byte hr hl]
    simp only
    rw [countByte_ok (by simpa using hf) b (by simpa using hne)]
    have := ih n
      ((((s.setPorts { s.ports with ib := { s.ports.ib with left := bs, isOpen := true } }).setMem
        { s.mem with freq := s.mem.freq.set b.toNat (s.mem.freq.getD b.toNat 0 + 1) }).setTotal (s.total + 1)).setBytesIn
          (s.bytesIn + 1)) (by simpa using hn) (by simpa using hr) (by simp) (by simpa using he)
      (hf.count b hne) (by rw [State.setBytesIn_total, State.setTotal_total, ht1]; simp at ht; omega)
    have e : (State.scanned ((((s.setPorts { s.ports with ib := { s.ports.ib with left := bs, isOpen := true } }).setMem
        { s.mem with freq := s.mem.freq.set b.toNat (s.mem.freq.getD b.toNat 0 + 1) }).setTotal (s.total + 1)).setBytesIn
          (s.bytesIn + 1)) bs) = s.scanned (b :: bs) := by
      apply State.ext <;> simp only [State.scanned, ofNat_length_cons, ← BitVec.add_assoc] <;> simp
    rw [e] at this
    exact this

/-- The state at a byte that TOTAL cannot take, `pre` the bytes counted before it. -/
def State.scannedTo (s : State) (pre post : List Byte) : State :=
  (((s.setMem { s.mem with freq := countAll s.mem.freq pre }).setTotal 0xFFFFFFFF).setBytesIn
    (s.bytesIn + BitVec.ofNat 32 pre.length)).setPorts
    { s.ports with ib := { s.ports.ib with left := post, isOpen := true } }

/-- FC_SCAN's loop stops at the byte that TOTAL cannot take (41_frequency.md rule R144). -/
theorem scanLoop_overflow (pre : List Byte) (b : Byte) (post : List Byte) (n : Nat) (s : State) (hn : pre.length < n)
    (hr : s.ports.credit = none) (hl : s.ports.ib.left = pre ++ b :: post) (hf : FreqOk s.mem.freq s.total)
    (ht : s.total.toNat + pre.length = 4294967295) :
    scanLoop n s = .raise .cntOverflow 0xFFFFFFFF (b.setWidth 32) (s.scannedTo pre post) := by
  induction pre generalizing n s with
  | nil =>
    obtain ⟨n, rfl⟩ : ∃ m, n = m + 1 := ⟨n - 1, by simp at hn; omega⟩
    have he : s.total = 0xFFFFFFFF := BitVec.eq_of_toNat_eq (by simpa using ht)
    rw [scanLoop, port_ibRead_byte hr (by simpa using hl)]
    simp only
    rw [countByte_overflow b (by simpa using he)]
    refine congrArg _ ?_
    apply State.ext <;> simp [State.scannedTo, he]
  | cons a pre ih =>
    obtain ⟨n, rfl⟩ : ∃ m, n = m + 1 := ⟨n - 1, by simp at hn; omega⟩
    have hne : s.total ≠ 0xFFFFFFFF := by
      intro e
      rw [e, show (0xFFFFFFFF : Word).toNat = 4294967295 from rfl] at ht
      simp at ht
    have ht1 : (s.total + 1).toNat = s.total.toNat + 1 := by
      rw [BitVec.toNat_add, show (1 : Word).toNat = 1 from rfl]; simp at ht; omega
    rw [scanLoop, port_ibRead_byte hr (by simpa using hl)]
    simp only
    rw [countByte_ok (by simpa using hf) a (by simpa using hne)]
    have := ih n
      ((((s.setPorts { s.ports with ib := { s.ports.ib with left := pre ++ b :: post, isOpen := true } }).setMem
        { s.mem with freq := s.mem.freq.set a.toNat (s.mem.freq.getD a.toNat 0 + 1) }).setTotal (s.total + 1)).setBytesIn
          (s.bytesIn + 1)) (by simpa using hn) (by simpa using hr) (by simp)
      (hf.count a hne) (by rw [State.setBytesIn_total, State.setTotal_total, ht1]; simp at ht; omega)
    have e : (State.scannedTo ((((s.setPorts { s.ports with ib := { s.ports.ib with left := pre ++ b :: post, isOpen := true } }).setMem
        { s.mem with freq := s.mem.freq.set a.toNat (s.mem.freq.getD a.toNat 0 + 1) }).setTotal (s.total + 1)).setBytesIn
          (s.bytesIn + 1)) pre post) = s.scannedTo (a :: pre) post := by
      apply State.ext <;> simp only [State.scannedTo, ofNat_length_cons, ← BitVec.add_assoc] <;> simp
    rw [e] at this
    exact this

end Sys2Proof.Machine
end

