-- ==== Sys2Proof/Laws/Store.lean ====
section
/-! SUPPORT. The internal memories: the priority queue as an ordered set, and the form that every memory operation keeps. -/

namespace Sys2Proof.Machine

/-! ### The queue as a rising list -/

theorem rising_iff (q : List NodeIdx) : rising q = true ↔ q.Pairwise fun a b => a.toNat < b.toNat := by
  induction q with
  | nil => simp [rising]
  | cons n q ih => simp [rising, ih]

theorem mem_insertIdx (n x : NodeIdx) (q : List NodeIdx) : x ∈ insertIdx n q ↔ x = n ∨ x ∈ q := by
  induction q with
  | nil => simp [insertIdx]
  | cons y q ih =>
    simp only [insertIdx]
    split
    · simp
    · split
      · rename_i h; subst h; simp
      · simp [ih]; tauto

theorem insertIdx_last (n : NodeIdx) (q : List NodeIdx) (h : ∀ x ∈ q, x.toNat < n.toNat) : insertIdx n q = q ++ [n] := by
  induction q with
  | nil => rfl
  | cons y q ih =>
    have hy := h y (by simp)
    rw [insertIdx, if_neg (by omega), if_neg (by rintro rfl; omega), ih fun x hx => h x (by simp [hx])]
    rfl

theorem rising_insertIdx (n : NodeIdx) (q : List NodeIdx) (h : rising q = true) : rising (insertIdx n q) = true := by
  rw [rising_iff] at *
  induction q with
  | nil => simp [insertIdx]
  | cons y q ih =>
    rw [List.pairwise_cons] at h
    simp only [insertIdx]
    split
    · rename_i hlt
      exact List.pairwise_cons.2 ⟨by rintro x (_ | ⟨_, hx⟩); exacts [hlt, hlt.trans (h.1 x hx)], List.pairwise_cons.2 h⟩
    · split
      · exact List.pairwise_cons.2 h
      · rename_i h₁ h₂
        refine List.pairwise_cons.2 ⟨fun x hx => ?_, ih h.2⟩
        rcases (mem_insertIdx n x q).1 hx with rfl | hx
        · have : x.toNat ≠ y.toNat := fun e => h₂ (BitVec.eq_of_toNat_eq e)
          omega
        · exact h.1 x hx

theorem insertIdx_length_le (n : NodeIdx) (q : List NodeIdx) : (insertIdx n q).length ≤ q.length + 1 := by
  induction q with
  | nil => simp [insertIdx]
  | cons y q ih =>
    simp only [insertIdx]
    split
    · simp
    · split
      · simp
      · simp at *; omega

theorem insertIdx_perm (n : NodeIdx) (q : List NodeIdx) (h : n ∉ q) : (insertIdx n q).Perm (n :: q) := by
  induction q with
  | nil => simp [insertIdx]
  | cons y q ih =>
    simp only [insertIdx]
    split
    · rfl
    · rw [if_neg (by rintro rfl; simp at h)]
      exact ((ih (by simp at h; tauto)).cons y).trans (List.Perm.swap n y q)

/-! ### Keys -/

theorem keyLt_iff (w₁ w₂ : Word) (n₁ n₂ : NodeIdx) :
    keyLt w₁ n₁ w₂ n₂ = true ↔ w₁.toNat < w₂.toNat ∨ (w₁ = w₂ ∧ n₁.toNat < n₂.toNat) := by simp [keyLt]

theorem Memory.before_trans {m : Memory} {a b c : NodeIdx} (h₁ : m.before a b) (h₂ : m.before b c) : m.before a c := by
  unfold Memory.before at *
  rcases h₁ with h₁ | ⟨e₁, h₁⟩ <;> rcases h₂ with h₂ | ⟨e₂, h₂⟩
  · exact .inl (h₁.trans h₂)
  · exact .inl (e₂ ▸ h₁)
  · exact .inl (e₁ ▸ h₂)
  · exact .inr ⟨e₁.trans e₂, h₁.trans h₂⟩

theorem Memory.before_asymm {m : Memory} {a b : NodeIdx} (h₁ : m.before a b) : ¬ m.before b a := by
  unfold Memory.before at *
  rintro (h₂ | ⟨e₂, h₂⟩) <;> rcases h₁ with h₁ | ⟨e₁, h₁⟩
  · omega
  · rw [e₁] at h₂; omega
  · rw [e₂] at h₁; omega
  · omega

/-- The keys are unique, so their order is total (42_tree_builder.md rule R161). -/
theorem Memory.before_total (m : Memory) {a b : NodeIdx} (h : a ≠ b) : m.before a b ∨ m.before b a := by
  unfold Memory.before
  have : a.toNat ≠ b.toNat := fun e => h (BitVec.eq_of_toNat_eq e)
  rcases lt_trichotomy (m.weightOf a).toNat (m.weightOf b).toNat with hw | hw | hw
  · exact .inl (.inl hw)
  · have e := BitVec.eq_of_toNat_eq hw
    rcases lt_or_gt_of_ne this with hn | hn
    · exact .inl (.inr ⟨e, hn⟩)
    · exact .inr (.inr ⟨e.symm, hn⟩)
  · exact .inr (.inl hw)

theorem Memory.readNode_weight {m : Memory} {n : NodeIdx} (h : n.toNat < m.nodes.length) :
    ∃ nd, m.readNode n = .ok nd ∧ nd.weight = m.weightOf n ∧ m.nodes[n.toNat]? = some nd :=
  ⟨m.nodes[n.toNat], by simp [Memory.readNode, h], by simp [Memory.weightOf, h], by simp [h]⟩

/-- The search for the smallest key finds it (42_tree_builder.md rule R163). -/
theorem Memory.minKey_spec (m : Memory) (q : List NodeIdx) (best : NodeIdx)
    (h : ∀ y ∈ best :: q, y.toNat < m.nodes.length) :
    ∃ x, m.minKey best q = .ok x ∧ x ∈ best :: q ∧ ∀ y ∈ best :: q, y ≠ x → m.before x y := by
  induction q generalizing best with
  | nil => exact ⟨best, rfl, by simp, by simp⟩
  | cons n q ih =>
    obtain ⟨nb, eb, wb, -⟩ := m.readNode_weight (h best (by simp))
    obtain ⟨nn, en, wn, -⟩ := m.readNode_weight (h n (by simp))
    have hstep : m.minKey best (n :: q) = m.minKey (if keyLt nn.weight n nb.weight best then n else best) q := by
      simp [Memory.minKey, eb, en, bind, Except.bind]
    have hk : keyLt nn.weight n nb.weight best = true ↔ m.before n best := by
      rw [keyLt_iff, wb, wn]; rfl
    by_cases hlt : m.before n best
    · rw [hstep, if_pos (hk.2 hlt)]
      obtain ⟨x, ex, hx, hmin⟩ := ih n fun y hy => h y (by simp at hy ⊢; tauto)
      refine ⟨x, ex, by simp at hx ⊢; tauto, fun y hy hne => ?_⟩
      rcases List.mem_cons.1 hy with rfl | hy
      · by_cases hxn : n = x
        · exact hxn ▸ hlt
        · exact Memory.before_trans (hmin n (by simp) hxn) hlt
      · exact hmin y hy hne
    · rw [hstep, if_neg (fun e => hlt (hk.1 e))]
      obtain ⟨x, ex, hx, hmin⟩ := ih best fun y hy => h y (by simp at hy ⊢; tauto)
      refine ⟨x, ex, by simp at hx ⊢; tauto, fun y hy hne => ?_⟩
      simp only [List.mem_cons] at hy
      rcases hy with rfl | rfl | hy
      · exact hmin y (by simp) hne
      · by_cases hyb : y = best
        · subst hyb; exact hmin y (by simp) hne
        · have hby := (m.before_total hyb).resolve_left hlt
          by_cases hxb : best = x
          · exact hxb ▸ hby
          · exact Memory.before_trans (hmin best (by simp) hxb) hby
      · exact hmin y (by simp [hy]) hne

/-- PQ_REMOVE_MIN of a queue of allocated nodes (42_tree_builder.md rule R163). -/
theorem Memory.pqRemoveMin_spec {m : Memory} (hne : m.heap ≠ []) (h : ∀ y ∈ m.heap, y.toNat < m.nodes.length) :
    ∃ x ∈ m.heap, m.pqRemoveMin = .ok (x, { m with heap := m.heap.erase x }) ∧ ∀ y ∈ m.heap, y ≠ x → m.before x y := by
  obtain ⟨n, q, hq⟩ : ∃ n q, m.heap = n :: q := by
    cases hh : m.heap with
    | nil => exact absurd hh hne
    | cons n q => exact ⟨n, q, rfl⟩
  obtain ⟨x, ex, hx, hmin⟩ := m.minKey_spec q n (hq ▸ h)
  refine ⟨x, hq ▸ hx, ?_, hq ▸ hmin⟩
  unfold Memory.pqRemoveMin
  rw [hq]
  simp [ex, bind, Except.bind]

/-- The smallest key is the one that PQ_REMOVE_MIN gives. -/
theorem Memory.pqRemoveMin_eq {m : Memory} {x : NodeIdx} (hx : x ∈ m.heap) (h : ∀ y ∈ m.heap, y.toNat < m.nodes.length)
    (hmin : ∀ y ∈ m.heap, y ≠ x → m.before x y) : m.pqRemoveMin = .ok (x, { m with heap := m.heap.erase x }) := by
  obtain ⟨z, hz, ez, hzmin⟩ := Memory.pqRemoveMin_spec (List.ne_nil_of_mem hx) h
  by_cases e : z = x
  · exact e ▸ ez
  · exact absurd (hmin z hz e) (Memory.before_asymm (hzmin x hx fun e' => e e'.symm))

/-! ### The form of the memories -/

theorem Memory.wf_iff (m : Memory) : m.wf = true ↔
    (m.freq.length = 0 ∨ m.freq.length = 257) ∧ (m.codes.length = 0 ∨ m.codes.length = 257) ∧ m.nodes.length ≤ 513 ∧
      m.heap.length ≤ 257 ∧ rising m.heap = true ∧ ∀ n ∈ m.heap, n.toNat < m.nodes.length := by
  simp only [Memory.wf, Bool.and_eq_true, Bool.or_eq_true, beq_iff_eq, decide_eq_true_eq, List.all_eq_true, and_assoc]
  rfl

theorem Memory.wf_setFreq {m : Memory} (h : m.wf = true) {f : List Word} (hf : f.length = m.freq.length ∨ f.length = 257) :
    ({ m with freq := f } : Memory).wf = true := by
  rw [Memory.wf_iff] at *
  obtain ⟨h₁, h₂⟩ := h
  exact ⟨hf.elim (fun hf => hf ▸ h₁) .inr, h₂⟩

theorem Memory.wf_setCodes {m : Memory} (h : m.wf = true) {c : List Code} (hc : c.length = 257) :
    ({ m with codes := c } : Memory).wf = true := by
  rw [Memory.wf_iff] at *
  obtain ⟨h₁, h₂, h₃⟩ := h
  exact ⟨h₁, .inr hc, h₃⟩

theorem Memory.wf_writeFreq {m : Memory} (h : m.wf = true) (s : Symbol) (c : Word) : (m.writeFreq s c).wf = true :=
  Memory.wf_setFreq h (.inl (by simp))

theorem Memory.wf_writeNode {m : Memory} (h : m.wf = true) (n : NodeIdx) (nd : Node) : (m.writeNode n nd).wf = true := by
  rw [Memory.wf_iff] at *
  simpa [Memory.writeNode] using h

theorem Memory.wf_clearTree {m : Memory} (h : m.wf = true) : m.clearTree.wf = true := by
  rw [Memory.wf_iff] at *
  exact ⟨h.1, h.2.1, by simp [Memory.clearTree, rising]⟩

/-- What an allocation leaves (42_tree_builder.md rules R164, R166). -/
theorem Memory.alloc_eq {m m' : Memory} {nd : Node} {n : NodeIdx} (h : m.alloc nd = .ok (n, m')) :
    m.nodes.length < 513 ∧ n = BitVec.ofNat 10 m.nodes.length ∧ m' = { m with nodes := m.nodes ++ [nd] } := by
  unfold Memory.alloc at h
  split at h
  · cases h; exact ⟨by simpa [Config.maxNodes] using ‹_›, rfl, rfl⟩
  · cases h

theorem ofNat_toNat_of_lt {n : Nat} (h : n < 1024) : (BitVec.ofNat 10 n).toNat = n := by
  rw [BitVec.toNat_ofNat]; omega

theorem Memory.wf_alloc {m m' : Memory} {nd : Node} {n : NodeIdx} (hw : m.wf = true) (h : m.alloc nd = .ok (n, m')) :
    m'.wf = true := by
  obtain ⟨hlt, -, rfl⟩ := Memory.alloc_eq h
  rw [Memory.wf_iff] at *
  refine ⟨hw.1, hw.2.1, by simp; omega, hw.2.2.2.1, hw.2.2.2.2.1, fun x hx => ?_⟩
  have := hw.2.2.2.2.2 x hx
  simp; omega

/-- A new node that enters the queue at once (42_tree_builder.md rule R161). -/
theorem Memory.addNode_eq {m m' : Memory} {nd : Node} {n : NodeIdx} (h : m.addNode nd = .ok (n, m')) :
    m.nodes.length < 513 ∧ m.heap.length < 257 ∧ n = BitVec.ofNat 10 m.nodes.length ∧
      m' = { m with nodes := m.nodes ++ [nd], heap := insertIdx n m.heap } := by
  unfold Memory.addNode at h
  cases ha : m.alloc nd with
  | error f => rw [ha] at h; cases h
  | ok r =>
    obtain ⟨n₁, m₁⟩ := r
    obtain ⟨hlt, rfl, rfl⟩ := Memory.alloc_eq ha
    rw [ha] at h
    simp only [bind, Except.bind, Memory.pqInsert] at h
    split at h
    · cases h
    · rename_i hp
      split at hp
      · cases hp; cases h
        exact ⟨hlt, by simpa [Config.heapCap] using ‹_›, rfl, rfl⟩
      · cases hp

theorem Memory.addNode_ok {m : Memory} (h₁ : m.nodes.length < 513) (h₂ : m.heap.length < 257) (nd : Node) :
    m.addNode nd = .ok (BitVec.ofNat 10 m.nodes.length,
      { m with nodes := m.nodes ++ [nd], heap := insertIdx (BitVec.ofNat 10 m.nodes.length) m.heap }) := by
  simp [Memory.addNode, Memory.alloc, Memory.pqInsert, Config.maxNodes, Config.heapCap, h₁, h₂, bind, Except.bind]

theorem Memory.wf_addNode {m m' : Memory} {nd : Node} {n : NodeIdx} (hw : m.wf = true) (h : m.addNode nd = .ok (n, m')) :
    m'.wf = true := by
  obtain ⟨hlt, hh, rfl, rfl⟩ := Memory.addNode_eq h
  rw [Memory.wf_iff] at *
  have := insertIdx_length_le (BitVec.ofNat 10 m.nodes.length) m.heap
  refine ⟨hw.1, hw.2.1, by simp; omega, by simp only; omega, rising_insertIdx _ _ hw.2.2.2.2.1, fun x hx => ?_⟩
  rcases (mem_insertIdx _ _ _).1 hx with rfl | hx
  · rw [ofNat_toNat_of_lt (by omega)]; simp
  · have := hw.2.2.2.2.2 x hx
    simp; omega

theorem Memory.wf_eraseHeap {m : Memory} (hw : m.wf = true) (x : NodeIdx) :
    ({ m with heap := m.heap.erase x } : Memory).wf = true := by
  rw [Memory.wf_iff] at *
  refine ⟨hw.1, hw.2.1, hw.2.2.1, (List.length_erase_le).trans hw.2.2.2.1, ?_, fun y hy =>
    hw.2.2.2.2.2 y (List.mem_of_mem_erase hy)⟩
  exact (rising_iff _).2 (((rising_iff _).1 hw.2.2.2.2.1).sublist List.erase_sublist)

theorem Memory.wf_pqRemoveMin {m m' : Memory} {x : NodeIdx} (hw : m.wf = true) (h : m.pqRemoveMin = .ok (x, m')) :
    m'.wf = true := by
  unfold Memory.pqRemoveMin at h
  split at h
  · cases h
  · rename_i n q hq
    cases hk : m.minKey n q with
    | error f => rw [hk] at h; cases h
    | ok y =>
      rw [hk] at h
      cases h
      exact hq ▸ Memory.wf_eraseHeap hw x

theorem loadLeaves_wf : ∀ (l : List Nat) {m m' : Memory}, m.wf = true → loadLeaves l m = .ok m' → m'.wf = true
  | [], _, _, hw, h => by cases h; exact hw
  | s :: l, m, m', hw, h => by
    unfold loadLeaves at h
    cases hf : m.readFreq (BitVec.ofNat 9 s) with
    | error f => rw [hf] at h; cases h
    | ok c =>
      rw [hf] at h
      simp only [bind, Except.bind] at h
      split at h
      · exact loadLeaves_wf l hw h
      · cases ha : m.addNode (leafNode (BitVec.ofNat 9 s) c) with
        | error f => rw [ha] at h; cases h
        | ok r =>
          rw [ha] at h
          exact loadLeaves_wf l (Memory.wf_addNode hw ha) h

theorem Memory.wf_load {m m' : Memory} (hw : m.wf = true) (h : m.load = .ok m') : m'.wf = true := by
  unfold Memory.load at h
  cases hl : loadLeaves (List.range Config.numSymbols) m.clearTree with
  | error f => rw [hl] at h; cases h
  | ok m₁ =>
    rw [hl] at h
    have hw₁ := loadLeaves_wf _ (Memory.wf_clearTree hw) hl
    simp only [bind, Except.bind, padLeaf] at h
    split at h
    · cases ha : m₁.addNode (leafNode 0 0) with
      | error f => rw [ha] at h; cases h
      | ok r => rw [ha] at h; cases h; exact Memory.wf_addNode hw₁ ha
    · cases h; exact hw₁

theorem Memory.wf_merge {m m' : Memory} {n : NodeIdx} (hw : m.wf = true) (h : m.merge = .ok (n, m')) : m'.wf = true := by
  unfold Memory.merge at h
  cases h₁ : m.pqRemoveMin with
  | error f => rw [h₁] at h; cases h
  | ok r₁ =>
    obtain ⟨l, m₁⟩ := r₁
    rw [h₁] at h
    cases h₂ : m₁.pqRemoveMin with
    | error f => simp only [bind, Except.bind, h₂] at h; cases h
    | ok r₂ =>
      obtain ⟨r, m₂⟩ := r₂
      simp only [bind, Except.bind, h₂] at h
      split at h
      · cases h
      · split at h
        · cases h
        · exact Memory.wf_addNode (Memory.wf_pqRemoveMin (Memory.wf_pqRemoveMin hw h₁) h₂) h

theorem returnChild_wf : ∀ (st : List (NodeIdx × Bool)) {m m' : Memory} {c : NodeIdx} {st' : List (NodeIdx × Bool)},
    m.wf = true → returnChild m c st = .ok (m', st') → m'.wf = true
  | [], _, _, _, _, hw, h => by cases h; exact hw
  | (p, false) :: st, m, m', c, st', hw, h => by
    unfold returnChild at h
    cases hr : m.readNode p with
    | error f => rw [hr] at h; cases h
    | ok nd => rw [hr] at h; cases h; exact Memory.wf_writeNode hw _ _
  | (p, true) :: st, m, m', c, st', hw, h => by
    unfold returnChild at h
    cases hr : m.readNode p with
    | error f => rw [hr] at h; cases h
    | ok nd => rw [hr] at h; exact returnChild_wf st (Memory.wf_writeNode hw _ _) h

end Sys2Proof.Machine
end

