-- ==== Sys2Proof/Laws/Tree.lean ====
section
/-! SUPPORT. Trees in the node store: what TB_LOAD loads, and the forest that every merge keeps until one tree is left. -/

namespace Sys2Proof.Machine

/-! ### Trees -/

theorem Shape.leaves_pos (t : Shape) : 0 < t.leaves.length := by
  induction t with
  | leaf v => simp [Shape.leaves]
  | node l r hl hr => simp [Shape.leaves]; omega

/-- A full binary tree has one internal node fewer than leaves (30_encoding.md rule R102). -/
theorem Shape.leaves_length (t : Shape) : t.leaves.length = t.internals + 1 := by
  induction t with
  | leaf v => rfl
  | node l r hl hr => simp [Shape.leaves, Shape.internals, hl, hr]; omega

theorem Shape.depth_le (t : Shape) : t.depth ≤ t.internals := by
  induction t with
  | leaf v => rfl
  | node l r hl hr => simp only [Shape.depth, Shape.internals]; omega

theorem Shape.header_length (t : Shape) : t.header.length + 1 = 11 * t.leaves.length := by
  induction t with
  | leaf v => simp [Shape.header, Shape.leaves]
  | node l r hl hr => simp [Shape.header, Shape.leaves]; omega

/-- A tree stays where it is when other nodes are added. -/
theorem TreeAt.append {nodes more : List Node} {n : NodeIdx} {t : Shape} (h : TreeAt nodes n t) :
    TreeAt (nodes ++ more) n t := by
  have hget : ∀ {k : Nat} {nd : Node}, nodes[k]? = some nd → (nodes ++ more)[k]? = some nd := by
    intro k nd hk
    rw [List.getElem?_append_left (List.getElem?_eq_some_iff.1 hk).1, hk]
  induction t generalizing n with
  | leaf v =>
    obtain ⟨nd, h₁, h₂⟩ := h
    exact ⟨nd, hget h₁, h₂⟩
  | node l r hl hr =>
    obtain ⟨nd, h₁, h₂, h₃, h₄⟩ := h
    exact ⟨nd, hget h₁, h₂, hl h₃, hr h₄⟩

theorem TreeAt.lt {nodes : List Node} {n : NodeIdx} {t : Shape} (h : TreeAt nodes n t) : n.toNat < nodes.length := by
  cases t with
  | leaf v => obtain ⟨nd, h₁, -⟩ := h; exact (List.getElem?_eq_some_iff.1 h₁).1
  | node l r => obtain ⟨nd, h₁, -⟩ := h; exact (List.getElem?_eq_some_iff.1 h₁).1

theorem TreeAt.get {nodes : List Node} {n : NodeIdx} {t : Shape} (h : TreeAt nodes n t) : ∃ nd, nodes[n.toNat]? = some nd :=
  ⟨_, List.getElem?_eq_getElem h.lt⟩

/-- The node store holds at most one tree at an index. -/
theorem TreeAt.unique {nodes : List Node} {n : NodeIdx} {t u : Shape} (h : TreeAt nodes n t) (h' : TreeAt nodes n u) :
    t = u := by
  induction t generalizing n u with
  | leaf v =>
    obtain ⟨nd, h₁, h₂, h₃⟩ := h
    cases u with
    | leaf v' => obtain ⟨nd', k₁, -, k₃⟩ := h'; rw [h₁] at k₁; cases k₁; rw [← h₃, k₃]
    | node l r => obtain ⟨nd', k₁, k₂, -⟩ := h'; rw [h₁] at k₁; cases k₁; rw [h₂] at k₂; cases k₂
  | node l r hl hr =>
    obtain ⟨nd, h₁, h₂, h₃, h₄⟩ := h
    cases u with
    | leaf v' => obtain ⟨nd', k₁, k₂, -⟩ := h'; rw [h₁] at k₁; cases k₁; rw [h₂] at k₂; cases k₂
    | node l' r' =>
      obtain ⟨nd', k₁, k₂, k₃, k₄⟩ := h'
      rw [h₁] at k₁; cases k₁
      rw [hl h₃ k₃, hr h₄ k₄]

/-! ### TB_LOAD -/

/-- The first `n` node indices. -/
def firstIndices (n : Nat) : List NodeIdx := (List.range n).map (BitVec.ofNat 10)

theorem firstIndices_succ (n : Nat) : firstIndices (n + 1) = firstIndices n ++ [BitVec.ofNat 10 n] := by
  simp [firstIndices, List.range_succ]

theorem insertIdx_firstIndices {n : Nat} (h : n < 1024) :
    insertIdx (BitVec.ofNat 10 n) (firstIndices n) = firstIndices (n + 1) := by
  rw [firstIndices_succ]
  refine insertIdx_last _ _ fun x hx => ?_
  simp only [firstIndices, List.mem_map, List.mem_range] at hx
  obtain ⟨k, hk, rfl⟩ := hx
  rw [ofNat_toNat_of_lt h, ofNat_toNat_of_lt (by omega)]
  exact hk

theorem Memory.addNode_first {m : Memory} {nodes : List Node} (hn : m.nodes = nodes)
    (hh : m.heap = firstIndices nodes.length) (hl : nodes.length < 257) (nd : Node) :
    m.addNode nd = .ok (BitVec.ofNat 10 nodes.length,
      { m with nodes := nodes ++ [nd], heap := firstIndices (nodes.length + 1) }) := by
  rw [Memory.addNode_ok (by rw [hn]; omega) (by simp [hh, firstIndices]; omega), hn, hh, insertIdx_firstIndices (by omega)]

theorem loadLeaves_eq : ∀ (l : List Nat) (m : Memory), (∀ s ∈ l, s < m.freq.length) → m.freq.length = 257 →
    m.heap = firstIndices m.nodes.length → m.nodes.length + l.length ≤ 257 →
    loadLeaves l m = .ok { m with
      nodes := m.nodes ++ (l.filter fun s => m.freq.getD s 0 != 0).map fun s => leafNode (BitVec.ofNat 9 s) (m.freq.getD s 0)
      heap := firstIndices (m.nodes.length + (l.filter fun s => m.freq.getD s 0 != 0).length) }
  | [], m, _, _, hh, _ => by simp [loadLeaves, ← hh]
  | s :: l, m, hs, hf, hh, hl => by
    have hlt := hs s (by simp)
    have hr : m.readFreq (BitVec.ofNat 9 s) = .ok (m.freq.getD s 0) := by
      have : (BitVec.ofNat 9 s).toNat = s := by rw [BitVec.toNat_ofNat]; omega
      simp [Memory.readFreq, this, List.getD_eq_getElem?_getD, hlt]
    simp only [loadLeaves, hr, bind, Except.bind]
    by_cases hc : m.freq.getD s 0 = 0
    · rw [if_pos hc, loadLeaves_eq l m (fun x hx => hs x (by simp [hx])) hf hh (by simp at hl; omega)]
      simp only [List.filter_cons, bne_iff_ne, ne_eq, hc, not_true_eq_false, if_false]
    · rw [if_neg hc, Memory.addNode_first rfl hh (by simp at hl; omega)]
      simp only
      rw [loadLeaves_eq l { m with
        nodes := m.nodes ++ [leafNode (BitVec.ofNat 9 s) (m.freq.getD s 0)]
        heap := firstIndices (m.nodes.length + 1) } (fun x hx => hs x (by simp [hx])) hf (by simp) (by simp at hl ⊢; omega)]
      simp only [List.filter_cons, bne_iff_ne, ne_eq, hc, not_false_eq_true, if_true, List.map_cons, List.append_assoc,
        List.singleton_append, List.length_append, List.length_cons, List.length_nil]
      congr 3
      omega

/-- The memories after TB_LOAD (42_tree_builder.md rules R164, R165). -/
def Memory.loaded (m : Memory) : Memory :=
  { m with
    nodes := (loadedLeaves m.freq).map fun p => leafNode p.1 p.2
    heap := firstIndices (loadedLeaves m.freq).length }

theorem countedSymbols_length_le (freq : List Word) : (countedSymbols freq).length ≤ 257 := by
  simp only [countedSymbols, List.length_map]
  exact (List.length_filter_le _ _).trans (by simp [Config.numSymbols])

theorem Memory.load_eq {m : Memory} (hf : m.freq.length = 257) : m.load = .ok m.loaded := by
  unfold Memory.load
  rw [loadLeaves_eq _ m.clearTree (by simp [Memory.clearTree, hf, Config.numSymbols]) hf (by simp [Memory.clearTree, firstIndices])
    (by simp [Memory.clearTree, Config.numSymbols])]
  have hl : ((List.range Config.numSymbols).filter fun s => m.freq.getD s 0 != 0).length = (countedSymbols m.freq).length := by
    simp [countedSymbols]
  have hm : ((List.range Config.numSymbols).filter fun s => m.freq.getD s 0 != 0).map
      (fun s => leafNode (BitVec.ofNat 9 s) (m.freq.getD s 0)) = (countedSymbols m.freq).map fun p => leafNode p.1 p.2 := by
    simp [countedSymbols]
  simp only [bind, Except.bind, Memory.clearTree, List.nil_append, List.length_nil, Nat.zero_add, hl, hm, padLeaf]
  by_cases h1 : (countedSymbols m.freq).length = 1
  · rw [if_pos (by simp [firstIndices, h1]), Memory.addNode_first rfl (by simp) (by simp [h1])]
    simp [Memory.loaded, loadedLeaves, h1]
  · rw [if_neg (by simp [firstIndices, h1])]
    simp [Memory.loaded, loadedLeaves, h1]

/-- There are two leaves at least, and 257 at most (42_tree_builder.md rule R164). -/
theorem loadedLeaves_length {freq : List Word} {total : Word} (h : FreqOk freq total) :
    2 ≤ (loadedLeaves freq).length ∧ (loadedLeaves freq).length ≤ 257 := by
  have hle := countedSymbols_length_le freq
  have hpos : 0 < (countedSymbols freq).length := by
    simp only [countedSymbols, List.length_map]
    apply List.length_pos_of_mem (a := 256)
    simp [Config.numSymbols, List.getD_eq_getElem?_getD, h.2.1]
  unfold loadedLeaves
  split
  · simp; omega
  · omega

theorem countedSymbols_nodup (freq : List Word) : ((countedSymbols freq).map (·.1)).Nodup := by
  simp only [countedSymbols, List.map_map]
  refine List.Nodup.map_on ?_ (List.nodup_range.filter _)
  intro a ha b hb hab
  simp only [List.mem_filter, List.mem_range, Config.numSymbols] at ha hb
  simp only [Function.comp] at hab
  have := congrArg BitVec.toNat hab
  rw [BitVec.toNat_ofNat, BitVec.toNat_ofNat] at this
  omega

theorem mem_countedSymbols {freq : List Word} {v : Symbol} :
    v ∈ (countedSymbols freq).map (·.1) ↔ v.toNat ≤ 256 ∧ freq.getD v.toNat 0 ≠ 0 := by
  simp only [countedSymbols, List.map_map, List.mem_map, List.mem_filter, List.mem_range, Config.numSymbols, bne_iff_ne,
    Function.comp]
  constructor
  · rintro ⟨a, ⟨ha, hc⟩, rfl⟩
    have : (BitVec.ofNat 9 a).toNat = a := by rw [BitVec.toNat_ofNat]; omega
    rw [this]
    exact ⟨by omega, hc⟩
  · rintro ⟨h₁, h₂⟩
    exact ⟨v.toNat, ⟨by omega, h₂⟩, by simp⟩

/-- No symbol is loaded twice (43_code_table.md rule R193). -/
theorem loadedLeaves_nodup {freq : List Word} {total : Word} (h : FreqOk freq total) :
    ((loadedLeaves freq).map (·.1)).Nodup := by
  unfold loadedLeaves
  split
  · rename_i h1
    have hm : Config.pseudoEof ∈ (countedSymbols freq).map (·.1) := by
      refine mem_countedSymbols.2 ⟨by decide, ?_⟩
      rw [show Config.pseudoEof.toNat = 256 from rfl, List.getD_eq_getElem?_getD, h.2.1]
      decide
    obtain ⟨p, hp⟩ := List.length_eq_one_iff.1 h1
    rw [hp] at hm ⊢
    simp only [List.map_cons, List.map_nil, List.mem_singleton] at hm
    simp [← hm, Config.pseudoEof]
  · exact countedSymbols_nodup freq

theorem mem_loadedLeaves_of_count {freq : List Word} {v : Symbol} (hv : v.toNat ≤ 256) (hc : freq.getD v.toNat 0 ≠ 0) :
    v ∈ (loadedLeaves freq).map (·.1) := by
  have := mem_countedSymbols.2 ⟨hv, hc⟩
  unfold loadedLeaves
  split
  · rw [List.map_append]; exact List.mem_append_left _ this
  · exact this

theorem loadedLeaves_legal {freq : List Word} {v : Symbol} (hv : v ∈ (loadedLeaves freq).map (·.1)) : v.toNat ≤ 256 := by
  unfold loadedLeaves at hv
  split at hv
  · rw [List.map_append, List.mem_append] at hv
    rcases hv with hv | hv
    · exact (mem_countedSymbols.1 hv).1
    · simp only [List.map_cons, List.map_nil, List.mem_singleton] at hv
      rw [hv]; decide
  · exact (mem_countedSymbols.1 hv).1

end Sys2Proof.Machine
end

