-- ==== Sys2Proof/Laws/Codes.lean ====
section
/-! SUPPORT. The code table of a tree: the walk of CG_GEN visits the leaves in pre-order, each with its path, and the codes
are prefix-free. -/

namespace Sys2Proof.Machine

/-- A path's bits as a number, the first one the most significant. -/
def pathBits (p : List Bool) : BitVec 256 := p.foldl (fun v b => (v <<< 1) ||| (BitVec.ofBool b).setWidth 256) 0

theorem ofPath_eq (p : List Bool) : Code.ofPath p = { len := BitVec.ofNat 9 p.length, bits := pathBits p } := rfl

theorem pathBits_snoc_false (p : List Bool) : pathBits (p ++ [false]) = pathBits p <<< 1 := by
  simp [pathBits, List.foldl_append]

theorem pathBits_snoc_true (p : List Bool) : pathBits (p ++ [true]) = (pathBits p <<< 1) ||| 1 := by
  simp only [pathBits, List.foldl_append, List.foldl_cons, List.foldl_nil]
  rfl

@[simp] theorem Shape.codes_symbols (t : Shape) : t.codes.map (·.1) = t.leaves := by
  induction t with
  | leaf v => rfl
  | node l r hl hr => simp [Shape.codes, Shape.leaves, ← hl, ← hr, Function.comp_def]

theorem Shape.codes_depth (t : Shape) : ∀ c ∈ t.codes, c.2.length ≤ t.depth := by
  induction t with
  | leaf v => simp [Shape.codes]
  | node l r hl hr =>
    intro c hc
    simp only [Shape.codes, List.mem_append, List.mem_map] at hc
    simp only [Shape.depth]
    rcases hc with ⟨c, hc, rfl⟩ | ⟨c, hc, rfl⟩
    · have := hl c hc; simp; omega
    · have := hr c hc; simp; omega

theorem Shape.codes_ne_nil (t : Shape) (h : t.internal = true) : ∀ c ∈ t.codes, c.2 ≠ [] := by
  cases t with
  | leaf v => cases h
  | node l r =>
    intro c hc
    simp only [Shape.codes, List.mem_append, List.mem_map] at hc
    rcases hc with ⟨c, hc, rfl⟩ | ⟨c, hc, rfl⟩ <;> simp

/-- No path to a leaf is a prefix of the path to another one (43_code_table.md rule R191). -/
theorem Shape.codes_prefixFree (t : Shape) : t.codes.Pairwise fun a b => ¬ a.2 <+: b.2 ∧ ¬ b.2 <+: a.2 := by
  induction t with
  | leaf v => simp [Shape.codes]
  | node l r hl hr =>
    simp only [Shape.codes, List.pairwise_append, List.pairwise_map]
    refine ⟨hl.imp fun h => by simpa [List.cons_prefix_cons] using h, hr.imp fun h => by simpa [List.cons_prefix_cons] using h, ?_⟩
    intro a ha b hb
    simp only [List.mem_map] at ha hb
    obtain ⟨a, -, rfl⟩ := ha
    obtain ⟨b, -, rfl⟩ := hb
    simp [List.cons_prefix_cons]

/-! ### The walk as a visit of the leaves in order -/

/-- The visits of some leaves in order. -/
def walkList : List (Symbol × List Bool) → List Code → Nat → Walk
  | [], codes, count => .ok codes count
  | c :: cs, codes, count =>
    match walkLeaf c.1 c.2.length (pathBits c.2) codes count with
    | .ok codes' count' => walkList cs codes' count'
    | r => r

theorem walkList_append (as bs : List (Symbol × List Bool)) (codes : List Code) (count : Nat) :
    walkList (as ++ bs) codes count =
      match walkList as codes count with
      | .ok codes' count' => walkList bs codes' count'
      | r => r := by
  induction as generalizing codes count with
  | nil => rfl
  | cons a as ih =>
    simp only [List.cons_append, walkList]
    cases walkLeaf a.1 a.2.length (pathBits a.2) codes count with
    | ok c n => exact ih c n
    | dup c s => rfl
    | fault f => rfl

/-- CG_GEN's walk of a subtree (43_code_table.md rule R190). -/
theorem walk_eq {nodes : List Node} {n : NodeIdx} {t : Shape} (h : TreeAt nodes n t) (d : Nat) (hd : t.depth < d)
    (p : List Bool) (codes : List Code) (count : Nat) :
    walk nodes d n p.length (pathBits p) codes count = walkList (t.codes.map fun c => (c.1, p ++ c.2)) codes count := by
  induction t generalizing n d p codes count with
  | leaf v =>
    obtain ⟨d, rfl⟩ : ∃ e, d = e + 1 := ⟨d - 1, by omega⟩
    obtain ⟨nd, h₁, h₂, h₃⟩ := h
    simp only [walk, h₁, h₂, if_true, h₃, Shape.codes, List.map_cons, List.map_nil, List.append_nil, walkList]
    cases walkLeaf v p.length (pathBits p) codes count <;> rfl
  | node l r hl hr =>
    obtain ⟨d, rfl⟩ : ∃ e, d = e + 1 := ⟨d - 1, by omega⟩
    obtain ⟨nd, h₁, h₂, h₃, h₄⟩ := h
    simp only [Shape.depth] at hd
    simp only [walk, h₁, h₂, Bool.false_eq_true, if_false]
    have e₁ := hl h₃ d (by omega) (p ++ [false]) codes count
    simp only [List.length_append, List.length_cons, List.length_nil, pathBits_snoc_false, List.append_assoc,
      List.singleton_append] at e₁
    rw [e₁]
    simp only [Shape.codes, List.map_append, List.map_map, walkList_append, Function.comp_def]
    cases walkList (l.codes.map fun c => (c.1, p ++ false :: c.2)) codes count with
    | ok c' n' =>
      have e₂ := hr h₄ d (by omega) (p ++ [true]) c' n'
      simp only [List.length_append, List.length_cons, List.length_nil, pathBits_snoc_true, List.append_assoc,
        List.singleton_append] at e₂
      exact e₂
    | dup c s => rfl
    | fault f => rfl

/-! ### The table -/

/-- A table with some entries written. -/
def putCodes (codes : List Code) (cs : List (Symbol × List Bool)) : List Code :=
  cs.foldl (fun t c => t.set c.1.toNat (Code.ofPath c.2)) codes

@[simp] theorem putCodes_nil (codes : List Code) : putCodes codes [] = codes := rfl
@[simp] theorem putCodes_cons (codes : List Code) (c cs) :
    putCodes codes (c :: cs) = putCodes (codes.set c.1.toNat (Code.ofPath c.2)) cs := rfl

@[simp] theorem putCodes_length (codes : List Code) (cs) : (putCodes codes cs).length = codes.length := by
  induction cs generalizing codes with
  | nil => rfl
  | cons c cs ih => simp [ih]

theorem putCodes_of_notMem (codes : List Code) (cs) (v : Symbol) (h : v ∉ cs.map (·.1)) :
    (putCodes codes cs)[v.toNat]? = codes[v.toNat]? := by
  induction cs generalizing codes with
  | nil => rfl
  | cons c cs ih =>
    simp only [List.map_cons, List.mem_cons, not_or] at h
    rw [putCodes_cons, ih _ h.2, List.getElem?_set_ne fun e => h.1 (BitVec.eq_of_toNat_eq e.symm)]

theorem putCodes_of_mem (codes : List Code) (cs) (hnd : (cs.map (·.1)).Nodup) (c) (hc : c ∈ cs)
    (hlt : c.1.toNat < codes.length) : (putCodes codes cs)[c.1.toNat]? = some (Code.ofPath c.2) := by
  induction cs generalizing codes with
  | nil => simp at hc
  | cons x cs ih =>
    simp only [List.map_cons, List.nodup_cons] at hnd
    rcases List.mem_cons.1 hc with rfl | hc
    · rw [putCodes_cons, putCodes_of_notMem _ _ _ hnd.1, List.getElem?_set_self hlt]
    · exact ih _ hnd.2 hc (by simpa using hlt)

theorem walkLeaf_fresh {v : Symbol} {p : List Bool} {codes : List Code} {count : Nat} (h : codes[v.toNat]? = some {}) :
    walkLeaf v p.length (pathBits p) codes count = .ok (codes.set v.toNat (Code.ofPath p)) (count + 1) := by
  simp [walkLeaf, h, ofPath_eq]

/-- Leaves with different symbols all get their codes. -/
theorem walkList_ok (cs : List (Symbol × List Bool)) (codes : List Code) (count : Nat) (hnd : (cs.map (·.1)).Nodup)
    (h : ∀ c ∈ cs, codes[c.1.toNat]? = some {}) :
    walkList cs codes count = .ok (putCodes codes cs) (count + cs.length) := by
  induction cs generalizing codes count with
  | nil => rfl
  | cons c cs ih =>
    simp only [List.map_cons, List.nodup_cons] at hnd
    simp only [walkList, walkLeaf_fresh (h c (by simp))]
    rw [ih _ _ hnd.2]
    · simp; omega
    · intro x hx
      rw [List.getElem?_set_ne]
      · exact h x (by simp [hx])
      · intro e
        exact hnd.1 (List.mem_map.2 ⟨x, hx, BitVec.eq_of_toNat_eq e.symm⟩)

/-- A symbol that an earlier leaf has stops the walk (43_code_table.md rule R190). -/
theorem walkList_dup (pre post : List (Symbol × List Bool)) (c : Symbol × List Bool) (codes : List Code) (count : Nat)
    (hnd : (pre.map (·.1)).Nodup) (h : ∀ c ∈ pre, codes[c.1.toNat]? = some {}) (hlen : ∀ c ∈ pre, (Code.ofPath c.2).len ≠ 0)
    (hc : c.1 ∈ pre.map (·.1)) :
    walkList (pre ++ c :: post) codes count = .dup (putCodes codes pre) c.1 := by
  rw [walkList_append, walkList_ok pre codes count hnd h]
  obtain ⟨x, hx, hxc⟩ := List.mem_map.1 hc
  have hlt : x.1.toNat < codes.length := (List.getElem?_eq_some_iff.1 (h x hx)).1
  have := putCodes_of_mem codes pre hnd x hx hlt
  rw [hxc] at this
  simp only [walkList, walkLeaf, this, if_neg (hlen x hx)]

theorem clearedCodes_length : clearedCodes.length = 257 := List.length_replicate

theorem clearedCodes_get {v : Symbol} (h : v.toNat ≤ 256) : clearedCodes[v.toNat]? = some {} := by
  simp only [clearedCodes, Config.numSymbols]
  rw [List.getElem?_replicate, if_pos (by omega)]

/-- CG_GEN on a tree without a repeated symbol (43_code_table.md rule R190). -/
theorem walk_codesOf {nodes : List Node} {n : NodeIdx} {t : Shape} (h : TreeAt nodes n t) (hi : t.internals ≤ 256)
    (hv : ∀ v ∈ t.leaves, v.toNat ≤ 256) (hnd : t.leaves.Nodup) :
    ∃ codes, walk nodes (Config.maxInternal + 1) n 0 0 clearedCodes 0 = .ok codes t.leaves.length ∧ CodesOf codes t := by
  have hd := t.depth_le
  have e := walk_eq h (Config.maxInternal + 1) (by simp only [Config.maxInternal]; omega) [] clearedCodes 0
  simp only [List.nil_append, List.map_id'] at e
  have hmem : ∀ c ∈ t.codes, c.1 ∈ t.leaves := fun c hc => t.codes_symbols ▸ List.mem_map_of_mem hc
  have hnd' : (t.codes.map (·.1)).Nodup := by rw [t.codes_symbols]; exact hnd
  refine ⟨putCodes clearedCodes t.codes, ?_, by rw [putCodes_length, clearedCodes_length]; rfl, fun c hc => ?_, fun v hv' hm => ?_⟩
  · rw [walkList_ok _ _ _ hnd' fun c hc => clearedCodes_get (hv _ (hmem c hc))] at e
    rw [show t.leaves.length = 0 + t.codes.length by have := congrArg List.length t.codes_symbols; rw [List.length_map] at this; omega]
    exact e
  · exact putCodes_of_mem _ _ hnd' c hc (by rw [clearedCodes_length]; have := hv _ (hmem c hc); omega)
  · rw [putCodes_of_notMem _ _ _ (by rwa [t.codes_symbols]), clearedCodes_get hv']

/-- CG_GEN on a tree with a repeated symbol: the first one that repeats (43_code_table.md rule R190). -/
theorem walk_dup {nodes : List Node} {n : NodeIdx} {t : Shape} (h : TreeAt nodes n t) (ht : t.internal = true)
    (hi : t.internals ≤ 256) (hv : ∀ v ∈ t.leaves, v.toNat ≤ 256) {pre post : List Symbol} {v : Symbol}
    (hs : t.leaves = pre ++ v :: post) (hnd : pre.Nodup) (hm : v ∈ pre) :
    ∃ codes, walk nodes (Config.maxInternal + 1) n 0 0 clearedCodes 0 = .dup codes v ∧ codes.length = 257 := by
  have hd := t.depth_le
  have e := walk_eq h (Config.maxInternal + 1) (by simp only [Config.maxInternal]; omega) [] clearedCodes 0
  simp only [List.nil_append, List.map_id'] at e
  have hs' := t.codes_symbols
  rw [hs] at hs'
  obtain ⟨a, b, hab, ha, hb⟩ := List.map_eq_append_iff.1 hs'
  obtain ⟨c, b', rfl, hc, -⟩ := List.map_eq_cons_iff.1 hb
  have hmem : ∀ x ∈ a, x ∈ t.codes := fun x hx => hab ▸ List.mem_append_left _ hx
  rw [hab, walkList_dup a b' c clearedCodes 0 (ha ▸ hnd) (fun x hx => clearedCodes_get (hv _ (by
    rw [hs]; exact List.mem_append_left _ (ha ▸ List.mem_map_of_mem hx)))) (fun x hx => ?_) (by rw [ha, hc]; exact hm), hc] at e
  · exact ⟨_, e, by rw [putCodes_length, clearedCodes_length]⟩
  · have := t.codes_depth x (hmem x hx)
    exact fun h0 => t.codes_ne_nil ht x (hmem x hx) ((ofPath_len_zero (by omega)).1 h0)

/-- A symbol of a tree has its path as its code. -/
theorem Shape.code_mem {t : Shape} {v : Symbol} (h : v ∈ t.leaves) : (v, t.code v) ∈ t.codes := by
  rw [← t.codes_symbols] at h
  obtain ⟨c, hc, rfl⟩ := List.mem_map.1 h
  have : (t.codes.find? fun x => x.1 = c.1).isSome := by
    rw [List.find?_isSome]; exact ⟨c, hc, by simp⟩
  obtain ⟨x, hx⟩ := Option.isSome_iff_exists.1 this
  have h₁ := List.mem_of_find?_eq_some hx
  have h₂ := List.find?_some hx
  simp only [decide_eq_true_eq] at h₂
  simp only [Shape.code, hx, Option.map_some, Option.getD_some]
  rw [← h₂]
  exact h₁

end Sys2Proof.Machine
end

