-- ==== Sys2Proof/Laws/Coding.lean ====
section
/-! SUPPORT. Encoding a body through a tree's code table, and decoding it along the tree. -/

namespace Sys2Proof.Machine

/-! ### Decoding -/

/-- The state after some body bits were decoded: what is left of port BI's bits, how many were read, the bytes emitted, where
CUR stands and RESULT. -/
def State.fed (s : State) (rest : List Bool) (n : Nat) (out : List Byte) (cur : NodeIdx) (res : Word) : State :=
  ((((s.setPorts { s.ports with
      bi := { s.ports.bi with bits := rest, isOpen := true }
      bo := { s.ports.bo with bytes := s.ports.bo.bytes ++ out, isOpen := s.ports.bo.isOpen || !out.isEmpty } }).setBitsIn
    (s.bitsIn + BitVec.ofNat 32 n)).setBytesOut (s.bytesOut + BitVec.ofNat 32 out.length)).setCur cur).setResult res

section Fed

variable (s : State) (rest : List Bool) (n : Nat) (out : List Byte) (cur : NodeIdx) (res : Word)

@[simp] theorem State.fed_status : (s.fed rest n out cur res).status = s.status := by simp [State.fed]
@[simp] theorem State.fed_mem : (s.fed rest n out cur res).mem = s.mem := by simp [State.fed]
@[simp] theorem State.fed_root : (s.fed rest n out cur res).root = s.root := by simp [State.fed]
@[simp] theorem State.fed_cur : (s.fed rest n out cur res).cur = cur := by simp [State.fed]
@[simp] theorem State.fed_bits : (s.fed rest n out cur res).ports.bi.bits = rest := by simp [State.fed]
@[simp] theorem State.fed_ended : (s.fed rest n out cur res).ports.bi.ended = s.ports.bi.ended := by simp [State.fed]
@[simp] theorem State.fed_credit : (s.fed rest n out cur res).ports.credit = s.ports.credit := by simp [State.fed]
@[simp] theorem State.fed_bitsIn : (s.fed rest n out cur res).bitsIn = s.bitsIn + BitVec.ofNat 32 n := by simp [State.fed]

theorem State.fed_fed (rest' : List Bool) (n' : Nat) (out' : List Byte) (cur' : NodeIdx) (res' : Word) :
    (s.fed rest n out cur res).fed rest' n' out' cur' res' = s.fed rest' (n + n') (out ++ out') cur' res' := by
  apply State.ext <;> simp [State.fed, BitVec.add_assoc, BitVec.ofNat_add, Bool.or_assoc]
  cases out <;> cases out' <;> simp

end Fed

theorem bit_eq_one (b : Bool) : decide (fieldValue [b] = 1) = b := by cases b <;> rfl

/-- The child of an internal node on a bit. -/
def Shape.child : Bool → Shape → Shape → Shape
  | false, l, _ => l
  | true, _, r => r

@[simp] theorem Shape.child_false (l r : Shape) : Shape.child false l r = l := rfl
@[simp] theorem Shape.child_true (l r : Shape) : Shape.child true l r = r := rfl

/-- DE_STEP up to where it arrives (46_decoder.md rule R260). -/
theorem deStep_moves {s : State} (hr : s.ports.credit = none) {b : Bool} {rest : List Bool}
    (hb : s.ports.bi.bits = b :: rest) {l r : Shape} (h : TreeAt s.mem.nodes s.cur (.node l r)) :
    ∃ x n nd, s.mem.nodes[s.cur.toNat]? = some x ∧ x.leaf = false ∧ n = (if b then x.right else x.left) ∧
      TreeAt s.mem.nodes n (Shape.child b l r) ∧ s.mem.readNode n = .ok nd ∧
      deStepBody s = (if nd.leaf then deEmitBody b (s.fed rest 1 [] n s.result)
        else .ok (s.fed rest 1 [] n (stepResult b false false 0))) := by
  obtain ⟨nd, h₁, h₂, h₃, h₄⟩ := h
  have hc : TreeAt s.mem.nodes (if b then nd.right else nd.left) (Shape.child b l r) := by
    cases b
    · exact h₃
    · exact h₄
  obtain ⟨cd, hcd⟩ : ∃ cd, s.mem.nodes[(if b then nd.right else nd.left).toNat]? = some cd :=
    ⟨_, List.getElem?_eq_getElem hc.lt⟩
  refine ⟨nd, _, cd, h₁, h₂, rfl, hc, by simp [Memory.readNode, hcd], ?_⟩
  rw [deStepBody, port_biRead hr (by simp [hb])]
  simp only [hb, List.take_succ_cons, List.take_zero, List.drop_succ_cons, List.drop_zero, bit_eq_one]
  simp only [deMove, State.addBitsIn, State.setBitsIn_mem, State.setPorts_mem, State.setBitsIn_cur, State.setPorts_cur,
    Memory.readNode, h₁, Flow.ofExcept_ok, hcd]
  have e : ∀ x, (((s.setPorts { s.ports with bi := { s.ports.bi with bits := rest, isOpen := true } }).setBitsIn
      (s.bitsIn + BitVec.ofNat 32 1)).setCur (if b then nd.right else nd.left)).setResult x =
      s.fed rest 1 [] (if b then nd.right else nd.left) x := by
    intro x
    apply State.ext <;> simp [State.fed]
  cases cd.leaf with
  | true =>
    simp only [if_true, ← e]
    rfl
  | false =>
    simp only [Bool.false_eq_true, if_false]
    exact congrArg Flow.ok (e _)

theorem deStep_internal {s : State} (hr : s.ports.credit = none) {b : Bool} {rest : List Bool}
    (hb : s.ports.bi.bits = b :: rest) {l r : Shape} (h : TreeAt s.mem.nodes s.cur (.node l r))
    (hc : (Shape.child b l r).internal = true) :
    ∃ x n, s.mem.nodes[s.cur.toNat]? = some x ∧ x.leaf = false ∧ n = (if b then x.right else x.left) ∧
      TreeAt s.mem.nodes n (Shape.child b l r) ∧ deStepBody s = .ok (s.fed rest 1 [] n (stepResult b false false 0)) := by
  obtain ⟨x, n, nd, hx, hl, hn, h₁, h₂, h₃⟩ := deStep_moves hr hb h
  refine ⟨x, n, hx, hl, hn, h₁, ?_⟩
  rw [h₃, if_neg]
  cases hch : Shape.child b l r with
  | leaf v => rw [hch] at hc; cases hc
  | node l' r' =>
    rw [hch] at h₁
    obtain ⟨nd', k₁, k₂, -⟩ := h₁
    simp only [Memory.readNode, k₁, Except.ok.injEq] at h₂
    rw [← h₂, k₂]
    simp

/-- The state after a leaf was reached (46_decoder.md rules R260, R261). -/
def State.reached (s : State) (rest : List Bool) (n : Nat) (b : Bool) (v : Symbol) : State :=
  if v = Config.pseudoEof then
    (s.fed rest n [] s.root (stepResult b true true v)).setStatus { s.status with eofSeen := true }
  else s.fed rest n [v.setWidth 8] s.root (stepResult b false true v)

theorem deStep_leaf {s : State} (hr : s.ports.credit = none) {b : Bool} {rest : List Bool}
    (hb : s.ports.bi.bits = b :: rest) {l r : Shape} (h : TreeAt s.mem.nodes s.cur (.node l r)) {v : Symbol}
    (hc : Shape.child b l r = .leaf v) : deStepBody s = .ok (s.reached rest 1 b v) := by
  obtain ⟨x, n, nd, -, -, -, h₁, h₂, h₃⟩ := deStep_moves hr hb h
  rw [hc] at h₁
  obtain ⟨nd', k₁, k₂, k₃⟩ := h₁
  simp only [Memory.readNode, k₁, Except.ok.injEq] at h₂
  subst h₂
  rw [h₃, if_pos k₂, deEmitBody]
  simp only [State.fed_mem, State.fed_cur, Memory.readNode, k₁, Flow.ofExcept_ok, k₃, State.reached]
  split
  · refine congrArg Flow.ok ?_
    apply State.ext <;> simp [State.fed]
  · rw [port_boWrite (by simpa using hr)]
    refine congrArg Flow.ok ?_
    apply State.ext <;> simp [State.fed, BoPort.write]

theorem deLoop_step {s t : State} (n : Nat) (he : s.status.eofSeen = false) (h : deStepBody s = .ok t) :
    deLoop (n + 1) s = deLoop n t := by
  rw [deLoop, if_neg (by simp [he]), h, Flow.andThen_ok]

/-- One whole code, from CUR to a leaf. -/
theorem deLoop_path (u : Shape) : ∀ (p : List Bool) (v : Symbol) (s : State) (rest : List Bool) (n : Nat), (v, p) ∈ u.codes →
    u.internal = true → s.ports.credit = none → s.status.eofSeen = false → TreeAt s.mem.nodes s.cur u →
    s.ports.bi.bits = p ++ rest →
    ∃ b, deLoop (n + p.length) s = deLoop n (s.reached rest p.length b v) := by
  induction u with
  | leaf v => intro p v s rest n _ h; cases h
  | node l r hl hr' =>
    intro p v s rest n hm _ hr he ht hb
    simp only [Shape.codes, List.mem_append, List.mem_map] at hm
    obtain ⟨b, q, rfl, hq⟩ : ∃ b q, p = b :: q ∧ (v, q) ∈ (Shape.child b l r).codes := by
      rcases hm with ⟨c, hc, e⟩ | ⟨c, hc, e⟩ <;> cases e
      · exact ⟨false, c.2, rfl, hc⟩
      · exact ⟨true, c.2, rfl, hc⟩
    cases hch : Shape.child b l r with
    | leaf v' =>
      rw [hch] at hq
      simp only [Shape.codes, List.mem_singleton, Prod.mk.injEq] at hq
      obtain ⟨rfl, rfl⟩ := hq
      exact ⟨b, deLoop_step n he (deStep_leaf hr hb ht hch)⟩
    | node l' r' =>
      have hci : (Shape.child b l r).internal = true := by rw [hch]; rfl
      rw [List.cons_append] at hb
      obtain ⟨-, m, -, -, -, h₁, h₂⟩ := deStep_internal hr hb ht hci
      have ih : ∃ b', deLoop (n + q.length) (s.fed (q ++ rest) 1 [] m (stepResult b false false 0)) =
          deLoop n ((s.fed (q ++ rest) 1 [] m (stepResult b false false 0)).reached rest q.length b' v) := by
        cases b
        · exact hl q v _ rest n hq hci (by simpa using hr) (by simpa using he) (by simpa using h₁) (by simp)
        · exact hr' q v _ rest n hq hci (by simpa using hr) (by simpa using he) (by simpa using h₁) (by simp)
      obtain ⟨b', e⟩ := ih
      refine ⟨b', ?_⟩
      rw [List.length_cons, ← Nat.add_assoc, deLoop_step _ he h₂, e]
      simp only [State.reached, State.fed_root, State.fed_status, State.fed_fed, List.nil_append]
      rw [Nat.add_comm 1]

/-- A code cut off before its leaf (46_decoder.md rule R263). -/
theorem deLoop_cut (u : Shape) : ∀ (p : List Bool) (v : Symbol) (s : State) (k n : Nat), (v, p) ∈ u.codes →
    u.internal = true → s.ports.credit = none → s.ports.bi.ended = true → s.status.eofSeen = false →
    TreeAt s.mem.nodes s.cur u → k < p.length → s.ports.bi.bits = p.take k →
    ∃ c res, walkTo s.mem.nodes s.cur (p.take k) = some c ∧
      deLoop (n + 1 + k) s = .raise .fmtBodyEos 1 (s.bitsIn + BitVec.ofNat 32 k) (s.fed [] k [] c res) := by
  induction u with
  | leaf v => intro p v s k n _ h; cases h
  | node l r hl hr' =>
    intro p v s k n hm _ hr hend he ht hk hb
    simp only [Shape.codes, List.mem_append, List.mem_map] at hm
    obtain ⟨b, q, rfl, hq⟩ : ∃ b q, p = b :: q ∧ (v, q) ∈ (Shape.child b l r).codes := by
      rcases hm with ⟨c, hc, e⟩ | ⟨c, hc, e⟩ <;> cases e
      · exact ⟨false, c.2, rfl, hc⟩
      · exact ⟨true, c.2, rfl, hc⟩
    cases k with
    | zero =>
      refine ⟨s.cur, s.result, rfl, ?_⟩
      rw [Nat.add_zero, deLoop, if_neg (by simp [he]), deStepBody, port_biRead_eos hr (by simp [hb]) hend]
      simp only [Flow.andThen_raise, State.setPorts_bitsIn]
      have hb' : s.ports.bi.bits = [] := by simpa using hb
      rw [show s.setPorts { s.ports with bi := { s.ports.bi with isOpen := true } } = s.fed [] 0 [] s.cur s.result by
        apply State.ext <;> simp [State.fed, hb'], BitVec.ofNat_eq_ofNat, BitVec.add_zero]
    | succ k =>
      simp only [List.take_succ_cons] at hb
      simp only [List.length_cons] at hk
      cases hch : Shape.child b l r with
      | leaf v' =>
        rw [hch] at hq
        simp only [Shape.codes, List.mem_singleton, Prod.mk.injEq] at hq
        obtain ⟨rfl, rfl⟩ := hq
        simp at hk
      | node l' r' =>
        have hci : (Shape.child b l r).internal = true := by rw [hch]; rfl
        obtain ⟨x, m, hx, hxl, hm', h₁, h₂⟩ := deStep_internal hr hb ht hci
        have ih : ∃ c res, walkTo s.mem.nodes m (q.take k) = some c ∧
            deLoop (n + 1 + k) (s.fed (q.take k) 1 [] m (stepResult b false false 0)) =
            .raise .fmtBodyEos 1 ((s.fed (q.take k) 1 [] m (stepResult b false false 0)).bitsIn + BitVec.ofNat 32 k)
              ((s.fed (q.take k) 1 [] m (stepResult b false false 0)).fed [] k [] c res) := by
          cases b
          · simpa only [State.fed_mem, State.fed_cur] using hl q v (s.fed (q.take k) 1 [] m (stepResult _ false false 0)) k n hq
              hci (by simpa using hr) (by simpa using hend) (by simpa using he) (by simpa using h₁) (by omega) (by simp)
          · simpa only [State.fed_mem, State.fed_cur] using hr' q v (s.fed (q.take k) 1 [] m (stepResult _ false false 0)) k n hq
              hci (by simpa using hr) (by simpa using hend) (by simpa using he) (by simpa using h₁) (by omega) (by simp)
        obtain ⟨c, res, hw, e⟩ := ih
        refine ⟨c, res, ?_, ?_⟩
        · rw [List.take_succ_cons, walkTo, hx]
          simp only [hxl, Bool.false_eq_true, if_false, ← hm', hw]
        rw [← Nat.add_assoc, deLoop_step _ he h₂, e, State.fed_fed, State.fed_bitsIn, BitVec.add_assoc, ← BitVec.ofNat_add,
          Nat.add_comm 1 k, List.nil_append]

theorem Shape.body_cons (t : Shape) (b : Byte) (bs : List Byte) :
    t.body (b :: bs) = t.code (symbolOfByte b) ++ t.body bs := by simp [Shape.body]

theorem symbolOfByte_ne_eof (b : Byte) : symbolOfByte b ≠ Config.pseudoEof := by
  intro e
  have := congrArg BitVec.toNat e
  rw [symbolOfByte, BitVec.toNat_setWidth, show Config.pseudoEof.toNat = 256 from rfl] at this
  have := b.isLt
  omega

theorem symbolOfByte_low (b : Byte) : (symbolOfByte b).setWidth 8 = b := by
  apply BitVec.eq_of_toNat_eq
  simp only [symbolOfByte, BitVec.toNat_setWidth]
  have := b.isLt
  omega

/-- A whole body is decoded to its bytes (46_decoder.md rule R262, 45_encoder.md rule R248). -/
theorem deLoop_body {t : Shape} (hi : t.internal = true) (heof : Config.pseudoEof ∈ t.leaves) :
    ∀ (bs : List Byte) (s : State) (rest : List Bool) (n : Nat), (∀ b ∈ bs, symbolOfByte b ∈ t.leaves) →
      s.ports.credit = none → s.status.eofSeen = false → s.cur = s.root → TreeAt s.mem.nodes s.root t →
      s.ports.bi.bits = t.body bs ++ rest → (t.body bs).length ≤ n →
      ∃ res, deLoop n s = .ok ((s.fed rest (t.body bs).length bs s.root res).setStatus { s.status with eofSeen := true })
  | [], s, rest, n, _, hr, he, hc, ht, hb, hn => by
    simp only [Shape.body, List.flatMap_nil, List.nil_append] at hb hn ⊢
    obtain ⟨b, e⟩ := deLoop_path t _ _ s rest (n - (t.code Config.pseudoEof).length) (Shape.code_mem heof) hi hr he (hc ▸ ht) hb
    rw [Nat.sub_add_cancel hn] at e
    refine ⟨stepResult b true true Config.pseudoEof, ?_⟩
    rw [e, State.reached, if_pos rfl]
    cases n - (t.code Config.pseudoEof).length <;> rw [deLoop, if_pos (by rfl)]
  | b :: bs, s, rest, n, hbs, hr, he, hc, ht, hb, hn => by
    rw [Shape.body_cons] at hb hn ⊢
    rw [List.length_append] at hn
    obtain ⟨d, e⟩ := deLoop_path t _ _ s (t.body bs ++ rest) (n - (t.code (symbolOfByte b)).length)
      (Shape.code_mem (hbs b (by simp))) hi hr he (hc ▸ ht) (by rw [hb, List.append_assoc])
    rw [Nat.sub_add_cancel (by omega), State.reached, if_neg (symbolOfByte_ne_eof b), symbolOfByte_low] at e
    obtain ⟨res, e'⟩ := deLoop_body hi heof bs _ rest (n - (t.code (symbolOfByte b)).length) (fun x hx => hbs x (by simp [hx]))
      (show (s.fed (t.body bs ++ rest) (t.code (symbolOfByte b)).length [b] s.root _).ports.credit = none by simpa using hr)
      (by simpa using he) (by simp) (by simpa using ht) (by simp) (by omega)
    refine ⟨res, ?_⟩
    rw [e, e', State.fed_fed, List.length_append, List.singleton_append, State.fed_root, State.fed_status]

/-- A body cut off before its end (46_decoder.md rule R263): every byte before the cut is emitted, and no part of the code
that is cut. -/
theorem deLoop_bodyCut {t : Shape} (hi : t.internal = true) (heof : Config.pseudoEof ∈ t.leaves) :
    ∀ (bs : List Byte) (s : State) (k n : Nat), (∀ b ∈ bs, symbolOfByte b ∈ t.leaves) →
      s.ports.credit = none → s.ports.bi.ended = true → s.status.eofSeen = false → s.cur = s.root →
      TreeAt s.mem.nodes s.root t → k < (t.body bs).length → s.ports.bi.bits = (t.body bs).take k → k < n →
      ∃ out c res, out <+: bs ∧ (out.flatMap fun b => t.code (symbolOfByte b)).length ≤ k ∧
        (∀ b post, bs = out ++ b :: post → k < ((out ++ [b]).flatMap fun b => t.code (symbolOfByte b)).length) ∧
        walkTo s.mem.nodes s.root (((t.body bs).take k).drop (out.flatMap fun b => t.code (symbolOfByte b)).length) = some c ∧
        deLoop n s = .raise .fmtBodyEos 1 (s.bitsIn + BitVec.ofNat 32 k) (s.fed [] k out c res)
  | [], s, k, n, _, hr, hend, he, hc, ht, hk, hb, hn => by
    simp only [Shape.body, List.flatMap_nil, List.nil_append] at hb hk
    obtain ⟨c, res, hw, e⟩ := deLoop_cut t _ _ s k (n - 1 - k) (Shape.code_mem heof) hi hr hend he (hc ▸ ht) hk hb
    rw [show n - 1 - k + 1 + k = n by omega] at e
    rw [hc] at hw
    exact ⟨[], c, res, List.nil_prefix, by simp, by simp, by simpa [Shape.body] using hw, e⟩
  | b :: bs, s, k, n, hbs, hr, hend, he, hc, ht, hk, hb, hn => by
    rw [Shape.body_cons] at hb hk
    have hm := Shape.code_mem (hbs b (by simp))
    by_cases hlt : k < (t.code (symbolOfByte b)).length
    · obtain ⟨c, res, hw, e⟩ := deLoop_cut t _ _ s k (n - 1 - k) hm hi hr hend he (hc ▸ ht) hlt
        (by rw [hb, List.take_append_of_le_length hlt.le])
      rw [show n - 1 - k + 1 + k = n by omega] at e
      rw [hc] at hw
      exact ⟨[], c, res, List.nil_prefix, by simp, fun x post hx => by cases hx; simpa using hlt, by
        rw [Shape.body_cons, List.take_append_of_le_length hlt.le]; simpa using hw, e⟩
    · rw [List.length_append] at hk
      rw [List.take_append, List.take_of_length_le (by omega)] at hb
      obtain ⟨d, e⟩ := deLoop_path t _ _ s _ (n - (t.code (symbolOfByte b)).length) hm hi hr he (hc ▸ ht) hb
      rw [Nat.sub_add_cancel (by omega), State.reached, if_neg (symbolOfByte_ne_eof b), symbolOfByte_low] at e
      obtain ⟨out, c, res, ho, ho₁, ho₂, hw, e'⟩ := deLoop_bodyCut hi heof bs _ (k - (t.code (symbolOfByte b)).length)
        (n - (t.code (symbolOfByte b)).length) (fun x hx => hbs x (by simp [hx]))
        (show (s.fed ((t.body bs).take (k - (t.code (symbolOfByte b)).length)) (t.code (symbolOfByte b)).length [b] s.root
          (stepResult d false true (symbolOfByte b))).ports.credit = none by simpa using hr)
        (by simpa using hend) (by simpa using he) (by simp) (by simpa using ht) (by omega) (by simp) (by omega)
      refine ⟨b :: out, c, res, List.cons_prefix_cons.2 ⟨rfl, ho⟩, ?_, fun x post hx => ?_, ?_, ?_⟩
      · rw [List.flatMap_cons, List.length_append]; omega
      · have := ho₂ x post (by simpa using hx)
        rw [List.cons_append, List.flatMap_cons, List.length_append]; omega
      · rw [Shape.body_cons, List.take_append, List.take_of_length_le (by omega), List.flatMap_cons, List.length_append,
          ← List.drop_drop, List.drop_left]
        simpa using hw
      rw [e, e', State.fed_fed, State.fed_bitsIn, BitVec.add_assoc, ← BitVec.ofNat_add,
        show (t.code (symbolOfByte b)).length + (k - (t.code (symbolOfByte b)).length) = k by omega, List.singleton_append]

/-- DE_STEP's bits, one more (46_decoder.md rule R260). -/
theorem decodeBits_cons {nodes : List Node} {root cur : NodeIdx} {x nd : Node} {d : Bool} {bits : List Bool}
    (hx : nodes[cur.toNat]? = some x) (hn : nodes[(if d then x.right else x.left).toNat]? = some nd) :
    decodeBits nodes root cur (d :: bits) =
      if nd.leaf then
        if nd.value = Config.pseudoEof then ([], root, some bits)
        else (nd.value.setWidth 8 :: (decodeBits nodes root root bits).1, (decodeBits nodes root root bits).2)
      else decodeBits nodes root (if d then x.right else x.left) bits := by
  simp only [decodeBits, hx, hn]

/-- What DE_BODY's loop comes to, where `decodeBits` comes to `x`. -/
def Decodes (s : State) (bits : List Bool) (x : List Byte × NodeIdx × Option (List Bool)) (f : Flow) : Prop :=
  match x with
  | (out, _, some rest) => rest.length ≤ bits.length ∧ ∃ res,
      f = .ok ((s.fed rest (bits.length - rest.length) out s.root res).setStatus { s.status with eofSeen := true })
  | (out, c, none) =>
    (s.ports.bi.ended = true → ∃ res,
      f = .raise .fmtBodyEos 1 (s.bitsIn + BitVec.ofNat 32 bits.length) (s.fed [] bits.length out c res)) ∧
    (s.ports.bi.ended = false → ∃ y, f = .hold y ∧ y.seq.pending = some (.biRead 1))

/-- DE_BODY's loop from any CUR, on any bits (46_decoder.md rules R262, R265). -/
theorem deLoop_decodes {t : Shape} (hi : t.internal = true) : ∀ (bits : List Bool) (s : State) (u : Shape) (n : Nat),
    s.ports.credit = none → s.status.eofSeen = false → u.internal = true → TreeAt s.mem.nodes s.cur u →
    TreeAt s.mem.nodes s.root t → s.ports.bi.bits = bits → bits.length < n →
    Decodes s bits (decodeBits s.mem.nodes s.root s.cur bits) (deLoop n s)
  | [], s, u, n, hr, he, _, _, _, hb, hn => by
    obtain ⟨n, rfl⟩ : ∃ m, n = m + 1 := ⟨n - 1, by simp at hn; omega⟩
    refine ⟨fun hend => ⟨s.result, ?_⟩, fun hend => ?_⟩
    · rw [deLoop, if_neg (by simp [he]), deStepBody, port_biRead_eos hr (by simp [hb]) hend]
      simp only [Flow.andThen_raise, State.setPorts_bitsIn, List.length_nil]
      rw [show s.setPorts { s.ports with bi := { s.ports.bi with isOpen := true } } = s.fed [] 0 [] s.cur s.result by
        apply State.ext <;> simp [State.fed, hb], BitVec.ofNat_eq_ofNat, BitVec.add_zero]
    · rw [deLoop, if_neg (by simp [he]), deStepBody, State.port, Ports.answer_of_ready hr]
      simp only [Ports.perform, BiPort.read, hb, hend]
      exact ⟨_, rfl, rfl⟩
  | b :: bits, s, u, n, hr, he, hu, hc, ht, hb, hn => by
    obtain ⟨n, rfl⟩ : ∃ m, n = m + 1 := ⟨n - 1, by simp at hn; omega⟩
    have hn' : bits.length < n := by simpa using hn
    cases u with
    | leaf v => cases hu
    | node l r =>
      have key : ∀ (s' : State) (out₀ : List Byte) (c₀ : NodeIdx) (r₀ : Word) (u' : Shape), u'.internal = true →
          TreeAt s.mem.nodes c₀ u' → s' = s.fed bits 1 out₀ c₀ r₀ → deStepBody s = .ok s' →
          Decodes s (b :: bits) (out₀ ++ (decodeBits s.mem.nodes s.root c₀ bits).1, (decodeBits s.mem.nodes s.root c₀ bits).2)
            (deLoop (n + 1) s) := by
        intro s' out₀ c₀ r₀ u' hu' hc' hs' hstep
        rw [deLoop_step n he hstep, hs']
        have ih := deLoop_decodes hi bits (s.fed bits 1 out₀ c₀ r₀) u' n (by simpa using hr) (by simpa using he)
          hu' (by simpa using hc') (by simpa using ht) (by simp) hn'
        simp only [State.fed_mem, State.fed_root, State.fed_cur] at ih
        generalize decodeBits s.mem.nodes s.root c₀ bits = z at ih ⊢
        obtain ⟨out, c, rest⟩ := z
        cases rest with
        | some rest =>
          obtain ⟨hk, res, e⟩ := ih
          refine ⟨by simp; omega, res, ?_⟩
          rw [e, State.fed_fed, State.fed_root, State.fed_status, List.length_cons, show 1 + (bits.length - rest.length) =
            bits.length + 1 - rest.length by omega]
        | none =>
          refine ⟨fun hend => ?_, fun hend => ih.2 (by simpa using hend)⟩
          obtain ⟨res, e⟩ := ih.1 (by simpa using hend)
          refine ⟨res, ?_⟩
          rw [e, State.fed_fed, State.fed_bitsIn, BitVec.add_assoc, ← BitVec.ofNat_add, Nat.add_comm 1, List.length_cons]
      obtain ⟨x, m, nd, hx, -, hm, htc, hnd, -⟩ := deStep_moves hr hb hc
      have hnd' : s.mem.nodes[m.toNat]? = some nd := by
        simp only [Memory.readNode] at hnd
        split at hnd <;> cases hnd
        assumption
      rw [decodeBits_cons hx (by rw [← hm]; exact hnd'), ← hm]
      cases hch : Shape.child b l r with
      | leaf v =>
        have hstep := deStep_leaf hr hb hc hch
        rw [hch] at htc
        obtain ⟨nd', k₁, k₂, rfl⟩ := htc
        rw [hnd'] at k₁
        cases k₁
        rw [if_pos k₂]
        by_cases hv : nd.value = Config.pseudoEof
        · rw [if_pos hv]
          refine ⟨by simp, stepResult b true true nd.value, ?_⟩
          rw [deLoop_step n he hstep, State.reached, if_pos hv, List.length_cons, Nat.add_sub_cancel_left]
          cases n <;> rw [deLoop, if_pos (by rfl)]
        · rw [if_neg hv]
          exact key _ [nd.value.setWidth 8] s.root (stepResult b false true nd.value) t hi ht (by rw [State.reached, if_neg hv]) hstep
      | node l' r' =>
        have hci : (Shape.child b l r).internal = true := by rw [hch]; rfl
        obtain ⟨x', m', hx', -, hm', h₁, h₂⟩ := deStep_internal hr hb hc hci
        rw [hx] at hx'
        cases hx'
        rw [← hm] at hm'
        subst hm'
        rw [hch] at htc
        obtain ⟨nd', k₁, k₂, -⟩ := htc
        rw [hnd'] at k₁
        cases k₁
        rw [k₂, if_neg (by simp)]
        exact key _ [] m' _ _ hci h₁ rfl h₂

/-- Where no leaf is PSEUDO_EOF's, no bits reach it (46_decoder.md rule R262). -/
theorem decodeBits_never {nodes : List Node} {root : NodeIdx} {t : Shape} (ht : TreeAt nodes root t) (hi : t.internal = true)
    (hn : Config.pseudoEof ∉ t.leaves) : ∀ (bits : List Bool) (cur : NodeIdx) (u : Shape), TreeAt nodes cur u → u.internal = true →
    (∀ v ∈ u.leaves, v ∈ t.leaves) → (decodeBits nodes root cur bits).2.2 = none
  | [], _, _, _, _, _ => rfl
  | _ :: _, _, .leaf _, _, hu, _ => by cases hu
  | d :: bits, cur, .node l r, h, _, hs => by
    obtain ⟨x, hx, -, h₁, h₂⟩ := h
    have hc : TreeAt nodes (if d then x.right else x.left) (Shape.child d l r) := by
      cases d
      · exact h₁
      · exact h₂
    have hsub : ∀ v ∈ (Shape.child d l r).leaves, v ∈ t.leaves := fun v hv => hs v (by
      cases d
      · exact List.mem_append_left _ hv
      · exact List.mem_append_right _ hv)
    obtain ⟨nd, hnd⟩ := hc.get
    rw [decodeBits_cons hx hnd]
    cases hch : Shape.child d l r with
    | leaf v =>
      rw [hch] at hc hsub
      obtain ⟨nd', k₁, k₂, rfl⟩ := hc
      rw [hnd] at k₁
      cases k₁
      rw [if_pos k₂, if_neg (by rintro e; exact hn (e ▸ hsub _ (by simp [Shape.leaves])))]
      exact decodeBits_never ht hi hn bits root t ht hi fun _ h => h
    | node l' r' =>
      rw [hch] at hc hsub
      have hc' := hc
      obtain ⟨nd', k₁, k₂, -⟩ := hc
      rw [hnd] at k₁
      cases k₁
      rw [k₂, if_neg (by simp)]
      exact decodeBits_never ht hi hn bits _ _ hc' rfl hsub

/-! ### Encoding -/

/-- The state after port IB delivered some bytes and their codes went to port OB. -/
def State.encoded (s : State) (left : List Byte) (n : Nat) (bits : List Bool) : State :=
  ((s.setPorts { s.ports with
      ib := { s.ports.ib with left := left, isOpen := true }
      ob := { s.ports.ob with bits := s.ports.ob.bits ++ bits, isOpen := s.ports.ob.isOpen || !bits.isEmpty } }).setBitsOut
    (s.bitsOut + BitVec.ofNat 32 bits.length)).setBytesIn (s.bytesIn + BitVec.ofNat 32 n)

theorem State.encoded_encoded (s : State) (l₁ l₂ : List Byte) (n₁ n₂ : Nat) (b₁ b₂ : List Bool) :
    (s.encoded l₁ n₁ b₁).encoded l₂ n₂ b₂ = s.encoded l₂ (n₁ + n₂) (b₁ ++ b₂) := by
  apply State.ext <;> simp [State.encoded, BitVec.add_assoc, BitVec.ofNat_add, Bool.or_assoc]
  cases b₁ <;> cases b₂ <;> simp

@[simp] theorem State.encoded_mem (s : State) (l n b) : (s.encoded l n b).mem = s.mem := by simp [State.encoded]
@[simp] theorem State.encoded_credit (s : State) (l n b) : (s.encoded l n b).ports.credit = s.ports.credit := by simp [State.encoded]
@[simp] theorem State.encoded_left (s : State) (l n b) : (s.encoded l n b).ports.ib.left = l := by simp [State.encoded]
@[simp] theorem State.encoded_ended (s : State) (l n b) : (s.encoded l n b).ports.ib.ended = s.ports.ib.ended := by simp [State.encoded]

theorem Memory.readCode_eq {m : Memory} (h : m.codes.length = 257) {v : Symbol} (hv : v.toNat ≤ 256) :
    m.readCode v = .ok (m.codeOf v) := by
  have : v.toNat < m.codes.length := by omega
  simp [Memory.readCode, Memory.codeOf, List.getD_eq_getElem?_getD, this]

@[simp] theorem Code.path_length (c : Code) : c.path.length = c.len.toNat := by simp [Code.path]

/-- A code, written to port OB (45_encoder.md rule R241). -/
theorem writeCode_run {s : State} (hr : s.ports.credit = none) {c : Code} (hc : c.len ≠ 0) :
    writeAll c.writes s = .ok ((s.setPorts { s.ports with
      ob := { s.ports.ob with bits := s.ports.ob.bits ++ c.path, isOpen := true } }).setBitsOut
      (s.bitsOut + BitVec.ofNat 32 c.len.toNat)) := by
  have : c.writes.isEmpty = false := by
    rw [List.isEmpty_eq_false_iff]
    intro e
    have := congrArg writesLength e
    rw [writesLength_codeWrites] at this
    exact hc (BitVec.eq_of_toNat_eq this)
  rw [writeAll_ready _ s hr]
  simp [State.wrote, this]

/-- EN_SYMBOL's body (45_encoder.md rules R240, R241). -/
theorem enSymbol_run {s : State} (hr : s.ports.credit = none) (hl : s.mem.codes.length = 257) {v : Symbol} (hv : v.toNat ≤ 256)
    (hc : (s.mem.codeOf v).len ≠ 0) :
    enSymbolBody v s = .ok (((s.setPorts { s.ports with
      ob := { s.ports.ob with bits := s.ports.ob.bits ++ (s.mem.codeOf v).path, isOpen := true } }).setBitsOut
      (s.bitsOut + BitVec.ofNat 32 (s.mem.codeOf v).len.toNat)).setResult ((s.mem.codeOf v).len.setWidth 32)) := by
  rw [enSymbolBody, Memory.readCode_eq hl hv, Flow.ofExcept_ok, if_neg hc, writeCode_run hr hc, Flow.andThen_ok]
  rfl

theorem enSymbol_noCode {s : State} (hl : s.mem.codes.length = 257) {v : Symbol} (hv : v.toNat ≤ 256)
    (hc : (s.mem.codeOf v).len = 0) : enSymbolBody v s = .raise .encNoCode 0 (v.setWidth 32) s := by
  rw [enSymbolBody, Memory.readCode_eq hl hv, Flow.ofExcept_ok, if_pos hc]

/-- One byte of EN_BODY's loop that has a code (45_encoder.md rule R244). -/
theorem encodeByte_ready {s : State} {b : Byte} {rest : List Byte} (hr : s.ports.credit = none)
    (hl : s.ports.ib.left = b :: rest) (hco : s.mem.codes.length = 257) (hb : (s.mem.codeOf (symbolOfByte b)).len ≠ 0) {n : Nat} :
    encLoop (n + 1) s = (encodeByte b (s.setPorts
      { s.ports with ib := { s.ports.ib with left := rest, isOpen := true } })).andThen [.encLoop] (encLoop n) ∧
    encodeByte b (s.setPorts { s.ports with ib := { s.ports.ib with left := rest, isOpen := true } }) =
      .ok (s.encoded rest 1 (s.mem.codeOf (symbolOfByte b)).path) := by
  refine ⟨by rw [encLoop, port_ibRead_byte hr hl], ?_⟩
  generalize hs₁ : s.setPorts { s.ports with ib := { s.ports.ib with left := rest, isOpen := true } } = s₁
  have hm : s₁.mem = s.mem := by rw [← hs₁]; rfl
  have hne : (s.mem.codeOf (symbolOfByte b)).path.isEmpty = false := by
    rw [List.isEmpty_eq_false_iff]
    intro e
    have := congrArg List.length e
    rw [Code.path_length] at this
    exact hb (BitVec.eq_of_toNat_eq this)
  rw [encodeByte, hm, Memory.readCode_eq hco (by rw [symbolOfByte_toNat]; omega), Flow.ofExcept_ok, if_neg hb,
    writeCode_run (by rw [← hs₁]; simpa using hr) hb, Flow.andThen_ok, bytesInNextBody, ← hs₁]
  refine congrArg Flow.ok ?_
  apply State.ext <;> simp [State.encoded, hne]

/-- EN_BODY's loop (45_encoder.md rules R244, R245). -/
theorem encLoop_run : ∀ (bs : List Byte) (s : State) (n : Nat), s.ports.credit = none → s.ports.ib.left = bs →
    s.ports.ib.ended = true → s.mem.codes.length = 257 → (∀ b ∈ bs, (s.mem.codeOf (symbolOfByte b)).len ≠ 0) → bs.length < n →
    encLoop n s = .ok (s.encoded [] bs.length (bs.flatMap fun b => (s.mem.codeOf (symbolOfByte b)).path))
  | [], s, n, hr, hl, he, _, _, hn => by
    obtain ⟨n, rfl⟩ : ∃ m, n = m + 1 := ⟨n - 1, by simp at hn; omega⟩
    rw [encLoop, port_ibRead_eos hr hl he]
    refine congrArg Flow.ok ?_
    apply State.ext <;> simp [State.encoded, hl]
  | b :: bs, s, n, hr, hl, he, hco, hbs, hn => by
    obtain ⟨n, rfl⟩ : ∃ m, n = m + 1 := ⟨n - 1, by simp at hn; omega⟩
    have e := encodeByte_ready (s := s) (rest := bs) (n := n) hr hl hco (hbs b (by simp))
    have hrec := encLoop_run bs (s.encoded bs 1 (s.mem.codeOf (symbolOfByte b)).path) n (by simpa using hr) (by simp)
      (by simpa using he) (by simpa using hco) (by simpa using fun x hx => hbs x (by simp [hx])) (by simpa using hn)
    rw [e.1, e.2, Flow.andThen_ok, hrec, State.encoded_encoded, List.flatMap_cons, Nat.add_comm 1, State.encoded_mem]
    rfl

/-- EN_BODY's loop stops at a byte without a code (45_encoder.md rule R244). -/
theorem encLoop_noCode : ∀ (pre : List Byte) (b : Byte) (post : List Byte) (s : State) (n : Nat), s.ports.credit = none →
    s.ports.ib.left = pre ++ b :: post → s.mem.codes.length = 257 →
    (∀ x ∈ pre, (s.mem.codeOf (symbolOfByte x)).len ≠ 0) → (s.mem.codeOf (symbolOfByte b)).len = 0 → pre.length < n →
    encLoop n s = .raise .encNoCode 0 (b.setWidth 32)
      (s.encoded post pre.length (pre.flatMap fun x => (s.mem.codeOf (symbolOfByte x)).path))
  | [], b, post, s, n, hr, hl, hco, _, hb, hn => by
    obtain ⟨n, rfl⟩ : ∃ m, n = m + 1 := ⟨n - 1, by simp at hn; omega⟩
    rw [encLoop, port_ibRead_byte hr hl]
    simp only
    generalize hs₁ : s.setPorts { s.ports with ib := { s.ports.ib with left := post, isOpen := true } } = s₁
    have hm : s₁.mem = s.mem := by rw [← hs₁]; rfl
    rw [encodeByte, hm, Memory.readCode_eq hco (by rw [symbolOfByte_toNat]; omega), Flow.ofExcept_ok, if_pos hb,
      Flow.andThen_raise, ← hs₁]
    refine congrArg _ ?_
    apply State.ext <;> simp [State.encoded]
  | a :: pre, b, post, s, n, hr, hl, hco, hp, hb, hn => by
    obtain ⟨n, rfl⟩ : ∃ m, n = m + 1 := ⟨n - 1, by simp at hn; omega⟩
    have ha := hp a (by simp)
    have e := encodeByte_ready (s := s) (rest := pre ++ b :: post) (n := n) hr hl hco ha
    rw [e.1, e.2, Flow.andThen_ok]
    have hrec := encLoop_noCode pre b post (s.encoded (pre ++ b :: post) 1 (s.mem.codeOf (symbolOfByte a)).path) n (by simpa using hr)
      (by simp) (by simpa using hco) (by simpa using fun x hx => hp x (by simp [hx])) (by simpa using hb) (by simpa using hn)
    rw [hrec, State.encoded_encoded, List.flatMap_cons, Nat.add_comm 1, State.encoded_mem]
    rfl

/-- EN_EOF's body (45_encoder.md rule R242). -/
theorem enEof_run {s : State} (hr : s.ports.credit = none) (hl : s.mem.codes.length = 257) (hc : (s.mem.codeOf 256).len ≠ 0) :
    runTasks enEofTasks s = .ok ((((s.setPorts { s.ports with
      ob := { s.ports.ob with bits := s.ports.ob.bits ++ (s.mem.codeOf 256).path, isOpen := true } }).setBitsOut
      (s.bitsOut + BitVec.ofNat 32 (s.mem.codeOf 256).len.toNat)).setResult ((s.mem.codeOf 256).len.setWidth 32)).setStatus
      { s.status with eofWritten := true }) := by
  have e := enSymbol_run hr hl (v := 256) (by decide) hc
  rw [enEofTasks, runTasks_cons, runTask, show Config.pseudoEof = 256 from rfl, e, Flow.andThen_ok, runTasks_cons, runTask,
    eofWrittenBody, Flow.andThen_ok, runTasks_nil]
  rfl

/-- The codes of some bytes and of PSEUDO_EOF (30_encoding.md rule R103). -/
def Memory.body (m : Memory) (bs : List Byte) : List Bool :=
  (bs.flatMap fun b => (m.codeOf (symbolOfByte b)).path) ++ (m.codeOf 256).path

@[simp] theorem IbPort.rewind_isOpen (p : IbPort) : p.rewind.isOpen = true := by
  unfold IbPort.rewind; split <;> rfl

/-- EN_BODY's body up to its loop (45_encoder.md rule R244). -/
theorem enBody_loop {s : State} (hr : s.ports.credit = none) :
    runTasks enBodyTasks s = (encLoop (s.ports.ib.rewind.left.length + 1) ((s.setPorts
      { s.ports with ib := s.ports.ib.rewind }).setBytesIn 0)).andThen (enEofTasks ++ [.bytesInResult])
      (runTasks (enEofTasks ++ [.bytesInResult])) := by
  rw [show enBodyTasks = .ibRewind :: .bytesInClear :: .encLoop :: (enEofTasks ++ [.bytesInResult]) from rfl, runTasks_cons,
    runTask, ibRewindBody, port_ibRewind hr, Flow.andThen_ok]
  rfl

/-- EN_BODY's body (45_encoder.md rule R244): the whole input's codes in order, then PSEUDO_EOF's. -/
theorem enBody_codes {s : State} (hr : s.ports.credit = none) (hl : s.mem.codes.length = 257) {bs : List Byte}
    (hc : ∀ b ∈ bs, (s.mem.codeOf (symbolOfByte b)).len ≠ 0) (hce : (s.mem.codeOf 256).len ≠ 0)
    (hall : s.ports.ib.rewind.left = bs) (hend : s.ports.ib.rewind.ended = true) :
    runTasks enBodyTasks s = .ok (((((s.setPorts { s.ports with
        ib := { s.ports.ib.rewind with left := [] }
        ob := { s.ports.ob with bits := s.ports.ob.bits ++ s.mem.body bs, isOpen := true } }).setBitsOut
        (s.bitsOut + BitVec.ofNat 32 (s.mem.body bs).length)).setBytesIn (BitVec.ofNat 32 bs.length)).setResult
        (BitVec.ofNat 32 bs.length)).setStatus { s.status with eofWritten := true }) := by
  rw [enBody_loop hr]
  generalize hs₁ : (s.setPorts { s.ports with ib := s.ports.ib.rewind }).setBytesIn 0 = s₁
  have hib : s₁.ports.ib = s.ports.ib.rewind := by rw [← hs₁]; rfl
  have hm : s₁.mem = s.mem := by rw [← hs₁]; rfl
  rw [encLoop_run bs s₁ _ (by rw [← hs₁]; simpa using hr) (by rw [hib, hall]) (by rw [hib]; exact hend)
    (by rw [hm]; exact hl) (by rw [hm]; exact hc) (by rw [hall]; exact Nat.lt_succ_self _), Flow.andThen_ok]
  have he := enEof_run (s := s₁.encoded [] bs.length (bs.flatMap fun b => (s₁.mem.codeOf (symbolOfByte b)).path))
    (by rw [← hs₁]; simpa using hr) (by simpa [hm] using hl) (by simpa [hm] using hce)
  rw [runTasks_append, he, Flow.andThen_ok, runTasks_cons, runTask, bytesInResultBody, Flow.andThen_ok, runTasks_nil]
  rw [State.encoded_mem, hm, ← hs₁]
  refine congrArg Flow.ok ?_
  apply State.ext <;> simp [State.encoded, IbPort.rewind_isOpen, Memory.body, BitVec.add_assoc, BitVec.ofNat_add]

/-- EN_BODY's body at a byte without a code (45_encoder.md rule R244): the codes before it are written. -/
theorem enBody_noCode {s : State} (hr : s.ports.credit = none) (hl : s.mem.codes.length = 257) {pre post : List Byte} {b : Byte}
    (hc : ∀ x ∈ pre, (s.mem.codeOf (symbolOfByte x)).len ≠ 0) (hb : (s.mem.codeOf (symbolOfByte b)).len = 0)
    (hall : s.ports.ib.rewind.left = pre ++ b :: post) :
    runTasks enBodyTasks s = .raise .encNoCode 0 (b.setWidth 32)
      (((s.setPorts { s.ports with ib := s.ports.ib.rewind }).setBytesIn 0).encoded post pre.length
        (pre.flatMap fun x => (s.mem.codeOf (symbolOfByte x)).path)) := by
  rw [enBody_loop hr]
  generalize hs₁ : (s.setPorts { s.ports with ib := s.ports.ib.rewind }).setBytesIn 0 = s₁
  have hib : s₁.ports.ib = s.ports.ib.rewind := by rw [← hs₁]; rfl
  have hm : s₁.mem = s.mem := by rw [← hs₁]; rfl
  rw [encLoop_noCode pre b post s₁ _ (by rw [← hs₁]; simpa using hr) (by rw [hib, hall]) (by rw [hm]; exact hl)
    (by rw [hm]; exact hc) (by rw [hm]; exact hb) (by rw [hall]; simp), hm]
  rfl

/-- EN_BODY's body where PSEUDO_EOF has no code (45_encoder.md rules R242, R244). -/
theorem enBody_noEof {s : State} (hr : s.ports.credit = none) (hl : s.mem.codes.length = 257) {bs : List Byte}
    (hc : ∀ b ∈ bs, (s.mem.codeOf (symbolOfByte b)).len ≠ 0) (hce : (s.mem.codeOf 256).len = 0)
    (hall : s.ports.ib.rewind.left = bs) (hend : s.ports.ib.rewind.ended = true) :
    runTasks enBodyTasks s = .raise .encNoCode 0 256
      (((s.setPorts { s.ports with ib := s.ports.ib.rewind }).setBytesIn 0).encoded [] bs.length
        (bs.flatMap fun x => (s.mem.codeOf (symbolOfByte x)).path)) := by
  rw [enBody_loop hr]
  generalize hs₁ : (s.setPorts { s.ports with ib := s.ports.ib.rewind }).setBytesIn 0 = s₁
  have hib : s₁.ports.ib = s.ports.ib.rewind := by rw [← hs₁]; rfl
  have hm : s₁.mem = s.mem := by rw [← hs₁]; rfl
  rw [encLoop_run bs s₁ _ (by rw [← hs₁]; simpa using hr) (by rw [hib, hall]) (by rw [hib]; exact hend)
    (by rw [hm]; exact hl) (by rw [hm]; exact hc) (by rw [hall]; exact Nat.lt_succ_self _), Flow.andThen_ok]
  have he := enSymbol_noCode (s := s₁.encoded [] bs.length (bs.flatMap fun b => (s₁.mem.codeOf (symbolOfByte b)).path))
    (by simpa [hm] using hl) (v := 256) (by decide) (by simpa [hm] using hce)
  rw [enEofTasks, List.cons_append, runTasks_cons, runTask, show Config.pseudoEof = 256 from rfl, he, Flow.andThen_raise, hm]
  rfl

theorem Shape.code_length {t : Shape} (h : t.internals ≤ 256) {v : Symbol} (hv : v ∈ t.leaves) :
    (t.code v).length ≤ 256 := (t.codes_depth _ (Shape.code_mem hv)).trans (t.depth_le.trans h)

theorem Shape.code_ne_nil {t : Shape} (h : t.internal = true) {v : Symbol} (hv : v ∈ t.leaves) : t.code v ≠ [] :=
  t.codes_ne_nil h _ (Shape.code_mem hv)

/-- A leaf's entry of its tree's code table. -/
theorem CodesOf.codeOf {m : Memory} {t : Shape} (h : CodesOf m.codes t) (hi : t.internals ≤ 256) (ht : t.internal = true)
    {v : Symbol} (hv : v ∈ t.leaves) : (m.codeOf v).path = t.code v ∧ (m.codeOf v).len ≠ 0 := by
  have hl := Shape.code_length hi hv
  have e : m.codeOf v = Code.ofPath (t.code v) := by
    rw [Memory.codeOf, List.getD_eq_getElem?_getD, h.2.1 _ (Shape.code_mem hv)]; rfl
  rw [e]
  exact ⟨ofPath_path hl, fun z => Shape.code_ne_nil ht hv ((ofPath_len_zero hl).1 z)⟩

/-- EN_BODY's body with the code table of a tree (45_encoder.md rule R244; 30_encoding.md rule R103). -/
theorem enBody_run {s : State} (hr : s.ports.credit = none) {t : Shape} (hi : t.internals ≤ 256) (ht : t.internal = true)
    (hco : CodesOf s.mem.codes t) (heof : Config.pseudoEof ∈ t.leaves) {bs : List Byte}
    (hbs : ∀ b ∈ bs, symbolOfByte b ∈ t.leaves) (hall : s.ports.ib.rewind.left = bs) (hend : s.ports.ib.rewind.ended = true) :
    runTasks enBodyTasks s = .ok (((((s.setPorts { s.ports with
        ib := { s.ports.ib.rewind with left := [] }
        ob := { s.ports.ob with bits := s.ports.ob.bits ++ t.body bs, isOpen := true } }).setBitsOut
        (s.bitsOut + BitVec.ofNat 32 (t.body bs).length)).setBytesIn (BitVec.ofNat 32 bs.length)).setResult
        (BitVec.ofNat 32 bs.length)).setStatus { s.status with eofWritten := true }) := by
  have hb : s.mem.body bs = t.body bs := by
    rw [Memory.body, Shape.body, show (256 : Symbol) = Config.pseudoEof from rfl, (hco.codeOf hi ht heof).1]
    congr 1
    exact List.flatMap_congr fun b hb => (hco.codeOf hi ht (hbs b hb)).1
  rw [enBody_codes hr hco.1 (fun b hb => (hco.codeOf hi ht (hbs b hb)).2) (hco.codeOf hi ht heof).2 hall hend, hb]

end Sys2Proof.Machine
end

