-- ==== Sys2Proof/Laws/Invariant.lean ====
section
/-! SUPPORT. What the parts of command bodies never break: a property that a few kinds of update keep is carried by every
body, and by every step. -/

namespace Sys2Proof.Machine

/-- What an operation on the tree memories may do to the rest: nothing to the counters, and it keeps the memories' form. -/
def Memory.Follows (m m' : Memory) : Prop := m'.freq = m.freq ∧ (m.wf = true → m'.wf = true)

theorem Memory.Follows.trans {a b c : Memory} (h : a.Follows b) (h' : b.Follows c) : a.Follows c :=
  ⟨h'.1.trans h.1, fun w => h'.2 (h.2 w)⟩

theorem Memory.follows_alloc {m m' : Memory} {nd : Node} {n : NodeIdx} (h : m.alloc nd = .ok (n, m')) : m.Follows m' := by
  refine ⟨?_, fun w => Memory.wf_alloc w h⟩
  unfold Memory.alloc at h
  split at h <;> cases h
  rfl

theorem Memory.follows_addNode {m m' : Memory} {nd : Node} {n : NodeIdx} (h : m.addNode nd = .ok (n, m')) :
    m.Follows m' := by
  refine ⟨?_, fun w => Memory.wf_addNode w h⟩
  rw [(Memory.addNode_eq h).2.2.2]

theorem Memory.follows_pqRemoveMin {m m' : Memory} {n : NodeIdx} (h : m.pqRemoveMin = .ok (n, m')) : m.Follows m' := by
  refine ⟨?_, fun w => Memory.wf_pqRemoveMin w h⟩
  unfold Memory.pqRemoveMin at h
  split at h
  · cases h
  · rename_i x q _
    cases hm : m.minKey x q with
    | error f => rw [hm] at h; cases h
    | ok y => rw [hm] at h; cases h; rfl

theorem Memory.follows_loadLeaves : ∀ (l : List Nat) {m m' : Memory}, loadLeaves l m = .ok m' → m.Follows m'
  | [], _, _, h => by cases h; exact ⟨rfl, id⟩
  | s :: l, m, m', h => by
    unfold loadLeaves at h
    cases hr : m.readFreq (BitVec.ofNat 9 s) with
    | error f => rw [hr] at h; cases h
    | ok c =>
      simp only [hr, bind, Except.bind] at h
      split at h
      · exact follows_loadLeaves l h
      · cases ha : m.addNode (leafNode (BitVec.ofNat 9 s) c) with
        | error f => rw [ha] at h; cases h
        | ok r => rw [ha] at h; exact (Memory.follows_addNode ha).trans (follows_loadLeaves l h)

theorem Memory.follows_load {m m' : Memory} (h : m.load = .ok m') : m.Follows m' := by
  refine ⟨?_, fun w => Memory.wf_load w h⟩
  unfold Memory.load at h
  cases hl : loadLeaves (List.range Config.numSymbols) m.clearTree with
  | error f => rw [hl] at h; cases h
  | ok m₁ =>
    simp only [hl, bind, Except.bind] at h
    have h₁ := (Memory.follows_loadLeaves _ hl).1
    unfold padLeaf at h
    split at h
    · cases ha : m₁.addNode (leafNode 0 0) with
      | error f => rw [ha] at h; cases h
      | ok r => rw [ha] at h; cases h; exact (Memory.follows_addNode ha).1.trans h₁
    · cases h; exact h₁

theorem Memory.follows_merge {m m' : Memory} {n : NodeIdx} (h : m.merge = .ok (n, m')) : m.Follows m' := by
  unfold Memory.merge at h
  cases h₁ : m.pqRemoveMin with
  | error f => rw [h₁] at h; cases h
  | ok r₁ =>
    obtain ⟨l, m₁⟩ := r₁
    rw [h₁] at h
    cases h₂ : m₁.pqRemoveMin with
    | error f => simp only [bind, Except.bind, h₂] at h; cases h
    | ok r₂ =>
      obtain ⟨r, m₂⟩ := r₂
      simp only [bind, Except.bind, h₂] at h
      split at h
      · cases h
      · split at h
        · cases h
        · exact ((Memory.follows_pqRemoveMin h₁).trans (Memory.follows_pqRemoveMin h₂)).trans (Memory.follows_addNode h)

theorem Memory.follows_returnChild : ∀ (st : List (NodeIdx × Bool)) {m m' : Memory} {c : NodeIdx}
    {st' : List (NodeIdx × Bool)}, returnChild m c st = .ok (m', st') → m.Follows m'
  | [], _, _, _, _, h => by cases h; exact ⟨rfl, id⟩
  | (p, false) :: st, m, m', c, st', h => by
    unfold returnChild at h
    cases hr : m.readNode p with
    | error f => rw [hr] at h; cases h
    | ok nd => rw [hr] at h; cases h; exact ⟨rfl, fun w => Memory.wf_writeNode w _ _⟩
  | (p, true) :: st, m, m', c, st', h => by
    unfold returnChild at h
    cases hr : m.readNode p with
    | error f => rw [hr] at h; cases h
    | ok nd =>
      simp only [hr, bind, Except.bind] at h
      exact Memory.Follows.trans (b := m.writeNode p { nd with right := c }) ⟨rfl, fun w => Memory.wf_writeNode w _ _⟩
        (follows_returnChild st h)

/-- The table a walk leaves has as many entries as the one it started from. -/
def Walk.Sized (k : Nat) : Walk → Prop
  | .ok codes _ => codes.length = k
  | .dup codes _ => codes.length = k
  | .fault _ => True

theorem walkLeaf_sized (v len bits codes count) : (walkLeaf v len bits codes count).Sized codes.length := by
  unfold walkLeaf
  split
  · trivial
  · split <;> simp [Walk.Sized]

theorem walk_sized (nodes : List Node) : ∀ (d : Nat) (n : NodeIdx) (len : Nat) (bits : BitVec 256) (codes : List Code)
    (count : Nat), (walk nodes d n len bits codes count).Sized codes.length
  | 0, _, _, _, _, _ => trivial
  | d + 1, n, len, bits, codes, count => by
    unfold walk
    split
    · trivial
    · split
      · exact walkLeaf_sized ..
      · rename_i nd _ _
        have hl := walk_sized nodes d nd.left (len + 1) (bits <<< 1) codes count
        cases hw : walk nodes d nd.left (len + 1) (bits <<< 1) codes count with
        | ok codes' count' =>
          rw [hw] at hl
          have := walk_sized nodes d nd.right (len + 1) ((bits <<< 1) ||| 1) codes' count'
          simpa [show codes'.length = codes.length from hl] using this
        | dup codes' v => rw [hw] at hl; exact hl
        | fault f => trivial

/-- The parts of bodies that close an output stream. -/
def Task.closing : Task → Bool
  | .obClose => true
  | .boClose => true
  | _ => false

/-- The primitives that close an output stream. -/
def Prim.closing : Prim → Bool
  | .obClose => true
  | .boClose => true
  | _ => false

/-- A property of states that the updates of command bodies keep: every update but those of the counters, the ports and STATUS
keeps it outright; the updates of STATUS keep BUSY, DONE, ERR, REJECT and FREQ_VALID. With `c = false` the closes of the output
streams are left out. -/
structure Kept (c : Bool) (P : State → Prop) : Prop where
  result : ∀ s v, P s → P (s.setResult v)
  root : ∀ s v, P s → P (s.setRoot v)
  cur : ∀ s v, P s → P (s.setCur v)
  bytesIn : ∀ s v, P s → P (s.setBytesIn v)
  bytesOut : ∀ s v, P s → P (s.setBytesOut v)
  bitsIn : ∀ s v, P s → P (s.setBitsIn v)
  bitsOut : ∀ s v, P s → P (s.setBitsOut v)
  nodeOut : ∀ s v, P s → P (s.setNodeOut v)
  codeOut : ∀ s v, P s → P (s.setCodeOut v)
  ports : ∀ s q a v, s.ports.answer q = some (a, v) → (q.closing = true → c = true) → P s → P (s.setPorts v)
  touch : ∀ s q, P s → P (s.setPorts (s.ports.touch q))
  seq : ∀ s v, v.opcode = s.seq.opcode → P s → P (s.setSeq v)
  mem : ∀ s m, s.mem.Follows m → P s → P (s.setMem m)
  init : ∀ s, P s → P (((s.setMem { s.mem with freq := initialFreq }).setTotal 1).setStatus
    { s.status.invalidateTree with freqValid := true })
  count : ∀ s (b : Byte) c, s.total ≠ 0xFFFFFFFF → s.mem.readFreq (symbolOfByte b) = .ok c → P s →
    P ((s.setMem (s.mem.writeFreq (symbolOfByte b) (c + 1))).setTotal (s.total + 1))
  status : ∀ s (st : Status), st.busy = s.status.busy → st.done = s.status.done → st.err = s.status.err →
    st.reject = s.status.reject → st.freqValid = s.status.freqValid → P s → P (s.setStatus st)

namespace Kept

variable {c : Bool} {P : State → Prop} (h : Kept c P)
include h

theorem push (s : State) (ts : List Task) (p : P s) : P (s.pushTasks ts) := h.seq _ _ rfl p

theorem waitOn (s : State) (q : Prim) (ts : List Task) (p : P s) : P (s.waitOn q ts) :=
  h.touch (s.setSeq { s.seq with tasks := ts, pending := some q }) q (h.seq _ _ rfl p)

theorem port {s : State} {q : Prim} {ts : List Task} {k : Answer → State → Flow} (p : P s) (hq : q.closing = true → c = true)
    (hk : ∀ a s', P s' → (k a s').Carries P) : (s.port q ts k).Carries P :=
  State.carries_port (h.waitOn _ _ _ p) fun _ _ e => hk _ _ (h.ports _ _ _ _ e hq p)

theorem andThen {f : Flow} (hf : f.Carries P) {k : State → Flow} (hk : ∀ s, P s → (k s).Carries P) (ts : List Task) :
    (f.andThen ts k).Carries P := Flow.carries_andThen h.push hf hk ts

theorem invalidateTree {s : State} (p : P s) : P s.invalidateTree := h.status _ _ rfl rfl rfl rfl rfl p

theorem countByte {b : Byte} {s : State} {k : Word → State → Flow} (p : P s) (hk : ∀ c s', P s' → (k c s').Carries P) :
    (countByte b s k).Carries P := by
  unfold Machine.countByte
  split
  · exact p
  · exact Flow.carries_ofExcept fun c e => hk _ _ (h.count _ _ _ ‹_› e p)

theorem scanLoop : ∀ (n : Nat) (s : State), P s → (scanLoop n s).Carries P
  | 0, s, p => h.waitOn _ _ _ p
  | n + 1, s, p => h.port p nofun fun a s' p' => by
    cases a with
    | byte b => exact h.countByte p' fun c s'' p'' => scanLoop n _ (h.bytesIn _ _ p'')
    | done => exact p'
    | bits v => exact p'
    | eos => exact p'

theorem tbLoad {s : State} (p : P s) : (tbLoadBody s).Carries P :=
  Flow.carries_ofExcept fun m e =>
    h.result _ _ (h.status _ _ rfl rfl rfl rfl rfl (h.mem _ m (Memory.follows_load e) p))

theorem tbStep {s : State} (p : P s) : (tbStepBody s).Carries P :=
  Flow.carries_ofExcept fun r e => by
    obtain ⟨n, m⟩ := r
    have p₁ := h.mem _ m (Memory.follows_merge e) p
    dsimp only
    split
    · exact h.result _ _ (h.status _ _ rfl rfl rfl rfl rfl (h.cur _ _ (h.root _ _ p₁)))
    · exact h.result _ _ p₁

theorem mergeLoop : ∀ (n : Nat) (s : State), P s → (mergeLoop n s).Carries P
  | 0, s, p => by unfold Machine.mergeLoop; split; · trivial
                  · exact p
  | n + 1, s, p => by
    unfold Machine.mergeLoop
    split
    · exact h.andThen (h.tbStep p) (mergeLoop n) _
    · exact p

theorem nodeRead {n : NodeIdx} {s : State} (p : P s) : (nodeReadBody n s).Carries P := by
  unfold nodeReadBody
  split
  · exact Flow.carries_ofExcept fun nd _ => h.result _ _ (h.nodeOut _ _ p)
  · exact p

theorem cgGen {s : State} (p : P s) : (cgGenBody s).Carries P := by
  have hs := walk_sized s.mem.nodes (Config.maxInternal + 1) s.root 0 0 clearedCodes 0
  rw [clearedCodes_length] at hs
  unfold cgGenBody
  split
  · rename_i codes count e
    rw [e] at hs
    exact h.result _ _ (h.status _ _ rfl rfl rfl rfl rfl
      (h.mem _ { s.mem with codes := codes } ⟨rfl, fun w => Memory.wf_setCodes w hs⟩ p))
  · rename_i codes v e
    rw [e] at hs
    exact h.status _ _ rfl rfl rfl rfl rfl
      (h.mem _ { s.mem with codes := codes } ⟨rfl, fun w => Memory.wf_setCodes w hs⟩ p)
  · trivial

theorem writeAll : ∀ (ws : List (Nat × Word)) (s : State), P s → (writeAll ws s).Carries P
  | [], _, p => p
  | (_, _) :: ws, _, p => h.port p nofun fun _ _ p' => writeAll ws _ (h.bitsOut _ _ p')

theorem enSymbol {v : Symbol} {s : State} (p : P s) : (enSymbolBody v s).Carries P :=
  Flow.carries_ofExcept fun c _ => by
    split
    · exact p
    · exact h.andThen (h.writeAll _ _ p) (fun _ p' => by exact h.result _ _ p') _

theorem encLoop : ∀ (n : Nat) (s : State), P s → (encLoop n s).Carries P
  | 0, s, p => h.waitOn _ _ _ p
  | n + 1, s, p => h.port p nofun fun a s' p' => by
    cases a with
    | byte b =>
      refine h.andThen (Flow.carries_ofExcept fun c _ => ?_) (encLoop n) _
      split
      · exact p'
      · exact h.andThen (h.writeAll _ _ p') (fun _ p'' => by exact h.bytesIn _ _ p'') _
    | done => exact p'
    | bits v => exact p'
    | eos => exact p'

theorem readMagic {s : State} (p : P s) : (readMagicBody s).Carries P :=
  h.port (h.status _ _ rfl rfl rfl rfl rfl p) nofun fun a s' p' => by
    cases a with
    | bits v =>
      dsimp only
      split
      · exact h.result _ _ (h.status _ _ rfl rfl rfl rfl rfl (h.bitsIn _ _ p'))
      · exact h.bitsIn _ _ p'
    | done => exact p'
    | byte b => exact p'
    | eos => exact p'

theorem readInternal {s : State} (p : P s) {k : State → Flow} (hk : ∀ s', P s' → (k s').Carries P) :
    (readInternal s k).Carries P := by
  unfold Machine.readInternal
  split
  · exact p
  · exact Flow.carries_ofExcept fun r e => hk _ (h.seq _ _ rfl (h.mem _ _ (Memory.follows_alloc e) p))

theorem hdRoot {s : State} (p : P s) : (hdRootBody s).Carries P :=
  h.port p nofun fun a s' p' => by
    cases a with
    | bits v =>
      dsimp only
      split
      · exact h.bitsIn _ _ p'
      · exact h.readInternal (h.bitsIn _ _ p') fun _ p'' => p''
    | done => exact p'
    | byte b => exact p'
    | eos => exact p'

theorem hdLeaf {s : State} (p : P s) : (hdLeafBody s).Carries P :=
  h.port p nofun fun a s' p' => by
    cases a with
    | bits v =>
      dsimp only
      split
      · exact h.bitsIn _ _ p'
      · refine Flow.carries_ofExcept fun r e => Flow.carries_ofExcept fun r' e' => ?_
        exact h.seq _ _ rfl (h.mem _ _ ((Memory.follows_alloc e).trans (Memory.follows_returnChild _ e'))
          (h.bitsIn _ _ p'))
    | done => exact p'
    | byte b => exact p'
    | eos => exact p'

theorem hdLoop : ∀ (n : Nat) (s : State), P s → (hdLoop n s).Carries P
  | 0, s, p => h.waitOn _ _ _ p
  | n + 1, s, p => by
    unfold Machine.hdLoop
    split
    · exact p
    · refine h.port p nofun fun a s' p' => ?_
      cases a with
      | bits v =>
        dsimp only
        split
        · exact h.andThen (h.hdLeaf (h.bitsIn _ _ p')) (hdLoop n) _
        · exact h.readInternal (h.bitsIn _ _ p') (hdLoop n)
      | done => exact p'
      | byte b => exact p'
      | eos => exact p'

theorem deEmit {d : Bool} {s : State} (p : P s) : (deEmitBody d s).Carries P :=
  Flow.carries_ofExcept fun nd _ => by
    split
    · exact h.cur _ _ (h.result _ _ (h.status _ _ rfl rfl rfl rfl rfl p))
    · exact h.port p nofun fun _ _ p' => h.cur _ _ (h.result _ _ (h.bytesOut _ _ p'))

theorem deStep {s : State} (p : P s) : (deStepBody s).Carries P :=
  h.port p nofun fun a s' p' => by
    cases a with
    | bits v =>
      refine Flow.carries_ofExcept fun nd _ => Flow.carries_ofExcept fun child _ => ?_
      split
      · exact h.deEmit (h.cur _ _ (h.bitsIn _ _ p'))
      · exact h.result _ _ (h.cur _ _ (h.bitsIn _ _ p'))
    | done => exact p'
    | byte b => exact p'
    | eos => exact p'

theorem deLoop : ∀ (n : Nat) (s : State), P s → (deLoop n s).Carries P
  | 0, s, p => by
    unfold Machine.deLoop
    split
    · exact p
    · exact h.waitOn _ _ _ p
  | n + 1, s, p => by
    unfold Machine.deLoop
    split
    · exact p
    · exact h.andThen (h.deStep p) (deLoop n) _

/-- Every part of a body carries a kept property. -/
theorem task (t : Task) (s : State) (ht : t.closing = true → c = true) (p : P s) : (runTask t s).Carries P := by
  cases t with
  | phase op => exact h.seq _ _ rfl p
  | fcInit => exact h.result _ _ (h.init _ p)
  | fcAdd b =>
    show (fcAddBody b s).Carries P
    exact h.countByte p fun c s' p' => by exact h.result _ _ (h.invalidateTree p')
  | scanStart => exact h.bytesIn _ _ (h.invalidateTree p)
  | scan => exact h.scanLoop _ _ p
  | fcRead v => exact Flow.carries_ofExcept fun c _ => h.result _ _ p
  | tbLoad => exact h.tbLoad p
  | tbStep => exact h.tbStep p
  | tbMerge => exact h.mergeLoop _ _ p
  | rootResult => exact h.result _ _ p
  | nodeRead n => exact h.nodeRead p
  | cgGen => exact h.cgGen p
  | cgLookup v => exact Flow.carries_ofExcept fun c _ => h.codeOut _ _ (h.result _ _ p)
  | writeMagic => exact h.andThen (h.writeAll _ _ p) (fun _ p' => by exact h.result _ _ p') _
  | writeTree => exact Flow.carries_ofExcept fun ws _ => h.andThen (h.writeAll _ _ p) (fun _ p' => by exact h.result _ _ p') _
  | writes ws => exact h.writeAll _ _ p
  | setResult v => exact h.result _ _ p
  | readMagic => exact h.readMagic p
  | hdStart => exact h.seq _ _ rfl (h.mem _ _ ⟨rfl, Memory.wf_clearTree⟩ (h.status _ _ rfl rfl rfl rfl rfl p))
  | hdRoot => exact h.hdRoot p
  | hdTree => exact h.hdLoop _ _ p
  | hdLeaf => exact h.hdLeaf p
  | hdFinish => exact h.seq _ _ rfl (h.result _ _ (h.status _ _ rfl rfl rfl rfl rfl (h.cur _ _ (h.root _ _ p))))
  | enSymbol v => exact h.enSymbol p
  | eofWritten => exact h.status _ _ rfl rfl rfl rfl rfl p
  | ibRewind => exact h.port p nofun fun _ _ p' => p'
  | bytesInClear => exact h.bytesIn _ _ p
  | bytesInNext => exact h.bytesIn _ _ p
  | encLoop => exact h.encLoop _ _ p
  | bytesInResult => exact h.result _ _ p
  | bitsOutResult => exact h.result _ _ p
  | obClose => exact h.port p ht fun _ _ p' => p'
  | ibRelease => exact h.port p nofun fun _ _ p' => p'
  | enClosed => exact h.status _ _ rfl rfl rfl rfl rfl (h.bitsOut _ _ p)
  | deStep => exact h.deStep p
  | deEmit d => exact h.deEmit p
  | deLoop => exact h.deLoop _ _ p
  | bytesOutResult => exact h.result _ _ p
  | boClose => exact h.port p ht fun _ _ p' => p'
  | biRelease => exact h.port p nofun fun _ _ p' => p'
  | deClosed => exact h.status _ _ rfl rfl rfl rfl rfl (h.bitsIn _ _ (h.bytesOut _ _ p))

theorem tasks : ∀ (ts : List Task) (s : State), (∀ t ∈ ts, t.closing = true → c = true) → P s → (runTasks ts s).Carries P
  | [], _, _, p => p
  | t :: ts, s, ht, p => h.andThen (h.task t s (ht t (by simp)) p) (fun s' p' =>
      tasks ts s' (fun u hu => ht u (by simp [hu])) p') ts

end Kept

theorem initialFreq_ok : FreqOk initialFreq 1 := by
  refine ⟨by simp only [initialFreq, List.length_append, List.length_replicate]; rfl,
    by rw [initialFreq, List.getElem?_append_right (by simp only [List.length_replicate, le_refl])]
       simp only [List.length_replicate]; rfl, ?_⟩
  simp only [initialFreq, List.map_append, List.map_replicate, List.sum_append, List.sum_replicate]
  rfl

theorem Memory.wf_initialFreq {m : Memory} (h : m.wf = true) : ({ m with freq := initialFreq } : Memory).wf = true := by
  have e := initialFreq_ok.1
  generalize initialFreq = f at e
  exact Memory.wf_setFreq h (.inr e)

/-- The memories keep their form through every body. -/
theorem kept_wf : Kept true fun s => s.mem.wf = true := by
  constructor
  case init =>
    intro s p
    simp only [State.setStatus_mem, State.setTotal_mem, State.setMem_mem]
    exact Memory.wf_initialFreq p
  case mem => intro s m h p; exact h.2 p
  case count => intro s b c _ _ p; exact Memory.wf_writeFreq p _ _
  all_goals intros; assumption

/-- The counters stay a table through every body. -/
theorem kept_freq : Kept true fun s => s.freqOk := by
  constructor
  case init => intro s _ _; exact initialFreq_ok
  case mem => intro s m h p hv; simp only [State.setMem_mem, State.setMem_total, h.1]; exact p hv
  case count =>
    intro s b c ht hc p hv
    have e := (p hv).readFreq b
    rw [hc] at e
    cases e
    simpa [Memory.writeFreq] using (p hv).count b ht
  case status => intro s st _ _ _ _ h p hv; exact p (by rw [← h]; exact hv)
  all_goals intros; assumption

/-- The check of a command (40_control.md rule R124). -/
def needOf : Instr → Need
  | .fcAdd _ | .fcScan | .fcRead _ | .tbLoad | .tbBuild => needFreq
  | .tbStep => needHeap
  | .cgGen | .hsWriteTree => needTree
  | .cgLookup _ => needCodes
  | .enSymbol _ | .enEof | .enBody => needEncode
  | .enClose => needEofWritten
  | .deStep | .deBody => needDecode
  | .deClose => needEofSeen
  | .compress => needNoEofWritten
  | .decompress => needNoEofSeen
  | _ => needNothing

/-- The parts of a command's body. -/
def bodyOf : Instr → List Task
  | .fcInit => [.fcInit]
  | .fcAdd b => [.fcAdd b]
  | .fcScan => fcScanTasks
  | .fcRead v => [.fcRead v]
  | .tbLoad => [.tbLoad]
  | .tbStep => [.tbStep]
  | .tbBuild => tbBuildTasks
  | .tbNodeRead n => [.nodeRead n]
  | .cgGen => [.cgGen]
  | .cgLookup v => [.cgLookup v]
  | .hsWriteMagic => [.writeMagic]
  | .hsWriteTree => [.writeTree]
  | .hdReadMagic => [.readMagic]
  | .hdReadTree => hdReadTreeTasks
  | .enSymbol b => [.enSymbol (symbolOfByte b)]
  | .enEof => enEofTasks
  | .enBody => enBodyTasks
  | .enClose => enCloseTasks
  | .deStep => [.deStep]
  | .deBody => deBodyTasks
  | .deClose => deCloseTasks
  | .compress => compressTasks
  | .decompress => decompressTasks
  | .nop => []
  | .sreset _ => []

/-- What every command but SRESET is: a run of the command protocol. -/
theorem exec_eq (i : Instr) (hi : ∀ x, i ≠ .sreset x) (s : State) : exec i s = runCommand i (needOf i) (bodyOf i) s := by
  cases i <;> first | rfl | exact absurd rfl (hi _)

/-- SRESET is the command with opcode 0x01 (30_encoding.md rule R95). -/
theorem opcode_ne_sreset {i : Instr} (h : i.opcode ≠ 0x01) (x : BitVec 24) : i ≠ .sreset x := fun e => h (by rw [e]; rfl)

/-- What a step does to a property `P` of machine states, where command bodies run among states with `Q`, and error entry issues its
cleanup primitives among states with `E`: acceptance and going on lead into `Q`, an error from there into `E`, and whatever ends or
holds a body or an error entry leads back. -/
structure StepKept (P Q E : State → Prop) : Prop where
  body : Kept true Q
  reject : ∀ s, P s → s.accepts = false → P s.rejectCommand
  accept : ∀ s w, P s → s.accepts = true → Q (s.accept w)
  resume : ∀ s q, P s → s.status.busy = true → s.status.err = false → q.opcode = s.seq.opcode → Q (s.setSeq q)
  resumeError : ∀ s, P s → s.status.busy = true → s.status.err = true → E s
  complete : ∀ s, Q s → P s.complete
  hold : ∀ s, Q s → P s
  record : ∀ s c e d, Q s → E (s.recordError c e d)
  errorPorts : ∀ s v, E s → E (s.setPorts v)
  errorHold : ∀ s q, q.opcode = s.seq.opcode → E s → P (s.setSeq q)
  errorEnd : ∀ s, E s → P s.endError
  softReset : ∀ s, P s → P s.softReset
  hardReset : ∀ s, P s → P s.hardReset
  ctrl : ∀ s c, P s → P { s with ctrl := c }
  readData : ∀ s v n, P s → P { s with readData := v, draws := n }
  inputs : ∀ s q, P s → P { s with inputs := q }
  ports : ∀ s v, P s → P (s.setPorts v)

namespace StepKept

variable {P Q E : State → Prop} (h : StepKept P Q E)
include h

/-- The cleanup of an error entry leads back, whether it ends or a port holds it. -/
theorem cleanUp (ps : List Prim) (s : State) (p : E s) : P (s.cleanUp ps) := by
  obtain ⟨q, e | ⟨_, _, _, _, e⟩⟩ := s.cleanUp_cases ps <;> rw [e]
  · exact h.errorEnd _ (h.errorPorts _ _ p)
  · exact h.errorHold _ _ rfl (h.errorPorts _ _ p)

theorem raise (s : State) (c : Cause) (e d : Word) (q : Q s) : P (s.enterError c e d) := h.cleanUp _ _ (h.record s c e d q)

theorem finish {f : Flow} (hf : f.Carries Q) {t : State} (e : f.finish = .next t) : P t :=
  Flow.finish_of_carries hf h.complete h.hold h.raise e

theorem exec (i : Instr) {s t : State} (p : P s) (e : exec i s = .next t) : P t := by
  by_cases hi : ∃ x, i = .sreset x
  · obtain ⟨x, rfl⟩ := hi
    cases e
    exact h.softReset s p
  · rw [exec_eq i fun x hx => hi ⟨x, hx⟩] at e
    rcases runCommand_cases e with ⟨ha, rfl⟩ | ⟨ha, c, e', d, rfl, -⟩ | ⟨ha, -, e⟩
    · exact h.reject s p ha
    · exact h.raise _ _ _ _ (h.accept s _ p ha)
    · exact h.finish (h.body.tasks _ _ (fun _ _ _ => rfl) (h.accept s _ p ha)) e

theorem resumes {s t : State} (p : P s) (e : s.resume = .next t) : P t := by
  unfold State.resume at e
  split at e
  · split at e
    · cases e; exact h.cleanUp _ _ (h.resumeError s p ‹_› ‹_›)
    · exact h.finish (h.body.tasks _ _ (fun _ _ _ => rfl)
        (h.resume s { s.seq with tasks := [], pending := none } p ‹_› (Bool.eq_false_iff.2 ‹_›) rfl)) e
  · cases e; exact p

theorem write {s t : State} {offset : Nat} {v : Word} (p : P s) (e : s.writeWindow offset v = .next t) : P t := by
  unfold State.writeWindow at e
  split at e
  · unfold issue at e
    split at e
    · exact h.exec _ p e
    · rename_i err _
      cases e
      cases err <;> simp only [State.illegalCommand] <;> split
      · exact h.raise _ _ _ _ (h.accept s _ p ‹_›)
      · exact h.reject s p (Bool.eq_false_iff.2 ‹¬ s.accepts = true›)
      · exact h.raise _ _ _ _ (h.accept s _ p ‹_›)
      · exact h.reject s p (Bool.eq_false_iff.2 ‹¬ s.accepts = true›)
  · cases e; exact h.ctrl s _ p
  · cases e; exact p

theorem read {s : State} {offset : Nat} (p : P s) : P (s.readWindow offset) := by
  unfold State.readWindow
  split
  · exact h.readData s 0 s.draws p
  · split
    · exact h.readData s _ _ p
    · exact h.readData s _ s.draws p

theorem react {s t : State} (i : Input) (p : P s) (e : s.react i = .next t) : P t := by
  cases i with
  | busWrite offset size v =>
    simp only [State.react] at e
    split at e
    · exact h.write p e
    · cases e
  | busRead offset size =>
    simp only [State.react] at e
    split at e
    · cases e; exact h.read p
    · cases e
  | hardReset => cases e; exact h.hardReset s p
  | ibPresent b en l => exact h.resumes (h.ports s _ p) e
  | ibSupply b en => exact h.resumes (h.ports s _ p) e
  | biPresent b en => exact h.resumes (h.ports s _ p) e
  | biSupply b en => exact h.resumes (h.ports s _ p) e
  | portCredit c => exact h.resumes (h.ports s _ p) e

/-- Every step keeps the property. -/
theorem step {s t : State} (p : P s) (e : step s = .next t) : P t := by
  unfold Machine.step at e
  split at e
  · exact h.resumes p e
  · exact h.react _ (h.inputs s _ p) e

end StepKept

end Sys2Proof.Machine
end

