-- ==== Sys2Proof/Laws/Command.lean ====
section
/-! SUPPORT. A command accepted in an idle engine, by what its body comes to: completion, an error or a hold. -/

namespace Sys2Proof.Machine

theorem State.idle.accepts {s : State} (h : s.idle) : s.accepts = true := by
  obtain ⟨h₁, h₂, -⟩ := h
  simp [State.accepts, h₁, h₂]

@[simp] theorem opcodeOf_encode (i : Instr) : opcodeOf (encode i) = i.opcode := by
  exact BitVec.extractLsb'_append_eq_left

/-- The body ends: the command completes. -/
theorem runCommand_done {i : Instr} {need : Need} {body : List Task} {s t : State} (h : s.idle)
    (hw : i.wellFormed = true) (hn : need.holds s.status = true) (e : runTasks body (s.accept (encode i)) = .ok t) :
    runCommand i need body s = .next t.complete := by
  rw [runCommand_runs h.accepts hw hn, e]; rfl

/-- The body raises an error. -/
theorem runCommand_raises {i : Instr} {need : Need} {body : List Task} {s t : State} {c : Cause} {x y : Word} (h : s.idle)
    (hw : i.wellFormed = true) (hn : need.holds s.status = true)
    (e : runTasks body (s.accept (encode i)) = .raise c x y t) :
    runCommand i need body s = .next (t.enterError c x y) := by
  rw [runCommand_runs h.accepts hw hn, e]; rfl

/-- A port holds the body. -/
theorem runCommand_holds {i : Instr} {need : Need} {body : List Task} {s t : State} (h : s.idle)
    (hw : i.wellFormed = true) (hn : need.holds s.status = true) (e : runTasks body (s.accept (encode i)) = .hold t) :
    runCommand i need body s = .next t := by
  rw [runCommand_runs h.accepts hw hn, e]; rfl

/-- What error entry makes of a state `t` that a body of the command with this opcode has reached from `m`, where `t` differs
from `m` only in what acceptance changed and in the sequencer. -/
theorem State.failsTo_raiseError {m t : State} {op ph : Byte} (c : Cause) (x y : Word)
    (ht : t = (m.setStatus t.status).setSeq t.seq) (hr : t.status.reject = false) (hop : t.seq.opcode = op)
    (hph : t.seq.phase = ph) (hm : m.seq = {}) : m.failsTo (t.raiseError c x y) op ph c x y := by
  unfold State.failsTo
  apply State.ext <;> simp only [State.raiseError_status, State.raiseError_ctrl, State.raiseError_errCause,
    State.raiseError_errExpected, State.raiseError_errFound, State.raiseError_root, State.raiseError_cur,
    State.raiseError_total, State.raiseError_bytesIn, State.raiseError_bytesOut, State.raiseError_bitsIn,
    State.raiseError_bitsOut, State.raiseError_nodeOut, State.raiseError_codeOut, State.raiseError_magic,
    State.raiseError_mem, State.raiseError_seq, State.raiseError_ports, State.raiseError_inputs,
    State.raiseError_readData, hr, hop, hph, hm] <;> rw [ht] <;> simp

/-- The same of error entry, where the collaborators answer its cleanup primitives at once. -/
theorem State.failsTo_enterError {m t : State} {op ph : Byte} (c : Cause) (x y : Word)
    (ht : t = (m.setStatus t.status).setSeq t.seq) (hc : t.ports.credit = none) (hr : t.status.reject = false)
    (hop : t.seq.opcode = op) (hph : t.seq.phase = ph) (hm : m.seq = {}) : m.failsTo (t.enterError c x y) op ph c x y := by
  rw [State.enterError_ready hc]
  exact State.failsTo_raiseError c x y ht hr hop hph hm

end Sys2Proof.Machine
end

