-- ==== Sys2Proof/Laws/Header.lean ====
section
/-! SUPPORT. The header: serializing a tree of the node store, and reading a header back into one. -/

namespace Sys2Proof.Machine

/-! ### Serializing -/

/-- EMIT writes a subtree's header (44_header_codec.md rule R211). -/
theorem emit_header {nodes : List Node} {n : NodeIdx} {t : Shape} (h : TreeAt nodes n t) (d : Nat) (hd : t.depth < d) :
    ∃ ws, emit nodes d n = .ok ws ∧ bitsOfWrites ws = t.header := by
  induction t generalizing n d with
  | leaf v =>
    obtain ⟨d, rfl⟩ : ∃ e, d = e + 1 := ⟨d - 1, by omega⟩
    obtain ⟨nd, h₁, h₂, h₃⟩ := h
    refine ⟨[(1, 1), (9, v.setWidth 32)], by simp [emit, h₁, h₂, h₃], ?_⟩
    simp [Shape.header]
    rfl
  | node l r hl hr =>
    obtain ⟨d, rfl⟩ : ∃ e, d = e + 1 := ⟨d - 1, by omega⟩
    obtain ⟨nd, h₁, h₂, h₃, h₄⟩ := h
    simp only [Shape.depth] at hd
    obtain ⟨wl, e₁, b₁⟩ := hl h₃ d (by omega)
    obtain ⟨wr, e₂, b₂⟩ := hr h₄ d (by omega)
    refine ⟨(1, 0) :: (wl ++ wr), by simp [emit, h₁, h₂, e₁, e₂, bind, Except.bind], ?_⟩
    simp [Shape.header, b₁, b₂]
    rfl

/-- The state after some bits went to port OB, one at least. -/
def State.sent (s : State) (bits : List Bool) : State :=
  (s.setPorts { s.ports with ob := { s.ports.ob with bits := s.ports.ob.bits ++ bits, isOpen := true } }).setBitsOut
    (s.bitsOut + BitVec.ofNat 32 bits.length)

theorem State.wrote_eq_sent (s : State) {ws : List (Nat × Word)} {bits : List Bool} (h : bitsOfWrites ws = bits)
    (hne : bits ≠ []) : s.wrote ws = s.sent bits := by
  have : ws.isEmpty = false := by
    cases ws with
    | nil => exact absurd h.symm hne
    | cons => rfl
  subst h
  simp [State.wrote, State.sent, this, bitsOfWrites_length]

theorem Shape.header_ne_nil (t : Shape) : t.header ≠ [] := by cases t <;> simp [Shape.header]

/-- HS_WRITE_TREE's body (44_header_codec.md rule R211). -/
theorem writeTree_run {s : State} (hr : s.ports.credit = none) {t : Shape} (h : TreeAt s.mem.nodes s.root t)
    (hi : t.internals ≤ 256) :
    writeTreeBody s = .ok ((s.sent t.header).setResult (BitVec.ofNat 32 t.header.length)) := by
  have hd := t.depth_le
  obtain ⟨ws, e, hb⟩ := emit_header h (Config.maxInternal + 1) (by simp only [Config.maxInternal]; omega)
  rw [writeTreeBody, e, Flow.ofExcept_ok, writeAll_ready ws s hr, State.wrote_eq_sent s hb t.header_ne_nil, Flow.andThen_ok,
    ← bitsOfWrites_length, hb]
  rfl

/-- HS_WRITE_MAGIC's body (44_header_codec.md rule R210). -/
theorem writeMagic_run {s : State} (hr : s.ports.credit = none) :
    writeMagicBody s = .ok ((s.sent (fieldBits 32 s.magic)).setResult s.magic) := by
  rw [writeMagicBody, writeAll_ready _ s hr, State.wrote_eq_sent s (bits := fieldBits 32 s.magic) (by simp) (by simp [fieldBits]), Flow.andThen_ok]
  rfl

/-! ### Reading -/

theorem Shape.size_eq (t : Shape) : t.size = 2 * t.internals + 1 := by
  induction t with
  | leaf v => rfl
  | node l r hl hr => simp only [Shape.size, Shape.internals, hl, hr]; omega

theorem Shape.nodesAt_leaf (v : Symbol) (k : Nat) : (Shape.leaf v).nodesAt k = [leafNode v 0] := rfl

theorem Shape.nodesAt_node (l r : Shape) (k : Nat) : (Shape.node l r).nodesAt k =
    internalNode 0 (BitVec.ofNat 10 (k + 1)) (BitVec.ofNat 10 (k + 1 + l.size)) ::
      (l.nodesAt (k + 1) ++ r.nodesAt (k + 1 + l.size)) := rfl

@[simp] theorem Shape.nodesAt_length (t : Shape) (k : Nat) : (t.nodesAt k).length = t.size := by
  induction t generalizing k with
  | leaf v => rfl
  | node l r hl hr => simp [Shape.nodesAt_node, Shape.size, hl, hr]; omega

theorem Shape.nodesAt_treeAt (t : Shape) (before after : List Node) (h : before.length + t.size ≤ 1024) :
    TreeAt (before ++ t.nodesAt before.length ++ after) (BitVec.ofNat 10 before.length) t := by
  induction t generalizing before after with
  | leaf v =>
    refine ⟨leafNode v 0, ?_, rfl, rfl⟩
    rw [ofNat_toNat_of_lt (by simp only [Shape.size] at h; omega)]
    simp [Shape.nodesAt_leaf]
  | node l r hl hr =>
    simp only [Shape.size] at h
    refine ⟨internalNode 0 (BitVec.ofNat 10 (before.length + 1)) (BitVec.ofNat 10 (before.length + 1 + l.size)), ?_, ?_, ?_, ?_⟩
    · rw [ofNat_toNat_of_lt (by omega)]
      simp [Shape.nodesAt_node]
    · rfl
    · have := hl (before ++ [internalNode 0 (BitVec.ofNat 10 (before.length + 1)) (BitVec.ofNat 10 (before.length + 1 + l.size))])
        (r.nodesAt (before.length + 1 + l.size) ++ after) (by simp; omega)
      simpa [Shape.nodesAt_leaf, Shape.nodesAt_node, internalNode] using this
    · have := hr (before ++ internalNode 0 (BitVec.ofNat 10 (before.length + 1)) (BitVec.ofNat 10 (before.length + 1 + l.size)) ::
        l.nodesAt (before.length + 1)) after (by simp; omega)
      have e : before.length + (l.size + 1) = before.length + 1 + l.size := by omega
      simp only [List.length_append, List.length_cons, Shape.nodesAt_length, e] at this
      simpa [Shape.nodesAt_leaf, Shape.nodesAt_node, internalNode, Nat.add_assoc] using this

/-- The state after some header bits were read: what is left of port BI's bits, how many were read, the memories, the
traversal stack and ICOUNT. -/
def State.took (s : State) (rest : List Bool) (n : Nat) (m : Memory) (st : List (NodeIdx × Bool)) (ic : Nat) : State :=
  (((s.setPorts { s.ports with bi := { s.ports.bi with bits := rest, isOpen := true } }).setBitsIn
    (s.bitsIn + BitVec.ofNat 32 n)).setMem m).setSeq { s.seq with stack := st, icount := ic }

theorem State.took_took (s : State) (r₁ r₂ : List Bool) (n₁ n₂ : Nat) (m₁ m₂ : Memory) (st₁ st₂) (i₁ i₂ : Nat) :
    (s.took r₁ n₁ m₁ st₁ i₁).took r₂ n₂ m₂ st₂ i₂ = s.took r₂ (n₁ + n₂) m₂ st₂ i₂ := by
  apply State.ext <;> simp [State.took, BitVec.add_assoc, BitVec.ofNat_add]

theorem fieldValue_bit (b : Bool) : fieldValue [b] = if b then 1 else 0 := by cases b <;> rfl

theorem returnChild_left {m : Memory} {nodes more : List Node} {nd : Node} (hm : m.nodes = nodes ++ nd :: more) (c : NodeIdx)
    (st : List (NodeIdx × Bool)) (h : nodes.length < 1024) :
    returnChild m c ((BitVec.ofNat 10 nodes.length, false) :: st) =
      .ok ({ m with nodes := nodes ++ { nd with left := c } :: more }, (BitVec.ofNat 10 nodes.length, true) :: st) := by
  simp [returnChild, Memory.readNode, Memory.writeNode, hm, Nat.mod_eq_of_lt h, bind, Except.bind]

theorem returnChild_right {m : Memory} {nodes more : List Node} {nd : Node} (hm : m.nodes = nodes ++ nd :: more) (c : NodeIdx)
    (st : List (NodeIdx × Bool)) (h : nodes.length < 1024) :
    returnChild m c ((BitVec.ofNat 10 nodes.length, true) :: st) =
      returnChild { m with nodes := nodes ++ { nd with right := c } :: more } (BitVec.ofNat 10 nodes.length) st := by
  simp [returnChild, Memory.readNode, Memory.writeNode, hm, Nat.mod_eq_of_lt h, bind, Except.bind]

/-- READ_INTERNAL with room for one more internal node (44_header_codec.md rule R217). -/
theorem readInternal_ok {s : State} (hi : s.seq.icount < 256) (hn : s.mem.nodes.length < 513) (k : State → Flow) :
    readInternal s k = k ((s.setMem { s.mem with nodes := s.mem.nodes ++ [internalNode 0 0 0] }).setSeq
      { s.seq with stack := (BitVec.ofNat 10 s.mem.nodes.length, false) :: s.seq.stack, icount := s.seq.icount + 1 }) := by
  rw [readInternal, if_neg (by simp only [Config.maxInternal]; omega)]
  simp [Memory.alloc, Config.maxNodes, hn]

/-- READ_LEAF of a legal value (44_header_codec.md rules R217, R218). -/
theorem hdLeafBody_ok {s : State} (hr : s.ports.credit = none) {v : Symbol} {rest : List Bool}
    (hb : s.ports.bi.bits = fieldBits 9 (v.setWidth 32) ++ rest) (hv : v.toNat ≤ 256) (hn : s.mem.nodes.length < 513)
    {m' : Memory} {st' : List (NodeIdx × Bool)}
    (hret : returnChild { s.mem with nodes := s.mem.nodes ++ [leafNode v 0] } (BitVec.ofNat 10 s.mem.nodes.length) s.seq.stack =
      .ok (m', st')) : hdLeafBody s = .ok (s.took rest 9 m' st' s.seq.icount) := by
  rw [hdLeafBody, port_biRead hr (by simp [hb])]
  have ht : (fieldBits 9 (v.setWidth 32) ++ rest).take 9 = fieldBits 9 (v.setWidth 32) := List.take_left' (by simp)
  have hd : (fieldBits 9 (v.setWidth 32) ++ rest).drop 9 = rest := List.drop_left' (by simp)
  have hw : (v.setWidth 32).toNat = v.toNat := by simp; omega
  simp only [hb, ht, hd, fieldValue_symbol, hw, State.addBitsIn]
  rw [if_neg (by omega)]
  simp only [State.setBitsIn_mem, State.setPorts_mem, Memory.alloc, Config.maxNodes, hn, if_true, Flow.ofExcept_ok,
    State.setPorts_seq, BitVec.setWidth_setWidth_of_le v (show 9 ≤ 32 by omega), BitVec.setWidth_eq, hret]
  rfl

section Took

variable (s : State) (rest : List Bool) (n : Nat) (m : Memory) (st : List (NodeIdx × Bool)) (ic : Nat)

@[simp] theorem State.took_mem : (s.took rest n m st ic).mem = m := rfl
@[simp] theorem State.took_stack : (s.took rest n m st ic).seq.stack = st := rfl
@[simp] theorem State.took_icount : (s.took rest n m st ic).seq.icount = ic := rfl
@[simp] theorem State.took_bits : (s.took rest n m st ic).ports.bi.bits = rest := rfl
@[simp] theorem State.took_credit : (s.took rest n m st ic).ports.credit = s.ports.credit := rfl
@[simp] theorem State.took_ended : (s.took rest n m st ic).ports.bi.ended = s.ports.bi.ended := rfl
@[simp] theorem State.took_bitsIn : (s.took rest n m st ic).bitsIn = s.bitsIn + BitVec.ofNat 32 n := rfl

end Took

/-- Reading an internal node's tag. -/
theorem hdLoop_internal {s : State} (hr : s.ports.credit = none) (hst : s.seq.stack ≠ []) {rest : List Bool}
    (hb : s.ports.bi.bits = false :: rest) (hn : s.mem.nodes.length < 513) (hi : s.seq.icount < 256) (n : Nat) :
    hdLoop (n + 1) s = hdLoop n (s.took rest 1 { s.mem with nodes := s.mem.nodes ++ [internalNode 0 0 0] }
      ((BitVec.ofNat 10 s.mem.nodes.length, false) :: s.seq.stack) (s.seq.icount + 1)) := by
  rw [hdLoop, if_neg hst, port_biRead hr (by simp [hb])]
  simp only [hb, List.take_succ_cons, List.take_zero, List.drop_succ_cons, List.drop_zero, fieldValue_bit,
    Bool.false_eq_true, if_false]
  rw [if_neg (by decide), readInternal_ok (by exact hi) (by exact hn)]
  rfl

/-- Reading a leaf. -/
theorem hdLoop_leaf {s : State} (hr : s.ports.credit = none) (hst : s.seq.stack ≠ []) {v : Symbol} {rest : List Bool}
    (hb : s.ports.bi.bits = true :: (fieldBits 9 (v.setWidth 32) ++ rest)) (hv : v.toNat ≤ 256)
    (hn : s.mem.nodes.length < 513) {m' : Memory} {st' : List (NodeIdx × Bool)}
    (hret : returnChild { s.mem with nodes := s.mem.nodes ++ [leafNode v 0] } (BitVec.ofNat 10 s.mem.nodes.length) s.seq.stack =
      .ok (m', st')) (n : Nat) :
    hdLoop (n + 1) s = hdLoop n (s.took rest 10 m' st' s.seq.icount) := by
  rw [hdLoop, if_neg hst, port_biRead hr (by simp [hb])]
  simp only [hb, List.take_succ_cons, List.take_zero, List.drop_succ_cons, List.drop_zero, fieldValue_bit, if_true]
  generalize hs₁ : (s.setPorts { s.ports with
    bi := { s.ports.bi with bits := fieldBits 9 (v.setWidth 32) ++ rest, isOpen := true } }).addBitsIn 1 = s₁
  have hret₁ : returnChild { s₁.mem with nodes := s₁.mem.nodes ++ [leafNode v 0] } (BitVec.ofNat 10 s₁.mem.nodes.length)
      s₁.seq.stack = .ok (m', st') := by rw [← hs₁]; exact hret
  rw [hdLeafBody_ok (s := s₁) (v := v) (rest := rest) (m' := m') (st' := st') (by rw [← hs₁]; exact hr) (by rw [← hs₁]; rfl) hv
    (by rw [← hs₁]; exact hn) hret₁, Flow.andThen_ok, ← hs₁]
  refine congrArg (hdLoop n) ?_
  apply State.ext <;> simp [State.took, State.addBitsIn, BitVec.add_assoc]

/-- Reading one subtree's header (44_header_codec.md rules R217, R220). -/
theorem hdLoop_subtree (t : Shape) (hv : ∀ v ∈ t.leaves, v.toNat ≤ 256) (n : Nat) (s : State) (rest : List Bool)
    (hr : s.ports.credit = none) (hst : s.seq.stack ≠ []) (hb : s.ports.bi.bits = t.header ++ rest)
    (hn : s.mem.nodes.length + t.size ≤ 513) (hi : s.seq.icount + t.internals ≤ 256) {m' : Memory}
    {st' : List (NodeIdx × Bool)}
    (hret : returnChild { s.mem with nodes := s.mem.nodes ++ t.nodesAt s.mem.nodes.length }
      (BitVec.ofNat 10 s.mem.nodes.length) s.seq.stack = .ok (m', st')) :
    hdLoop (n + t.size) s = hdLoop n (s.took rest t.header.length m' st' (s.seq.icount + t.internals)) := by
  induction t generalizing n s rest m' st' with
  | leaf v =>
    rw [show (Shape.leaf v).header.length = 10 by simp [Shape.header]]
    exact hdLoop_leaf hr hst hb (hv v (by simp [Shape.leaves])) hn hret n
  | node l r hl hr' =>
    simp only [Shape.header, List.cons_append, List.append_assoc] at hb
    simp only [Shape.size, Shape.internals] at hn hi
    simp only [Shape.leaves, List.mem_append] at hv
    rw [show n + (Shape.node l r).size = (n + r.size + l.size) + 1 by simp only [Shape.size]; omega,
      hdLoop_internal hr hst hb (by omega) (by omega)]
    rw [hl (fun v h => hv v (.inl h)) (n + r.size) _ (r.header ++ rest) (by exact hr) (by simp) (by simp) (by simp; omega)
      (by simp; omega)
      (returnChild_left (nodes := s.mem.nodes) (nd := internalNode 0 0 0) (more := l.nodesAt (s.mem.nodes.length + 1))
        (by simp) _ s.seq.stack (by omega)), State.took_took]
    rw [hr' (fun v h => hv v (.inr h)) n _ rest (by exact hr) (by simp) (by simp) (by simp; omega) (by simp; omega)
      ((returnChild_right (nodes := s.mem.nodes) (nd := internalNode 0 (BitVec.ofNat 10 (s.mem.nodes.length + 1)) 0)
        (more := l.nodesAt (s.mem.nodes.length + 1) ++ r.nodesAt (s.mem.nodes.length + 1 + l.size)) (by
          simp [internalNode, Nat.add_assoc, Nat.add_comm]) _ s.seq.stack (by omega)).trans (by
          rw [← hret]
          simp [Shape.nodesAt_node, internalNode, Nat.add_assoc, Nat.add_comm])), State.took_took]
    have e₁ : 1 + l.header.length + r.header.length = (Shape.node l r).header.length := by simp [Shape.header]; omega
    have e₂ : s.seq.icount + 1 + l.internals + r.internals = s.seq.icount + (Shape.node l r).internals := by
      simp [Shape.internals]; omega
    rw [← e₁, ← e₂]
    rfl

/-- The state after an internal node's tag and its left subtree were read. -/
def State.leftTaken (s : State) (l : Shape) (rest : List Bool) : State :=
  s.took rest (1 + l.header.length)
    { s.mem with
      nodes := s.mem.nodes ++ (internalNode 0 (BitVec.ofNat 10 (s.mem.nodes.length + 1)) 0 :: l.nodesAt (s.mem.nodes.length + 1)) }
    ((BitVec.ofNat 10 s.mem.nodes.length, true) :: s.seq.stack) (s.seq.icount + 1 + l.internals)

/-- Reading an internal node's tag and its left subtree. -/
theorem hdLoop_left {s : State} (hr : s.ports.credit = none) (hst : s.seq.stack ≠ []) (l : Shape) {rest : List Bool}
    (hv : ∀ v ∈ l.leaves, v.toNat ≤ 256) (hb : s.ports.bi.bits = false :: (l.header ++ rest))
    (hn : s.mem.nodes.length + 1 + l.size ≤ 513) (hi : s.seq.icount + 1 + l.internals ≤ 256) {f : Nat} (hf : l.size ≤ f) :
    hdLoop (f + 1) s = hdLoop (f - l.size) (s.leftTaken l rest) := by
  rw [hdLoop_internal hr hst hb (by omega) (by omega)]
  have e := hdLoop_subtree l hv (f - l.size) (s.took (l.header ++ rest) 1
    { s.mem with nodes := s.mem.nodes ++ [internalNode 0 0 0] }
    ((BitVec.ofNat 10 s.mem.nodes.length, false) :: s.seq.stack) (s.seq.icount + 1)) rest (by simpa using hr) (by simp) (by simp)
    (by simp; omega) (by simp; omega)
    (returnChild_left (nodes := s.mem.nodes) (nd := internalNode 0 0 0) (more := l.nodesAt (s.mem.nodes.length + 1))
      (by simp) _ s.seq.stack (by omega))
  rw [show f - l.size + l.size = f by omega, State.took_took] at e
  rw [e]
  simp [internalNode, State.leftTaken]

/-- The state after HD_READ_TREE's body (44_header_codec.md rules R217, R219). -/
def State.treeRead (s : State) (t : Shape) (rest : List Bool) : State :=
  ((((s.took rest t.header.length { s.mem with nodes := t.nodesAt 0, heap := [] } [] 0).setRoot 0).setCur
    0).setStatus { s.status with
      heapLoaded := false, treeValid := true, codesValid := false, eofSeen := false }).setResult
    (BitVec.ofNat 32 t.size)

theorem Shape.valid_iff (t : Shape) :
    t.valid = true ↔ t.internal = true ∧ t.internals ≤ 256 ∧ ∀ v ∈ t.leaves, v.toNat ≤ 256 := by
  simp only [Shape.valid, Bool.and_eq_true, decide_eq_true_eq, List.all_eq_true, and_assoc]
  rfl

/-- The state after the root's tag, an internal node's. -/
def State.rootTaken (s : State) (rest : List Bool) : State :=
  (s.setStatus { s.status.invalidateTree with eofSeen := false }).took rest 1
    { s.mem with nodes := [internalNode 0 0 0], heap := [] } [(0, false)] 1

/-- HD_READ_TREE of a stream whose first bit is 0. -/
theorem hdReadTree_root {s : State} (hr : s.ports.credit = none) {rest : List Bool}
    (hb : s.ports.bi.bits = false :: rest) :
    runTasks hdReadTreeTasks s = (hdLoop (rest.length + 1) (s.rootTaken rest)).andThen [.hdFinish] hdFinishBody := by
  simp only [hdReadTreeTasks, runTasks_cons, runTask, hdStartBody, Flow.andThen_ok]
  generalize hs₀ : ((s.setStatus { s.status.invalidateTree with eofSeen := false }).setMem s.mem.clearTree).setSeq
    { s.seq with stack := [], icount := 0 } = s₀
  have hroot : hdRootBody s₀ = .ok (s.rootTaken rest) := by
    rw [hdRootBody, port_biRead (by rw [← hs₀]; exact hr) (by rw [← hs₀]; simp [hb])]
    rw [show s₀.ports.bi.bits = false :: rest by rw [← hs₀]; exact hb]
    simp only [List.take_succ_cons, List.take_zero, List.drop_succ_cons, List.drop_zero, fieldValue_bit,
      Bool.false_eq_true, if_false]
    rw [if_neg (by decide), readInternal_ok (by rw [← hs₀]; exact Nat.zero_lt_succ _) (by rw [← hs₀]; exact Nat.zero_lt_succ _), ← hs₀]
    rfl
  rw [hroot, Flow.andThen_ok, runTasks_cons, runTask, hdTreeBody, show (s.rootTaken rest).ports.bi.bits = rest from rfl]
  cases hdLoop (rest.length + 1) (s.rootTaken rest) with
  | ok s' => rfl
  | hold s' => rfl
  | raise c e d s' => rfl
  | fault g => rfl

theorem Shape.size_le_header (t : Shape) : t.size ≤ t.header.length := by
  have := t.header_length
  have := t.leaves_length
  have := t.size_eq
  omega

/-- The root's left subtree. -/
theorem hdLoop_rootLeft {s : State} (hr : s.ports.credit = none) (l : Shape) {rest : List Bool}
    (hv : ∀ v ∈ l.leaves, v.toNat ≤ 256) (hi : l.internals + 1 ≤ 256) {f : Nat} (hf : l.size ≤ f) :
    hdLoop f (s.rootTaken (l.header ++ rest)) = hdLoop (f - l.size) ((s.setStatus
      { s.status.invalidateTree with eofSeen := false }).took rest (1 + l.header.length)
      { s.mem with nodes := internalNode 0 1 0 :: l.nodesAt 1, heap := [] } [(0, true)] (1 + l.internals)) := by
  have hsl := l.size_eq
  have e := hdLoop_subtree l hv (f - l.size) (s.rootTaken (l.header ++ rest)) rest (by simpa [State.rootTaken] using hr) (by simp [State.rootTaken])
    (by simp [State.rootTaken])
    (by simp [State.rootTaken]; omega) (by simp [State.rootTaken]; omega)
    (returnChild_left (nodes := []) (nd := internalNode 0 0 0) (more := l.nodesAt 1) (by simp [State.rootTaken]) _ [] (by simp))
  rw [show f - l.size + l.size = f by omega, State.rootTaken, State.took_took] at e
  rw [State.rootTaken, e]
  rfl

/-- HD_READ_TREE reads a valid tree's header and no bit more (44_header_codec.md rules R217 to R220). -/
theorem hdReadTree_run {s : State} (hr : s.ports.credit = none) {t : Shape} (ht : t.valid = true) {rest : List Bool}
    (hb : s.ports.bi.bits = t.header ++ rest) : runTasks hdReadTreeTasks s = .ok (s.treeRead t rest) := by
  obtain ⟨h₁, hi, hv⟩ := (Shape.valid_iff t).1 ht
  cases t with
  | leaf v => cases h₁
  | node l r =>
    simp only [Shape.header, List.cons_append, List.append_assoc] at hb
    simp only [Shape.internals] at hi
    simp only [Shape.leaves, List.mem_append] at hv
    have hsl := l.size_eq
    have hsr := r.size_eq
    have hhl := l.size_le_header
    have hhr := r.size_le_header
    rw [hdReadTree_root hr hb, hdLoop_rootLeft hr l (fun v h => hv v (.inl h)) (by omega) (by simp; omega),
      show (l.header ++ (r.header ++ rest)).length + 1 - l.size =
        (l.header.length + r.header.length + rest.length - l.size - r.size + 1) + r.size by simp; omega]
    rw [hdLoop_subtree r (fun v h => hv v (.inr h)) _ ((s.setStatus
      { s.status.invalidateTree with eofSeen := false }).took (r.header ++ rest) (1 + l.header.length)
      { s.mem with nodes := internalNode 0 1 0 :: l.nodesAt 1, heap := [] } [(0, true)] (1 + l.internals)) rest (by simpa using hr) (by simp) (by simp)
      (by simp; omega) (by simp; omega)
      ((returnChild_right (nodes := []) (nd := internalNode 0 (BitVec.ofNat 10 1) 0)
        (more := l.nodesAt 1 ++ r.nodesAt (1 + l.size)) (by simp [internalNode, Nat.add_comm]) _ [] (by simp)).trans rfl)]
    rw [hdLoop, if_pos (by rfl), Flow.andThen_ok, hdFinishBody]
    refine congrArg Flow.ok ?_
    apply State.ext <;>
      simp [State.treeRead, State.took, Shape.header, Shape.nodesAt_node, Shape.size, internalNode,
        Memory.nodeCountWord, Status.invalidateTree, BitVec.add_assoc, BitVec.ofNat_add, Nat.add_comm]
    apply BitVec.eq_of_toNat_eq
    simp only [BitVec.toNat_add, BitVec.toNat_setWidth, BitVec.toNat_ofNat]
    omega

end Sys2Proof.Machine
end

