-- ==== Sys2Proof/Laws/Merge.lean ====
section
/-! SUPPORT. Merging: one TB_STEP on the memories, and the forest that it keeps until one tree is left. -/

namespace Sys2Proof.Machine

theorem rising_nodup {q : List NodeIdx} (h : rising q = true) : q.Nodup :=
  ((rising_iff q).1 h).imp fun hab e => by rw [e] at hab; omega

theorem Memory.weightOf_append {m : Memory} {n : NodeIdx} (h : n.toNat < m.nodes.length) (more : List Node)
    (heap : List NodeIdx) : ({ m with nodes := m.nodes ++ more, heap := heap } : Memory).weightOf n = m.weightOf n := by
  simp only [Memory.weightOf]
  rw [List.getElem?_append_left h]

/-- One merge (42_tree_builder.md rule R166): the smallest key is the left child, the next one the right child. -/
theorem Memory.merge_eq {m : Memory} {l r : NodeIdx} (hl : l ∈ m.heap) (hr : r ∈ m.heap) (hne : r ≠ l)
    (ha : ∀ y ∈ m.heap, y.toNat < m.nodes.length) (hrise : rising m.heap = true) (hn : m.nodes.length < 513)
    (hh : m.heap.length ≤ 257) (hminl : ∀ y ∈ m.heap, y ≠ l → m.before l y)
    (hminr : ∀ y ∈ m.heap, y ≠ l → y ≠ r → m.before r y) :
    m.merge = .ok (BitVec.ofNat 10 m.nodes.length,
      { m with
        nodes := m.nodes ++ [internalNode (m.weightOf l + m.weightOf r) l r]
        heap := (m.heap.erase l).erase r ++ [BitVec.ofNat 10 m.nodes.length] }) := by
  have hnd := rising_nodup hrise
  have hr' : r ∈ m.heap.erase l := (List.mem_erase_of_ne hne).2 hr
  have e₁ := Memory.pqRemoveMin_eq hl ha hminl
  have e₂ : ({ m with heap := m.heap.erase l } : Memory).pqRemoveMin =
      .ok (r, { m with heap := (m.heap.erase l).erase r }) := by
    refine Memory.pqRemoveMin_eq hr' (fun y hy => ha y (List.mem_of_mem_erase hy)) fun y hy hyr => ?_
    refine hminr y (List.mem_of_mem_erase hy) (fun e => ?_) hyr
    rw [e] at hy
    exact (List.Nodup.not_mem_erase hnd) hy
  obtain ⟨nl, r₁, w₁, -⟩ := ({ m with heap := (m.heap.erase l).erase r } : Memory).readNode_weight (ha l hl)
  obtain ⟨nr, r₂, w₂, -⟩ := ({ m with heap := (m.heap.erase l).erase r } : Memory).readNode_weight (ha r hr)
  have hlen : ((m.heap.erase l).erase r).length + 2 = m.heap.length := by
    have h₁ := List.length_erase_of_mem hl
    have h₂ := List.length_erase_of_mem hr'
    have := List.length_pos_of_mem hl
    have := List.length_pos_of_mem hr'
    omega
  have hins : insertIdx (BitVec.ofNat 10 m.nodes.length) ((m.heap.erase l).erase r) =
      (m.heap.erase l).erase r ++ [BitVec.ofNat 10 m.nodes.length] := by
    refine insertIdx_last _ _ fun y hy => ?_
    rw [ofNat_toNat_of_lt (by omega)]
    exact ha y (List.mem_of_mem_erase (List.mem_of_mem_erase hy))
  simp only [Memory.merge, e₁, e₂, r₁, r₂, bind, Except.bind]
  rw [Memory.addNode_ok (m := { m with heap := (m.heap.erase l).erase r }) hn (by simp only; omega), w₁, w₂]
  simp only [hins]
  rfl

theorem Forest.heap_le {m : Memory} {L : List Symbol} {W : Nat} (h : Forest m L W) : m.heap.length ≤ L.length := by
  obtain ⟨ts, h₁, -, h₃⟩ := h.trees
  rw [← h₁.length_eq, ← h₃.length_eq, List.length_map, List.length_flatMap]
  clear h₁ h₃
  induction ts with
  | nil => simp
  | cons a ts ih => have := a.2.leaves_pos; simp at *; omega

/-- Two minima leave a queue of two members or more. -/
theorem Memory.two_minima {m : Memory} (ha : ∀ y ∈ m.heap, y.toNat < m.nodes.length) (hrise : rising m.heap = true)
    (h2 : 2 ≤ m.heap.length) : ∃ l ∈ m.heap, ∃ r ∈ m.heap, r ≠ l ∧ (∀ y ∈ m.heap, y ≠ l → m.before l y) ∧
      ∀ y ∈ m.heap, y ≠ l → y ≠ r → m.before r y := by
  have hnd := rising_nodup hrise
  obtain ⟨l, hl, -, hml⟩ := Memory.pqRemoveMin_spec (m := m) (by intro e; simp [e] at h2) ha
  have hlen := List.length_erase_of_mem hl
  obtain ⟨r, hr, -, hmr⟩ := Memory.pqRemoveMin_spec (m := { m with heap := m.heap.erase l })
    (by intro e; simp only at e; rw [e] at hlen; simp at hlen; omega) (fun y hy => ha y (List.mem_of_mem_erase hy))
  refine ⟨l, hl, r, List.mem_of_mem_erase hr, fun e => (List.Nodup.not_mem_erase hnd) (e ▸ hr), hml, fun y hy h₁ h₂ => ?_⟩
  exact hmr y ((List.mem_erase_of_ne h₁).2 hy) h₂

/-- A merge takes one tree away and keeps the leaves and the weight (42_tree_builder.md rules R166, R167). -/
theorem Forest.merge {m : Memory} {L : List Symbol} {W : Nat} (h : Forest m L W) (h2 : 2 ≤ m.heap.length)
    (hL : L.length ≤ 257) (hW : W < 2 ^ 32) :
    ∃ m', m.merge = .ok (BitVec.ofNat 10 m.nodes.length, m') ∧ Forest m' L W ∧ m'.heap.length + 1 = m.heap.length ∧
      m'.nodes.length = m.nodes.length + 1 ∧ m'.freq = m.freq ∧ m'.codes = m.codes ∧
      BitVec.ofNat 10 m.nodes.length ∈ m'.heap := by
  obtain ⟨l, hl, r, hr, hne, hml, hmr⟩ := Memory.two_minima h.alloc h.rise h2
  have hcount := h.count
  have hr' : r ∈ m.heap.erase l := (List.mem_erase_of_ne hne).2 hr
  have hlen : ((m.heap.erase l).erase r).length + 2 = m.heap.length := by
    have h₁ := List.length_erase_of_mem hl
    have h₂ := List.length_erase_of_mem hr'
    have := List.length_pos_of_mem hr'
    omega
  have hn : m.nodes.length < 513 := by omega
  have hheap : m.heap.length ≤ 257 := h.heap_le.trans hL
  have hperm : m.heap.Perm (l :: r :: (m.heap.erase l).erase r) :=
    (List.perm_cons_erase hl).trans ((List.perm_cons_erase hr').cons l)
  have hnew : (BitVec.ofNat 10 m.nodes.length : NodeIdx).toNat = m.nodes.length := ofNat_toNat_of_lt (by omega)
  have hmem : ∀ y ∈ (m.heap.erase l).erase r, y ∈ m.heap := fun y hy => List.mem_of_mem_erase (List.mem_of_mem_erase hy)
  refine ⟨_, Memory.merge_eq hl hr hne h.alloc h.rise hn hheap hml hmr, ?_, by simp; omega, by simp, rfl, rfl, by simp⟩
  have hsum := (hperm.map fun n => (m.weightOf n).toNat).sum_eq
  rw [h.weight] at hsum
  simp only [List.map_cons, List.sum_cons] at hsum
  have hadd : (m.weightOf l + m.weightOf r).toNat = (m.weightOf l).toNat + (m.weightOf r).toNat := by
    rw [BitVec.toNat_add]; omega
  refine ⟨fun y hy => ?_, ?_, ?_, ?_, by simp; omega⟩
  · simp only [List.mem_append, List.mem_singleton] at hy
    simp only [List.length_append, List.length_cons, List.length_nil]
    rcases hy with hy | rfl
    · have := h.alloc y (hmem y hy); omega
    · omega
  · rw [rising_iff, List.pairwise_append]
    refine ⟨((rising_iff _).1 h.rise).sublist (List.erase_sublist.trans List.erase_sublist), by simp, fun a ha b hb => ?_⟩
    rw [List.mem_singleton] at hb
    rw [hb, hnew]
    exact h.alloc a (hmem a ha)
  · obtain ⟨ts, h₁, h₂, h₃⟩ := h.trees
    have hts := h₁.trans hperm
    obtain ⟨p, hp, hpl⟩ := List.mem_map.1 (hts.mem_iff.2 (List.mem_cons_self))
    have hts₁ := List.perm_cons_erase hp
    have hrest : ((ts.erase p).map (·.1)).Perm (r :: (m.heap.erase l).erase r) := by
      have := (hts₁.map (·.1)).symm.trans hts
      rw [List.map_cons, hpl] at this
      exact this.cons_inv
    obtain ⟨q, hq, hqr⟩ := List.mem_map.1 (hrest.mem_iff.2 (List.mem_cons_self))
    have hts₂ := List.perm_cons_erase hq
    have hrest₂ : (((ts.erase p).erase q).map (·.1)).Perm ((m.heap.erase l).erase r) := by
      have := (hts₂.map (·.1)).symm.trans hrest
      rw [List.map_cons, hqr] at this
      exact this.cons_inv
    refine ⟨(ts.erase p).erase q ++ [(BitVec.ofNat 10 m.nodes.length, .node p.2 q.2)], ?_, ?_, ?_⟩
    · simpa using hrest₂.append_right [_]
    · intro x hx
      simp only [List.mem_append, List.mem_singleton] at hx
      rcases hx with hx | rfl
      · exact (h₂ x (List.mem_of_mem_erase (List.mem_of_mem_erase hx))).append
      · refine ⟨internalNode (m.weightOf l + m.weightOf r) l r, by simp [hnew], rfl, ?_, ?_⟩
        · exact hpl ▸ (h₂ p hp).append
        · exact hqr ▸ (h₂ q (List.mem_of_mem_erase hq)).append
    · refine List.Perm.trans ?_ h₃
      refine List.Perm.trans ?_ ((hts₁.trans (hts₂.cons p)).flatMap_right _).symm
      simp only [List.flatMap_append, List.flatMap_cons, List.flatMap_nil, List.append_nil, Shape.leaves, ← List.append_assoc]
      rw [List.append_assoc]
      exact List.perm_append_comm
  · rw [List.map_append, List.sum_append]
    have : ((m.heap.erase l).erase r).map (fun n => (({ m with
        nodes := m.nodes ++ [internalNode (m.weightOf l + m.weightOf r) l r]
        heap := (m.heap.erase l).erase r ++ [BitVec.ofNat 10 m.nodes.length] } : Memory).weightOf n).toNat) =
        ((m.heap.erase l).erase r).map fun n => (m.weightOf n).toNat :=
      List.map_congr_left fun y hy => by rw [Memory.weightOf_append (h.alloc y (hmem y hy))]
    rw [this]
    simp only [List.map_cons, List.map_nil, List.sum_cons, List.sum_nil, Memory.weightOf, hnew, List.getElem?_append_right le_rfl,
      Nat.sub_self, List.getElem?_cons_zero, internalNode]
    simp only [Memory.weightOf] at hadd hsum
    omega

/-- The counts of the loaded leaves add up to TOTAL (41_frequency.md rule R147). -/
theorem loadedLeaves_weight {freq : List Word} {total : Word} (h : FreqOk freq total) :
    ((loadedLeaves freq).map fun p => p.2.toNat).sum = total.toNat := by
  have hz : ∀ l : List Nat, (((l.filter fun s => freq.getD s 0 != 0).map fun s =>
      ((BitVec.ofNat 9 s : Symbol), freq.getD s 0)).map fun p => p.2.toNat).sum =
      (l.map fun s => (freq.getD s 0).toNat).sum := by
    intro l
    induction l with
    | nil => rfl
    | cons s l ih =>
      by_cases hc : freq.getD s 0 = 0
      · simp only [List.filter_cons, bne_iff_ne, ne_eq, hc, not_true_eq_false, if_false, ih, List.map_cons,
          List.sum_cons]
        exact (Nat.zero_add _).symm
      · simp only [List.filter_cons, bne_iff_ne, ne_eq, hc, not_false_eq_true, if_true, List.map_cons, List.sum_cons, ih]
  have hr : (List.range Config.numSymbols).map (fun s => (freq.getD s 0).toNat) = freq.map BitVec.toNat := by
    apply List.ext_getElem
    · simp [h.1]
    · intro i h₁ h₂
      have : i < freq.length := by simpa using h₂
      simp [List.getD_eq_getElem?_getD, this]
  have hc : ((countedSymbols freq).map fun p => p.2.toNat).sum = total.toNat := by
    rw [countedSymbols, hz, hr, h.2.2]
  unfold loadedLeaves
  split
  · rw [List.map_append, List.sum_append, hc]; simp
  · exact hc

theorem rising_firstIndices {n : Nat} (h : n ≤ 1024) : rising (firstIndices n) = true := by
  rw [rising_iff, firstIndices, List.pairwise_map]
  refine (List.pairwise_lt_range (n := n)).imp_of_mem fun ha hb hab => ?_
  rw [List.mem_range] at ha hb
  rwa [ofNat_toNat_of_lt (by omega), ofNat_toNat_of_lt (by omega)]

/-- TB_LOAD leaves a forest of single leaves (42_tree_builder.md rule R164). -/
theorem Forest.loaded {m : Memory} {total : Word} (h : FreqOk m.freq total) :
    Forest m.loaded ((loadedLeaves m.freq).map (·.1)) total.toNat := by
  have hlen := (loadedLeaves_length h).2
  have hget : ∀ k (hk : k < (loadedLeaves m.freq).length), m.loaded.nodes[(BitVec.ofNat 10 k : NodeIdx).toNat]? =
      some (leafNode (loadedLeaves m.freq)[k].1 (loadedLeaves m.freq)[k].2) := by
    intro k hk
    rw [ofNat_toNat_of_lt (by omega)]
    simp [Memory.loaded, hk]
  refine ⟨?_, rising_firstIndices (by omega), ?_, ?_, ?_⟩
  · intro y hy
    simp only [Memory.loaded, firstIndices, List.mem_map, List.mem_range] at hy
    obtain ⟨k, hk, rfl⟩ := hy
    rw [ofNat_toNat_of_lt (by omega)]
    simpa [Memory.loaded] using hk
  · refine ⟨(List.range (loadedLeaves m.freq).length).map fun k =>
      (BitVec.ofNat 10 k, .leaf ((loadedLeaves m.freq).getD k (0, 0)).1), ?_, ?_, ?_⟩
    · simp [Memory.loaded, firstIndices, Function.comp_def]
    · intro p hp
      simp only [List.mem_map, List.mem_range] at hp
      obtain ⟨k, hk, rfl⟩ := hp
      exact ⟨_, hget k hk, rfl, by simp [leafNode, List.getD_eq_getElem?_getD, hk]⟩
    · simp only [List.flatMap_map, Shape.leaves]
      rw [← List.map_eq_flatMap]
      refine (List.Perm.of_eq ?_)
      apply List.ext_getElem
      · simp
      · intro i h₁ h₂
        have : i < (loadedLeaves m.freq).length := by simpa using h₂
        simp [List.getD_eq_getElem?_getD, this]
  · rw [← loadedLeaves_weight h]
    congr 1
    simp only [Memory.loaded, firstIndices, List.map_map]
    apply List.ext_getElem
    · simp
    · intro i h₁ h₂
      have hi : i < (loadedLeaves m.freq).length := by simpa using h₂
      simp only [List.getElem_map, List.getElem_range, Function.comp, Memory.weightOf]
      have := hget i hi
      simp only [Memory.loaded, firstIndices] at this
      rw [this]
      rfl
  · simp [Memory.loaded, firstIndices]; omega

/-- The state after the last merge (42_tree_builder.md rule R166). -/
def State.built (s : State) (m : Memory) (n : NodeIdx) : State :=
  ((((s.setMem m).setRoot n).setCur n).setStatus
    { s.status with heapLoaded := false, treeValid := true, eofSeen := false }).setResult (n.setWidth 32)

/-- TB_BUILD's loop ends with one tree (42_tree_builder.md rules R167, R168). -/
theorem mergeLoop_spec {L : List Symbol} {W : Nat} (hL : L.length ≤ 257) (hW : W < 2 ^ 32) :
    ∀ (n : Nat) (s : State), s.status.heapLoaded = true → Forest s.mem L W → 2 ≤ s.mem.heap.length →
      s.mem.heap.length ≤ n → ∃ m' x, mergeLoop n s = .ok (s.built m' x) ∧ Forest m' L W ∧ m'.heap = [x] ∧
        m'.freq = s.mem.freq ∧ m'.codes = s.mem.codes ∧ x.toNat + 1 = m'.nodes.length
  | 0, s, _, _, h2, hn => by omega
  | n + 1, s, hl, hf, h2, hn => by
    obtain ⟨m', em, hf', hlen, hnodes, hfr, hco, hmem⟩ := hf.merge h2 hL hW
    have hlt : s.mem.nodes.length < 1024 := by have := hf.count; omega
    rw [mergeLoop, if_pos hl, tbStepBody, em]
    simp only [Flow.ofExcept_ok]
    by_cases h1 : m'.heap.length = 1
    · rw [if_pos h1, Flow.andThen_ok]
      obtain ⟨y, hy⟩ := List.length_eq_one_iff.1 h1
      rw [hy, List.mem_singleton] at hmem
      refine ⟨m', BitVec.ofNat 10 s.mem.nodes.length, ?_, hf', by rw [hy, hmem], hfr, hco, ?_⟩
      · cases n <;> (rw [mergeLoop, if_neg (by simp)]; rfl)
      · rw [ofNat_toNat_of_lt hlt, hnodes]
    · rw [if_neg h1, Flow.andThen_ok]
      obtain ⟨m₂, x, e₂, hr⟩ := mergeLoop_spec hL hW n ((s.setMem m').setResult _) hl hf' (by simp only [State.setResult_mem, State.setMem_mem]; omega)
        (by simp only [State.setResult_mem, State.setMem_mem]; omega)
      refine ⟨m₂, x, ?_, hr.1, hr.2.1, hr.2.2.1.trans hfr, hr.2.2.2.1.trans hco, hr.2.2.2.2⟩
      rw [e₂]
      congr 1

/-- One tree is left: its leaves are the loaded ones, its weight is all of it. -/
theorem Forest.single {m : Memory} {L : List Symbol} {W : Nat} {x : NodeIdx} (h : Forest m L W) (hx : m.heap = [x]) :
    ∃ t : Shape, TreeAt m.nodes x t ∧ t.leaves.Perm L ∧ (m.weightOf x).toNat = W ∧ m.nodes.length + 1 = 2 * L.length := by
  obtain ⟨ts, h₁, h₂, h₃⟩ := h.trees
  rw [hx] at h₁
  obtain ⟨p, rfl⟩ := List.length_eq_one_iff.1 (by simpa using h₁.length_eq)
  have hp : p.1 = x := by simpa using h₁
  refine ⟨p.2, hp ▸ h₂ p (by simp), by simpa using h₃, ?_, ?_⟩
  · simpa [hx] using h.weight
  · simpa [hx] using h.count

/-- The state after TB_BUILD's body, with the memories it leaves and the root. -/
def State.treeBuilt (s : State) (m : Memory) (x : NodeIdx) : State :=
  ((((s.setMem m).setRoot x).setCur x).setStatus
    { s.status with heapLoaded := false, treeValid := true, codesValid := false, eofSeen := false }).setResult
    (x.setWidth 32)

theorem tbBuild_run {s : State} (h : FreqOk s.mem.freq s.total) :
    ∃ m' x, runTasks tbBuildTasks s = .ok (s.treeBuilt m' x) ∧
      Forest m' ((loadedLeaves s.mem.freq).map (·.1)) s.total.toNat ∧ m'.heap = [x] ∧ m'.freq = s.mem.freq ∧
      m'.codes = s.mem.codes ∧ x.toNat + 1 = m'.nodes.length := by
  have hlen := loadedLeaves_length h
  have hload : tbLoadBody s = .ok (((s.setMem s.mem.loaded).setStatus
      { s.status.invalidateTree with heapLoaded := true }).setResult s.mem.loaded.heapSizeWord) := by
    rw [tbLoadBody, Memory.load_eq h.1, Flow.ofExcept_ok]
  have hheap : s.mem.loaded.heap.length = (loadedLeaves s.mem.freq).length := by simp [Memory.loaded, firstIndices]
  obtain ⟨m', x, e, hf, hx, hfr, hco, hn⟩ := mergeLoop_spec (by simpa using hlen.2) s.total.isLt s.mem.loaded.heap.length
    (((s.setMem s.mem.loaded).setStatus { s.status.invalidateTree with heapLoaded := true }).setResult
      s.mem.loaded.heapSizeWord) rfl (Forest.loaded h) (by simp only [State.setResult_mem, State.setStatus_mem, State.setMem_mem]; omega) (le_refl _)
  refine ⟨m', x, ?_, hf, hx, hfr, hco, hn⟩
  simp only [tbBuildTasks, runTasks_cons, runTask, hload, Flow.andThen_ok]
  rw [tbMergeBody]
  simp only [State.setResult_mem, State.setStatus_mem, State.setMem_mem] at e ⊢
  rw [e]
  rfl

/-- What a merge does depends on the node store and the queue alone (42_tree_builder.md rule R169). -/
theorem Forest.merge_congr {m u : Memory} {L : List Symbol} {W : Nat} (h : Forest m L W) (h2 : 2 ≤ m.heap.length)
    (hL : L.length ≤ 257) (hn : u.nodes = m.nodes) (hh : u.heap = m.heap) {n₁ n₂ : NodeIdx}
    {m' u' : Memory} (em : m.merge = .ok (n₁, m')) (eu : u.merge = .ok (n₂, u')) :
    u'.nodes = m'.nodes ∧ u'.heap = m'.heap := by
  obtain ⟨l, hl, r, hr, hne, hml, hmr⟩ := Memory.two_minima h.alloc h.rise h2
  have hcount := h.count
  have hheap : m.heap.length ≤ 257 ∧ m.nodes.length < 513 := ⟨h.heap_le.trans hL, by omega⟩
  have hbef : ∀ a b, u.before a b ↔ m.before a b := fun a b => by simp only [Memory.before, Memory.weightOf, hn]
  have hwt : ∀ a, u.weightOf a = m.weightOf a := fun a => by simp only [Memory.weightOf, hn]
  have e₁ := Memory.merge_eq hl hr hne h.alloc h.rise hheap.2 hheap.1 hml hmr
  have e₂ := Memory.merge_eq (m := u) (hh ▸ hl) (hh ▸ hr) hne (by rw [hh, hn]; exact h.alloc) (hh ▸ h.rise) (by rw [hn]; exact hheap.2)
    (by rw [hh]; exact hheap.1) (fun y hy hyl => (hbef _ _).2 (hml y (hh ▸ hy) hyl))
    (fun y hy h₁ h₂ => (hbef _ _).2 (hmr y (hh ▸ hy) h₁ h₂))
  rw [e₁] at em
  rw [e₂] at eu
  cases em
  cases eu
  simp [hn, hh, hwt]

theorem mergeLoop_congr {L : List Symbol} {W : Nat} (hL : L.length ≤ 257) (hW : W < 2 ^ 32) :
    ∀ (n : Nat) (s u s' u' : State), s.status.heapLoaded = true → u.status.heapLoaded = true → Forest s.mem L W →
      2 ≤ s.mem.heap.length → u.mem.nodes = s.mem.nodes → u.mem.heap = s.mem.heap → mergeLoop n s = .ok s' →
      mergeLoop n u = .ok u' → u'.mem.nodes = s'.mem.nodes ∧ u'.mem.heap = s'.mem.heap
  | 0, s, u, s', u', hs, _, _, _, _, _, es, _ => by rw [mergeLoop, if_pos hs] at es; cases es
  | n + 1, s, u, s', u', hs, hu, hf, h2, hn, hh, es, eu => by
    obtain ⟨m', em, hf', hlen, -⟩ := hf.merge h2 hL hW
    rw [mergeLoop, if_pos hs, tbStepBody, em] at es
    rw [mergeLoop, if_pos hu, tbStepBody] at eu
    cases eu' : u.mem.merge with
    | error f => rw [eu'] at eu; simp at eu
    | ok r =>
      obtain ⟨n₂, u₂⟩ := r
      rw [eu'] at eu
      obtain ⟨c₁, c₂⟩ := hf.merge_congr h2 hL hn hh em eu'
      simp only [Flow.ofExcept_ok, c₂] at es eu
      by_cases h1 : m'.heap.length = 1
      · rw [if_pos h1, Flow.andThen_ok] at es eu
        cases n <;> rw [mergeLoop, if_neg (by simp)] at es eu <;> cases es <;> cases eu <;> exact ⟨c₁, c₂⟩
      · rw [if_neg h1, Flow.andThen_ok] at es eu
        exact mergeLoop_congr hL hW n ((s.setMem m').setResult _) ((u.setMem u₂).setResult _) s' u' hs hu hf' (by simp only [State.setResult_mem, State.setMem_mem]; omega) c₁ c₂ es eu

/-- The tree that TB_BUILD builds is a function of the counters alone (42_tree_builder.md rule R169). -/
theorem tbBuild_congr {s u s' u' : State} (h : FreqOk s.mem.freq s.total) (hfr : u.mem.freq = s.mem.freq)
    (es : runTasks tbBuildTasks s = .ok s') (eu : runTasks tbBuildTasks u = .ok u') :
    u'.mem.nodes = s'.mem.nodes ∧ u'.mem.heap = s'.mem.heap := by
  have hlen := loadedLeaves_length h
  have hl : u.mem.loaded.nodes = s.mem.loaded.nodes ∧ u.mem.loaded.heap = s.mem.loaded.heap := by simp [Memory.loaded, hfr]
  have hheap : s.mem.loaded.heap.length = (loadedLeaves s.mem.freq).length := by simp [Memory.loaded, firstIndices]
  simp only [tbBuildTasks, runTasks_cons, runTask, tbLoadBody, Memory.load_eq h.1,
    Memory.load_eq (hfr ▸ h.1 : u.mem.freq.length = 257), Flow.ofExcept_ok, Flow.andThen_ok, tbMergeBody] at es eu
  generalize hs₁ : (((s.setMem s.mem.loaded).setStatus { s.status.invalidateTree with heapLoaded := true }).setResult
    s.mem.loaded.heapSizeWord) = s₁ at es
  generalize hu₁ : (((u.setMem u.mem.loaded).setStatus { u.status.invalidateTree with heapLoaded := true }).setResult
    u.mem.loaded.heapSizeWord) = u₁ at eu
  have hms : s₁.mem = s.mem.loaded := by rw [← hs₁]; rfl
  have hmu : u₁.mem = u.mem.loaded := by rw [← hu₁]; rfl
  cases e₁ : mergeLoop s₁.mem.heap.length s₁ with
  | ok a =>
    rw [e₁] at es
    cases e₂ : mergeLoop u₁.mem.heap.length u₁ with
    | ok b =>
      rw [e₂] at eu
      cases es
      cases eu
      rw [show u₁.mem.heap.length = s₁.mem.heap.length by rw [hms, hmu, hl.2]] at e₂
      exact mergeLoop_congr (L := (loadedLeaves s.mem.freq).map (·.1)) (by simpa using hlen.2) s.total.isLt _ s₁ u₁ a b (by rw [← hs₁]; rfl) (by rw [← hu₁]; rfl)
        (by rw [hms]; exact Forest.loaded h) (by rw [hms]; omega) (by rw [hms, hmu, hl.1]) (by rw [hms, hmu, hl.2]) e₁ e₂
    | hold b => rw [e₂] at eu; cases eu
    | raise c e d b => rw [e₂] at eu; cases eu
    | fault g => rw [e₂] at eu; cases eu
  | hold a => rw [e₁] at es; cases es
  | raise c e d a => rw [e₁] at es; cases es
  | fault g => rw [e₁] at es; cases es

end Sys2Proof.Machine
end

