-- ==== Sys2Proof/Laws/Composite.lean ====
section
/-! SUPPORT. The closes, the decoder's whole body, and the composite commands (47_composite.md) when the collaborators answer:
one lemma per body, with the whole state it leaves. -/

namespace Sys2Proof.Machine

/-- A body in two halves, the first of which ends. -/
theorem runTasks_then {a b : List Task} {s t : State} (h : runTasks a s = .ok t) : runTasks (a ++ b) s = runTasks b t := by
  rw [runTasks_append, h, Flow.andThen_ok]

/-- A body whose first part raises an error. -/
theorem runTasks_raise {a b : List Task} {s t : State} {c : Cause} {e f : Word} (h : runTasks a s = .raise c e f t) :
    runTasks (a ++ b) s = .raise c e f t := by
  rw [runTasks_append, h]; rfl

/-- The start of a composite command's sub-step (47_composite.md rule R280). -/
theorem runTasks_phase (op : Byte) (ts : List Task) (s : State) :
    runTasks (.phase op :: ts) s = runTasks ts (s.setSeq { s.seq with phase := op }) := rfl

/-! ### Port BI's magic word -/

theorem readMagic_run {s : State} (hr : s.ports.credit = none) {rest : List Bool}
    (hb : s.ports.bi.bits = fieldBits 32 s.magic ++ rest) :
    readMagicBody s = .ok ((((s.setPorts { s.ports with bi := { s.ports.bi with bits := rest, isOpen := true } }).setBitsIn
      (s.bitsIn + 32)).setStatus { s.status with magicOk := true }).setResult s.magic) := by
  have hlen : (fieldBits 32 s.magic).length = 32 := fieldBits_length 32 s.magic
  have ht : (fieldBits 32 s.magic ++ rest).take 32 = fieldBits 32 s.magic := by
    rw [List.take_append_of_le_length (by omega), List.take_of_length_le (by omega)]
  have hd : (fieldBits 32 s.magic ++ rest).drop 32 = rest := by
    rw [List.drop_append_of_le_length (by omega), List.drop_eq_nil_of_le (by omega), List.nil_append]
  rw [readMagicBody, port_biRead (by simpa using hr) (by simp [hb])]
  simp only [State.setStatus_ports, hb, ht, hd, fieldValue_magic, State.setPorts_magic, State.setStatus_magic, if_true]
  rfl

theorem readMagic_bad {s : State} (hr : s.ports.credit = none) {v : Word} {rest : List Bool}
    (hb : s.ports.bi.bits = fieldBits 32 v ++ rest) (hv : v ≠ s.magic) :
    readMagicBody s = .raise .fmtBadMagic s.magic v
      (((s.setStatus { s.status with magicOk := false }).setPorts
        { s.ports with bi := { s.ports.bi with bits := rest, isOpen := true } }).setBitsIn (s.bitsIn + 32)) := by
  have hlen : (fieldBits 32 v).length = 32 := fieldBits_length 32 v
  have ht : (fieldBits 32 v ++ rest).take 32 = fieldBits 32 v := by
    rw [List.take_append_of_le_length (by omega), List.take_of_length_le (by omega)]
  have hd : (fieldBits 32 v ++ rest).drop 32 = rest := by
    rw [List.drop_append_of_le_length (by omega), List.drop_eq_nil_of_le (by omega), List.nil_append]
  rw [readMagicBody, port_biRead (by simpa using hr) (by simp [hb])]
  simp only [State.setStatus_ports, hb, ht, hd, fieldValue_magic, State.setPorts_magic, State.setStatus_magic, if_neg hv]
  rfl

theorem readMagic_eos {s : State} (hr : s.ports.credit = none) (he : s.ports.bi.ended = true)
    (hb : s.ports.bi.bits.length < 32) :
    readMagicBody s = .raise .fmtMagicEos 32 s.bitsIn
      ((s.setStatus { s.status with magicOk := false }).setPorts
        { s.ports with bi := { s.ports.bi with isOpen := true } }) := by
  rw [readMagicBody, port_biRead_eos (by simpa using hr) (by simpa using hb) (by simpa using he)]
  rfl

/-! ### The closes -/

theorem enClose_run {s : State} (hr : s.ports.credit = none) :
    runTasks enCloseTasks s = .ok ((((s.setPorts { s.ports with
      ob := s.ports.ob.close, ib := s.ports.ib.release }).setBitsOut 0).setResult s.bitsOut).setStatus
        { s.status with eofWritten := false }) := by
  simp only [enCloseTasks, runTasks_cons, runTask, bitsOutResultBody, Flow.andThen_ok, obCloseBody]
  rw [port_obClose (by simpa using hr), Flow.andThen_ok, runTasks_cons, runTask, ibReleaseBody,
    port_ibRelease (by simpa using hr), Flow.andThen_ok]
  rfl

theorem deClose_run {s : State} (hr : s.ports.credit = none) :
    runTasks deCloseTasks s = .ok (((((s.setPorts { s.ports with
      bo := s.ports.bo.opened.close, bi := s.ports.bi.release }).setBitsIn 0).setBytesOut 0).setResult s.bytesOut).setStatus
        { s.status with eofSeen := false, magicOk := false }) := by
  simp only [deCloseTasks, runTasks_cons, runTask, bytesOutResultBody, Flow.andThen_ok, boCloseBody]
  rw [port_boClose (by simpa using hr), Flow.andThen_ok, runTasks_cons, runTask, biReleaseBody,
    port_biRelease (by simpa using hr), Flow.andThen_ok]
  rfl

/-! ### The decoder's body -/

/-- DE_BODY's body on a body that the tree's codes carry (46_decoder.md rule R262). -/
theorem deBody_run {s : State} (hr : s.ports.credit = none) {t : Shape} (hi : t.internal = true)
    (heof : Config.pseudoEof ∈ t.leaves) {bs : List Byte} (hbs : ∀ b ∈ bs, symbolOfByte b ∈ t.leaves)
    (he : s.status.eofSeen = false) (hc : s.cur = s.root) (ht : TreeAt s.mem.nodes s.root t) {rest : List Bool}
    (hb : s.ports.bi.bits = t.body bs ++ rest) :
    runTasks deBodyTasks s = .ok ((s.fed rest (t.body bs).length bs s.root (s.bytesOut + BitVec.ofNat 32 bs.length)).setStatus
      { s.status with eofSeen := true }) := by
  obtain ⟨res, e⟩ := deLoop_body hi heof bs s rest (s.ports.bi.bits.length + 1) hbs hr he hc ht hb (by rw [hb]; simp; omega)
  simp only [deBodyTasks, runTasks_cons, runTask, deLoopBody]
  rw [e]
  simp only [Flow.andThen_ok, runTasks_cons, runTask, bytesOutResultBody, runTasks_nil]
  refine congrArg Flow.ok ?_
  apply State.ext <;> simp [State.fed]

/-! ### COMPRESS -/

/-- FC_SCAN's body where no count overflows (41_frequency.md rule R144). -/
theorem fcScan_run {s : State} (hr : s.ports.credit = none) {bs : List Byte} (hl : s.ports.ib.left = bs)
    (he : s.ports.ib.ended = true) (hf : FreqOk s.mem.freq s.total) (ht : s.total.toNat + bs.length < 4294967296) :
    runTasks fcScanTasks s =
      .ok ((((((s.setMem { s.mem with freq := countAll s.mem.freq bs }).setTotal (s.total + BitVec.ofNat 32 bs.length)).setBytesIn
        (BitVec.ofNat 32 bs.length)).setResult (BitVec.ofNat 32 bs.length)).setPorts
        { s.ports with ib := { s.ports.ib with left := [], isOpen := true } }).setStatus s.status.invalidateTree) ∧
    FreqOk (countAll s.mem.freq bs) (s.total + BitVec.ofNat 32 bs.length) := by
  obtain ⟨e, hf'⟩ := scanLoop_ready bs (s.ports.ib.left.length + 1) (s.invalidateTree.setBytesIn 0) (by rw [hl]; omega) hr hl he
    hf ht
  refine ⟨?_, hf'⟩
  simp only [fcScanTasks, runTasks_cons, runTask, scanStartBody, Flow.andThen_ok, scanBody]
  rw [show (s.invalidateTree.setBytesIn 0).ports = s.ports from rfl, e]
  simp only [Flow.andThen_ok, bytesInResultBody, runTasks_cons, runTask, runTasks_nil]
  refine congrArg Flow.ok ?_
  apply State.ext <;> simp [State.scanned, State.invalidateTree]

/-- FC_SCAN's body where TOTAL cannot take a byte (41_frequency.md rule R144). -/
theorem fcScan_overflow {s : State} (hr : s.ports.credit = none) {pre post : List Byte} {b : Byte}
    (hl : s.ports.ib.left = pre ++ b :: post) (hf : FreqOk s.mem.freq s.total) (ht : s.total.toNat + pre.length = 4294967295) :
    runTasks fcScanTasks s = .raise .cntOverflow 0xFFFFFFFF (b.setWidth 32)
      ((s.invalidateTree.setBytesIn 0).scannedTo pre post) := by
  simp only [fcScanTasks, runTasks_cons, runTask, scanStartBody, Flow.andThen_ok, scanBody]
  rw [scanLoop_overflow pre b post _ (s.invalidateTree.setBytesIn 0) (by
    show pre.length < s.ports.ib.left.length + 1; rw [hl]; simp) hr hl hf ht]
  rfl

/-- FC_INIT's body (41_frequency.md rule R140). -/
theorem fcInit_run (s : State) :
    runTasks [.fcInit] s = .ok ((((s.setMem { s.mem with freq := initialFreq }).setTotal 1).setStatus
      { s.status.invalidateTree with freqValid := true }).setResult 1) := rfl

/-- COMPRESS's first two sub-steps, phase numbers apart: the counts of a whole input from FC_INIT. -/
theorem count_run {s : State} (hr : s.ports.credit = none) {bs : List Byte} (h₁ : s.ports.ib.left = bs)
    (h₃ : s.ports.ib.ended = true)
    (hn : bs.length < 4294967295) :
    runTasks ([.phase 0x10, .fcInit] ++ .phase 0x12 :: fcScanTasks) s =
      .ok (((((((s.setMem { s.mem with freq := countAll initialFreq bs }).setTotal (BitVec.ofNat 32 (bs.length + 1))).setBytesIn
        (BitVec.ofNat 32 bs.length)).setResult (BitVec.ofNat 32 bs.length)).setPorts
        { s.ports with ib := { s.ports.ib with left := [], isOpen := true } }).setStatus
        { s.status.invalidateTree with freqValid := true }).setSeq { s.seq with phase := 0x12 }) ∧
    FreqOk (countAll initialFreq bs) (BitVec.ofNat 32 (bs.length + 1)) := by
  have hsum : (1 : Word) + BitVec.ofNat 32 bs.length = BitVec.ofNat 32 (bs.length + 1) := by
    rw [Nat.add_comm, BitVec.ofNat_add]; rfl
  have h12 := fcScan_run (s := ((((s.setSeq { s.seq with phase := 0x10 }).setMem { s.mem with freq := initialFreq }).setTotal
    1).setStatus { s.status.invalidateTree with freqValid := true }).setResult 1 |>.setSeq { s.seq with phase := 0x12 })
    hr h₁ h₃ initialFreq_ok (by show 1 + bs.length < 4294967296; omega)
  obtain ⟨e, hf⟩ := h12
  refine ⟨?_, hsum ▸ hf⟩
  have e₁ : runTasks ([.phase 0x10, .fcInit] ++ .phase 0x12 :: fcScanTasks) s = runTasks fcScanTasks
      (((((s.setSeq { s.seq with phase := 0x10 }).setMem { s.mem with freq := initialFreq }).setTotal
    1).setStatus { s.status.invalidateTree with freqValid := true }).setResult 1 |>.setSeq { s.seq with phase := 0x12 }) := rfl
  rw [e₁, e]
  refine congrArg Flow.ok ?_
  generalize initialFreq = f
  apply State.ext <;> simp [← hsum, Status.invalidateTree]

/-- COMPRESS's first two sub-steps on more bytes than TOTAL can take: CNT_OVERFLOW (47_composite.md rule R281). -/
theorem count_overflow {s : State} (hr : s.ports.credit = none) {pre post : List Byte} {b : Byte}
    (hl : s.ports.ib.left = pre ++ b :: post) (hn : pre.length = 4294967294) :
    runTasks ([.phase 0x10, .fcInit] ++ .phase 0x12 :: fcScanTasks) s = .raise .cntOverflow 0xFFFFFFFF (b.setWidth 32)
      ((((((((s.setSeq { s.seq with phase := 0x10 }).setMem { s.mem with freq := initialFreq }).setTotal
        1).setStatus { s.status.invalidateTree with freqValid := true }).setResult 1).setSeq
        { s.seq with phase := 0x12 }).invalidateTree.setBytesIn 0).scannedTo pre post) :=
  fcScan_overflow (s := ((((s.setSeq { s.seq with phase := 0x10 }).setMem { s.mem with freq := initialFreq }).setTotal
    1).setStatus { s.status.invalidateTree with freqValid := true }).setResult 1 |>.setSeq { s.seq with phase := 0x12 })
    hr hl initialFreq_ok (by show 1 + pre.length = 4294967295; omega)

/-- The tree that a table's build leaves: valid, its leaves the loaded ones, each symbol once (42_tree_builder.md rules R164 to
R167; 43_code_table.md rule R193). -/
theorem Forest.tree {m : Memory} {freq : List Word} {total : Word} {x : NodeIdx} (h : FreqOk freq total)
    (hf : Forest m ((loadedLeaves freq).map (·.1)) total.toNat) (hx : m.heap = [x]) :
    ∃ t : Shape, t.valid = true ∧ TreeAt m.nodes x t ∧ t.leaves.Perm ((loadedLeaves freq).map (·.1)) ∧ t.leaves.Nodup ∧
      m.weightOf x = total ∧ m.nodes.length + 1 = 2 * (loadedLeaves freq).length := by
  obtain ⟨t, ht, hp, hw, hc⟩ := hf.single hx
  have hlen := loadedLeaves_length h
  have hl := hp.length_eq
  rw [List.length_map] at hl
  have hli := t.leaves_length
  refine ⟨t, t.valid_iff.2 ⟨?_, by omega, fun v hv => loadedLeaves_legal (hp.mem_iff.1 hv)⟩, ht, hp,
    hp.nodup_iff.2 (loadedLeaves_nodup h), BitVec.eq_of_toNat_eq hw, by simpa using hc⟩
  cases t with
  | leaf v => simp [Shape.leaves] at hl; omega
  | node l r => rfl

/-- The count of a byte after FC_INIT and some bytes: how often it occurs among them. -/
theorem countAll_initial (bs : List Byte) (b : Byte) :
    (countAll initialFreq bs).getD (symbolOfByte b).toNat 0 = BitVec.ofNat 32 (bs.countP fun x => x.toNat = b.toNat) := by
  rw [symbolOfByte_toNat, countAll_getD _ _ _ (by rw [initialFreq_ok.1]; have := b.isLt; simp only [Config.numSymbols]; omega)]
  have h0 : initialFreq.getD b.toNat 0 = 0 := by
    rw [initialFreq, List.getD_eq_getElem?_getD, List.getElem?_append_left (by rw [List.length_replicate]; exact b.isLt),
      List.getElem?_replicate, if_pos b.isLt]
    rfl
  rw [h0, show (0 : Word) = 0#32 from rfl, BitVec.zero_add]

/-- The bytes of an input, and PSEUDO_EOF, have leaves in the tree built from their counts. -/
theorem mem_countedSymbols_of_mem {bs : List Byte} (hn : bs.length < 4294967295) {b : Byte} (hb : b ∈ bs) :
    symbolOfByte b ∈ (countedSymbols (countAll initialFreq bs)).map (·.1) := by
  refine mem_countedSymbols.2 ⟨by rw [symbolOfByte_toNat]; omega, fun h => ?_⟩
  have hpos : 0 < bs.countP fun x => x.toNat = b.toNat := List.countP_pos_iff.2 ⟨b, hb, by simp⟩
  have hle := List.countP_le_length (p := fun x : Byte => decide (x.toNat = b.toNat)) (l := bs)
  have := congrArg BitVec.toNat ((countAll_initial bs b).symm.trans h)
  rw [BitVec.toNat_ofNat, Nat.mod_eq_of_lt (by omega)] at this
  exact absurd this (by simpa using hpos.ne')

theorem mem_loadedLeaves_of_mem {bs : List Byte} (hn : bs.length < 4294967295) {b : Byte} (hb : b ∈ bs) :
    symbolOfByte b ∈ (loadedLeaves (countAll initialFreq bs)).map (·.1) :=
  have h := mem_countedSymbols.1 (mem_countedSymbols_of_mem hn hb)
  mem_loadedLeaves_of_count h.1 h.2

theorem pseudoEof_mem_countedSymbols {freq : List Word} {total : Word} (h : FreqOk freq total) :
    Config.pseudoEof ∈ (countedSymbols freq).map (·.1) := by
  refine mem_countedSymbols.2 ⟨by decide, ?_⟩
  have := h.2.1
  rw [show Config.pseudoEof.toNat = 256 from rfl, List.getD_eq_getElem?_getD, this]
  decide

theorem pseudoEof_mem_loadedLeaves {freq : List Word} {total : Word} (h : FreqOk freq total) :
    Config.pseudoEof ∈ (loadedLeaves freq).map (·.1) :=
  have h := mem_countedSymbols.1 (pseudoEof_mem_countedSymbols h)
  mem_loadedLeaves_of_count h.1 h.2

/-- A byte that is not in an input has no leaf, but for byte 0 and an empty input, where it is the pad leaf (42_tree_builder.md
rule R165). -/
theorem not_mem_loadedLeaves {bs : List Byte} {total : Word} {b : Byte} (hn : bs.length < 4294967295)
    (hf : FreqOk (countAll initialFreq bs) total) (hb : b ∉ bs) (h0 : ¬ (bs = [] ∧ b = 0)) :
    symbolOfByte b ∉ (loadedLeaves (countAll initialFreq bs)).map (·.1) := by
  have hz : symbolOfByte b ∉ (countedSymbols (countAll initialFreq bs)).map (·.1) := fun h => by
    refine (mem_countedSymbols.1 h).2 ?_
    rw [countAll_initial, List.countP_eq_zero.2]
    · rfl
    · intro x hx
      simp only [decide_eq_true_eq]
      exact fun h => hb (BitVec.eq_of_toNat_eq h ▸ hx)
  unfold loadedLeaves
  split
  · rename_i hl
    rw [List.map_append, List.mem_append, not_or]
    refine ⟨hz, fun h => h0 ⟨?_, ?_⟩⟩
    · cases bs with
      | nil => rfl
      | cons x xs =>
        obtain ⟨p, hp⟩ := List.length_eq_one_iff.1 hl
        have h₁ := mem_countedSymbols_of_mem hn (List.mem_cons_self (a := x) (l := xs))
        have h₂ := pseudoEof_mem_countedSymbols hf
        rw [hp, List.map_singleton, List.mem_singleton] at h₁ h₂
        exact absurd (h₁.trans h₂.symm) (symbolOfByte_ne_eof x)
    · have h' : symbolOfByte b = 0 := by simpa using h
      exact BitVec.eq_of_toNat_eq ((symbolOfByte_toNat b).symm.trans (show (symbolOfByte b).toNat = 0 by rw [h']; rfl))
  · exact hz

/-- CG_GEN's body on a tree without a repeated symbol (43_code_table.md rule R190). -/
theorem cgGen_run {s : State} {t : Shape} (h : TreeAt s.mem.nodes s.root t) (hv : t.valid = true) (hnd : t.leaves.Nodup) :
    ∃ codes, CodesOf codes t ∧ cgGenBody s = .ok (((s.setMem { s.mem with codes := codes }).setStatus
      { s.status with codesValid := true }).setResult (BitVec.ofNat 32 t.leaves.length)) := by
  obtain ⟨hi, hn, hl⟩ := t.valid_iff.1 hv
  obtain ⟨codes, e, hc⟩ := walk_codesOf h hn hl hnd
  exact ⟨codes, hc, by rw [cgGenBody, e]⟩

/-- COMPRESS's sub-steps up to EN_BODY. -/
def compressFront : List Task := ([.phase 0x10, .fcInit] ++ .phase 0x12 :: fcScanTasks) ++
  (.phase 0x22 :: tbBuildTasks ++ ([.phase 0x30, .cgGen] ++ ([.phase 0x40, .writeMagic] ++ [.phase 0x41, .writeTree, .phase 0x52])))

/-- COMPRESS's sub-steps in two halves: counting and building; coding and writing. -/
theorem compressTasks_eq : compressTasks = ([.phase 0x10, .fcInit] ++ .phase 0x12 :: fcScanTasks) ++
    (.phase 0x22 :: tbBuildTasks ++ ([.phase 0x30, .cgGen] ++ ([.phase 0x40, .writeMagic] ++ ([.phase 0x41, .writeTree] ++
      (.phase 0x52 :: enBodyTasks ++ .phase 0x53 :: enCloseTasks))))) := rfl

/-- COMPRESS's sub-steps: those up to EN_BODY, and the rest. -/
theorem compressTasks_front : compressTasks = compressFront ++ (enBodyTasks ++ .phase 0x53 :: enCloseTasks) := rfl

/-- COMPRESS's state before EN_BODY, the bytes of its first pass `bs` and their tree `t` at `x`. -/
def State.headed (s : State) (m : Memory) (x : NodeIdx) (bs : List Byte) (t : Shape) : State :=
  { s with
    status := { s.status with freqValid := true, heapLoaded := false, treeValid := true, codesValid := true, eofSeen := false }
    result := BitVec.ofNat 32 t.header.length
    root := x
    cur := x
    total := BitVec.ofNat 32 (bs.length + 1)
    bytesIn := BitVec.ofNat 32 bs.length
    bitsOut := s.bitsOut + BitVec.ofNat 32 (fieldBits 32 s.magic ++ t.header).length
    mem := m
    seq := { s.seq with phase := 0x52 }
    ports := { s.ports with
      ib := { s.ports.ib with left := [], isOpen := true }
      ob := { s.ports.ob with bits := s.ports.ob.bits ++ (fieldBits 32 s.magic ++ t.header), isOpen := true } } }

/-- COMPRESS up to EN_BODY (47_composite.md rule R281), where port IB presents the bytes `bs`. Its tree is the one that a build from
their counts leaves. -/
theorem compress_front {s : State} (hr : s.ports.credit = none) {bs : List Byte} (hp₁ : s.ports.ib.left = bs)
    (hp₂ : s.ports.ib.ended = true) (hn : bs.length < 4294967295) :
    ∃ (m : Memory) (x : NodeIdx) (t : Shape), t.valid = true ∧ t.leaves.Nodup ∧ TreeAt m.nodes x t ∧
      t.leaves.Perm ((loadedLeaves (countAll initialFreq bs)).map (·.1)) ∧ CodesOf m.codes t ∧ Config.pseudoEof ∈ t.leaves ∧
      m.freq = countAll initialFreq bs ∧ m.heap = [x] ∧ m.nodes.length = x.toNat + 1 ∧
      m.nodes.length + 1 = 2 * t.leaves.length ∧ m.weightOf x = BitVec.ofNat 32 (bs.length + 1) ∧
      (∃ v v' : State, FreqOk v.mem.freq v.total ∧ v.mem.freq = countAll initialFreq bs ∧ runTasks tbBuildTasks v = .ok v' ∧
        v'.mem.nodes = m.nodes ∧ v'.mem.heap = m.heap) ∧
      runTasks compressFront s = .ok (s.headed m x bs t) := by
  obtain ⟨e₁, hf⟩ := count_run hr hp₁ hp₂ hn
  generalize hs₁ : State.setSeq _ _ = s₁ at e₁
  obtain ⟨m, x, e₂, hfo, hx, hmf, hmc, hxl⟩ := tbBuild_run (s := s₁.setSeq { s₁.seq with phase := 0x22 })
    (by rw [← hs₁]; exact hf)
  generalize hs₂ : State.treeBuilt _ m x = s₂ at e₂
  have hfo' : Forest m ((loadedLeaves (countAll initialFreq bs)).map (·.1)) (BitVec.ofNat 32 (bs.length + 1)).toNat := by
    rw [← hs₁] at hfo; exact hfo
  obtain ⟨t, hv, ht, hpm, hnd, hw, hc⟩ := hfo'.tree hf hx
  obtain ⟨hi, hin, hl⟩ := t.valid_iff.1 hv
  obtain ⟨codes, hco, e₃⟩ := cgGen_run (s := s₂.setSeq { s₂.seq with phase := 0x30 }) (t := t)
    (by rw [← hs₂]; exact ht) hv hnd
  generalize hs₃ : State.setResult _ (BitVec.ofNat 32 t.leaves.length) = s₃ at e₃
  have hp₃ : s₃.ports = s₁.ports := by rw [← hs₃, ← hs₂]; rfl
  have hc₃ : s₃.ports.credit = none := by rw [hp₃, ← hs₁]; exact hr
  have e₄ := writeMagic_run (s := s₃.setSeq { s₃.seq with phase := 0x40 }) hc₃
  generalize hs₄ : State.setResult _ (s₃.setSeq { s₃.seq with phase := 0x40 }).magic = s₄ at e₄
  have hm₄ : s₄.mem = { m with codes := codes } := by rw [← hs₄, ← hs₃, ← hs₂]; rfl
  have hr₄ : s₄.root = x := by rw [← hs₄, ← hs₃, ← hs₂]; rfl
  have e₅ := writeTree_run (s := s₄.setSeq { s₄.seq with phase := 0x41 }) (t := t) (by rw [← hs₄]; exact hc₃)
    (by show TreeAt s₄.mem.nodes s₄.root t; rw [hm₄, hr₄]; exact ht) hin
  generalize hs₅ : State.setResult _ (BitVec.ofNat 32 t.header.length) = s₅ at e₅
  refine ⟨{ m with codes := codes }, x, t, hv, hnd, ht, hpm, hco, hpm.mem_iff.2 (pseudoEof_mem_loadedLeaves hf), ?_, hx, hxl.symm, ?_,
    hw, ⟨s₁.setSeq { s₁.seq with phase := 0x22 }, s₂, ?_, ?_, e₂, ?_, ?_⟩, ?_⟩
  · rw [← hs₁] at hmf; exact hmf
  · rw [hc, hpm.length_eq, List.length_map]
  · rw [← hs₁]; exact hf
  · rw [← hs₁]; rfl
  · rw [← hs₂]; rfl
  · rw [← hs₂]; rfl
  · rw [compressFront, runTasks_then e₁, List.cons_append, runTasks_phase, runTasks_then e₂, List.cons_append, runTasks_phase,
      runTasks_then (a := [.cgGen]) (by rw [runTasks_cons, runTask, e₃]; rfl), List.cons_append, runTasks_phase,
      runTasks_then (a := [.writeMagic]) (by rw [runTasks_cons, runTask, e₄]; rfl), runTasks_phase, runTasks_cons, runTask, e₅,
      Flow.andThen_ok, runTasks_phase, runTasks_nil]
    refine congrArg Flow.ok ?_
    subst hs₅ hs₄ hs₃ hs₂ hs₁
    apply State.ext <;> simp [State.headed, State.treeBuilt, State.sent, Status.invalidateTree, BitVec.add_assoc, BitVec.ofNat_add,
      List.append_assoc]

/-- COMPRESS's body (47_composite.md rule R281): what it leaves, where port IB presents the bytes `bs` in the first pass and `cs`, each
with a leaf, in the second. -/
theorem compress_run {s : State} (hr : s.ports.credit = none) {bs cs : List Byte} (hp₁ : s.ports.ib.left = bs)
    (hp₂ : s.ports.ib.ended = true) (hq₃ : s.ports.ib.rewind.left = cs) (hp₄ : s.ports.ib.rewind.ended = true)
    (hn : bs.length < 4294967295) (hcs : ∀ b ∈ cs, symbolOfByte b ∈ (loadedLeaves (countAll initialFreq bs)).map (·.1)) :
    ∃ (m : Memory) (x : NodeIdx) (t : Shape), t.valid = true ∧ t.leaves.Nodup ∧ TreeAt m.nodes x t ∧
      t.leaves.Perm ((loadedLeaves (countAll initialFreq bs)).map (·.1)) ∧ CodesOf m.codes t ∧
      m.freq = countAll initialFreq bs ∧ m.heap = [x] ∧ m.nodes.length = x.toNat + 1 ∧
      m.nodes.length + 1 = 2 * t.leaves.length ∧ m.weightOf x = BitVec.ofNat 32 (bs.length + 1) ∧
      (∃ v v' : State, FreqOk v.mem.freq v.total ∧ v.mem.freq = countAll initialFreq bs ∧ runTasks tbBuildTasks v = .ok v' ∧
        v'.mem.nodes = m.nodes ∧ v'.mem.heap = m.heap) ∧
      runTasks compressTasks s = .ok { s with
        status := { s.status with
          freqValid := true, heapLoaded := false, treeValid := true, codesValid := true, eofWritten := false,
          eofSeen := false }
        result := s.bitsOut + BitVec.ofNat 32 (streamBits s.magic t cs).length
        root := x
        cur := x
        total := BitVec.ofNat 32 (bs.length + 1)
        bytesIn := BitVec.ofNat 32 cs.length
        bitsOut := 0
        mem := m
        seq := { s.seq with phase := 0x53 }
        ports := { s.ports with
          ib := {}
          ob := { s.ports.ob with
            bits := [], isOpen := false,
            committed := s.ports.ob.committed ++ [packBits (s.ports.ob.bits ++ streamBits s.magic t cs)] } } } := by
  obtain ⟨m, x, t, hv, hnd, ht, hpm, hco, heof, hmf, hx, hxl, hmn, hw, hb, e₁⟩ := compress_front hr hp₁ hp₂ hn
  refine ⟨m, x, t, hv, hnd, ht, hpm, hco, hmf, hx, hxl, hmn, hw, hb, ?_⟩
  obtain ⟨hi, hin, -⟩ := t.valid_iff.1 hv
  have hrw : (s.headed m x bs t).ports.ib.rewind = s.ports.ib.rewind := by
    simp only [State.headed, IbPort.rewind]
  have e₂ := enBody_run (s := s.headed m x bs t) (t := t) (bs := cs) hr hin hi hco heof (fun b hb => hpm.mem_iff.2 (hcs b hb))
    (by rw [hrw]; exact hq₃) (by rw [hrw]; exact hp₄)
  generalize hs₂ : State.setStatus _ _ = s₂ at e₂
  have e₃ := enClose_run (s := s₂.setSeq { s₂.seq with phase := 0x53 }) (by rw [← hs₂]; exact hr)
  rw [compressTasks_front, runTasks_then e₁, runTasks_then e₂, runTasks_phase, e₃]
  refine congrArg Flow.ok ?_
  subst hs₂
  apply State.ext <;> simp [State.headed, ObPort.close, IbPort.release, streamBits, BitVec.add_assoc, BitVec.ofNat_add,
    List.append_assoc]

/-- COMPRESS's body where the second pass brings a byte without a leaf (47_composite.md rule R281, 45_encoder.md rule R244): its first
pass `bs`, and `pre` the bytes that were coded. -/
theorem compress_noCode {s : State} (hr : s.ports.credit = none) {bs pre post : List Byte} {b : Byte} (hp₁ : s.ports.ib.left = bs)
    (hp₂ : s.ports.ib.ended = true) (hq₃ : s.ports.ib.rewind.left = pre ++ b :: post) (hn : bs.length < 4294967295)
    (hcs : ∀ x ∈ pre, symbolOfByte x ∈ (loadedLeaves (countAll initialFreq bs)).map (·.1))
    (hb : symbolOfByte b ∉ (loadedLeaves (countAll initialFreq bs)).map (·.1)) :
    ∃ (m : Memory) (x : NodeIdx) (t : Shape), t.valid = true ∧ TreeAt m.nodes x t ∧
      t.leaves.Perm ((loadedLeaves (countAll initialFreq bs)).map (·.1)) ∧ CodesOf m.codes t ∧ m.freq = countAll initialFreq bs ∧
      m.heap = [x] ∧ runTasks compressTasks s = .raise .encNoCode 0 (b.setWidth 32)
        (((((s.headed m x bs t).setPorts { (s.headed m x bs t).ports with ib := s.ports.ib.rewind }).setBytesIn 0).encoded post
          pre.length (pre.flatMap fun y => t.code (symbolOfByte y)))) := by
  obtain ⟨m, x, t, hv, hnd, ht, hpm, hco, heof, hmf, hx, hxl, hmn, hw, -, e₁⟩ := compress_front hr hp₁ hp₂ hn
  refine ⟨m, x, t, hv, ht, hpm, hco, hmf, hx, ?_⟩
  obtain ⟨hi, hin, -⟩ := t.valid_iff.1 hv
  have hrw : (s.headed m x bs t).ports.ib.rewind = s.ports.ib.rewind := by
    simp only [State.headed, IbPort.rewind]
  have hcode : ∀ y ∈ pre, ((s.headed m x bs t).mem.codeOf (symbolOfByte y)).path = t.code (symbolOfByte y) ∧
      ((s.headed m x bs t).mem.codeOf (symbolOfByte y)).len ≠ 0 :=
    fun y hy => hco.codeOf hin hi (hpm.mem_iff.2 (hcs y hy))
  have hno : ((s.headed m x bs t).mem.codeOf (symbolOfByte b)).len = 0 := by
    have := hco.2.2 (symbolOfByte b) (by rw [symbolOfByte_toNat]; omega) fun h => hb (hpm.mem_iff.1 h)
    show (m.codes.getD _ _).len = 0
    rw [List.getD_eq_getElem?_getD, this]
    rfl
  have e₂ := enBody_noCode (s := s.headed m x bs t) (pre := pre) (post := post) (b := b) hr hco.1 (fun y hy => (hcode y hy).2) hno
    (by rw [hrw]; exact hq₃)
  rw [List.flatMap_congr fun y hy => (hcode y hy).1, hrw] at e₂
  rw [compressTasks_front, runTasks_then e₁, runTasks_append, e₂]
  rfl

/-! ### DECOMPRESS -/

/-- The nodes that HD_READ_TREE allocates hold the tree, its root at index 0 (44_header_codec.md rule R217). -/
theorem Shape.nodesAt_root {t : Shape} (h : t.valid = true) : TreeAt (t.nodesAt 0) 0 t := by
  have := t.nodesAt_treeAt [] [] (by have := (t.valid_iff.1 h).2.1; rw [t.size_eq]; simp; omega)
  simpa using this

theorem decompressTasks_eq : decompressTasks = [.phase 0x42, .readMagic] ++ (.phase 0x43 :: hdReadTreeTasks ++
    (.phase 0x61 :: deBodyTasks ++ .phase 0x62 :: deCloseTasks)) := by simp [decompressTasks]

/-- DECOMPRESS's body on a compressed stream (47_composite.md rule R283). -/
theorem decompress_run {s : State} (hr : s.ports.credit = none) {t : Shape} (hv : t.valid = true)
    (heof : Config.pseudoEof ∈ t.leaves) {bs : List Byte} (hbs : ∀ b ∈ bs, symbolOfByte b ∈ t.leaves) {rest : List Bool}
    (hb : s.ports.bi.bits = streamBits s.magic t bs ++ rest) :
    runTasks decompressTasks s = .ok { s with
      status := { s.status with
        heapLoaded := false, treeValid := true, codesValid := false, eofSeen := false, magicOk := false }
      result := s.bytesOut + BitVec.ofNat 32 bs.length
      root := 0
      cur := 0
      bytesOut := 0
      bitsIn := 0
      mem := { s.mem with nodes := t.nodesAt 0, heap := [] }
      seq := { s.seq with phase := 0x62, stack := [], icount := 0 }
      ports := { s.ports with
        bi := {}
        bo := { s.ports.bo with
          bytes := [], isOpen := false, committed := s.ports.bo.committed ++ [s.ports.bo.bytes ++ bs] } } } := by
  have e₁ := readMagic_run (s := s.setSeq { s.seq with phase := 0x42 }) hr (rest := t.header ++ (t.body bs ++ rest))
    (by show s.ports.bi.bits = _; rw [hb, streamBits, List.append_assoc, List.append_assoc]; rfl)
  generalize hs₁ : State.setResult _ (s.setSeq { s.seq with phase := 0x42 }).magic = s₁ at e₁
  have e₂ := hdReadTree_run (s := s₁.setSeq { s₁.seq with phase := 0x43 }) (t := t) (rest := t.body bs ++ rest)
    (by rw [← hs₁]; exact hr) hv (by rw [← hs₁]; rfl)
  generalize hs₂ : State.treeRead _ t _ = s₂ at e₂
  have e₃ := deBody_run (s := s₂.setSeq { s₂.seq with phase := 0x61 }) (by rw [← hs₂, ← hs₁]; exact hr) (t.valid_iff.1 hv).1
    heof hbs (by rw [← hs₂]; rfl) (by rw [← hs₂]; rfl) (by rw [← hs₂]; exact Shape.nodesAt_root hv) (rest := rest)
    (by rw [← hs₂]; rfl)
  generalize hs₃ : State.setStatus _ _ = s₃ at e₃
  have e₄ := deClose_run (s := s₃.setSeq { s₃.seq with phase := 0x62 }) (by rw [← hs₃, ← hs₂, ← hs₁]; exact hr)
  rw [decompressTasks_eq, List.cons_append, runTasks_phase, runTasks_then (a := [.readMagic]) (by
    rw [runTasks_cons, runTask, e₁]; rfl), List.cons_append, runTasks_phase, runTasks_then e₂, List.cons_append,
    runTasks_phase, runTasks_then e₃, runTasks_phase, e₄]
  refine congrArg Flow.ok ?_
  clear e₁ e₂ e₃ e₄
  subst hs₃ hs₂ hs₁
  apply State.ext <;> simp [State.treeRead, State.took, State.fed, BoPort.opened, BoPort.close, BiPort.release]

end Sys2Proof.Machine
end

