-- ==== Sys2Proof/Laws/Causes.lean ====
section
/-! SUPPORT. Which errors each part of a body can raise, and that it leaves the sequencer's phase alone. -/

namespace Sys2Proof.Machine

/-- What a part of a body leaves of the hidden state: OPCODE, PHASE, the flags at acceptance and the cleanup
primitives of a held error entry. -/
abbrev Seq.Frame := Byte × Byte × Status × List Prim

def Seq.frame (q : Seq) : Seq.Frame := (q.opcode, q.phase, q.flags, q.todo)

/-- The flow goes on with `ph` as the hidden state's frame, or raises one of the causes `cs` with it. -/
def Flow.Tracks (cs : List Cause) (ph : Seq.Frame) : Flow → Prop
  | .ok s => s.seq.frame = ph
  | .hold s => s.seq.frame = ph
  | .raise c _ _ s => c ∈ cs ∧ s.seq.frame = ph
  | .fault _ => True

@[simp] theorem Flow.tracks_ok (cs ph) (s : State) : (Flow.ok s).Tracks cs ph ↔ s.seq.frame = ph := Iff.rfl

namespace Flow.Tracks

variable {cs : List Cause} {ph : Seq.Frame}

theorem andThen {f : Flow} (hf : f.Tracks cs ph) {k : State → Flow} (hk : ∀ s, s.seq.frame = ph → (k s).Tracks cs ph)
    (ts : List Task) : (f.andThen ts k).Tracks cs ph := by
  cases f with
  | ok s => exact hk s hf
  | hold s => exact hf
  | raise c e d s => exact hf
  | fault g => trivial

theorem ofExcept {α : Type} {e : Except Fault α} {k : α → Flow} (hk : ∀ a, (k a).Tracks cs ph) :
    (Flow.ofExcept e k).Tracks cs ph := by
  cases e with
  | ok a => exact hk a
  | error f => trivial

theorem port {s : State} {q : Prim} {ts : List Task} {k : Answer → State → Flow} (h : s.seq.frame = ph)
    (hk : ∀ a s', s'.seq.frame = ph → (k a s').Tracks cs ph) : (s.port q ts k).Tracks cs ph := by
  unfold State.port
  split
  · exact hk _ _ h
  · exact h

theorem mono {cs' : List Cause} (h : ∀ c ∈ cs, c ∈ cs') {f : Flow} (hf : f.Tracks cs ph) : f.Tracks cs' ph := by
  cases f with
  | ok s => exact hf
  | hold s => exact hf
  | raise c e d s => exact ⟨h c hf.1, hf.2⟩
  | fault g => trivial

end Flow.Tracks

open Sys2Proof.Machine.Flow

variable {ph : Seq.Frame}

theorem countByte_tracks {b : Byte} {s : State} {k : Word → State → Flow} (h : s.seq.frame = ph)
    (hk : ∀ c s', s'.seq.frame = ph → (k c s').Tracks [.cntOverflow] ph) : (countByte b s k).Tracks [.cntOverflow] ph := by
  unfold countByte
  split
  · exact ⟨by simp, h⟩
  · exact Tracks.ofExcept fun c => hk _ _ h

theorem scanLoop_tracks : ∀ (n : Nat) (s : State), s.seq.frame = ph → (scanLoop n s).Tracks [.cntOverflow] ph
  | 0, s, h => h
  | n + 1, s, h => Tracks.port h fun a s' h' => by
    cases a with
    | byte b => exact countByte_tracks h' fun c s'' h'' => scanLoop_tracks n _ h''
    | done => exact h'
    | bits v => exact h'
    | eos => exact h'

theorem tbStep_tracks {s : State} (h : s.seq.frame = ph) : (tbStepBody s).Tracks [] ph :=
  Tracks.ofExcept fun r => by dsimp only; split <;> exact h

theorem mergeLoop_tracks : ∀ (n : Nat) (s : State), s.seq.frame = ph → (mergeLoop n s).Tracks [] ph
  | 0, s, h => by
    unfold mergeLoop
    split
    · trivial
    · exact h
  | n + 1, s, h => by
    unfold mergeLoop
    split
    · exact (tbStep_tracks h).andThen (mergeLoop_tracks n) _
    · exact h

theorem writeAll_tracks {cs : List Cause} : ∀ (ws : List (Nat × Word)) (s : State), s.seq.frame = ph →
    (writeAll ws s).Tracks cs ph
  | [], _, h => h
  | (_, _) :: ws, _, h => Tracks.port h fun _ _ h' => writeAll_tracks ws _ h'

theorem enSymbol_tracks {v : Symbol} {s : State} (h : s.seq.frame = ph) : (enSymbolBody v s).Tracks [.encNoCode] ph :=
  Tracks.ofExcept fun c => by
    split
    · exact ⟨by simp, h⟩
    · exact (writeAll_tracks _ _ h).andThen (fun _ h' => by exact h') _

theorem encLoop_tracks : ∀ (n : Nat) (s : State), s.seq.frame = ph → (encLoop n s).Tracks [.encNoCode] ph
  | 0, s, h => h
  | n + 1, s, h => Tracks.port h fun a s' h' => by
    cases a with
    | byte b =>
      refine Tracks.andThen (Tracks.ofExcept fun c => ?_) (encLoop_tracks n) _
      split
      · exact ⟨by simp, h'⟩
      · exact (writeAll_tracks _ _ h').andThen (fun _ h'' => by exact h'') _
    | done => exact h'
    | bits v => exact h'
    | eos => exact h'

theorem readMagic_tracks {s : State} (h : s.seq.frame = ph) : (readMagicBody s).Tracks [.fmtMagicEos, .fmtBadMagic] ph :=
  Tracks.port h fun a s' h' => by
    cases a with
    | bits v =>
      dsimp only
      split
      · exact h'
      · exact ⟨by simp, h'⟩
    | done => exact ⟨by simp, h'⟩
    | byte b => exact ⟨by simp, h'⟩
    | eos => exact ⟨by simp, h'⟩

/-- HD_READ_TREE's errors (44_header_codec.md rule R217). -/
def headerCauses : List Cause := [.fmtHdrEos, .fmtHdrOverflow, .fmtHdrBadValue, .fmtHdrLeafRoot]

theorem readInternal_tracks {s : State} (h : s.seq.frame = ph) {k : State → Flow}
    (hk : ∀ s', s'.seq.frame = ph → (k s').Tracks headerCauses ph) : (readInternal s k).Tracks headerCauses ph := by
  unfold readInternal
  split
  · exact ⟨by simp [headerCauses], h⟩
  · exact Tracks.ofExcept fun r => hk _ h

theorem hdRoot_tracks {s : State} (h : s.seq.frame = ph) : (hdRootBody s).Tracks headerCauses ph :=
  Tracks.port h fun a s' h' => by
    cases a with
    | bits v =>
      dsimp only
      split
      · exact ⟨by simp [headerCauses], h'⟩
      · exact readInternal_tracks (s := s'.addBitsIn 1) h' fun _ h'' => by exact h''
    | done => exact ⟨by simp [headerCauses], h'⟩
    | byte b => exact ⟨by simp [headerCauses], h'⟩
    | eos => exact ⟨by simp [headerCauses], h'⟩

theorem hdLeaf_tracks {s : State} (h : s.seq.frame = ph) : (hdLeafBody s).Tracks headerCauses ph :=
  Tracks.port h fun a s' h' => by
    cases a with
    | bits v =>
      dsimp only
      split
      · exact ⟨by simp [headerCauses], h'⟩
      · exact Tracks.ofExcept fun r => Tracks.ofExcept fun r' => h'
    | done => exact ⟨by simp [headerCauses], h'⟩
    | byte b => exact ⟨by simp [headerCauses], h'⟩
    | eos => exact ⟨by simp [headerCauses], h'⟩

theorem hdLoop_tracks : ∀ (n : Nat) (s : State), s.seq.frame = ph → (hdLoop n s).Tracks headerCauses ph
  | 0, s, h => h
  | n + 1, s, h => by
    unfold hdLoop
    split
    · exact h
    · refine Tracks.port h fun a s' h' => ?_
      cases a with
      | bits v =>
        dsimp only
        split
        · exact (hdLeaf_tracks (s := s'.addBitsIn 1) h').andThen (hdLoop_tracks n) _
        · exact readInternal_tracks (s := s'.addBitsIn 1) h' (hdLoop_tracks n)
      | done => exact ⟨by simp [headerCauses], h'⟩
      | byte b => exact ⟨by simp [headerCauses], h'⟩
      | eos => exact ⟨by simp [headerCauses], h'⟩

theorem deEmit_tracks {cs : List Cause} {d : Bool} {s : State} (h : s.seq.frame = ph) : (deEmitBody d s).Tracks cs ph :=
  Tracks.ofExcept fun nd => by
    by_cases hv : nd.value = Config.pseudoEof
    · rw [if_pos hv, tracks_ok, State.setCur_seq, State.setResult_seq, State.setStatus_seq]
      exact h
    · rw [if_neg hv]
      exact Tracks.port h fun _ s' h' => by rw [tracks_ok, State.setCur_seq, State.setResult_seq, State.setBytesOut_seq]; exact h'

theorem deMove_tracks {cs : List Cause} {d : Bool} {s : State} (h : s.seq.frame = ph) : (deMove d s).Tracks cs ph :=
  Tracks.ofExcept fun nd => Tracks.ofExcept fun child => by
    split
    · exact deEmit_tracks (s := s.setCur _) h
    · exact h

theorem deStep_tracks {s : State} (h : s.seq.frame = ph) : (deStepBody s).Tracks [.fmtBodyEos] ph :=
  Tracks.port h fun a s' h' => by
    cases a with
    | bits v =>
      exact deMove_tracks (s := s'.addBitsIn 1) h'
    | done => exact ⟨by simp, h'⟩
    | byte b => exact ⟨by simp, h'⟩
    | eos => exact ⟨by simp, h'⟩

theorem deLoop_tracks : ∀ (n : Nat) (s : State), s.seq.frame = ph → (deLoop n s).Tracks [.fmtBodyEos] ph
  | 0, s, h => by
    unfold deLoop
    split
    · exact h
    · exact h
  | n + 1, s, h => by
    unfold deLoop
    split
    · exact h
    · exact (deStep_tracks h).andThen (deLoop_tracks n) _

theorem cgGen_tracks {s : State} (h : s.seq.frame = ph) : (cgGenBody s).Tracks [.cgDupSymbol] ph := by
  unfold cgGenBody
  split
  · exact h
  · exact ⟨by simp, h⟩
  · trivial

/-- The causes each part of a body can raise. -/
def Task.causes : Task → List Cause
  | .fcAdd _ => [.cntOverflow]
  | .scan => [.cntOverflow]
  | .nodeRead _ => [.illegalOperand]
  | .cgGen => [.cgDupSymbol]
  | .readMagic => [.fmtMagicEos, .fmtBadMagic]
  | .hdRoot => headerCauses
  | .hdTree => headerCauses
  | .hdLeaf => headerCauses
  | .enSymbol _ => [.encNoCode]
  | .encLoop => [.encNoCode]
  | .deStep => [.fmtBodyEos]
  | .deLoop => [.fmtBodyEos]
  | _ => []

/-- Whether a part of a body is the start of a sub-step. -/
def Task.isPhase : Task → Bool
  | .phase _ => true
  | _ => false

theorem task_tracks (t : Task) (ht : t.isPhase = false) (s : State) (h : s.seq.frame = ph) : (runTask t s).Tracks t.causes ph := by
  cases t with
  | phase op => cases ht
  | fcInit => exact h
  | fcAdd b =>
    show (fcAddBody b s).Tracks [.cntOverflow] ph
    exact countByte_tracks h fun c s' h' => by exact h'
  | scanStart => exact h
  | scan => exact scanLoop_tracks _ _ h
  | fcRead v => exact Tracks.ofExcept fun c => h
  | tbLoad => exact Tracks.ofExcept fun m => h
  | tbStep => exact tbStep_tracks h
  | tbMerge => exact mergeLoop_tracks _ _ h
  | rootResult => exact h
  | nodeRead n =>
    show (nodeReadBody n s).Tracks [.illegalOperand] ph
    unfold nodeReadBody
    split
    · exact Tracks.ofExcept fun nd => h
    · exact ⟨by simp, h⟩
  | cgGen => exact cgGen_tracks h
  | cgLookup v => exact Tracks.ofExcept fun c => h
  | writeMagic => exact (writeAll_tracks _ _ h).andThen (fun _ h' => by exact h') _
  | writeTree => exact Tracks.ofExcept fun ws => (writeAll_tracks _ _ h).andThen (fun _ h' => by exact h') _
  | writes ws => exact writeAll_tracks _ _ h
  | setResult v => exact h
  | readMagic => exact readMagic_tracks h
  | hdStart => exact h
  | hdRoot => exact hdRoot_tracks h
  | hdTree => exact hdLoop_tracks _ _ h
  | hdLeaf => exact hdLeaf_tracks h
  | hdFinish => exact h
  | enSymbol v => exact enSymbol_tracks h
  | eofWritten => exact h
  | ibRewind => exact Tracks.port h fun _ _ h' => h'
  | bytesInClear => exact h
  | bytesInNext => exact h
  | encLoop => exact encLoop_tracks _ _ h
  | bytesInResult => exact h
  | bitsOutResult => exact h
  | obClose => exact Tracks.port h fun _ _ h' => h'
  | ibRelease => exact Tracks.port h fun _ _ h' => h'
  | enClosed => exact h
  | deStep => exact deStep_tracks h
  | deEmit d => exact deEmit_tracks h
  | deLoop => exact deLoop_tracks _ _ h
  | bytesOutResult => exact h
  | boClose => exact Tracks.port h fun _ _ h' => h'
  | biRelease => exact Tracks.port h fun _ _ h' => h'
  | deClosed => exact h

/-- A body of one primitive command raises the causes of its parts, in its own phase. -/
theorem tasks_track : ∀ (ts : List Task) (s : State) (cs : List Cause), (∀ t ∈ ts, t.isPhase = false) →
    (∀ t ∈ ts, ∀ c ∈ t.causes, c ∈ cs) → s.seq.frame = ph → (runTasks ts s).Tracks cs ph
  | [], _, _, _, _, h => h
  | t :: ts, s, cs, hp, hc, h =>
    ((task_tracks t (hp t (by simp)) s h).mono (hc t (by simp))).andThen (fun s' h' =>
      tasks_track ts s' cs (fun u hu => hp u (by simp [hu])) (fun u hu => hc u (by simp [hu])) h') ts

/-- What a flow that raises an error records. -/
theorem Flow.Tracks.raised {cs : List Cause} {f : Flow} (hf : f.Tracks cs ph) {c : Cause} {x y : Word} {s : State}
    (e : f = .raise c x y s) : c ∈ cs ∧ s.seq.frame = ph := by subst e; exact hf

/-- A body in two halves raises what one of them raises. -/
theorem runTasks_append_raise {a b : List Task} {s t : State} {c : Cause} {x y : Word}
    (h : runTasks (a ++ b) s = .raise c x y t) :
    runTasks a s = .raise c x y t ∨ ∃ u, runTasks a s = .ok u ∧ runTasks b u = .raise c x y t := by
  rw [runTasks_append] at h
  cases e : runTasks a s with
  | ok u => rw [e] at h; exact .inr ⟨u, rfl, h⟩
  | hold u => rw [e] at h; cases h
  | raise c' x' y' u => rw [e] at h; exact .inl h
  | fault g => rw [e] at h; cases h

/-- A sub-step raises the causes of its parts, in its phase. -/
theorem substep_raised {op : Byte} {ts : List Task} {s t : State} {c : Cause} {x y : Word} {cs : List Cause}
    (hp : ∀ t ∈ ts, t.isPhase = false) (hc : ∀ t ∈ ts, ∀ c ∈ t.causes, c ∈ cs)
    (h : runTasks (.phase op :: ts) s = .raise c x y t) : c ∈ cs ∧ t.seq.phase = op := by
  rw [runTasks_phase] at h
  have := (tasks_track ts _ cs hp hc rfl).raised h
  exact ⟨this.1, congrArg (·.2.1) this.2⟩

/-- COMPRESS raises no error but the two of its rule (47_composite.md rule R281): its counters are a table when the tree is
built, and its tree has no symbol twice. -/
theorem compress_raised {s t : State} {c : Cause} {x y : Word} (h : runTasks compressTasks s = .raise c x y t) :
    (c, t.seq.phase) ∈ [(Cause.cntOverflow, (0x12 : Byte)), (.encNoCode, 0x52)] := by
  rw [compressTasks_eq] at h
  rcases runTasks_append_raise h with h | ⟨s₁, e₁, h⟩
  · rw [List.cons_append, List.cons_append, List.nil_append, runTasks_phase, runTasks_cons] at h
    have := substep_raised (cs := [.cntOverflow]) (by decide) (by decide) (show runTasks (.phase 0x12 :: fcScanTasks) _ = _ from h)
    simp only [List.mem_singleton] at this
    rw [this.1, this.2]; decide
  have hfreq : FreqOk s₁.mem.freq s₁.total := by
    have hk : Kept true fun u : State => u.freqOk ∧ u.status.freqValid = true := by
      constructor
      case init => intro u _; exact ⟨fun _ => initialFreq_ok, rfl⟩
      case mem => intro u m hm p; exact ⟨kept_freq.mem u m hm p.1, p.2⟩
      case count => intro u b c ht hc p; exact ⟨kept_freq.count u b c ht hc p.1, p.2⟩
      case status => intro u st h₁ h₂ h₃ h₄ h₅ p; exact ⟨kept_freq.status u st h₁ h₂ h₃ h₄ h₅ p.1, h₅.trans p.2⟩
      all_goals intros; assumption
    rw [List.cons_append, List.cons_append, List.nil_append, runTasks_phase, runTasks_cons] at e₁
    have hc := hk.tasks (.phase 0x12 :: fcScanTasks) ((((((s.setSeq { s.seq with phase := 0x10 }).setMem
      { s.mem with freq := initialFreq }).setTotal 1).setStatus { s.status.invalidateTree with freqValid := true })).setResult 1)
      (fun _ _ _ => rfl) ⟨fun _ => initialFreq_ok, rfl⟩
    have e₂ : runTasks (.phase 0x12 :: fcScanTasks) ((((((s.setSeq { s.seq with phase := 0x10 }).setMem
      { s.mem with freq := initialFreq }).setTotal 1).setStatus { s.status.invalidateTree with freqValid := true })).setResult 1) =
      .ok s₁ := e₁
    rw [e₂] at hc
    exact hc.1 hc.2
  obtain ⟨m, z, e₂, hfo, hx, hmf, -⟩ := tbBuild_run (s := s₁.setSeq { s₁.seq with phase := 0x22 }) hfreq
  obtain ⟨w, hv, ht, -, hnd, -⟩ := hfo.tree hfreq hx
  rw [List.cons_append, runTasks_phase, runTasks_then e₂] at h
  generalize hs₂ : State.treeBuilt _ m z = s₂ at h
  obtain ⟨codes, -, e₃⟩ := cgGen_run (s := s₂.setSeq { s₂.seq with phase := 0x30 }) (t := w) (by rw [← hs₂]; exact ht) hv hnd
  generalize hs₃ : State.setResult _ (BitVec.ofNat 32 w.leaves.length) = s₃ at e₃
  rw [List.cons_append, runTasks_phase, runTasks_then (a := [.cgGen]) (by rw [runTasks_cons, runTask, e₃]; rfl)] at h
  rcases runTasks_append_raise h with h | ⟨s₄, -, h⟩
  · have := substep_raised (cs := []) (by decide) (by decide) h
    simp at this
  rcases runTasks_append_raise h with h | ⟨s₅, -, h⟩
  · have := substep_raised (cs := []) (by decide) (by decide) h
    simp at this
  rcases runTasks_append_raise h with h | ⟨s₆, -, h⟩
  · have := substep_raised (cs := [.encNoCode]) (by decide) (by decide) h
    simp only [List.mem_singleton] at this
    rw [this.1, this.2]; decide
  have := substep_raised (cs := []) (by decide) (by decide) h
  simp at this

theorem decompress_raised {s t : State} {c : Cause} {x y : Word} (h : runTasks decompressTasks s = .raise c x y t) :
    (c, t.seq.phase) ∈ ([.fmtMagicEos, .fmtBadMagic] : List Cause).map (·, (0x42 : Byte)) ++
      headerCauses.map (·, (0x43 : Byte)) ++ [(.fmtBodyEos, 0x61)] := by
  rw [decompressTasks_eq] at h
  simp only [List.mem_append, List.mem_map, List.mem_singleton, Prod.mk.injEq]
  rcases runTasks_append_raise h with h | ⟨s₁, -, h⟩
  · have := substep_raised (cs := [.fmtMagicEos, .fmtBadMagic]) (by decide) (by decide) h
    exact .inl (.inl ⟨c, this.1, rfl, this.2.symm⟩)
  rcases runTasks_append_raise h with h | ⟨s₂, -, h⟩
  · have := substep_raised (cs := headerCauses) (by decide) (by decide) h
    exact .inl (.inr ⟨c, this.1, rfl, this.2.symm⟩)
  rcases runTasks_append_raise h with h | ⟨s₃, -, h⟩
  · have := substep_raised (cs := [.fmtBodyEos]) (by decide) (by decide) h
    exact .inr ⟨by simpa using this.1, this.2⟩
  · have := substep_raised (cs := []) (by decide) (by decide) h
    simp at this

end Sys2Proof.Machine
end

