-- ==== Sys2Proof/Laws/HeaderRead.lean ====
section
/-! SUPPORT. HD_READ_TREE on any bits: what it does is what `readHeader` calls for (44_header_codec.md rules R217 to R221). -/

namespace Sys2Proof.Machine

/-- Nine bits are the field of some value. -/
theorem exists_symbol_bits {bits : List Bool} (h : 9 ≤ bits.length) :
    ∃ v : Symbol, bits = fieldBits 9 (v.setWidth 32) ++ bits.drop 9 := by
  refine ⟨(fieldValue (bits.take 9)).setWidth 9, ?_⟩
  conv_lhs => rw [← List.take_append_drop 9 bits]
  congr 1
  apply List.ext_getElem (by simp [h])
  intro i h₁ h₂
  have hi : i < 9 := by simpa using h₂
  have hi' : i < bits.length := by omega
  have := fieldBits_getD 9 (((fieldValue (bits.take 9)).setWidth 9).setWidth 32) i
  rw [List.getD_eq_getElem _ _ h₂] at this
  rw [this]
  simp only [BitVec.getLsbD_setWidth, fieldValue_getLsbD]
  rw [List.getD_eq_getElem?_getD, List.getElem?_reverse (by simp; omega)]
  have hm : min 9 bits.length = 9 := by omega
  simp [hi, hm, show 9 - 1 - i < 9 by omega, show 9 - 1 - i < 32 by omega, show 9 - 1 - (9 - 1 - i) = i by omega]

/-- Reading a header ends at `r`: what HD_READ_TREE then does is what that calls for, with the bits it has read counted and nothing
else changed but the nodes, `k` of which it has allocated. -/
def HeaderRead.Stops (r : HeaderRead) (k : Nat) (s : State) (f : Flow) : Prop :=
  let at_ (rest : List Bool) (s' : State) : Prop := ∃ nodes st ic, nodes.length = s.mem.nodes.length + k ∧
    s' = s.took rest (s.ports.bi.bits.length - rest.length) { s.mem with nodes := nodes } st ic
  match r with
  | .tree _ _ => True
  | .runsOut n rest => (n = 1 ∨ n = 9) ∧
      (s.ports.bi.ended = true → ∃ s', f = .raise .fmtHdrEos (BitVec.ofNat 32 n) s'.bitsIn s' ∧ at_ rest s') ∧
      (s.ports.bi.ended = false → ∃ z, f = .hold z ∧ z.seq.pending = some (.biRead n))
  | .overflow rest => ∃ s', f = .raise .fmtHdrOverflow 256 s'.bitsIn s' ∧ at_ rest s'
  | .badValue v rest => ∃ s', f = .raise .fmtHdrBadValue 256 v s' ∧ at_ rest s'
  | .leafRoot rest => ∃ s', f = .raise .fmtHdrLeafRoot 0 1 s' ∧ at_ rest s'

/-- Whether reading stops short of a tree. -/
def HeaderRead.short : HeaderRead → Bool
  | .tree _ _ => false
  | _ => true

theorem HeaderRead.Stops.took {r : HeaderRead} {s : State} {f : Flow} {bits : List Bool} {n nodes st ic} {k k' : Nat}
    (h : r.Stops k (s.took bits n { s.mem with nodes := nodes } st ic) f) (hn : n + bits.length = s.ports.bi.bits.length)
    (hl : r.rest.length ≤ bits.length) (hk : nodes.length + k = s.mem.nodes.length + k') : r.Stops k' s f := by
  have key : ∀ {rest : List Bool} {s' : State}, rest.length ≤ bits.length →
      (∃ nodes' st' ic', nodes'.length = nodes.length + k ∧ s' =
        (s.took bits n { s.mem with nodes := nodes } st ic).took rest (bits.length - rest.length)
          { s.mem with nodes := nodes' } st' ic') →
      ∃ nodes' st' ic', nodes'.length = s.mem.nodes.length + k' ∧
        s' = s.took rest (s.ports.bi.bits.length - rest.length) { s.mem with nodes := nodes' } st' ic' := by
    rintro rest s' hle ⟨nodes', st', ic', hn', rfl⟩
    exact ⟨nodes', st', ic', hn'.trans hk, by
      rw [State.took_took, show n + (bits.length - rest.length) = s.ports.bi.bits.length - rest.length by omega]⟩
  cases r with
  | tree t rest => trivial
  | runsOut k rest => exact ⟨h.1, fun he => (h.2.1 he).imp fun s' h => ⟨h.1, key hl h.2⟩, fun he => h.2.2 he⟩
  | overflow rest => exact h.imp fun s' h => ⟨h.1, key hl h.2⟩
  | badValue v rest => exact h.imp fun s' h => ⟨h.1, key hl h.2⟩
  | leafRoot rest => exact h.imp fun s' h => ⟨h.1, key hl h.2⟩

/-- What a tree that was read comes from. -/
theorem readNode_tree : ∀ {d ic : Nat} {bits : List Bool} {t : Shape} {rest : List Bool}, ic ≤ 256 →
    readNode d ic bits = .tree t rest → bits = t.header ++ rest ∧ (∀ v ∈ t.leaves, v.toNat ≤ 256) ∧ ic + t.internals ≤ 256
  | 0, _, _, _, _, _, h => by cases h
  | d + 1, ic, [], t, rest, hi, h => by cases h
  | d + 1, ic, true :: bits, t, rest, hi, h => by
    simp only [readNode] at h
    split at h
    · cases h
    · rename_i h9
      split at h
      · cases h
      · rename_i hv
        obtain ⟨v, hbv⟩ := exists_symbol_bits (by omega : 9 ≤ bits.length)
        have hf : (fieldValue (bits.take 9)) = v.setWidth 32 := by
          rw [hbv, List.take_left' (by simp), fieldValue_symbol]
        have hw : (v.setWidth 32 : Word).toNat = v.toNat := by simp; omega
        rw [hf] at h hv
        rw [hw] at hv
        cases h
        rw [BitVec.setWidth_setWidth_of_le v (show 9 ≤ 32 by omega), BitVec.setWidth_eq]
        exact ⟨by rw [Shape.header, List.cons_append, ← hbv], by simpa [Shape.leaves] using hv, by simpa [Shape.internals] using hi⟩
  | d + 1, ic, false :: bits, t, rest, hi, h => by
    simp only [readNode] at h
    split at h
    · cases h
    · cases hl : readNode d (ic + 1) bits with
      | tree l rest₁ =>
        obtain ⟨h₁, h₂, h₃⟩ := readNode_tree (by omega) hl
        simp only [hl] at h
        cases hr : readNode d (ic + 1 + l.internals) rest₁ with
        | tree r rest₂ =>
          obtain ⟨k₁, k₂, k₃⟩ := readNode_tree (by omega) hr
          simp only [hr] at h
          cases h
          refine ⟨by rw [h₁, k₁]; simp [Shape.header], fun v hv => ?_, by simp only [Shape.internals]; omega⟩
          rcases List.mem_append.1 hv with hv | hv
          exacts [h₂ v hv, k₂ v hv]
        | _ => simp [hr] at h
      | _ => simp [hl] at h

/-- Reading leaves no more bits than there were. -/
theorem readNode_rest : ∀ (d ic : Nat) (bits : List Bool), (readNode d ic bits).rest.length ≤ bits.length
  | 0, _, _ => le_rfl
  | d + 1, ic, [] => le_rfl
  | d + 1, ic, true :: bits => by
    simp only [readNode]
    split
    · simp [HeaderRead.rest]
    · split <;> simp [HeaderRead.rest] <;> omega
  | d + 1, ic, false :: bits => by
    simp only [readNode]
    split
    · simp [HeaderRead.rest]
    · have hl := readNode_rest d (ic + 1) bits
      cases h : readNode d (ic + 1) bits with
      | tree l rest =>
        have hr := readNode_rest d (ic + 1 + l.internals) rest
        rw [h] at hl
        simp only [HeaderRead.rest] at hl
        dsimp only
        cases h' : readNode d (ic + 1 + l.internals) rest <;> rw [h'] at hr <;> simp only [HeaderRead.rest, List.length_cons] at * <;> omega
      | _ => rw [h] at hl; simp only [HeaderRead.rest, List.length_cons] at *; omega

theorem hdLoop_tag_eos {s : State} (hr : s.ports.credit = none) (hst : s.seq.stack ≠ []) (he : s.ports.bi.ended = true)
    (hb : s.ports.bi.bits = []) (n : Nat) :
    hdLoop (n + 1) s = .raise .fmtHdrEos 1 s.bitsIn (s.took [] 0 s.mem s.seq.stack s.seq.icount) := by
  rw [hdLoop, if_neg hst, port_biRead_eos hr (by simp [hb]) he]
  simp only
  refine congrArg _ ?_
  apply State.ext <;> simp [State.took, hb]

/-- A leaf whose value field is cut off. -/
theorem hdLoop_value_eos {s : State} (hr : s.ports.credit = none) (hst : s.seq.stack ≠ []) (he : s.ports.bi.ended = true)
    {bits : List Bool} (hb : s.ports.bi.bits = true :: bits) (hl : bits.length < 9) (n : Nat) :
    hdLoop (n + 1) s = .raise .fmtHdrEos 9 (s.bitsIn + 1) (s.took bits 1 s.mem s.seq.stack s.seq.icount) := by
  rw [hdLoop, if_neg hst, port_biRead hr (by simp [hb])]
  simp only [hb, List.take_succ_cons, List.take_zero, List.drop_succ_cons, List.drop_zero, fieldValue_bit, if_true]
  rw [hdLeafBody, port_biRead_eos (by exact hr) (by exact hl) (by exact he)]
  rfl

/-- A leaf value above 256 (44_header_codec.md rule R218). -/
theorem hdLoop_bad_value {s : State} (hr : s.ports.credit = none) (hst : s.seq.stack ≠ [])
    {v : Symbol} {rest : List Bool} (hb : s.ports.bi.bits = true :: (fieldBits 9 (v.setWidth 32) ++ rest))
    (hv : 256 < v.toNat) (n : Nat) :
    hdLoop (n + 1) s = .raise .fmtHdrBadValue 256 (v.setWidth 32) (s.took rest 10 s.mem s.seq.stack s.seq.icount) := by
  rw [hdLoop, if_neg hst, port_biRead hr (by simp [hb])]
  simp only [hb, List.take_succ_cons, List.take_zero, List.drop_succ_cons, List.drop_zero, fieldValue_bit, if_true]
  rw [hdLeafBody, port_biRead (by exact hr) (by simp [State.addBitsIn])]
  have ht : (fieldBits 9 (v.setWidth 32) ++ rest).take 9 = fieldBits 9 (v.setWidth 32) := List.take_left' (by simp)
  have hd : (fieldBits 9 (v.setWidth 32) ++ rest).drop 9 = rest := List.drop_left' (by simp)
  have hw : (v.setWidth 32).toNat = v.toNat := by simp; omega
  simp only [State.addBitsIn, State.setBitsIn_ports, State.setPorts_ports, ht, hd, fieldValue_symbol, hw]
  rw [if_pos hv, Flow.andThen_raise]
  refine congrArg _ ?_
  apply State.ext <;> simp [State.took, BitVec.add_assoc]

/-- A 257th internal node (44_header_codec.md rule R217). -/
theorem hdLoop_overflow {s : State} (hr : s.ports.credit = none) (hst : s.seq.stack ≠ []) {rest : List Bool}
    (hb : s.ports.bi.bits = false :: rest) (hi : s.seq.icount = 256) (n : Nat) :
    hdLoop (n + 1) s = .raise .fmtHdrOverflow 256 (s.bitsIn + 1) (s.took rest 1 s.mem s.seq.stack s.seq.icount) := by
  rw [hdLoop, if_neg hst, port_biRead hr (by simp [hb])]
  simp only [hb, List.take_succ_cons, List.take_zero, List.drop_succ_cons, List.drop_zero, fieldValue_bit,
    Bool.false_eq_true, if_false]
  rw [if_neg (by decide), readInternal, if_pos (by exact hi)]
  rfl

theorem port_biRead_wait {s : State} (hr : s.ports.credit = none) {n : Nat} (h : s.ports.bi.bits.length < n) (he : s.ports.bi.ended = false)
    (ts : List Task) (k : Answer → State → Flow) : s.port (.biRead n) ts k = .hold (s.waitOn (.biRead n) ts) := by
  simp [State.port, Ports.answer_of_ready hr, Ports.perform, BiPort.read, show ¬ n ≤ s.ports.bi.bits.length by omega, he]

/-- Reading a node whose bits do not make a tree (44_header_codec.md rules R217, R218). -/
theorem hdLoop_stops : ∀ (d : Nat) (s : State) (f : Nat), s.ports.credit = none → s.seq.stack ≠ [] →
    s.mem.nodes.length ≤ 2 * s.seq.icount → s.seq.icount ≤ 256 → s.ports.bi.bits.length < d → s.ports.bi.bits.length < f →
    (readNode d s.seq.icount s.ports.bi.bits).Stops (nodesRead d s.seq.icount s.ports.bi.bits) s (hdLoop f s)
  | 0, s, f, _, _, _, _, hd, _ => absurd hd (Nat.not_lt_zero _)
  | d + 1, s, f, hr, hst, hn, hi, hd, hf => by
    obtain ⟨f, rfl⟩ : ∃ g, f = g + 1 := ⟨f - 1, by omega⟩
    cases hb : s.ports.bi.bits with
    | nil =>
      refine ⟨.inl rfl, fun he => ⟨s.took [] 0 s.mem s.seq.stack s.seq.icount, ?_, s.mem.nodes, s.seq.stack, s.seq.icount, rfl, by rw [hb]; rfl⟩, fun he => ?_⟩
      · rw [hdLoop_tag_eos hr hst he hb f]; simp
      rw [hdLoop, if_neg hst, port_biRead_wait hr (by simp [hb]) he]
      exact ⟨_, rfl, rfl⟩
    | cons b bits =>
      rw [hb, List.length_cons] at hd hf
      cases b with
      | true =>
        simp only [readNode]
        split
        · rename_i h9
          refine ⟨.inr rfl, fun he => ⟨s.took bits 1 s.mem s.seq.stack s.seq.icount, ?_, s.mem.nodes, s.seq.stack, s.seq.icount, by simp [nodesRead, h9], by
            rw [hb, show (true :: bits).length - bits.length = 1 by simp]⟩, fun he => ?_⟩
          · rw [hdLoop_value_eos hr hst he hb h9 f]; rfl
          rw [hdLoop, if_neg hst, port_biRead hr (by simp [hb])]
          simp only [hb, List.take_succ_cons, List.take_zero, List.drop_succ_cons, List.drop_zero, fieldValue_bit, if_true]
          rw [hdLeafBody, port_biRead_wait (by exact hr) (by exact h9) (by exact he)]
          exact ⟨_, rfl, rfl⟩
        · rename_i h9
          split
          · rename_i hv
            obtain ⟨v, hbv⟩ := exists_symbol_bits (by omega : 9 ≤ bits.length)
            have hfv : fieldValue (bits.take 9) = v.setWidth 32 := by
              rw [hbv, List.take_left' (by simp), fieldValue_symbol]
            have hz : nodesRead (d + 1) s.seq.icount (true :: bits) = 0 := by rw [nodesRead, if_pos (.inr hv)]
            rw [hz]
            rw [hfv] at hv ⊢
            refine ⟨_, hdLoop_bad_value hr hst (by rw [hb, ← hbv]) (by
              rwa [show (v.setWidth 32).toNat = v.toNat by simp; omega] at hv) f, s.mem.nodes, s.seq.stack, s.seq.icount, rfl, ?_⟩
            rw [hb, show (true :: bits).length - (bits.drop 9).length = 10 by simp; omega]
          · trivial
      | false =>
        simp only [readNode]
        split
        · rename_i h
          refine ⟨s.took bits 1 s.mem s.seq.stack s.seq.icount, ?_, s.mem.nodes, s.seq.stack, s.seq.icount, by simp [nodesRead, h], by
            rw [hb, show (false :: bits).length - bits.length = 1 by simp]⟩
          rw [hdLoop_overflow hr hst hb h f]; rfl
        · rename_i h
          have ih := hdLoop_stops d (s.took bits 1 { s.mem with nodes := s.mem.nodes ++ [internalNode 0 0 0] }
            ((BitVec.ofNat 10 s.mem.nodes.length, false) :: s.seq.stack) (s.seq.icount + 1)) f hr (by simp) (by simp; omega) (by simp; omega)
            (by simp; omega) (by simp; omega)
          rw [← hdLoop_internal hr hst hb (by omega) (by omega), State.took_icount, State.took_bits] at ih
          have hle := readNode_rest d (s.seq.icount + 1) bits
          simp only [nodesRead, if_neg h]
          cases hl : readNode d (s.seq.icount + 1) bits with
          | tree l rest =>
            obtain ⟨h₁, h₂, h₃⟩ := readNode_tree (by omega) hl
            have hsl := l.size_eq
            have hhl := l.size_le_header
            have hbl : bits.length = l.header.length + rest.length := by rw [h₁, List.length_append]
            have e := hdLoop_left hr hst l (f := f) h₂ (by rw [hb, h₁]) (by omega) (by omega) (by omega)
            have ih' := hdLoop_stops d (s.leftTaken l rest) (f - l.size) hr (by simp [State.leftTaken])
              (by simp [State.leftTaken]; omega) (by simp [State.leftTaken]; omega) (by simp [State.leftTaken]; omega)
              (by simp [State.leftTaken]; omega)
            rw [← e] at ih'
            have hle' := readNode_rest d (s.seq.icount + 1 + l.internals) rest
            show HeaderRead.Stops (match readNode d (s.seq.icount + 1 + l.internals) rest with
              | .tree r rest' => .tree (.node l r) rest'
              | e => e) (1 + l.size + nodesRead d (s.seq.icount + 1 + l.internals) rest) s (hdLoop (f + 1) s)
            have key : (readNode d (s.seq.icount + 1 + l.internals) rest).Stops
                (1 + l.size + nodesRead d (s.seq.icount + 1 + l.internals) rest) s (hdLoop (f + 1) s) :=
              HeaderRead.Stops.took (k := nodesRead d (s.seq.icount + 1 + l.internals) rest) ih' (by rw [hb]; simp; omega) hle'
                (by simp; omega)
            cases hrr : readNode d (s.seq.icount + 1 + l.internals) rest with
            | tree r rest' => trivial
            | _ => rw [hrr] at key; exact key
          | _ =>
            rw [hl] at ih hle
            exact HeaderRead.Stops.took ih (by rw [hb]; simp; omega) hle (by simp; omega)

/-! ### The whole header -/

theorem HeaderRead.Stops.andThen {r : HeaderRead} {n : Nat} {s : State} {f : Flow} (hs : r.short = true) (h : r.Stops n s f)
    (ts : List Task) (k : State → Flow) : r.Stops n s (f.andThen ts k) := by
  cases r with
  | tree t rest => cases hs
  | runsOut n rest =>
    refine ⟨h.1, fun he => ?_, fun he => ?_⟩
    · obtain ⟨s', rfl, h'⟩ := h.2.1 he
      exact ⟨s', rfl, h'⟩
    · obtain ⟨z, rfl, hz⟩ := h.2.2 he
      exact ⟨_, rfl, hz⟩
  | overflow rest => obtain ⟨s', rfl, h'⟩ := h; exact ⟨s', rfl, h'⟩
  | badValue v rest => obtain ⟨s', rfl, h'⟩ := h; exact ⟨s', rfl, h'⟩
  | leafRoot rest => obtain ⟨s', rfl, h'⟩ := h; exact ⟨s', rfl, h'⟩

/-- The state as HD_READ_TREE begins to read (44_header_codec.md rule R217). -/
def State.headerBegun (s : State) : State :=
  (s.setStatus { s.status.invalidateTree with eofSeen := false }).setMem { s.mem with nodes := [], heap := [] }

theorem hdReadTree_leafRoot {s : State} (hr : s.ports.credit = none) {rest : List Bool} (hb : s.ports.bi.bits = true :: rest) :
    runTasks hdReadTreeTasks s = .raise .fmtHdrLeafRoot 0 1 (s.headerBegun.took rest 1 s.headerBegun.mem [] 0) := by
  simp only [hdReadTreeTasks, runTasks_cons, runTask, hdStartBody, Flow.andThen_ok]
  rw [hdRootBody, port_biRead (by exact hr) (by simp [hb])]
  simp only [State.setSeq_ports, State.setMem_ports, State.setStatus_ports, hb, List.take_succ_cons, List.take_zero,
    List.drop_succ_cons, List.drop_zero, fieldValue_bit, if_true]
  rfl

theorem hdReadTree_empty {s : State} (hr : s.ports.credit = none) (hb : s.ports.bi.bits = []) :
    (HeaderRead.runsOut 1 []).Stops 0 s.headerBegun (runTasks hdReadTreeTasks s) := by
  simp only [hdReadTreeTasks, runTasks_cons, runTask, hdStartBody, Flow.andThen_ok, hdRootBody]
  refine ⟨.inl rfl, fun he => ?_, fun he => ?_⟩
  · rw [port_biRead_eos (by exact hr) (by simp [hb]) (by exact he)]
    refine ⟨s.headerBegun.took [] 0 s.headerBegun.mem [] 0, ?_, [], [], 0, rfl, by
      rw [show s.headerBegun.ports.bi.bits = [] from hb]; rfl⟩
    simp only [Flow.andThen_raise]
    have e : ∀ {x y : State}, x = y → x.bitsIn = s.bitsIn → Flow.raise .fmtHdrEos 1 x.bitsIn x = .raise .fmtHdrEos 1#32 y.bitsIn y := by
      rintro x _ rfl _; rfl
    refine e ?_ rfl
    apply State.ext <;> simp [State.took, State.headerBegun, hb, Memory.clearTree]
  · rw [port_biRead_wait (by exact hr) (by simp [hb]) (by exact he)]
    exact ⟨_, rfl, rfl⟩

/-- What a tree that was read comes from. -/
theorem readHeader_tree {bits : List Bool} {t : Shape} {rest : List Bool} (h : readHeader bits = .tree t rest) :
    t.valid = true ∧ bits = t.header ++ rest := by
  match bits with
  | [] => cases h
  | true :: _ => cases h
  | false :: bits =>
    obtain ⟨h₁, h₂, h₃⟩ := readNode_tree (by omega) h
    refine ⟨(Shape.valid_iff _).2 ⟨?_, by omega, h₂⟩, h₁⟩
    cases t with
    | leaf v => cases h₁
    | node l r => rfl

/-- HD_READ_TREE on any bits that do not start with a valid tree's header (44_header_codec.md rules R217 to R221). -/
theorem hdReadTree_stops {s : State} (hr : s.ports.credit = none) :
    (readHeader s.ports.bi.bits).Stops (headerNodes s.ports.bi.bits) s.headerBegun (runTasks hdReadTreeTasks s) := by
  match hb : s.ports.bi.bits with
  | [] => exact hdReadTree_empty hr hb
  | true :: rest =>
    refine ⟨_, hdReadTree_leafRoot hr hb, [], [], 0, rfl, ?_⟩
    rw [show s.headerBegun.ports.bi.bits = true :: rest from hb, show (true :: rest).length - rest.length = 1 by simp]
    rfl
  | false :: rest =>
    have hbb : s.headerBegun.ports.bi.bits = false :: rest := hb
    rw [hdReadTree_root hr hb]
    show HeaderRead.Stops (match readNode (rest.length + 1) 1 rest with
      | .tree l rest₁ =>
        match readNode (rest.length + 1) (1 + l.internals) rest₁ with
        | .tree r rest₂ => .tree (.node l r) rest₂
        | e => e
      | e => e) (match readNode (rest.length + 1) 1 rest with
      | .tree l rest₁ => 1 + l.size + nodesRead (rest.length + 1) (1 + l.internals) rest₁
      | _ => 1 + nodesRead (rest.length + 1) 1 rest) _ _
    have ih := hdLoop_stops (rest.length + 1) (s.rootTaken rest) (rest.length + 1) hr (by simp [State.rootTaken])
      (by simp [State.rootTaken]) (by simp [State.rootTaken]) (by simp [State.rootTaken]) (by simp [State.rootTaken])
    rw [show (s.rootTaken rest).ports.bi.bits = rest from rfl, show (s.rootTaken rest).seq.icount = 1 from rfl] at ih
    have hle := readNode_rest (rest.length + 1) 1 rest
    cases hl : readNode (rest.length + 1) 1 rest with
    | tree l rest₁ =>
      obtain ⟨h₁, h₂, h₃⟩ := readNode_tree (by omega) hl
      have hsl := l.size_eq
      have hhl := l.size_le_header
      have hbl : rest.length = l.header.length + rest₁.length := by rw [h₁, List.length_append]
      have e := hdLoop_rootLeft hr l (rest := rest₁) (f := rest.length + 1) h₂ (by omega) (by omega)
      rw [← h₁] at e
      have ih' := hdLoop_stops (rest.length + 1) (s.headerBegun.took rest₁ (1 + l.header.length)
        { s.headerBegun.mem with nodes := internalNode 0 1 0 :: l.nodesAt 1 } [(0, true)] (1 + l.internals)) (rest.length + 1 - l.size) hr
        (by simp) (by simp; omega) (by simp; omega) (by simp; omega) (by simp; omega)
      rw [State.took_bits, State.took_icount] at ih'
      have hle' := readNode_rest (rest.length + 1) (1 + l.internals) rest₁
      have key : (readNode (rest.length + 1) (1 + l.internals) rest₁).Stops
          (1 + l.size + nodesRead (rest.length + 1) (1 + l.internals) rest₁) s.headerBegun
          (hdLoop (rest.length + 1) (s.rootTaken rest)) := by
        rw [e]
        exact HeaderRead.Stops.took ih' (by rw [hbb]; simp; omega) hle' (by simp [State.headerBegun]; omega)
      simp only
      cases hrr : readNode (rest.length + 1) (1 + l.internals) rest₁ with
      | tree r rest' => trivial
      | _ => rw [hrr] at key; exact key.andThen rfl _ _
    | _ =>
      rw [hl] at ih hle
      exact HeaderRead.Stops.andThen rfl (HeaderRead.Stops.took (s := s.headerBegun) (bits := rest) (n := 1)
        (nodes := [internalNode 0 0 0]) ih (by rw [hbb]; simp; omega) hle (by simp [State.headerBegun])) _ _

/-! ### What headers read as -/

theorem readNode_header : ∀ (t : Shape) (d ic : Nat) (rest : List Bool), t.size ≤ d → (∀ v ∈ t.leaves, v.toNat ≤ 256) →
    ic + t.internals ≤ 256 → readNode d ic (t.header ++ rest) = .tree t rest
  | .leaf v, d, ic, rest, hd, hv, _ => by
    obtain ⟨d, rfl⟩ : ∃ e, d = e + 1 := ⟨d - 1, by simp only [Shape.size] at hd; omega⟩
    have hw : (v.setWidth 32 : Word).toNat = v.toNat := by simp; omega
    have hv' := hv v (by simp [Shape.leaves])
    rw [Shape.header, List.cons_append, readNode, if_neg (by simp), List.take_left' (by simp), List.drop_left' (by simp),
      fieldValue_symbol, if_neg (by omega), BitVec.setWidth_setWidth_of_le v (show 9 ≤ 32 by omega), BitVec.setWidth_eq]
  | .node l r, d, ic, rest, hd, hv, hi => by
    simp only [Shape.size, Shape.internals, Shape.leaves, List.mem_append] at hd hv hi
    obtain ⟨d, rfl⟩ : ∃ e, d = e + 1 := ⟨d - 1, by omega⟩
    rw [Shape.header, List.cons_append, List.append_assoc, readNode, if_neg (by omega),
      readNode_header l d (ic + 1) (r.header ++ rest) (by omega) (fun v h => hv v (.inl h)) (by omega)]
    simp only
    rw [readNode_header r d _ rest (by omega) (fun v h => hv v (.inr h)) (by omega)]

/-- A valid tree's header reads as that tree (44_header_codec.md rule R222). -/
theorem readHeader_header {t : Shape} (ht : t.valid = true) (rest : List Bool) : readHeader (t.header ++ rest) = .tree t rest := by
  obtain ⟨h₁, hi, hv⟩ := (Shape.valid_iff t).1 ht
  cases t with
  | leaf v => cases h₁
  | node l r =>
    have := (Shape.node l r).size_le_header
    exact readNode_header (.node l r) _ 0 rest (by simp only [List.length_append]; omega) hv (by omega)

theorem readHeader_tree_iff {bits : List Bool} {t : Shape} {rest : List Bool} :
    readHeader bits = .tree t rest ↔ t.valid = true ∧ bits = t.header ++ rest :=
  ⟨readHeader_tree, fun ⟨h, e⟩ => by rw [e]; exact readHeader_header h rest⟩

/-- A header that is cut off runs out of bits. -/
theorem readNode_take : ∀ (t : Shape) (d ic k : Nat), k < d → k < t.header.length → (∀ v ∈ t.leaves, v.toNat ≤ 256) →
    ic + t.internals ≤ 256 → ∃ n rest, readNode d ic (t.header.take k) = .runsOut n rest ∧
      ((n = 1 ∧ rest = []) ∨ (n = 9 ∧ rest.length < 9))
  | t, d + 1, ic, 0, _, _, _, _ => ⟨1, [], by rw [List.take_zero]; rfl, .inl ⟨rfl, rfl⟩⟩
  | .leaf v, d + 1, ic, k + 1, _, hk, _, _ => by
    simp only [Shape.header, List.length_cons, fieldBits_length] at hk
    have hl : ((fieldBits 9 (v.setWidth 32)).take k).length < 9 := by simp; omega
    exact ⟨9, _, by rw [Shape.header, List.take_succ_cons, readNode, if_pos hl], .inr ⟨rfl, hl⟩⟩
  | .node l r, d + 1, ic, k + 1, hd, hk, hv, hi => by
    simp only [Shape.header, List.length_cons, List.length_append, Shape.leaves, List.mem_append, Shape.internals] at hk hv hi
    rw [Shape.header, List.take_succ_cons, readNode, if_neg (by omega)]
    by_cases hkl : k < l.header.length
    · obtain ⟨n, rest, e, h⟩ := readNode_take l d (ic + 1) k (by omega) hkl (fun v h => hv v (.inl h)) (by omega)
      rw [List.take_append_of_le_length hkl.le, e]
      exact ⟨n, rest, rfl, h⟩
    · have hs := l.size_le_header
      obtain ⟨n, rest, e, h⟩ := readNode_take r d (ic + 1 + l.internals) (k - l.header.length) (by omega) (by omega)
        (fun v h => hv v (.inr h)) (by omega)
      rw [List.take_append, List.take_of_length_le (by omega), readNode_header l d (ic + 1) _ (by omega) (fun v h => hv v (.inl h)) (by omega)]
      simp only
      rw [e]
      exact ⟨n, rest, rfl, h⟩

theorem readHeader_take {t : Shape} (ht : t.valid = true) {k : Nat} (hk : k < t.header.length) :
    ∃ n rest, readHeader (t.header.take k) = .runsOut n rest ∧ ((n = 1 ∧ rest = []) ∨ (n = 9 ∧ rest.length < 9)) := by
  obtain ⟨h₁, hi, hv⟩ := (Shape.valid_iff t).1 ht
  cases t with
  | leaf v => cases h₁
  | node l r =>
    obtain ⟨n, rest, e, h⟩ := readNode_take (.node l r) (k + 1) 0 k (by omega) hk hv (by omega)
    refine ⟨n, rest, ?_, h⟩
    cases k with
    | zero => exact e
    | succ k =>
      have hl : ((l.header ++ r.header).take k).length = k := by
        simp only [Shape.header, List.length_cons, List.length_append] at hk ⊢
        simp; omega
      simp only [Shape.header, List.take_succ_cons] at e ⊢
      rw [readHeader]
      · rw [List.length_cons, hl]; exact e
      · exact nofun

end Sys2Proof.Machine
end

