-- ==== Sys2Proof/Laws/Partial.lean ====
section
/-! SUPPORT. The node store and the traversal stack while HD_READ_TREE runs: the nodes allocated so far form a pre-order prefix of
a full binary tree (44_header_codec.md rule R220), whatever the ports do meanwhile. -/

namespace Sys2Proof.Machine

/-- The nodes of a pre-order prefix, its open internal nodes listed from the top of the traversal stack down, each with its left
subtree where that has been read. -/
def openNodes : List (Option Shape) → List Node
  | [] => []
  | none :: fs => openNodes fs ++ [internalNode 0 0 0]
  | some l :: fs =>
    openNodes fs ++ (internalNode 0 (BitVec.ofNat 10 ((openNodes fs).length + 1)) 0 :: l.nodesAt ((openNodes fs).length + 1))

/-- The traversal stack over those nodes. -/
def openStack : List (Option Shape) → List (NodeIdx × Bool)
  | [] => []
  | none :: fs => (BitVec.ofNat 10 (openNodes fs).length, false) :: openStack fs
  | some _ :: fs => (BitVec.ofNat 10 (openNodes fs).length, true) :: openStack fs

/-- Their internal nodes. -/
def openInternals : List (Option Shape) → Nat
  | [] => 0
  | none :: fs => openInternals fs + 1
  | some l :: fs => openInternals fs + 1 + l.internals

/-- Every leaf read so far has a symbol's value. -/
def openLegal (fs : List (Option Shape)) : Prop := ∀ l, some l ∈ fs → ∀ v ∈ l.leaves, v.toNat ≤ 256

/-- Some nodes, a traversal stack and a count of internal nodes while a header is read: a prefix with open nodes, or a whole
valid tree. -/
def Partial (nodes : List Node) (st : List (NodeIdx × Bool)) (ic : Nat) : Prop :=
  (∃ fs, fs ≠ [] ∧ nodes = openNodes fs ∧ st = openStack fs ∧ ic = openInternals fs ∧ ic ≤ 256 ∧ openLegal fs) ∨
    ∃ t : Shape, t.valid = true ∧ nodes = t.nodesAt 0 ∧ st = [] ∧ ic = t.internals

theorem openNodes_length_le : ∀ fs, (openNodes fs).length ≤ 2 * openInternals fs
  | [] => le_refl _
  | none :: fs => by have := openNodes_length_le fs; simp [openNodes, openInternals]; omega
  | some l :: fs => by
    have := openNodes_length_le fs
    have := l.size_eq
    simp [openNodes, openInternals]; omega

/-- The store has room for one node more (44_header_codec.md rule R220). -/
theorem Partial.room {nodes : List Node} {st : List (NodeIdx × Bool)} {ic : Nat} (h : Partial nodes st ic) (hs : st ≠ []) :
    nodes.length ≤ 512 := by
  rcases h with ⟨fs, -, rfl, -, rfl, h, -⟩ | ⟨t, -, -, rfl, -⟩
  · have := openNodes_length_le fs; omega
  · exact absurd rfl hs

theorem Partial.internals_le {nodes : List Node} {st : List (NodeIdx × Bool)} {ic : Nat} (h : Partial nodes st ic) :
    ic ≤ 256 := by
  rcases h with ⟨fs, -, -, -, -, h, -⟩ | ⟨t, hv, -, -, rfl⟩
  · exact h
  · exact (t.valid_iff.1 hv).2.1

/-- The root's tag (44_header_codec.md rule R217). -/
theorem Partial.root : Partial [internalNode 0 0 0] [(0, false)] 1 :=
  .inl ⟨[none], by simp, rfl, rfl, rfl, by decide, by intro l hl; simp at hl⟩

/-- READ_INTERNAL (44_header_codec.md rule R217). -/
theorem Partial.internal {nodes : List Node} {st : List (NodeIdx × Bool)} {ic : Nat} (h : Partial nodes st ic) (hs : st ≠ [])
    (hi : ic ≠ 256) : Partial (nodes ++ [internalNode 0 0 0]) ((BitVec.ofNat 10 nodes.length, false) :: st) (ic + 1) := by
  rcases h with ⟨fs, -, rfl, rfl, rfl, h, hl⟩ | ⟨t, -, -, rfl, -⟩
  · refine .inl ⟨none :: fs, by simp, rfl, rfl, rfl, by omega, fun l hm => hl l (by simpa using hm)⟩
  · exact absurd rfl hs

/-- A whole subtree returns to the nodes that wait for it. -/
theorem returnChild_open : ∀ (fs : List (Option Shape)) (m : Memory) (u : Shape), m.nodes = openNodes fs ++
    u.nodesAt (openNodes fs).length → openInternals fs + u.internals ≤ 256 → openLegal fs → (∀ v ∈ u.leaves, v.toNat ≤ 256) →
    (fs = [] → u.internal = true) →
    ∃ m' st', returnChild m (BitVec.ofNat 10 (openNodes fs).length) (openStack fs) = .ok (m', st') ∧
      Partial m'.nodes st' (openInternals fs + u.internals)
  | [], m, u, hm, hi, _, hv, hu => by
    refine ⟨m, [], rfl, .inr ⟨u, u.valid_iff.2 ⟨hu rfl, by simpa [openInternals] using hi, hv⟩, by simpa [openNodes] using hm, rfl,
      by simp [openInternals]⟩⟩
  | none :: fs, m, u, hm, hi, hl, hv, _ => by
    have hlen := openNodes_length_le fs
    simp only [openInternals] at hi
    have e := returnChild_left (nodes := openNodes fs) (nd := internalNode 0 0 0)
      (more := u.nodesAt ((openNodes fs).length + 1)) (by simpa [openNodes] using hm)
      (BitVec.ofNat 10 (openNodes (none :: fs)).length) (openStack fs) (by omega)
    refine ⟨_, _, e, .inl ⟨some u :: fs, by simp, ?_, rfl, by simp only [openInternals], by simp only [openInternals]; omega, ?_⟩⟩
    · simp [openNodes, internalNode]
    · intro l hm' v hvl
      rcases List.mem_cons.1 hm' with h | h
      · cases h; exact hv v hvl
      · exact hl l (by simp [h]) v hvl
  | some l :: fs, m, u, hm, hi, hl, hv, _ => by
    have hlen := openNodes_length_le fs
    have hsz := l.size_eq
    simp only [openInternals] at hi
    have hn : (openNodes (some l :: fs)).length = (openNodes fs).length + 1 + l.size := by simp [openNodes]; omega
    have e := returnChild_right (nodes := openNodes fs) (nd := internalNode 0 (BitVec.ofNat 10 ((openNodes fs).length + 1)) 0)
      (more := l.nodesAt ((openNodes fs).length + 1) ++ u.nodesAt ((openNodes fs).length + 1 + l.size))
      (by rw [hm, hn]; simp [openNodes]) (BitVec.ofNat 10 (openNodes (some l :: fs)).length) (openStack fs) (by omega)
    obtain ⟨m', st', e', hp⟩ := returnChild_open fs { m with nodes := openNodes fs ++
      { internalNode 0 (BitVec.ofNat 10 ((openNodes fs).length + 1)) 0 with
        right := BitVec.ofNat 10 (openNodes (some l :: fs)).length } ::
      (l.nodesAt ((openNodes fs).length + 1) ++ u.nodesAt ((openNodes fs).length + 1 + l.size)) } (.node l u)
      (by simp [Shape.nodesAt_node, internalNode, hn]) (by simp only [Shape.internals]; omega)
      (fun x hx => hl x (by simp [hx])) (fun v h => by
        rcases List.mem_append.1 h with h | h
        exacts [hl l (by simp) v h, hv v h]) (fun _ => rfl)
    refine ⟨m', st', e.trans e', ?_⟩
    have : openInternals (some l :: fs) + u.internals = openInternals fs + (Shape.node l u).internals := by
      simp only [openInternals, Shape.internals]; omega
    rw [this]
    exact hp

/-- READ_LEAF of a legal value (44_header_codec.md rules R217, R218). -/
theorem Partial.leaf {m : Memory} {st : List (NodeIdx × Bool)} {ic : Nat} (h : Partial m.nodes st ic) (hs : st ≠ [])
    {v : Symbol} (hv : v.toNat ≤ 256) :
    ∃ m' st', returnChild { m with nodes := m.nodes ++ [leafNode v 0] } (BitVec.ofNat 10 m.nodes.length) st = .ok (m', st') ∧
      Partial m'.nodes st' ic := by
  rcases h with ⟨fs, hne, hn, rfl, rfl, h, hl⟩ | ⟨t, -, -, rfl, -⟩
  · obtain ⟨m', st', e, hp⟩ := returnChild_open fs { m with nodes := m.nodes ++ [leafNode v 0] } (.leaf v)
      (by rw [hn]; rfl) (by simpa [Shape.internals] using h) hl (by simpa [Shape.leaves] using hv) (fun h => absurd h hne)
    rw [hn] at e ⊢
    exact ⟨m', st', e, hp⟩
  · exact absurd rfl hs

end Sys2Proof.Machine
end

