-- ==== Sys2Proof/Laws/PerInstr.lean ====
section
/-! SUPPORT. Facts about every instruction as syntax, one lemma per constructor. -/

namespace Sys2Proof

theorem opcodeOf_append (a : Byte) (b : BitVec 24) : opcodeOf (a ++ b) = a := by
  ext i hi
  simp only [opcodeOf, BitVec.getElem_extractLsb', BitVec.getLsbD_append]
  simp [show ¬ (24 + i < 24) by omega, hi]

theorem operandOf_append (a : Byte) (b : BitVec 24) : operandOf (a ++ b) = b := by
  ext i hi
  simp only [operandOf, BitVec.getElem_extractLsb', BitVec.getLsbD_append]
  simp [hi]

theorem opcodeOf_operandOf (w : Word) : opcodeOf w ++ operandOf w = w := by
  ext i hi
  simp only [opcodeOf, operandOf, BitVec.getElem_append, BitVec.getElem_extractLsb']
  split <;> simp [BitVec.getLsbD_eq_getElem, hi]
  simp [show 24 + (i - 24) = i by omega, BitVec.getLsbD_eq_getElem, hi]

namespace Laws.EncodedFields

/-- The encoded word carries the opcode and the operand in their fields (30_encoding.md rule R90). -/
def Statement (i : Instr) : Prop := opcodeOf (encode i) = i.opcode ∧ operandOf (encode i) = i.operand

theorem all (i : Instr) : Statement i := ⟨opcodeOf_append _ _, operandOf_append _ _⟩

theorem nop : Statement .nop := all _
theorem sreset (operand : BitVec 24) : Statement (.sreset operand) := all _
theorem fcInit : Statement .fcInit := all _
theorem fcAdd (b : Byte) : Statement (.fcAdd b) := all _
theorem fcScan : Statement .fcScan := all _
theorem fcRead (s : Symbol) : Statement (.fcRead s) := all _
theorem tbLoad : Statement .tbLoad := all _
theorem tbStep : Statement .tbStep := all _
theorem tbBuild : Statement .tbBuild := all _
theorem tbNodeRead (n : NodeIdx) : Statement (.tbNodeRead n) := all _
theorem cgGen : Statement .cgGen := all _
theorem cgLookup (s : Symbol) : Statement (.cgLookup s) := all _
theorem hsWriteMagic : Statement .hsWriteMagic := all _
theorem hsWriteTree : Statement .hsWriteTree := all _
theorem hdReadMagic : Statement .hdReadMagic := all _
theorem hdReadTree : Statement .hdReadTree := all _
theorem enSymbol (b : Byte) : Statement (.enSymbol b) := all _
theorem enEof : Statement .enEof := all _
theorem enBody : Statement .enBody := all _
theorem enClose : Statement .enClose := all _
theorem deStep : Statement .deStep := all _
theorem deBody : Statement .deBody := all _
theorem deClose : Statement .deClose := all _
theorem compress : Statement .compress := all _
theorem decompress : Statement .decompress := all _

end Laws.EncodedFields

end Sys2Proof
end

