-- ==== Sys2Proof/Laws/Words.lean ====
section
/-! SUPPORT. The operand forms read back what they were written from, and nothing else (30_encoding.md rules R91 to R93). -/

namespace Sys2Proof

theorem formB_ok (b : Byte) (f : Byte → Instr) : formB (b.setWidth 24) f = .ok (f b) := by
  have := b.isLt
  have h₁ : (b.setWidth 24).extractLsb' 8 16 = 0 := BitVec.eq_of_toNat_eq (by
    simp [BitVec.extractLsb'_toNat, Nat.shiftRight_eq_div_pow]; omega)
  have h₂ : (b.setWidth 24).extractLsb' 0 8 = b := BitVec.eq_of_toNat_eq (by simp [BitVec.extractLsb'_toNat]; omega)
  simp [formB, h₁, h₂]

theorem formS_ok {v : Symbol} (h : symbolLegal v = true) (f : Symbol → Instr) : formS (v.setWidth 24) f = .ok (f v) := by
  have := v.isLt
  have h₁ : (v.setWidth 24).extractLsb' 9 15 = 0 := BitVec.eq_of_toNat_eq (by
    simp [BitVec.extractLsb'_toNat, Nat.shiftRight_eq_div_pow]; omega)
  have h₂ : (v.setWidth 24).extractLsb' 0 9 = v := BitVec.eq_of_toNat_eq (by simp [BitVec.extractLsb'_toNat]; omega)
  simp [formS, h₁, h₂, h]

theorem formN_ok (n : NodeIdx) (f : NodeIdx → Instr) : formN (n.setWidth 24) f = .ok (f n) := by
  have := n.isLt
  have h₁ : (n.setWidth 24).extractLsb' 10 14 = 0 := BitVec.eq_of_toNat_eq (by
    simp [BitVec.extractLsb'_toNat, Nat.shiftRight_eq_div_pow]; omega)
  have h₂ : (n.setWidth 24).extractLsb' 0 10 = n := BitVec.eq_of_toNat_eq (by simp [BitVec.extractLsb'_toNat]; omega)
  simp [formN, h₁, h₂]

theorem formZ_inv {x : BitVec 24} {i j : Instr} (h : formZ x i = .ok j) : x = 0 ∧ j = i := by
  unfold formZ at h
  split at h <;> cases h
  exact ⟨by assumption, rfl⟩

theorem formB_inv {x : BitVec 24} {f : Byte → Instr} {j : Instr} (h : formB x f = .ok j) :
    ∃ b : Byte, x = b.setWidth 24 ∧ j = f b := by
  unfold formB at h
  split at h <;> cases h
  rename_i h
  refine ⟨_, BitVec.eq_of_toNat_eq ?_, rfl⟩
  have := congrArg BitVec.toNat h
  simp [BitVec.extractLsb'_toNat, Nat.shiftRight_eq_div_pow] at this ⊢
  have := x.isLt
  omega

theorem formS_inv {x : BitVec 24} {f : Symbol → Instr} {j : Instr} (h : formS x f = .ok j) :
    ∃ v : Symbol, symbolLegal v = true ∧ x = v.setWidth 24 ∧ j = f v := by
  unfold formS at h
  split at h <;> cases h
  rename_i h
  simp only [Bool.and_eq_true, decide_eq_true_eq] at h
  refine ⟨_, h.2, BitVec.eq_of_toNat_eq ?_, rfl⟩
  have := congrArg BitVec.toNat h.1
  simp [BitVec.extractLsb'_toNat, Nat.shiftRight_eq_div_pow] at this ⊢
  have := x.isLt
  omega

theorem formN_inv {x : BitVec 24} {f : NodeIdx → Instr} {j : Instr} (h : formN x f = .ok j) :
    ∃ n : NodeIdx, x = n.setWidth 24 ∧ j = f n := by
  unfold formN at h
  split at h <;> cases h
  rename_i h
  refine ⟨_, BitVec.eq_of_toNat_eq ?_, rfl⟩
  have := congrArg BitVec.toNat h
  simp [BitVec.extractLsb'_toNat, Nat.shiftRight_eq_div_pow] at this ⊢
  have := x.isLt
  omega

/-- Decoding gives a well-formed instruction with the fields it was decoded from. -/
theorem decodeFields_inv {op : Byte} {x : BitVec 24} {i : Instr} (h : decodeFields op x = .ok i) :
    i.wellFormed = true ∧ i.opcode.toNat = op.toNat ∧ i.operand = x := by
  unfold decodeFields at h
  split at h
  case h_2 hh => cases h; exact ⟨rfl, hh.symm, rfl⟩
  case h_26 => cases h
  case h_4 hh => obtain ⟨b, rfl, rfl⟩ := formB_inv h; exact ⟨rfl, hh.symm, rfl⟩
  case h_17 hh => obtain ⟨b, rfl, rfl⟩ := formB_inv h; exact ⟨rfl, hh.symm, rfl⟩
  case h_6 hh => obtain ⟨v, hv, rfl, rfl⟩ := formS_inv h; exact ⟨hv, hh.symm, rfl⟩
  case h_12 hh => obtain ⟨v, hv, rfl, rfl⟩ := formS_inv h; exact ⟨hv, hh.symm, rfl⟩
  case h_10 hh => obtain ⟨n, rfl, rfl⟩ := formN_inv h; exact ⟨rfl, hh.symm, rfl⟩
  all_goals
    rename_i hh
    obtain ⟨rfl, rfl⟩ := formZ_inv h
    exact ⟨rfl, hh.symm, rfl⟩

theorem formZ_ne (x : BitVec 24) (i : Instr) : formZ x i ≠ .error .illegalOpcode := by unfold formZ; split <;> simp
theorem formB_ne (x : BitVec 24) (f : Byte → Instr) : formB x f ≠ .error .illegalOpcode := by unfold formB; split <;> simp
theorem formS_ne (x : BitVec 24) (f : Symbol → Instr) : formS x f ≠ .error .illegalOpcode := by unfold formS; split <;> simp
theorem formN_ne (x : BitVec 24) (f : NodeIdx → Instr) : formN x f ≠ .error .illegalOpcode := by unfold formN; split <;> simp

end Sys2Proof
end

