-- ==== Sys2Proof/Laws/Protocol.lean ====
section
/-! SUPPORT. The command protocol around a body: what a write to CMD can do, which flags a command's check reads, what an error
records and leaves, and what a reset leaves at the ports. -/

namespace Sys2Proof.Machine

/-- A body of one part. -/
theorem runTasks_single {t : Task} {s : State} {f : Flow} (h : runTask t s = f) : runTasks [t] s = f := by
  rw [runTasks_cons, h]
  cases f <;> simp [State.pushTasks, State.setSeq]

theorem State.accept_eq (s : State) (w : Word) : s.accept w = (s.setStatus (s.accept w).status).setSeq (s.accept w).seq := rfl

/-- Error entry right after acceptance, where the collaborators answer its cleanup primitives at once. -/
theorem State.failsTo_accept {s : State} (h : s.idle) (hr : s.portsReady) (w : Word) (c : Cause) (x y : Word) :
    s.failsTo ((s.accept w).enterError c x y) (opcodeOf w) (opcodeOf w) c x y :=
  State.failsTo_enterError c x y (s.accept_eq w) hr rfl rfl rfl h.2.2

theorem State.accepts_eq_false (s : State) : s.accepts = false ↔ s.status.busy = true ∨ s.status.err = true := by
  unfold State.accepts
  cases s.status.busy <;> cases s.status.err <;> simp

/-- A command with a prerequisite can raise SEQ_ERROR (40_control.md rule R124). -/
theorem seqError_mem {i : Instr} {st : Status} (h : (needOf i).holds st = false) : (.seqError, i.opcode) ∈ raisable i := by
  cases i <;> first | exact List.mem_cons_self | exact absurd h (by simp [needOf, Need.holds, needNothing])

theorem raisableWord_ok {w : Word} {i : Instr} (h : decode w = .ok i) : raisableWord w = raisable i := by
  simp [raisableWord, h]

/-- What a write to CMD can do (40_control.md rules R121 to R123): the soft reset, a rejection, an error at once, or a body. -/
theorem issue_cases {w : Word} {s t : State} (h : issue w s = .next t) :
    (opcodeOf w = 0x01 ∧ t = s.softReset) ∨
    (opcodeOf w ≠ 0x01 ∧ s.accepts = false ∧ t = s.rejectCommand) ∨
    (opcodeOf w ≠ 0x01 ∧ s.accepts = true ∧
      ∃ c e d, (c, opcodeOf w) ∈ raisableWord w ∧ t = (s.accept w).enterError c e d) ∨
    (opcodeOf w ≠ 0x01 ∧ s.accepts = true ∧ ∃ i, decode w = .ok i ∧ (needOf i).holds s.status = true ∧
      (runTasks (bodyOf i) (s.accept w)).finish = .next t) := by
  unfold issue at h
  split at h
  · rename_i i hd
    have hinv := decodeFields_inv hd
    have ho : i.opcode = opcodeOf w := BitVec.eq_of_toNat_eq hinv.2.1
    have hacc : s.accept (encode i) = s.accept w := by rw [State.accept, State.accept, opcodeOf_encode, ho]
    by_cases hi : ∃ x, i = .sreset x
    · obtain ⟨x, rfl⟩ := hi
      cases h
      exact .inl ⟨ho.symm, rfl⟩
    · have hne : opcodeOf w ≠ 0x01 := by
        rw [← ho]
        cases i with
        | sreset x => exact absurd ⟨x, rfl⟩ hi
        | _ => simp [Instr.opcode]
      rw [exec_eq i fun x hx => hi ⟨x, hx⟩] at h
      have hc := runCommand_cases h
      rw [hacc] at hc
      rcases hc with ⟨ha, rfl⟩ | ⟨ha, c, e, d, rfl, hx⟩ | ⟨ha, hn, hb⟩
      · exact .inr (.inl ⟨hne, ha, rfl⟩)
      · refine .inr (.inr (.inl ⟨hne, ha, c, e, d, ?_, rfl⟩))
        rw [raisableWord_ok hd, ← ho]
        rcases hx with ⟨-, hw⟩ | ⟨rfl, hn⟩
        · rw [hinv.1] at hw; cases hw
        · exact seqError_mem hn
      · exact .inr (.inr (.inr ⟨hne, ha, i, hd, hn, hb⟩))
  · rename_i e hd
    have hne : opcodeOf w ≠ 0x01 := by
      intro h
      rw [decode, h] at hd
      cases hd
    cases h
    cases hacc : s.accepts with
    | false => refine .inr (.inl ⟨hne, rfl, ?_⟩); cases e <;> simp [State.illegalCommand, hacc]
    | true =>
      refine .inr (.inr (.inl ⟨hne, rfl, ?_⟩))
      cases e
      · exact ⟨.illegalOpcode, 0, w, by simp [raisableWord, hd], by simp [State.illegalCommand, hacc]⟩
      · exact ⟨.illegalOperand, 0, w, by simp [raisableWord, hd], by simp [State.illegalCommand, hacc]⟩

/-! ### What bodies keep -/

theorem kept_running : Kept true fun s : State =>
    s.status.busy = true ∧ s.status.done = false ∧ s.status.err = false ∧ s.status.reject = false := by
  constructor
  case status => intro s st h₁ h₂ h₃ h₄ _ p; exact ⟨h₁.trans p.1, h₂.trans p.2.1, h₃.trans p.2.2.1, h₄.trans p.2.2.2⟩
  all_goals intros; assumption

theorem kept_opcode (b : Byte) : Kept true fun s : State => s.seq.opcode = b := by
  constructor
  case seq => intro s v h p; exact h.trans p
  all_goals intros; assumption

theorem kept_ctrl (c : Ctrl) : Kept true fun s : State => s.ctrl = c := by
  constructor <;> intros <;> assumption

@[simp] theorem ObPort.abort_committed (p : ObPort) : p.abort.committed = p.committed := by
  unfold ObPort.abort; split <;> rfl

@[simp] theorem BoPort.abort_committed (p : BoPort) : p.abort.committed = p.committed := by
  unfold BoPort.abort; split <;> rfl

theorem Ports.answer_committed {ps ps' : Ports} {q : Prim} {a : Answer} (h : ps.answer q = some (a, ps'))
    (hq : q.closing = false) : ps'.ob.committed = ps.ob.committed ∧ ps'.bo.committed = ps.bo.committed := by
  unfold Ports.answer at h
  split at h
  · cases h
  · simp only [Option.map_eq_some_iff, Prod.mk.injEq] at h
    obtain ⟨⟨a', p'⟩, hp, -, rfl⟩ := h
    cases q <;> simp only [Ports.perform, Option.map_eq_some_iff, Option.some.injEq, Prod.mk.injEq] at hp <;> try cases hq
    all_goals first
      | (obtain ⟨-, rfl⟩ := hp; exact ⟨rfl, rfl⟩)
      | (obtain ⟨-, rfl⟩ := hp; exact ⟨ps.ob.abort_committed, rfl⟩)
      | (obtain ⟨-, rfl⟩ := hp; exact ⟨rfl, ps.bo.abort_committed⟩)
      | (obtain ⟨⟨x, y⟩, -, -, rfl⟩ := hp; exact ⟨rfl, rfl⟩)

/-- No body commits a stream before its closes (20_memory.md rule R69). -/
theorem kept_committed (a b : List (List Byte)) :
    Kept false fun s : State => s.ports.ob.committed = a ∧ s.ports.bo.committed = b := by
  constructor
  case ports =>
    intro s q a' v h hq p
    have := Ports.answer_committed h (by cases hc : q.closing; · rfl
                                         · exact absurd (hq hc) (by simp))
    exact ⟨this.1.trans p.1, this.2.trans p.2⟩
  case touch => intro s q p; cases q <;> exact p
  all_goals intros; assumption

/-! ### Errors -/

/-- A body raises a cause of one of its parts. -/
theorem runTasks_raise_causes : ∀ (ts : List Task) {s t : State} {c : Cause} {x y : Word},
    runTasks ts s = .raise c x y t → ∃ u ∈ ts, c ∈ u.causes
  | [], _, _, _, _, _, h => by cases h
  | u :: ts, s, t, c, x, y, h => by
    rw [runTasks_cons] at h
    by_cases hp : u.isPhase = true
    · cases u with
      | phase op =>
        obtain ⟨v, hv, hc⟩ := runTasks_raise_causes ts h
        exact ⟨v, by simp [hv], hc⟩
      | _ => cases hp
    · have := task_tracks u (by simpa using hp) s rfl
      cases e : runTask u s with
      | ok z =>
        rw [e] at h
        obtain ⟨v, hv, hc⟩ := runTasks_raise_causes ts h
        exact ⟨v, by simp [hv], hc⟩
      | hold z => rw [e] at h; cases h
      | raise c' x' y' z => rw [e] at h this; cases h; exact ⟨u, by simp, this.1⟩
      | fault g => rw [e] at h; cases h

/-- A closed list of parts, checked by evaluation. -/
theorem forall_of_all {l : List Task} {p : Task → Bool} {b : Bool} (h : (l.all fun t => p t == b) = true) : ∀ t ∈ l, p t = b :=
  fun t ht => by simpa using List.all_eq_true.1 h t ht

/-- Every command closes its output at the end, in parts that raise nothing. -/
theorem body_halves (i : Instr) : ∃ a b, bodyOf i = a ++ b ∧ (∀ t ∈ a, t.closing = false) ∧ ∀ t ∈ b, t.causes = [] := by
  cases i with
  | enClose => exact ⟨[], enCloseTasks, rfl, by simp, by decide⟩
  | deClose => exact ⟨[], deCloseTasks, rfl, by simp, by decide⟩
  | compress => exact ⟨[.phase 0x10, .fcInit] ++ .phase 0x12 :: fcScanTasks ++ .phase 0x22 :: tbBuildTasks ++
      [.phase 0x30, .cgGen] ++ [.phase 0x40, .writeMagic] ++ [.phase 0x41, .writeTree] ++ .phase 0x52 :: enBodyTasks,
      .phase 0x53 :: enCloseTasks, rfl, forall_of_all rfl, by decide⟩
  | decompress => exact ⟨[.phase 0x42, .readMagic] ++ .phase 0x43 :: hdReadTreeTasks ++ .phase 0x61 :: deBodyTasks,
      .phase 0x62 :: deCloseTasks, rfl, forall_of_all rfl, by decide⟩
  | _ => exact ⟨_, [], (List.append_nil _).symm, by simp [bodyOf, Task.closing, fcScanTasks, tbBuildTasks, hdReadTreeTasks,
      enBodyTasks, enEofTasks, deBodyTasks], by simp⟩

theorem State.raiseError_committed (s : State) (c : Cause) (x y : Word) :
    (s.raiseError c x y).ports.ob.committed = s.ports.ob.committed ∧
      (s.raiseError c x y).ports.bo.committed = s.ports.bo.committed := by
  simp [Ports.cleanup]

/-- The cleanup primitives leave no stream open (20_memory.md rule R70). -/
theorem Ports.cleanup_closed (ps : Ports) : ps.cleanup.ib.isOpen = false ∧ ps.cleanup.ob.isOpen = false ∧
    ps.cleanup.bi.isOpen = false ∧ ps.cleanup.bo.isOpen = false := by
  refine ⟨?_, ?_, ?_, ?_⟩ <;>
    (simp only [Ports.cleanup, IbPort.release, ObPort.abort, BiPort.release, BoPort.abort]; split <;> simp_all)

/-! ### Resets -/

theorem State.abandon_idle {s : State} (h : s.status.busy = false) : s.abandon = s := by simp [State.abandon, h]

/-- An abandoned primitive has taken effect at its collaborator, or not (40_control.md rule R131). -/
theorem State.abandon_ports (s : State) : s.abandon.ports = s.ports ∨
    ∃ p a, s.seq.pending = some p ∧ s.ports.perform p = some (a, s.abandon.ports) := by
  unfold State.abandon
  split
  · dsimp only
    split
    · rename_i p hp
      split
      · cases e : s.ports.perform p with
        | none => exact .inl rfl
        | some r => exact .inr ⟨p, r.1, hp, e⟩
      · exact .inl rfl
    · exact .inl rfl
  · exact .inl rfl

/-! ### Prerequisites -/

/-- A flag's mask picks the flag out of STATUS (10_state.md rule R23). -/
theorem Status.word_flag (st : Status) (f : Flag) :
    (st.word &&& f.mask = f.mask ↔ st.get f = true) ∧ (st.word &&& f.mask = 0#32 ↔ st.get f = false) := by
  have key : ∀ k, f.mask = BitVec.twoPow 32 k → k < 32 → st.word.getLsbD k = st.get f →
      (st.word &&& f.mask = f.mask ↔ st.get f = true) ∧ (st.word &&& f.mask = 0#32 ↔ st.get f = false) := by
    intro k hm hk hb
    have hne : BitVec.twoPow 32 k ≠ 0#32 := fun e => by
      have := congrArg (fun v : Word => v.getLsbD k) e
      simp [hk] at this
    rw [hm, BitVec.and_twoPow, hb]
    cases st.get f <;> simp [hne, hne.symm]
  cases f
  · exact key 4 rfl (by decide) (st.word_getLsbD 4)
  · exact key 5 rfl (by decide) (st.word_getLsbD 5)
  · exact key 6 rfl (by decide) (st.word_getLsbD 6)
  · exact key 7 rfl (by decide) (st.word_getLsbD 7)
  · exact key 8 rfl (by decide) (st.word_getLsbD 8)
  · exact key 9 rfl (by decide) (st.word_getLsbD 9)
  · exact key 10 rfl (by decide) (st.word_getLsbD 10)

/-- A command's check, as its row of the prerequisite table says it (40_control.md rule R124). -/
theorem needOf_holds (i : Instr) (st : Status) : (needOf i).holds st = true ↔
    st.word &&& (prerequisite i).1 = (prerequisite i).1 ∧ st.word &&& (prerequisite i).2 = 0 := by
  have h₁ := st.word_flag .freqValid
  have h₂ := st.word_flag .heapLoaded
  have h₃ := st.word_flag .treeValid
  have h₄ := st.word_flag .codesValid
  have h₅ := st.word_flag .eofWritten
  have h₆ := st.word_flag .eofSeen
  simp only [Flag.mask, BitVec.ofNat_eq_ofNat] at h₁ h₂ h₃ h₄ h₅ h₆
  cases i <;> simp [needOf, Need.holds, needNothing, needFreq, needHeap, needTree, needCodes, needEncode, needEofWritten,
    needDecode, needEofSeen, needNoEofWritten, needNoEofSeen, prerequisite, h₁, h₂, h₃, h₄, h₅, h₆]

theorem needOf_word (i : Instr) : (needOf i).word = ((prerequisite i).1 ||| (prerequisite i).2 <<< 16) := by
  cases i <;> rfl

/-- No body raises SEQ_ERROR (40_control.md rule R124, 47_composite.md rule R282). -/
theorem body_noSequence (i : Instr) : ∀ t ∈ bodyOf i, Cause.seqError ∉ t.causes := by
  cases i <;> simp [bodyOf, Task.causes, headerCauses, compressTasks, decompressTasks, fcScanTasks, tbBuildTasks, enBodyTasks,
    enEofTasks, enCloseTasks, hdReadTreeTasks, deBodyTasks, deCloseTasks]

end Sys2Proof.Machine
end

