-- ==== Sys2Proof/Laws/Marks.lean ====
section
/-! SUPPORT. What the parts of a command's body need and leave, wherever a port may hold them: `Marks` is what is known of the
engine between two parts, `Fits` what it says of a state. -/

namespace Sys2Proof.Machine

/-- Where the tree registers stand inside FC_SCAN, HD_READ_TREE and DE_STEP. -/
inductive Stage
  /-- between commands: CUR is internal whenever TREE_VALID = 1 -/
  | none
  /-- FC_SCAN in its loop -/
  | counting
  /-- HD_READ_TREE before the root's tag -/
  | start
  /-- HD_READ_TREE at a tag, or at its end -/
  | inside
  /-- HD_READ_TREE at a value field -/
  | value
  /-- HD_READ_TREE before FINISH -/
  | whole
  /-- DE_STEP at the emission of a leaf -/
  | leaf
  deriving DecidableEq, Repr

/-- What is known of the engine between two parts of a body. -/
structure Marks where
  /-- FREQ_VALID = 1 -/
  freq     : Bool := false
  /-- HEAP_LOADED = 1 -/
  heap     : Bool := false
  /-- TREE_VALID = 1 -/
  tree     : Bool := false
  /-- CODES_VALID = 1 -/
  codes    : Bool := false
  /-- no symbol has two leaves in the tree at ROOT -/
  distinct : Bool := false
  /-- the stream at port OB is open -/
  sent     : Bool := false
  /-- EN_CLOSE has closed the stream at port OB already -/
  shut     : Bool := false
  stage    : Stage := .none
  deriving DecidableEq, Repr

/-- What is known at a stage at which no tree, queue or code table is valid. -/
def Marks.at (m : Marks) (g : Stage) : Marks := { freq := m.freq, sent := m.sent, shut := m.shut, stage := g }

/-- What a part of a body needs to be known, and what is known after it. -/
def Task.marks (t : Task) (m : Marks) : Option Marks :=
  match t with
  | .fcInit => some { m with freq := true, heap := false, tree := false, codes := false, distinct := false }
  | .fcAdd _ => if m.freq then some { m with heap := false, tree := false, codes := false, distinct := false } else none
  | .scanStart => if m.stage = .none then some (m.at .counting) else none
  | .scan => if m.freq && m.stage = .counting then some (m.at .none) else none
  | .fcRead v => if m.freq && symbolLegal v then some m else none
  | .tbLoad =>
    if m.freq && m.stage = .none then some { m with heap := true, tree := false, codes := false, distinct := false } else none
  | .tbStep =>
    if m.heap && m.stage = .none then some { m with heap := false, tree := false, codes := false, distinct := false } else none
  | .tbMerge =>
    if m.heap && m.stage = .none then some { m with heap := false, tree := true, codes := false, distinct := true } else none
  | .cgGen => if m.tree then some { m with codes := true } else none
  | .cgLookup v => if m.codes && symbolLegal v then some m else none
  | .writeTree => if m.tree then some m else none
  | .hdStart => some (m.at .start)
  | .hdRoot => if m.stage = .start then some (m.at .inside) else none
  | .hdTree => if m.stage = .inside then some (m.at .whole) else none
  | .hdLeaf => if m.stage = .value then some (m.at .inside) else none
  | .hdFinish => if m.stage = .whole then some { m.at .none with tree := true } else none
  | .enSymbol v => if m.codes && symbolLegal v then some { m with sent := true } else none
  | .eofWritten => if m.sent then some m else none
  | .encLoop => if m.codes then some m else none
  | .obClose => some { m with sent := false, shut := true }
  | .enClosed => some { m with shut := false }
  | .deStep => if m.tree && m.stage = .none then some m else none
  | .deEmit _ => if m.tree && m.stage = .leaf then some { m with stage := .none } else none
  | .deLoop => if m.tree && m.stage = .none then some m else none
  | _ => some m

/-- The same of some parts in order. -/
def marksAll : List Task → Marks → Option Marks
  | [], m => some m
  | t :: ts, m => (t.marks m).bind (marksAll ts)

theorem marksAll_one (t : Task) (m : Marks) : marksAll [t] m = t.marks m := by
  rw [marksAll]; cases t.marks m <;> rfl

theorem Task.marks_scan (m : Marks) : Task.scan.marks m =
    if m.freq && m.stage = .counting then some (m.at .none) else none := rfl

theorem Task.marks_encLoop (m : Marks) : Task.encLoop.marks m = if m.codes then some m else none := rfl

theorem Task.marks_deEmit (d : Bool) (m : Marks) : (Task.deEmit d).marks m =
    if m.tree && m.stage = .leaf then some { m with stage := .none } else none := rfl

theorem Task.marks_deStep (m : Marks) : Task.deStep.marks m = if m.tree && m.stage = .none then some m else none := rfl

theorem Task.marks_deLoop (m : Marks) : Task.deLoop.marks m = if m.tree && m.stage = .none then some m else none := rfl

theorem marksAll_append (a b : List Task) (m : Marks) : marksAll (a ++ b) m = (marksAll a m).bind (marksAll b) := by
  induction a generalizing m with
  | nil => rfl
  | cons t a ih =>
    simp only [List.cons_append, marksAll]
    cases t.marks m with
    | none => rfl
    | some m' => simpa using ih m'

/-- The causes that a part can raise where `m` is known: CG_GEN meets no symbol twice in a tree without one. -/
def Task.causesAt (t : Task) (m : Marks) : List Cause :=
  match t with
  | .cgGen => if m.distinct then [] else [.cgDupSymbol]
  | t => t.causes

theorem Task.causesAt_subset (t : Task) (m : Marks) : ∀ c ∈ t.causesAt m, c ∈ t.causes := by
  intro c h
  cases t <;> simp only [Task.causesAt] at h
  case cgGen =>
    split at h
    · simp at h
    · exact h
  all_goals exact h

/-- The errors that some parts can raise, each with its PHASE. -/
def errorsAll : Byte → List Task → Marks → List (Cause × Byte)
  | _, [], _ => []
  | ph, t :: ts, m =>
    match t with
    | .phase op => errorsAll op ts m
    | t => (t.causesAt m).map (fun c => (c, ph)) ++ errorsAll ph ts ((t.marks m).getD m)

theorem errorsAll_cons {ph : Byte} {t : Task} {ts : List Task} {m m' : Marks} (ht : t.isPhase = false)
    (h : t.marks m = some m') :
    errorsAll ph (t :: ts) m = (t.causesAt m).map (fun c => (c, ph)) ++ errorsAll ph ts m' := by
  cases t with
  | phase op => cases ht
  | _ => simp [errorsAll, h]

/-- Parts that stand before others raise their own errors, and then the others do. -/
theorem errorsAll_append {ph : Byte} {b : List Task} : ∀ {a : List Task} {m m' : Marks}, (∀ t ∈ a, t.isPhase = false) →
    marksAll a m = some m' → ∀ x ∈ errorsAll ph (a ++ b) m,
      (x.2 = ph ∧ ∃ t ∈ a, x.1 ∈ t.causes) ∨ x ∈ errorsAll ph b m'
  | [], m, m', _, h, x, hx => by cases h; exact .inr hx
  | t :: a, m, m', hp, h, x, hx => by
    simp only [marksAll] at h
    cases hm : t.marks m with
    | none => rw [hm] at h; cases h
    | some m₁ =>
      rw [hm] at h
      rw [List.cons_append, errorsAll_cons (hp t (by simp)) hm] at hx
      rcases List.mem_append.1 hx with hx | hx
      · obtain ⟨c, hc, rfl⟩ := List.mem_map.1 hx
        exact .inl ⟨rfl, t, by simp, t.causesAt_subset m c hc⟩
      · rcases errorsAll_append (fun u hu => hp u (by simp [hu])) h x hx with ⟨h₁, u, hu, hc⟩ | h
        · exact .inl ⟨h₁, u, by simp [hu], hc⟩
        · exact .inr h

/-- No part after the first close of an output can raise an error. -/
def closesLast : List Task → Bool
  | [] => true
  | t :: ts => if t.closing then (t :: ts).all fun u => u.causes.isEmpty else closesLast ts

theorem closesLast_of_quiet : ∀ {ts : List Task}, (∀ t ∈ ts, t.causes = []) → closesLast ts = true
  | [], _ => rfl
  | t :: ts, h => by
    simp only [closesLast]
    split
    · simpa [List.all_eq_true] using ⟨h t (by simp), fun u hu => h u (by simp [hu])⟩
    · exact closesLast_of_quiet fun u hu => h u (by simp [hu])

theorem closesLast_append : ∀ {a b : List Task}, (∀ t ∈ a, t.closing = false) → closesLast (a ++ b) = closesLast b
  | [], _, _ => rfl
  | t :: a, b, h => by
    rw [List.cons_append, closesLast, if_neg (by simp [h t (by simp)]), closesLast_append fun u hu => h u (by simp [hu])]

/-! ### What the marks say of a state -/

/-- Inside HD_READ_TREE: nothing is valid, and the store holds a prefix of a header's tree. -/
def State.reading (s : State) : Stage → Prop
  | .start => s.mem.nodes = [] ∧ s.seq.stack = [] ∧ s.seq.icount = 0
  | .inside => Partial s.mem.nodes s.seq.stack s.seq.icount
  | .value => Partial s.mem.nodes s.seq.stack s.seq.icount ∧ s.seq.stack ≠ []
  | .whole => Partial s.mem.nodes s.seq.stack s.seq.icount ∧ s.seq.stack = []
  | _ => True

/-- Whether no tree, queue or code table is valid at a stage. -/
def Stage.bare : Stage → Bool
  | .none => false
  | .leaf => false
  | _ => true

/-- The flags of `s` mean what the spec says, and everything that `m` marks holds. -/
structure State.Fits (s : State) (m : Marks) : Prop where
  freqOk : s.freqOk
  queueOk : s.queueOk
  root : s.status.treeValid = true → s.rootOk
  cur : s.status.treeValid = true → m.stage ≠ .leaf → s.curOk
  codesOk : s.codesOk
  stream : m.shut = false → s.streamOk
  freq : m.freq = true → s.status.freqValid = true
  heap : m.heap = true → s.status.heapLoaded = true
  tree : m.tree = true → s.status.treeValid = true
  codes : m.codes = true → s.status.codesValid = true
  distinct : m.distinct = true → ∃ t : Shape, t.valid = true ∧ t.leaves.Nodup ∧ TreeAt s.mem.nodes s.root t
  sent : m.sent = true → s.ports.ob.isOpen = true
  leaf : m.stage = .leaf → ∃ p nd, walkTo s.mem.nodes s.root p = some s.cur ∧ s.mem.nodes[s.cur.toNat]? = some nd ∧ nd.leaf = true
  header : m.stage.bare = true →
    s.status.heapLoaded = false ∧ s.status.treeValid = false ∧ s.status.codesValid = false ∧ s.reading m.stage

/-- Two states agree on all that `Fits` speaks of; the stream at port OB may be open in the second alone. -/
structure State.Agrees (s t : State) : Prop where
  mem : t.mem = s.mem
  root : t.root = s.root
  cur : t.cur = s.cur
  total : t.total = s.total
  freqValid : t.status.freqValid = s.status.freqValid
  heapLoaded : t.status.heapLoaded = s.status.heapLoaded
  treeValid : t.status.treeValid = s.status.treeValid
  codesValid : t.status.codesValid = s.status.codesValid
  eofWritten : t.status.eofWritten = s.status.eofWritten
  isOpen : s.ports.ob.isOpen = true → t.ports.ob.isOpen = true
  stack : t.seq.stack = s.seq.stack
  icount : t.seq.icount = s.seq.icount

theorem State.Agrees.refl (s : State) : s.Agrees s := ⟨rfl, rfl, rfl, rfl, rfl, rfl, rfl, rfl, rfl, id, rfl, rfl⟩

theorem State.Agrees.trans {s t u : State} (h : s.Agrees t) (k : t.Agrees u) : s.Agrees u :=
  ⟨k.mem.trans h.mem, k.root.trans h.root, k.cur.trans h.cur, k.total.trans h.total, k.freqValid.trans h.freqValid,
    k.heapLoaded.trans h.heapLoaded, k.treeValid.trans h.treeValid, k.codesValid.trans h.codesValid,
    k.eofWritten.trans h.eofWritten, fun x => k.isOpen (h.isOpen x), k.stack.trans h.stack, k.icount.trans h.icount⟩

theorem State.Agrees.reading {s t : State} (h : s.Agrees t) {g : Stage} (hs : s.reading g) : t.reading g := by
  cases g <;> simp only [State.reading, h.mem, h.stack, h.icount] at hs ⊢ <;> exact hs

theorem State.Agrees.fits {s t : State} (h : s.Agrees t) {m : Marks} (f : s.Fits m) : t.Fits m where
  freqOk := by simpa only [State.freqOk, h.mem, h.total, h.freqValid] using f.freqOk
  queueOk := by simpa only [State.queueOk, h.mem, h.total, h.heapLoaded, h.treeValid] using f.queueOk
  root := by simpa only [State.rootOk, h.mem, h.root, h.treeValid] using f.root
  cur := by simpa only [State.curOk, h.mem, h.root, h.cur, h.treeValid] using f.cur
  codesOk := by simpa only [State.codesOk, h.mem, h.root, h.treeValid, h.codesValid] using f.codesOk
  stream := fun x y => h.isOpen (f.stream x (by rw [← h.eofWritten]; exact y))
  freq := by simpa only [h.freqValid] using f.freq
  heap := by simpa only [h.heapLoaded] using f.heap
  tree := by simpa only [h.treeValid] using f.tree
  codes := by simpa only [h.codesValid] using f.codes
  distinct := by simpa only [h.mem, h.root] using f.distinct
  sent := fun x => h.isOpen (f.sent x)
  leaf := by simpa only [h.mem, h.root, h.cur] using f.leaf
  header := fun x => by
    obtain ⟨h₁, h₂, h₃, h₄⟩ := f.header x
    exact ⟨h.heapLoaded.trans h₁, h.treeValid.trans h₂, h.codesValid.trans h₃, h.reading h₄⟩

/-- Some updates that agree. -/
theorem State.agrees_setResult (s : State) (v : Word) : s.Agrees (s.setResult v) := ⟨rfl, rfl, rfl, rfl, rfl, rfl, rfl, rfl, rfl, id, rfl, rfl⟩
theorem State.agrees_setBytesIn (s : State) (v : Word) : s.Agrees (s.setBytesIn v) := ⟨rfl, rfl, rfl, rfl, rfl, rfl, rfl, rfl, rfl, id, rfl, rfl⟩
theorem State.agrees_setBytesOut (s : State) (v : Word) : s.Agrees (s.setBytesOut v) := ⟨rfl, rfl, rfl, rfl, rfl, rfl, rfl, rfl, rfl, id, rfl, rfl⟩
theorem State.agrees_setBitsIn (s : State) (v : Word) : s.Agrees (s.setBitsIn v) := ⟨rfl, rfl, rfl, rfl, rfl, rfl, rfl, rfl, rfl, id, rfl, rfl⟩
theorem State.agrees_setBitsOut (s : State) (v : Word) : s.Agrees (s.setBitsOut v) := ⟨rfl, rfl, rfl, rfl, rfl, rfl, rfl, rfl, rfl, id, rfl, rfl⟩

theorem State.agrees_setNodeOut (s : State) (v : Word) : s.Agrees (s.setNodeOut v) := ⟨rfl, rfl, rfl, rfl, rfl, rfl, rfl, rfl, rfl, id, rfl, rfl⟩
theorem State.agrees_setCodeOut (s : State) (v : BitVec 256) : s.Agrees (s.setCodeOut v) := ⟨rfl, rfl, rfl, rfl, rfl, rfl, rfl, rfl, rfl, id, rfl, rfl⟩

/-- STATUS with the flags of which `Fits` says nothing changed. -/
theorem State.agrees_setStatus (s : State) (st : Status) (h₁ : st.freqValid = s.status.freqValid)
    (h₂ : st.heapLoaded = s.status.heapLoaded) (h₃ : st.treeValid = s.status.treeValid) (h₄ : st.codesValid = s.status.codesValid)
    (h₅ : st.eofWritten = s.status.eofWritten) : s.Agrees (s.setStatus st) :=
  ⟨rfl, rfl, rfl, rfl, h₁, h₂, h₃, h₄, h₅, id, rfl, rfl⟩

theorem State.Fits.setStatus {s : State} {m : Marks} (h : s.Fits m) {st : Status} (h₁ : st.freqValid = s.status.freqValid)
    (h₂ : st.heapLoaded = s.status.heapLoaded) (h₃ : st.treeValid = s.status.treeValid) (h₄ : st.codesValid = s.status.codesValid)
    (h₅ : st.eofWritten = s.status.eofWritten) : (s.setStatus st).Fits m := (s.agrees_setStatus st h₁ h₂ h₃ h₄ h₅).fits h

theorem State.agrees_pushTasks (s : State) (ts : List Task) : s.Agrees (s.pushTasks ts) := ⟨rfl, rfl, rfl, rfl, rfl, rfl, rfl, rfl, rfl, id, rfl, rfl⟩

/-- A primitive of port OB that ends its stream. -/
def Prim.ending : Prim → Bool
  | .obClose => true
  | .obAbort => true
  | _ => false

theorem Ports.answer_isOpen {ps ps' : Ports} {q : Prim} {a : Answer} (h : ps.answer q = some (a, ps')) (hq : q.ending = false) :
    ps.ob.isOpen = true → ps'.ob.isOpen = true := by
  unfold Ports.answer at h
  split at h
  · cases h
  · simp only [Option.map_eq_some_iff, Prod.mk.injEq] at h
    obtain ⟨⟨a', p'⟩, hp, -, rfl⟩ := h
    cases q <;> simp only [Ports.perform, Option.map_eq_some_iff, Option.some.injEq, Prod.mk.injEq] at hp <;> try cases hq
    all_goals first
      | (obtain ⟨-, rfl⟩ := hp; exact id)
      | (obtain ⟨-, rfl⟩ := hp; exact fun _ => rfl)
      | (obtain ⟨⟨x, y⟩, -, -, rfl⟩ := hp; exact id)

theorem State.agrees_answer {s : State} {q : Prim} {a : Answer} {ps : Ports} (h : s.ports.answer q = some (a, ps))
    (hq : q.ending = false) : s.Agrees (s.setPorts ps) :=
  ⟨rfl, rfl, rfl, rfl, rfl, rfl, rfl, rfl, rfl, Ports.answer_isOpen h hq, rfl, rfl⟩

theorem State.agrees_waitOn (s : State) (q : Prim) (ts : List Task) : s.Agrees (s.waitOn q ts) := by
  refine ⟨rfl, rfl, rfl, rfl, rfl, rfl, rfl, rfl, rfl, fun h => ?_, rfl, rfl⟩
  cases q <;> first | exact h | rfl

/-! ### Flows -/

/-- A part that neither starts a sub-step nor closes an output. -/
def Task.plain (t : Task) : Bool := !t.isPhase && !t.closing

theorem Task.plain_iff (t : Task) : t.plain = true ↔ t.isPhase = false ∧ t.closing = false := by
  simp [Task.plain]

/-- Where a flow has come to: what is known after it, what is known of the parts that a port left it to do, and the causes it
raises. -/
def Flow.Fits (m : Marks) (cs : List Cause) : Flow → Prop
  | .ok s => s.Fits m
  | .hold s => ∃ m₀, s.Fits m₀ ∧ marksAll s.seq.tasks m₀ = some m ∧ (∀ t ∈ s.seq.tasks, ∀ c ∈ t.causes, c ∈ cs) ∧
      ∀ t ∈ s.seq.tasks, t.plain = true
  | .raise c _ _ _ => c ∈ cs
  | .fault _ => False

namespace Flow.Fits

variable {m m' : Marks} {cs : List Cause}

theorem ok {s : State} (h : s.Fits m) : (Flow.ok s).Fits m cs := h

theorem port {s : State} {q : Prim} {ts : List Task} {k : Answer → State → Flow} {m₀ : Marks} (hs : (s.waitOn q ts).Fits m₀)
    (hm : marksAll ts m₀ = some m) (hc : ∀ t ∈ ts, ∀ c ∈ t.causes, c ∈ cs) (hp : ∀ t ∈ ts, t.plain = true)
    (hk : ∀ a ps, s.ports.answer q = some (a, ps) → (k a (s.setPorts ps)).Fits m cs) : (s.port q ts k).Fits m cs := by
  unfold State.port
  split
  · exact hk _ _ (by assumption)
  · exact ⟨m₀, hs, hm, hc, hp⟩

theorem andThen {f : Flow} (hf : f.Fits m cs) {ts : List Task} {k : State → Flow} (hk : ∀ s, s.Fits m → (k s).Fits m' cs)
    (hm : marksAll ts m = some m') (hc : ∀ t ∈ ts, ∀ c ∈ t.causes, c ∈ cs) (hp : ∀ t ∈ ts, t.plain = true) :
    (f.andThen ts k).Fits m' cs := by
  cases f with
  | ok s => exact hk s hf
  | hold s =>
    obtain ⟨m₀, h₁, h₂, h₃, h₄⟩ := hf
    refine ⟨m₀, (s.agrees_pushTasks ts).fits h₁, ?_, ?_, ?_⟩
    · rw [State.pushTasks, State.setSeq_seq, marksAll_append, h₂]; exact hm
    · intro t ht
      rcases List.mem_append.1 ht with ht | ht
      exacts [h₃ t ht, hc t ht]
    · intro t ht
      rcases List.mem_append.1 ht with ht | ht
      exacts [h₄ t ht, hp t ht]
  | raise c e d s => exact hf
  | fault g => exact hf

/-- One part follows. -/
theorem andThen_one {f : Flow} (hf : f.Fits m cs) {t : Task} {k : State → Flow} (hk : ∀ s, s.Fits m → (k s).Fits m' cs)
    (ht : t.marks m = some m') (hc : ∀ c ∈ t.causes, c ∈ cs) (hp : t.plain = true) : (f.andThen [t] k).Fits m' cs :=
  hf.andThen hk (by rw [marksAll_one, ht]) (by simpa using hc) (by simpa using hp)

/-- A port holds one part. -/
theorem waits {s : State} (h : s.Fits m) {q : Prim} {t : Task} (ht : t.marks m = some m') (hc : ∀ c ∈ t.causes, c ∈ cs)
    (hp : t.plain = true) : (Flow.hold (s.waitOn q [t])).Fits m' cs :=
  ⟨m, (s.agrees_waitOn q [t]).fits h, by rw [State.waitOn, State.setPorts_seq, State.setSeq_seq, marksAll_one, ht],
    by rw [State.waitOn, State.setPorts_seq, State.setSeq_seq]; simpa using hc,
    by rw [State.waitOn, State.setPorts_seq, State.setSeq_seq]; simpa using hp⟩

/-- A primitive that a part issues first, and issues again where a port held it. -/
theorem issues {s : State} (h : s.Fits m) {q : Prim} {t : Task} {k : Answer → State → Flow} (ht : t.marks m = some m')
    (hc : ∀ c ∈ t.causes, c ∈ cs) (hp : t.plain = true)
    (hk : ∀ a ps, s.ports.answer q = some (a, ps) → (k a (s.setPorts ps)).Fits m' cs) : (s.port q [t] k).Fits m' cs := by
  unfold State.port
  split
  · exact hk _ _ (by assumption)
  · exact waits h ht hc hp

theorem ofExcept {α : Type} {e : Except Fault α} {a : α} {k : α → Flow} (h : e = .ok a) (hk : (k a).Fits m cs) :
    (Flow.ofExcept e k).Fits m cs := by rw [h]; exact hk

theorem causes {cs' : List Cause} (h : ∀ c ∈ cs, c ∈ cs') {f : Flow} (hf : f.Fits m cs) : f.Fits m cs' := by
  cases f with
  | ok s => exact hf
  | hold s =>
    obtain ⟨m₀, h₁, h₂, h₃, h₄⟩ := hf
    exact ⟨m₀, h₁, h₂, fun t ht c hc => h c (h₃ t ht c hc), h₄⟩
  | raise c e d s => exact h c hf
  | fault g => exact hf

end Flow.Fits

end Sys2Proof.Machine
end

