-- ==== Sys2Proof/Laws/Sound.lean ====
section
/-! SUPPORT. No part of a body stops the model: where what it needs is known, it ends, waits on a port, or raises an error of the
spec, whatever the ports do, and what it leaves is known (10_state.md rules R51, R52; 20_memory.md rule R62;
42_tree_builder.md rule R167; 70_reset_and_hazards.md rule R362). -/

namespace Sys2Proof.Machine

/-! ### Paths -/

theorem walkTo_treeAt {nodes : List Node} : ∀ {p : List Bool} {n c : NodeIdx} {t : Shape}, TreeAt nodes n t →
    walkTo nodes n p = some c → ∃ u, TreeAt nodes c u ∧ ∀ v ∈ u.leaves, v ∈ t.leaves
  | [], n, c, t, h, e => by cases e; exact ⟨t, h, fun _ hv => hv⟩
  | b :: p, n, c, .leaf v, h, e => by
    obtain ⟨nd, h₁, h₂, -⟩ := h
    simp [walkTo, h₁, h₂] at e
  | b :: p, n, c, .node l r, h, e => by
    obtain ⟨nd, h₁, h₂, h₃, h₄⟩ := h
    simp only [walkTo, h₁, h₂, Bool.false_eq_true, if_false] at e
    cases b
    · exact (walkTo_treeAt h₃ e).imp fun u hu => ⟨hu.1, fun v hv => List.mem_append_left _ (hu.2 v hv)⟩
    · exact (walkTo_treeAt h₄ e).imp fun u hu => ⟨hu.1, fun v hv => List.mem_append_right _ (hu.2 v hv)⟩

theorem walkTo_snoc {nodes : List Node} : ∀ {p : List Bool} {n c : NodeIdx} {nd : Node}, walkTo nodes n p = some c →
    nodes[c.toNat]? = some nd → nd.leaf = false → ∀ b, walkTo nodes n (p ++ [b]) = some (if b then nd.right else nd.left)
  | [], n, c, nd, e, h, hl, b => by cases e; simp [walkTo, h, hl]
  | x :: p, n, c, nd, e, h, hl, b => by
    simp only [walkTo, List.cons_append] at e ⊢
    cases hn : nodes[n.toNat]? with
    | none => simp [hn] at e
    | some nd' =>
      simp only [hn] at e ⊢
      split at e
      · cases e
      · rename_i hf
        rw [if_neg hf]
        exact walkTo_snoc e h hl b

/-- The tree that a valid ROOT names has an internal root: CUR may stand there. -/
theorem State.rootOk.curOk {s : State} (h : s.rootOk) (hc : s.cur = s.root) : s.curOk := by
  obtain ⟨t, hv, ht⟩ := h
  cases t with
  | leaf v => simp [Shape.valid, Shape.internal] at hv
  | node l r =>
    obtain ⟨nd, h₁, h₂, -⟩ := ht
    exact ⟨[], by rw [hc]; rfl, nd, by rw [hc]; exact h₁, h₂⟩

/-! ### Updates -/

namespace State.Fits

variable {s : State} {m : Marks}

/-- Less is known. -/
theorem weaken (h : s.Fits m) {m' : Marks} (h₁ : m'.freq = true → m.freq = true) (h₂ : m'.heap = true → m.heap = true)
    (h₃ : m'.tree = true → m.tree = true) (h₄ : m'.codes = true → m.codes = true) (h₅ : m'.distinct = true → m.distinct = true)
    (h₆ : m'.sent = true → m.sent = true) (h₇ : m'.shut = m.shut) (h₈ : m'.stage = m.stage) : s.Fits m' where
  freqOk := h.freqOk
  queueOk := h.queueOk
  root := h.root
  cur := by rw [h₈]; exact h.cur
  codesOk := h.codesOk
  stream := by rw [h₇]; exact h.stream
  freq := fun x => h.freq (h₁ x)
  heap := fun x => h.heap (h₂ x)
  tree := fun x => h.tree (h₃ x)
  codes := fun x => h.codes (h₄ x)
  distinct := fun x => h.distinct (h₅ x)
  sent := fun x => h.sent (h₆ x)
  leaf := by rw [h₈]; exact h.leaf
  header := by rw [h₈]; exact h.header

/-- A state in which no tree, queue or code table is valid. -/
theorem invalid {t : State} (h₁ : t.status.heapLoaded = false) (h₂ : t.status.treeValid = false)
    (h₃ : t.status.codesValid = false) (hf : t.freqOk) {m : Marks} (hq : m.freq = true → t.status.freqValid = true)
    (m₁ : m.heap = false) (m₂ : m.tree = false) (m₃ : m.codes = false) (m₄ : m.distinct = false)
    (hst : m.shut = false → t.streamOk) (hse : m.sent = true → t.ports.ob.isOpen = true) (hl : m.stage = .leaf →
      ∃ p nd, walkTo t.mem.nodes t.root p = some t.cur ∧ t.mem.nodes[t.cur.toNat]? = some nd ∧ nd.leaf = true)
    (hr : m.stage.bare = true → t.reading m.stage) : t.Fits m where
  freqOk := hf
  queueOk := fun x => by rw [h₁] at x; cases x
  root := fun x => by rw [h₂] at x; cases x
  cur := fun x => by rw [h₂] at x; cases x
  codesOk := fun x => by rw [h₃] at x; cases x
  stream := hst
  freq := hq
  heap := fun x => by rw [m₁] at x; cases x
  tree := fun x => by rw [m₂] at x; cases x
  codes := fun x => by rw [m₃] at x; cases x
  distinct := fun x => by rw [m₄] at x; cases x
  sent := hse
  leaf := hl
  header := fun x => ⟨h₁, h₂, h₃, hr x⟩

theorem invalidated (h : s.Fits m) :
    s.invalidateTree.Fits { m with heap := false, tree := false, codes := false, distinct := false } := by
  refine invalid (t := s.invalidateTree) (m := { m with heap := false, tree := false, codes := false, distinct := false }) rfl rfl rfl h.freqOk h.freq
    rfl rfl rfl rfl h.stream h.sent h.leaf fun x => ?_
  have := (h.header x).2.2.2
  cases hm : m.stage <;> rw [hm] at this <;> exact this

/-- At a stage at which nothing is valid, no more is known. -/
theorem bare (h : s.Fits m) : s.Fits (m.at m.stage) := h.weaken id nofun nofun nofun nofun id rfl rfl

/-- Such a stage may be left. -/
theorem left {g : Stage} (h : s.Fits (m.at g)) (hb : g.bare = true) : s.Fits (m.at .none) where
  freqOk := h.freqOk
  queueOk := h.queueOk
  root := h.root
  cur := fun x => by rw [(h.header hb).2.1] at x; cases x
  codesOk := h.codesOk
  stream := h.stream
  freq := h.freq
  heap := h.heap
  tree := h.tree
  codes := h.codes
  distinct := h.distinct
  sent := h.sent
  leaf := nofun
  header := nofun

theorem table (h : s.Fits m) (hm : m.freq = true) : FreqOk s.mem.freq s.total := h.freqOk (h.freq hm)

end State.Fits

/-! ### Frequency counter -/

theorem countByte_fits {m : Marks} {b : Byte} {s : State} {k : Word → State → Flow}
    (hf : FreqOk s.mem.freq s.total)
    (hk : ∀ c f w, FreqOk f w → (k c ((s.setMem { s.mem with freq := f }).setTotal w)).Fits m [.cntOverflow]) :
    (countByte b s k).Fits m [.cntOverflow] := by
  by_cases ht : s.total = 0xFFFFFFFF
  · rw [countByte_overflow b ht]; exact List.mem_singleton.2 rfl
  · rw [countByte_ok hf b ht]
    exact hk _ _ _ (hf.count b ht)

theorem scanLoop_fits {m : Marks} (hm : m.freq = true) : ∀ (n : Nat) (s : State), s.Fits (m.at .counting) →
    (scanLoop n s).Fits (m.at .none) [.cntOverflow]
  | 0, s, h => Flow.Fits.waits h (by rw [Task.marks_scan]; simp [Marks.at, hm]) (by simp [Task.causes]) rfl
  | n + 1, s, h => by
    refine Flow.Fits.issues h (by rw [Task.marks_scan]; simp [Marks.at, hm]) (by simp [Task.causes]) rfl fun a ps ha => ?_
    have h' := (State.agrees_answer ha rfl).fits h
    cases a with
    | byte b =>
      refine countByte_fits (h'.table hm) fun c f w hf => scanLoop_fits hm n _ ?_
      refine (State.agrees_setBytesIn _ _).fits ?_
      obtain ⟨h₁, h₂, h₃, -⟩ := h'.header rfl
      exact .invalid (t := ((s.setPorts ps).setMem { (s.setPorts ps).mem with freq := f }).setTotal w) h₁ h₂ h₃ (fun _ => hf) (fun _ => h'.freq hm) rfl rfl rfl rfl h'.stream h'.sent nofun fun _ => trivial
    | done => exact h'.left rfl
    | bits v => exact h'.left rfl
    | eos => exact h'.left rfl

/-! ### Tree builder -/

/-- A queue of trees is being merged: no tree or code table is valid. -/
theorem State.Fits.merging {s : State} {m : Marks} (h : s.Fits m) (hh : s.status.heapLoaded = true) :
    s.status.treeValid = false ∧ s.status.codesValid = false ∧ 2 ≤ s.mem.heap.length ∧
      ∃ L, L.length ≤ 257 ∧ (∀ v ∈ L, v.toNat ≤ 256) ∧ L.Nodup ∧ Forest s.mem L s.total.toNat := by
  obtain ⟨ht, h2, L, hL, hv, hn, hf⟩ := h.queueOk hh
  refine ⟨ht, ?_, h2, L, hL, hv, hn, hf⟩
  by_contra hc
  have := (h.codesOk (by simpa using hc)).1
  rw [ht] at this
  cases this

/-- The state after one more tree in the queue, or the last merge. -/
theorem State.Fits.queued {s t : State} {m : Marks} (h : s.Fits m) (hs : m.stage = .none) (hf : t.mem.freq = s.mem.freq)
    (hw : t.total = s.total) (hv : t.status.freqValid = s.status.freqValid) (he : t.status.eofWritten = s.status.eofWritten)
    (hp : t.ports = s.ports) (hq : t.queueOk) (ht : t.status.treeValid = false) (hc : t.status.codesValid = false)
    (hl : t.status.heapLoaded = true) :
    t.Fits { m with heap := true, tree := false, codes := false, distinct := false } where
  freqOk := by simpa only [State.freqOk, hf, hw, hv] using h.freqOk
  queueOk := hq
  root := fun x => by rw [ht] at x; cases x
  cur := fun x => by rw [ht] at x; cases x
  codesOk := fun x => by rw [hc] at x; cases x
  stream := fun x y => by rw [hp]; exact h.stream x (by rw [← he]; exact y)
  freq := fun x => by rw [hv]; exact h.freq x
  heap := fun _ => hl
  tree := nofun
  codes := nofun
  distinct := nofun
  sent := fun x => by rw [hp]; exact h.sent x
  leaf := fun x => by rw [hs] at x; cases x
  header := fun x => by rw [hs] at x; cases x

/-- The tree that a queue of one root leaves. -/
theorem Forest.rootTree {m : Memory} {L : List Symbol} {W : Nat} {x : NodeIdx} (h : Forest m L W) (hx : m.heap = [x])
    (hl : L.length ≤ 257) (h2 : 2 ≤ L.length) (hv : ∀ v ∈ L, v.toNat ≤ 256) (hn : L.Nodup) :
    ∃ t : Shape, t.valid = true ∧ t.leaves.Nodup ∧ TreeAt m.nodes x t := by
  obtain ⟨t, ht, hp, -, -⟩ := h.single hx
  have := hp.length_eq
  have := t.leaves_length
  refine ⟨t, t.valid_iff.2 ⟨?_, by omega, fun v hm => hv v (hp.mem_iff.1 hm)⟩, hp.nodup_iff.2 hn, ht⟩
  cases t with
  | leaf v => simp [Shape.leaves] at *; omega
  | node l r => rfl

theorem State.Fits.built {s : State} {m : Marks} (h : s.Fits m) (hs : m.stage = .none) (hc : s.status.codesValid = false)
    {m' : Memory} {x : NodeIdx} (hfr : m'.freq = s.mem.freq)
    (ht : ∃ t : Shape, t.valid = true ∧ t.leaves.Nodup ∧ TreeAt m'.nodes x t) :
    (s.built m' x).Fits { m with heap := false, tree := true, codes := false, distinct := true } where
  freqOk := by
    have := h.freqOk
    simpa only [State.freqOk, State.built, State.setResult_status, State.setStatus_status, State.setResult_mem, State.setStatus_mem,
      State.setCur_mem, State.setRoot_mem, State.setMem_mem, hfr, State.setResult_total, State.setStatus_total, State.setCur_total,
      State.setRoot_total, State.setMem_total] using this
  queueOk := nofun
  root := fun _ => ht.imp fun t h => ⟨h.1, h.2.2⟩
  cur := fun _ _ => State.rootOk.curOk (ht.imp fun t h => ⟨h.1, h.2.2⟩) rfl
  codesOk := fun x => by
    have : s.status.codesValid = true := x
    rw [hc] at this; cases this
  stream := h.stream
  freq := h.freq
  heap := nofun
  tree := fun _ => rfl
  codes := nofun
  distinct := fun _ => ht
  sent := h.sent
  leaf := fun x => by rw [hs] at x; cases x
  header := fun x => by rw [hs] at x; cases x

theorem tbLoad_fits {s : State} {m : Marks} (h : s.Fits m) (hm : m.freq = true) (hs : m.stage = .none) :
    (tbLoadBody s).Fits { m with heap := true, tree := false, codes := false, distinct := false } [] := by
  have hf := h.table hm
  rw [tbLoadBody, Memory.load_eq hf.1, Flow.ofExcept_ok]
  have hl := loadedLeaves_length hf
  refine h.queued hs rfl rfl rfl rfl rfl (fun _ => ⟨rfl, ?_, (loadedLeaves s.mem.freq).map Prod.fst, ?_, fun v hv =>
    loadedLeaves_legal hv, loadedLeaves_nodup hf, Forest.loaded hf⟩) rfl rfl rfl
  · show 2 ≤ s.mem.loaded.heap.length
    simp only [Memory.loaded, firstIndices, List.length_map, List.length_range]
    exact hl.1
  · rw [List.length_map]; exact hl.2

theorem tbStep_fits {s : State} {m : Marks} (h : s.Fits m) (hm : m.heap = true) (hs : m.stage = .none) :
    (tbStepBody s).Fits { m with heap := false, tree := false, codes := false, distinct := false } [] := by
  obtain ⟨ht, hc, h2, L, hL, hv, hn, hf⟩ := h.merging (h.heap hm)
  obtain ⟨m', e, hf', hlen, -, hfr, -, hmem⟩ := hf.merge h2 hL s.total.isLt
  rw [tbStepBody, e, Flow.ofExcept_ok]
  dsimp only
  split
  · rename_i h1
    obtain ⟨x, hx⟩ := List.length_eq_one_iff.1 h1
    have hle := hf.heap_le
    rw [hx, List.mem_singleton] at hmem
    have := hf'.rootTree hx hL (by omega) hv hn
    rw [← hmem] at this
    exact (h.built hs hc hfr this).weaken id nofun nofun nofun nofun id rfl rfl
  · rename_i h1
    refine (h.queued (t := (s.setMem m').setResult _) hs hfr rfl rfl rfl rfl (fun _ => ⟨ht, ?_, L, hL, hv, hn, hf'⟩) ht hc
      (h.heap hm)).weaken id nofun nofun nofun nofun id rfl rfl
    show 2 ≤ m'.heap.length
    omega

theorem tbMerge_fits {s : State} {m : Marks} (h : s.Fits m) (hm : m.heap = true) (hs : m.stage = .none) :
    (tbMergeBody s).Fits { m with heap := false, tree := true, codes := false, distinct := true } [] := by
  obtain ⟨-, hc, h2, L, hL, hv, hn, hf⟩ := h.merging (h.heap hm)
  obtain ⟨m', x, e, hf', hx, hfr, -, -⟩ := mergeLoop_spec hL s.total.isLt _ s (h.heap hm) hf h2 le_rfl
  have hle := hf.heap_le
  rw [tbMergeBody, e]
  exact h.built hs hc hfr (hf'.rootTree hx hL (by omega) hv hn)

/-! ### Code table -/

theorem exists_first_dup {α : Type} [DecidableEq α] : ∀ (l : List α), ¬ l.Nodup → ∃ pre v post, l = pre ++ v :: post ∧ pre.Nodup ∧ v ∈ pre := by
  intro l
  induction l using List.reverseRecOn with
  | nil => intro h; simp at h
  | append_singleton l a ih =>
    intro h
    by_cases hl : l.Nodup
    · refine ⟨l, a, [], rfl, hl, ?_⟩
      by_contra ha
      refine h (List.nodup_append.2 ⟨hl, by simp, fun x hx b hb e => ?_⟩)
      rw [List.mem_singleton] at hb
      exact ha (hb ▸ e ▸ hx)
    · obtain ⟨pre, v, post, rfl, hp⟩ := ih hl
      exact ⟨pre, v, post ++ [a], by simp, hp⟩

theorem cgGen_fits {s : State} {m : Marks} (h : s.Fits m) (hm : m.tree = true) :
    (cgGenBody s).Fits { m with codes := true } (Task.cgGen.causesAt m) := by
  have htv := h.tree hm
  obtain ⟨t, hval, ht⟩ := h.root htv
  obtain ⟨hi, hin, hl⟩ := t.valid_iff.1 hval
  by_cases hn : t.leaves.Nodup
  · obtain ⟨codes, e, hc⟩ := walk_codesOf ht hin hl hn
    rw [cgGenBody, e]
    exact { h with
      queueOk := fun x => by
        have := (h.queueOk x).1
        rw [htv] at this; cases this
      codesOk := fun _ => ⟨htv, t, hval, hn, ht, hc⟩
      codes := fun _ => rfl
      header := fun x => by
        have := (h.header x).2.1
        rw [htv] at this; cases this }
  · obtain ⟨pre, v, post, hs, hp, hv⟩ := exists_first_dup _ hn
    obtain ⟨codes, e, -⟩ := walk_dup ht hi hin hl hs hp hv
    rw [cgGenBody, e]
    show Cause.cgDupSymbol ∈ Task.cgGen.causesAt m
    rw [Task.causesAt]
    split
    · rename_i hd
      obtain ⟨u, -, hu, hut⟩ := h.distinct hd
      exact absurd (ht.unique hut ▸ hu) hn
    · exact List.mem_singleton.2 rfl

/-- A symbol's entry of the table can be read where CODES_VALID = 1 (10_state.md rule R51). -/
theorem State.Fits.readCode {s : State} {m : Marks} (h : s.Fits m) (hm : m.codes = true) {v : Symbol} (hv : v.toNat ≤ 256) :
    ∃ c, s.mem.readCode v = .ok c := by
  obtain ⟨-, t, -, -, -, hl, -⟩ := h.codesOk (h.codes hm)
  rw [Memory.readCode, List.getElem?_eq_getElem (by rw [hl]; simp only [Config.numSymbols]; omega : v.toNat < s.mem.codes.length)]
  exact ⟨_, rfl⟩

/-! ### Encoder and serializer -/

theorem writeAll_fits {m : Marks} {cs : List Cause} : ∀ (ws : List (Nat × Word)) (s : State), s.Fits m →
    (writeAll ws s).Fits m cs
  | [], _, h => h
  | (_, _) :: ws, _, h => Flow.Fits.issues h rfl (by simp [Task.causes]) rfl fun _ _ ha =>
      writeAll_fits ws _ ((State.agrees_setBitsOut _ _).fits ((State.agrees_answer ha rfl).fits h))

theorem State.Fits.opened {s : State} {m : Marks} (h : s.Fits m) (ho : s.ports.ob.isOpen = true) : s.Fits { m with sent := true } :=
  { h with sent := fun _ => ho }

/-- A code's bits open the stream at port OB. -/
theorem writeCode_fits {s : State} {m : Marks} {cs : List Cause} (h : s.Fits m) {c : Code} (hc : c.len ≠ 0) :
    (writeAll c.writes s).Fits { m with sent := true } cs := by
  cases hw : c.writes with
  | nil =>
    exfalso
    have := congrArg List.length hw
    simp only [Code.writes, Code.path, List.length_map, List.length_range, List.length_nil] at this
    exact hc (BitVec.eq_of_toNat_eq this)
  | cons w ws =>
    obtain ⟨n, v⟩ := w
    refine Flow.Fits.port (m₀ := { m with sent := true }) (((s.agrees_waitOn _ _).fits h).opened rfl) rfl
      (List.forall_mem_singleton.2 nofun) (List.forall_mem_singleton.2 rfl) fun a ps ha => ?_
    refine writeAll_fits ws _ ((State.agrees_setBitsOut _ _).fits (((State.agrees_answer ha rfl).fits h).opened ?_))
    unfold Ports.answer at ha
    split at ha
    · cases ha
    · cases ha; rfl

theorem enSymbol_fits {s : State} {m : Marks} (h : s.Fits m) (hm : m.codes = true) {v : Symbol} (hv : v.toNat ≤ 256) :
    (enSymbolBody v s).Fits { m with sent := true } [.encNoCode] := by
  obtain ⟨c, e⟩ := h.readCode hm hv
  rw [enSymbolBody, e, Flow.ofExcept_ok]
  split
  · exact List.mem_singleton.2 rfl
  · exact (writeCode_fits h ‹_›).andThen_one (fun _ h' => (State.agrees_setResult _ _).fits h') rfl (by simp [Task.causes]) rfl

theorem encLoop_fits {m : Marks} (hm : m.codes = true) : ∀ (n : Nat) (s : State), s.Fits m → (encLoop n s).Fits m [.encNoCode]
  | 0, s, h => Flow.Fits.waits h (by rw [Task.marks_encLoop, if_pos hm]) (by simp [Task.causes]) rfl
  | n + 1, s, h => by
    refine Flow.Fits.issues h (by rw [Task.marks_encLoop, if_pos hm]) (by simp [Task.causes]) rfl fun a ps ha => ?_
    have h' := (State.agrees_answer ha rfl).fits h
    cases a with
    | byte b =>
      refine Flow.Fits.andThen_one (m := m) ?_ (fun s h => encLoop_fits hm n s h) (by rw [Task.marks_encLoop, if_pos hm]) (by simp [Task.causes]) rfl
      obtain ⟨c, e⟩ := h'.readCode hm (v := symbolOfByte b) (by rw [symbolOfByte_toNat]; have := b.isLt; omega)
      rw [encodeByte, e, Flow.ofExcept_ok]
      split
      · exact List.mem_singleton.2 rfl
      · exact (writeAll_fits _ _ h').andThen_one (fun _ h' => (State.agrees_setBytesIn _ _).fits h') rfl (by simp [Task.causes]) rfl
    | done => exact h'
    | bits v => exact h'
    | eos => exact h'

/-- The end of EN_CLOSE (45_encoder.md rule R246). -/
theorem enClosed_fits {s : State} {m : Marks} (h : s.Fits m) : (enClosedBody s).Fits { m with shut := false } [] :=
  { h with stream := fun _ => nofun }

theorem writeTree_fits {s : State} {m : Marks} (h : s.Fits m) (hm : m.tree = true) : (writeTreeBody s).Fits m [] := by
  obtain ⟨t, hv, ht⟩ := h.root (h.tree hm)
  have hd := t.depth_le
  have := (t.valid_iff.1 hv).2.1
  obtain ⟨ws, e, -⟩ := emit_header ht (Config.maxInternal + 1) (by simp only [Config.maxInternal]; omega)
  rw [writeTreeBody, e, Flow.ofExcept_ok]
  exact (writeAll_fits ws s h).andThen_one (fun _ h' => (State.agrees_setResult _ _).fits h') rfl (by simp [Task.causes]) rfl

/-! ### Header deserializer -/

theorem readMagic_fits {s : State} {m : Marks} (h : s.Fits m) : (readMagicBody s).Fits m [.fmtMagicEos, .fmtBadMagic] := by
  have h₁ : (s.setStatus { s.status with magicOk := false }).Fits m :=
    h.setStatus rfl rfl rfl rfl rfl
  refine Flow.Fits.issues h₁ rfl (by simp [Task.causes]) rfl fun a ps ha => ?_
  have h' := (State.agrees_answer ha rfl).fits h₁
  cases a with
  | bits v =>
    dsimp only
    split
    · exact (State.agrees_setResult _ _).fits (((State.agrees_setBitsIn _ _).fits h').setStatus rfl rfl rfl rfl rfl)
    · exact List.mem_cons_of_mem _ (List.mem_singleton.2 rfl)
  | done => exact List.mem_cons_self
  | byte b => exact List.mem_cons_self
  | eos => exact List.mem_cons_self

/-- A state further on in the header. -/
theorem State.Fits.read {s t : State} {m : Marks} {g : Stage} (h : s.Fits (m.at g)) (hg : g.bare = true) (hf : t.mem.freq = s.mem.freq)
    (hw : t.total = s.total) (hst : t.status = s.status) (hp : s.ports.ob.isOpen = true → t.ports.ob.isOpen = true) {g' : Stage}
    (hg' : g' ≠ .leaf) (hr : t.reading g') : t.Fits (m.at g') := by
  obtain ⟨h₁, h₂, h₃, -⟩ := h.header hg
  refine .invalid (by rw [hst]; exact h₁) (by rw [hst]; exact h₂) (by rw [hst]; exact h₃) ?_ (fun x => by rw [hst]; exact h.freq x) rfl rfl rfl rfl
    (fun x y => hp (h.stream x (by rw [← hst]; exact y))) (fun x => hp (h.sent x)) (fun x => absurd x hg') fun _ => hr
  simpa only [State.freqOk, hf, hw, hst] using h.freqOk

theorem readInternal_fits {s : State} {m m' : Marks} {g : Stage} (h : s.Fits (m.at g)) (hg : g.bare = true) {k : State → Flow}
    (hn : s.mem.nodes.length ≤ 512)
    (hr : s.seq.icount ≠ 256 → Partial (s.mem.nodes ++ [internalNode 0 0 0])
      ((BitVec.ofNat 10 s.mem.nodes.length, false) :: s.seq.stack) (s.seq.icount + 1))
    (hk : ∀ t, t.Fits (m.at .inside) → (k t).Fits m' headerCauses) : (readInternal s k).Fits m' headerCauses := by
  unfold readInternal
  split
  · simp [Flow.Fits, headerCauses]
  · rename_i hi
    rw [Memory.alloc, if_pos (by simp only [Config.maxNodes]; omega), Flow.ofExcept_ok]
    exact hk _ (h.read (t := (s.setMem { s.mem with nodes := s.mem.nodes ++ [internalNode 0 0 0] }).setSeq
      { s.seq with stack := (BitVec.ofNat 10 s.mem.nodes.length, false) :: s.seq.stack, icount := s.seq.icount + 1 }) hg rfl rfl rfl id (g' := .inside) nofun (hr hi))

theorem hdRoot_fits {s : State} {m : Marks} (h : s.Fits (m.at .start)) : (hdRootBody s).Fits (m.at .inside) headerCauses := by
  refine Flow.Fits.issues h rfl (by simp [Task.causes]) rfl fun a ps ha => ?_
  have h' := (State.agrees_answer ha rfl).fits h
  cases a with
  | bits v =>
    dsimp only
    split
    · simp [Flow.Fits, headerCauses]
    · have h₂ := (State.agrees_setBitsIn (s.setPorts ps) ((s.setPorts ps).bitsIn + BitVec.ofNat 32 1)).fits h'
      obtain ⟨-, -, -, hn, hs, hi⟩ := h.header rfl
      refine readInternal_fits h₂ rfl ?_ (fun _ => ?_) fun t ht => ht
      · show s.mem.nodes.length ≤ 512
        rw [hn]; decide
      · show Partial (s.mem.nodes ++ _) ((BitVec.ofNat 10 s.mem.nodes.length, false) :: s.seq.stack) (s.seq.icount + 1)
        rw [hn, hs, hi]
        exact Partial.root
  | done => simp [Flow.Fits, headerCauses]
  | byte b => simp [Flow.Fits, headerCauses]
  | eos => simp [Flow.Fits, headerCauses]

theorem hdLeaf_fits {s : State} {m : Marks} (h : s.Fits (m.at .value)) : (hdLeafBody s).Fits (m.at .inside) headerCauses := by
  refine Flow.Fits.issues h rfl (by simp [Task.causes]) rfl fun a ps ha => ?_
  have h' := (State.agrees_answer ha rfl).fits h
  cases a with
  | bits v =>
    dsimp only
    split
    · simp [Flow.Fits, headerCauses]
    · rename_i hv
      obtain ⟨-, -, -, hp, hs⟩ := h.header rfl
      have hlen := hp.room hs
      have hv' : (v.setWidth 9 : Symbol).toNat ≤ 256 := by rw [BitVec.toNat_setWidth]; exact le_trans (Nat.mod_le _ _) (by omega)
      obtain ⟨m', st', e, hp'⟩ := hp.leaf hs hv'
      have ea : ((s.setPorts ps).addBitsIn 9).mem.alloc (leafNode (v.setWidth 9) 0) =
          .ok (BitVec.ofNat 10 s.mem.nodes.length, { s.mem with nodes := s.mem.nodes ++ [leafNode (v.setWidth 9) 0] }) := by
        show s.mem.alloc _ = _
        rw [Memory.alloc, if_pos (by simp only [Config.maxNodes]; omega)]
      rw [ea, Flow.ofExcept_ok]
      dsimp only
      rw [show (s.setPorts ps).seq.stack = s.seq.stack from rfl, e, Flow.ofExcept_ok]
      exact h'.read (t := (((s.setPorts ps).addBitsIn 9).setMem m').setSeq { s.seq with stack := st' }) rfl (Memory.follows_returnChild _ e).1 rfl rfl id (g' := .inside) nofun hp'
  | done => simp [Flow.Fits, headerCauses]
  | byte b => simp [Flow.Fits, headerCauses]
  | eos => simp [Flow.Fits, headerCauses]

theorem hdLoop_fits {m : Marks} : ∀ (n : Nat) (s : State), s.Fits (m.at .inside) →
    (hdLoop n s).Fits (m.at .whole) headerCauses
  | 0, s, h => Flow.Fits.waits h rfl (by simp [Task.causes]) rfl
  | n + 1, s, h => by
    obtain ⟨-, -, -, hp⟩ := h.header rfl
    unfold hdLoop
    split
    · rename_i hs
      exact h.read rfl rfl rfl rfl id (g' := .whole) nofun ⟨hp, hs⟩
    · rename_i hs
      refine Flow.Fits.issues h rfl (by simp [Task.causes]) rfl fun a ps ha => ?_
      have h' := (State.agrees_setBitsIn (s.setPorts ps) ((s.setPorts ps).bitsIn + BitVec.ofNat 32 1)).fits
        ((State.agrees_answer ha rfl).fits h)
      cases a with
      | bits v =>
        dsimp only
        split
        · refine (hdLeaf_fits (h'.read rfl rfl rfl rfl id (g' := .value) nofun ⟨hp, hs⟩)).andThen_one (fun t ht => hdLoop_fits n t ht) rfl
            (by simp [Task.causes]) rfl
        · exact readInternal_fits h' rfl (hp.room hs) (fun hi => hp.internal hs hi) fun t ht => hdLoop_fits n t ht
      | done => simp [Flow.Fits, headerCauses]
      | byte b => simp [Flow.Fits, headerCauses]
      | eos => simp [Flow.Fits, headerCauses]

/-- HD_READ_TREE's start (44_header_codec.md rule R217). -/
theorem hdStart_fits {s : State} {m : Marks} (h : s.Fits m) : (hdStartBody s).Fits (m.at .start) [] :=
  State.Fits.invalid (t := ((s.setStatus { s.status.invalidateTree with eofSeen := false }).setMem s.mem.clearTree).setSeq
    { s.seq with stack := [], icount := 0 }) (m := m.at .start) rfl rfl rfl h.freqOk h.freq rfl rfl rfl rfl h.stream h.sent nofun
    fun _ => ⟨rfl, rfl, rfl⟩

/-- FINISH (44_header_codec.md rule R219). -/
theorem hdFinish_fits {s : State} {m : Marks} (h : s.Fits (m.at .whole)) :
    (hdFinishBody s).Fits { m.at .none with tree := true } [] := by
  obtain ⟨h₁, h₂, h₃, hp, hs⟩ := h.header rfl
  have ht : ∃ t : Shape, t.valid = true ∧ TreeAt s.mem.nodes 0 t := by
    rcases hp with ⟨fs, hne, -, hst, -⟩ | ⟨t, hv, hn, -, -⟩
    · exfalso
      rw [hs] at hst
      cases fs with
      | nil => exact hne rfl
      | cons f fs => cases f <;> cases hst
    · exact ⟨t, hv, hn ▸ Shape.nodesAt_root hv⟩
  exact {
    freqOk := h.freqOk
    queueOk := fun x => by
      have : s.status.heapLoaded = true := x
      rw [h₁] at this; cases this
    root := fun _ => ht
    cur := fun _ _ => State.rootOk.curOk ht rfl
    codesOk := fun x => by
      have : s.status.codesValid = true := x
      rw [h₃] at this; cases this
    stream := h.stream
    freq := h.freq
    heap := nofun
    tree := fun _ => rfl
    codes := nofun
    distinct := nofun
    sent := h.sent
    leaf := nofun
    header := nofun }

/-! ### Decoder -/

/-- DE_STEP at the emission of the leaf CUR (46_decoder.md rules R260, R261). -/
theorem deEmit_fits {s : State} {m : Marks} {d : Bool} {cs : List Cause} (h : s.Fits { m with stage := .leaf })
    (hm : m.tree = true) : (deEmitBody d s).Fits { m with stage := .none } cs := by
  obtain ⟨p, nd, -, hn, -⟩ := h.leaf rfl
  have back : ∀ t : State, t.Fits { m with stage := .leaf } → (t.setCur t.root).Fits { m with stage := .none } := fun t ht =>
    { ht with
      cur := fun x _ => State.rootOk.curOk (ht.root x) rfl
      leaf := nofun
      header := nofun }
  rw [deEmitBody, Memory.readNode, hn, Flow.ofExcept_ok]
  split
  · exact back _ ((State.agrees_setResult _ _).fits (h.setStatus rfl rfl rfl rfl rfl))
  · refine Flow.Fits.issues h (by rw [Task.marks_deEmit]; simp [hm]) (by simp [Task.causes]) rfl fun a ps ha => ?_
    exact back _ ((State.agrees_setResult _ _).fits ((State.agrees_setBytesOut _ _).fits ((State.agrees_answer ha rfl).fits h)))

theorem deStep_fits {s : State} {m : Marks} (h : s.Fits m) (hm : m.tree = true) (hs : m.stage = .none) :
    (deStepBody s).Fits m [.fmtBodyEos] := by
  refine Flow.Fits.issues h (by rw [Task.marks_deStep]; simp [hm, hs]) (by simp [Task.causes]) rfl fun a ps ha => ?_
  have h' := (State.agrees_setBitsIn (s.setPorts ps) ((s.setPorts ps).bitsIn + BitVec.ofNat 32 1)).fits
    ((State.agrees_answer ha rfl).fits h)
  cases a with
  | bits v =>
    have htv := h.tree hm
    obtain ⟨t, hval, ht⟩ := h.root htv
    obtain ⟨p, hp, nd, hn, hl⟩ := h.cur htv (by rw [hs]; nofun)
    have hw := walkTo_snoc hp hn hl (decide (v = 1))
    obtain ⟨u, hu, -⟩ := walkTo_treeAt ht hw
    obtain ⟨child, hc⟩ := hu.get
    show (deMove (decide (v = 1)) ((s.setPorts ps).addBitsIn 1)).Fits m [.fmtBodyEos]
    rw [deMove, show ((s.setPorts ps).addBitsIn 1).mem.readNode ((s.setPorts ps).addBitsIn 1).cur = .ok nd by
      show s.mem.readNode s.cur = _; rw [Memory.readNode, hn], Flow.ofExcept_ok,
      show ((s.setPorts ps).addBitsIn 1).mem.readNode (if decide (v = 1) then nd.right else nd.left) = .ok child by
        show s.mem.readNode _ = _; rw [Memory.readNode, hc], Flow.ofExcept_ok]
    generalize (if decide (v = 1) then nd.right else nd.left) = c at *
    split
    · have : m = { m with stage := .none } := by rw [← hs]
      rw [this]
      exact deEmit_fits (m := m) { h' with
        cur := fun _ x => absurd rfl x
        leaf := fun _ => ⟨_, child, hw, hc, ‹_›⟩
        header := nofun } hm
    · exact { h' with
        cur := fun _ _ => ⟨_, hw, child, hc, by simpa using ‹¬ child.leaf = true›⟩
        leaf := fun x => by rw [hs] at x; cases x
        header := fun x => by rw [hs] at x; cases x }
  | done => exact List.mem_singleton.2 rfl
  | byte b => exact List.mem_singleton.2 rfl
  | eos => exact List.mem_singleton.2 rfl

theorem deLoop_fits {m : Marks} (hm : m.tree = true) (hs : m.stage = .none) : ∀ (n : Nat) (s : State), s.Fits m →
    (deLoop n s).Fits m [.fmtBodyEos]
  | 0, s, h => by
    unfold deLoop
    split
    · exact h
    · exact Flow.Fits.waits h (by rw [Task.marks_deLoop]; simp [hm, hs]) (by simp [Task.causes]) rfl
  | n + 1, s, h => by
    unfold deLoop
    split
    · exact h
    · exact (deStep_fits h hm hs).andThen_one (fun s h => deLoop_fits hm hs n s h) (by rw [Task.marks_deLoop]; simp [hm, hs])
        (by simp [Task.causes]) rfl

/-! ### All parts -/

theorem fcInit_fits {s : State} {m : Marks} (h : s.Fits m) : (fcInitBody s).Fits
    { m with freq := true, heap := false, tree := false, codes := false, distinct := false } [] := by
  refine State.Fits.invalid (t := (((s.setMem { s.mem with freq := initialFreq }).setTotal 1).setStatus
    { s.status.invalidateTree with freqValid := true }).setResult 1) rfl rfl rfl (fun _ => initialFreq_ok) (fun _ => rfl)
    rfl rfl rfl rfl h.stream h.sent h.leaf fun x => ?_
  have := (h.header x).2.2.2
  cases hm : m.stage <;> rw [hm] at this <;> exact this

theorem fcAdd_fits {s : State} {m : Marks} (h : s.Fits m) (hm : m.freq = true) (b : Byte) : (fcAddBody b s).Fits
    { m with heap := false, tree := false, codes := false, distinct := false } [.cntOverflow] := by
  refine countByte_fits (h.table hm) fun c f w hf => (State.agrees_setResult _ _).fits ?_
  refine State.Fits.invalid (t := (((s.setMem { s.mem with freq := f }).setTotal w).invalidateTree)) rfl rfl rfl (fun _ => hf) h.freq
    rfl rfl rfl rfl h.stream h.sent h.leaf fun x => ?_
  have := (h.header x).2.2.2
  cases hm : m.stage <;> rw [hm] at this <;> exact this

theorem State.Fits.setSeq {s : State} {m : Marks} (h : s.Fits m) {v : Seq} (h₁ : v.stack = s.seq.stack)
    (h₂ : v.icount = s.seq.icount) : (s.setSeq v).Fits m :=
  State.Agrees.fits (s := s) (t := s.setSeq v) ⟨rfl, rfl, rfl, rfl, rfl, rfl, rfl, rfl, rfl, id, h₁, h₂⟩ h

theorem State.Fits.scanStart {s : State} {m : Marks} (h : s.Fits m) : s.invalidateTree.Fits (m.at .counting) :=
  State.Fits.invalid (t := s.invalidateTree) (m := m.at .counting) rfl rfl rfl h.freqOk h.freq rfl rfl rfl rfl h.stream h.sent
    nofun fun _ => trivial

/-- What a part that closes an output does: it ends, or a port holds it. EOF_WRITTEN follows EN_CLOSE's `ob_close` at the command's
end (45_encoder.md rule R246). -/
theorem close_fits {t : Task} {m m' : Marks} {s : State} (hc : t.closing = true) (ht : t.marks m = some m') (h : s.Fits m) :
    (∃ z, runTask t s = .ok z ∧ z.Fits m') ∨ ∃ q, runTask t s = .hold (s.waitOn q [t]) := by
  have port : ∀ q, (∀ a ps, s.ports.answer q = some (a, ps) → (s.setPorts ps).Fits m') →
      (∃ z, (s.port q [t] fun _ s' => .ok s') = .ok z ∧ z.Fits m') ∨
        ∃ q', (s.port q [t] fun _ s' => .ok s') = .hold (s.waitOn q' [t]) := fun q hq => by
    unfold State.port
    split
    · exact .inl ⟨_, rfl, hq _ _ ‹_›⟩
    · exact .inr ⟨q, rfl⟩
  cases t with
  | obClose =>
    cases ht
    exact port .obClose fun a ps _ => { h with
      stream := nofun
      sent := nofun }
  | boClose => cases ht; exact port .boClose fun a ps ha => (State.agrees_answer ha rfl).fits h
  | _ => cases hc

/-- What every other part of a body does where what it needs is known: it ends with what `Task.marks` says known, a port holds it with
that still to come, or it raises one of its causes. It never stops the model. -/
theorem task_fits {t : Task} {m m' : Marks} {s : State} (hc : t.closing = false) (ht : t.marks m = some m') (h : s.Fits m) :
    (runTask t s).Fits m' (t.causesAt m) := by
  have one : ∀ {p : Prop} [Decidable p] {x : Marks}, (if p then some x else none) = some m' → p ∧ x = m' := fun h => by
    split at h
    · cases h; exact ⟨‹_›, rfl⟩
    · cases h
  have two : ∀ {a b : Bool} {x : Marks}, (if (a && b) = true then some x else none) = some m' →
      a = true ∧ b = true ∧ x = m' := fun h => by
    obtain ⟨hc, hx⟩ := one h
    exact ⟨(Bool.and_eq_true _ _ ▸ hc).1, (Bool.and_eq_true _ _ ▸ hc).2, hx⟩
  cases t with
  | phase op => cases ht; exact h.setSeq rfl rfl
  | fcInit => cases ht; exact fcInit_fits h
  | fcAdd b => obtain ⟨hm, rfl⟩ := one ht; exact fcAdd_fits h hm b
  | scanStart =>
    obtain ⟨-, rfl⟩ := one ht
    exact (State.agrees_setBytesIn _ _).fits h.scanStart
  | scan =>
    obtain ⟨hm, hs, rfl⟩ := two ht
    exact scanLoop_fits hm _ s ((of_decide_eq_true hs : m.stage = .counting) ▸ h.bare)
  | fcRead v =>
    obtain ⟨hm, hv, rfl⟩ := two ht
    have hf := (h.table hm).1
    have hv' : v.toNat ≤ 256 := of_decide_eq_true hv
    refine Flow.Fits.ofExcept (a := s.mem.freq[v.toNat]'(by rw [hf]; simp only [Config.numSymbols]; omega)) ?_
      ((State.agrees_setResult _ _).fits h)
    rw [Memory.readFreq, List.getElem?_eq_getElem]
  | tbLoad => obtain ⟨hm, hs, rfl⟩ := two ht; exact tbLoad_fits h hm (of_decide_eq_true hs)
  | tbStep => obtain ⟨hm, hs, rfl⟩ := two ht; exact tbStep_fits h hm (of_decide_eq_true hs)
  | tbMerge => obtain ⟨hm, hs, rfl⟩ := two ht; exact tbMerge_fits h hm (of_decide_eq_true hs)
  | rootResult => cases ht; exact (State.agrees_setResult _ _).fits h
  | nodeRead n =>
    cases ht
    show (nodeReadBody n s).Fits m [.illegalOperand]
    unfold nodeReadBody
    split
    · rename_i hn
      refine Flow.Fits.ofExcept (a := s.mem.nodes[n.toNat]'(of_decide_eq_true (by exact hn))) ?_ ((State.agrees_setResult _ _).fits
        ((State.agrees_setNodeOut _ _).fits h))
      rw [Memory.readNode, List.getElem?_eq_getElem]
    · exact List.mem_singleton.2 rfl
  | cgGen => obtain ⟨hm, rfl⟩ := one ht; exact cgGen_fits h hm
  | cgLookup v =>
    obtain ⟨hm, hv, rfl⟩ := two ht
    obtain ⟨c, e⟩ := h.readCode hm (of_decide_eq_true hv : v.toNat ≤ 256)
    exact Flow.Fits.ofExcept e ((State.agrees_setCodeOut _ _).fits ((State.agrees_setResult _ _).fits h))
  | writeMagic =>
    cases ht
    exact (writeAll_fits _ s h).andThen_one (fun _ h' => (State.agrees_setResult _ _).fits h') rfl (by simp [Task.causes]) rfl
  | writeTree => obtain ⟨hm, rfl⟩ := one ht; exact writeTree_fits h hm
  | writes ws => cases ht; exact writeAll_fits ws s h
  | setResult v => cases ht; exact (State.agrees_setResult _ _).fits h
  | readMagic => cases ht; exact readMagic_fits h
  | hdStart => cases ht; exact hdStart_fits h
  | hdRoot =>
    obtain ⟨hs, rfl⟩ := one ht
    exact hdRoot_fits (hs ▸ h.bare)
  | hdTree =>
    obtain ⟨hs, rfl⟩ := one ht
    exact hdLoop_fits _ s (hs ▸ h.bare)
  | hdLeaf =>
    obtain ⟨hs, rfl⟩ := one ht
    exact hdLeaf_fits (hs ▸ h.bare)
  | hdFinish =>
    obtain ⟨hs, rfl⟩ := one ht
    exact hdFinish_fits (hs ▸ h.bare)
  | enSymbol v => obtain ⟨hm, hv, rfl⟩ := two ht; exact enSymbol_fits h hm (of_decide_eq_true hv : v.toNat ≤ 256)
  | eofWritten =>
    obtain ⟨hm, rfl⟩ := one ht
    exact { h with stream := fun _ _ => h.sent hm }
  | ibRewind => cases ht; exact Flow.Fits.issues h rfl nofun rfl fun _ _ ha => (State.agrees_answer ha rfl).fits h
  | bytesInClear => cases ht; exact (State.agrees_setBytesIn _ _).fits h
  | bytesInNext => cases ht; exact (State.agrees_setBytesIn _ _).fits h
  | encLoop => obtain ⟨hm, rfl⟩ := one ht; exact encLoop_fits hm _ s h
  | bytesInResult => cases ht; exact (State.agrees_setResult _ _).fits h
  | bitsOutResult => cases ht; exact (State.agrees_setResult _ _).fits h
  | obClose => cases hc
  | ibRelease => cases ht; exact Flow.Fits.issues h rfl nofun rfl fun _ _ ha => (State.agrees_answer ha rfl).fits h
  | enClosed => cases ht; exact enClosed_fits h
  | deStep => obtain ⟨hm, hs, rfl⟩ := two ht; exact deStep_fits h hm (of_decide_eq_true hs)
  | deEmit d =>
    obtain ⟨hm, hs, rfl⟩ := two ht
    exact deEmit_fits ((of_decide_eq_true hs : m.stage = .leaf) ▸ h) hm
  | deLoop => obtain ⟨hm, hs, rfl⟩ := two ht; exact deLoop_fits hm (of_decide_eq_true hs) _ s h
  | bytesOutResult => cases ht; exact (State.agrees_setResult _ _).fits h
  | boClose => cases hc
  | biRelease => cases ht; exact Flow.Fits.issues h rfl nofun rfl fun _ _ ha => (State.agrees_answer ha rfl).fits h
  | deClosed =>
    cases ht
    exact ((State.agrees_setBitsIn _ _).fits ((State.agrees_setBytesOut _ _).fits h)).setStatus rfl rfl rfl rfl rfl

end Sys2Proof.Machine
end

