-- ==== Sys2Proof/Laws/Running.lean ====
section
/-! SUPPORT. A command from its acceptance to its end, wherever its ports hold it and whatever the host and the collaborators do
meanwhile: it ends in a sound engine, or with an error of its own (20_memory.md rule R66, 40_control.md rules R121 to R127,
60_exceptions.md rule R303). -/

namespace Sys2Proof.Machine

/-- The streams committed at the two output ports. -/
def State.commits (s : State) : List (List Byte) × List (List Byte) := (s.ports.ob.committed, s.ports.bo.committed)

/-- The parts `ts` can run: what they need is known, they can raise the errors `R` alone, and where they can raise one, nothing
but `oc` is committed. -/
def State.Left (R : List (Cause × Byte)) (oc : List (List Byte) × List (List Byte)) (z : State) (ts : List Task) : Prop :=
  ∃ m m', z.Fits m ∧ marksAll ts m = some m' ∧ m'.stage = .none ∧ m'.shut = false ∧
    (∀ x ∈ errorsAll z.seq.phase ts m, x ∈ R) ∧ ((z.commits = oc ∧ closesLast ts = true) ∨ ∀ t ∈ ts, t.causes = [])

/-- Where such parts come to. -/
def Flow.Lands (R : List (Cause × Byte)) (oc : List (List Byte) × List (List Byte)) : Flow → Prop
  | .ok z => ∃ m, z.Fits m ∧ m.stage = .none ∧ m.shut = false
  | .hold z => z.Left R oc z.seq.tasks
  | .raise c _ _ z => (c, z.seq.phase) ∈ R ∧ z.commits = oc
  | .fault _ => False

variable {R : List (Cause × Byte)} {oc : List (List Byte) × List (List Byte)}

theorem runTasks_lands : ∀ (ts : List Task) (z : State), z.Left R oc ts → (runTasks ts z).Lands R oc
  | [], z, ⟨m, m', hf, hm, hs, hu, _, _⟩ => by cases hm; exact ⟨m, hf, hs, hu⟩
  | t :: ts, z, ⟨m, m', hf, hm, hs, hu, hR, hc⟩ => by
    rw [runTasks_cons]
    simp only [marksAll] at hm
    cases h₁ : t.marks m with
    | none => rw [h₁] at hm; cases hm
    | some m₁ =>
    rw [h₁] at hm
    by_cases hp : t.isPhase = true
    · cases t with
      | phase op =>
        cases h₁
        exact runTasks_lands ts _ ⟨m, m', hf.setSeq rfl rfl, hm, hs, hu, hR, by
          rcases hc with ⟨hc, hl⟩ | hc
          · exact .inl ⟨hc, hl⟩
          · exact .inr fun u hu => hc u (by simp [hu])⟩
      | _ => cases hp
    have hp' : t.isPhase = false := by simpa using hp
    have htr := task_tracks t hp' z rfl
    rw [errorsAll_cons hp' h₁] at hR
    by_cases ht : t.closing = true
    · have hq : ∀ u ∈ t :: ts, u.causes = [] := by
        rcases hc with ⟨-, hl⟩ | hc
        · rw [closesLast, if_pos ht] at hl
          simpa [List.all_eq_true] using hl
        · exact hc
      rcases close_fits ht h₁ hf with ⟨y, e, hy⟩ | ⟨q, e⟩
      · rw [e] at htr ⊢
        have hph : y.seq.phase = z.seq.phase := congrArg (·.2.1) htr
        exact runTasks_lands ts y ⟨m₁, m', hy, hm, hs, hu, by rw [hph]; exact fun x hx => hR x (List.mem_append_right _ hx),
          .inr fun u hu => hq u (by simp [hu])⟩
      · rw [e]
        refine ⟨m, m', ((z.agrees_waitOn q [t]).trans (State.agrees_pushTasks _ ts)).fits hf, ?_, hs, hu, ?_, .inr hq⟩
        · show marksAll (t :: ts) m = some m'
          rw [marksAll, h₁]; exact hm
        · show ∀ x ∈ errorsAll z.seq.phase (t :: ts) m, x ∈ R
          rw [errorsAll_cons hp' h₁]; exact hR
    have ht' : t.closing = false := by simpa using ht
    have hfit := task_fits ht' h₁ hf
    have hcom : (runTask t z).Carries fun s => s.commits = z.commits :=
      Flow.Carries.mono (fun s h => Prod.ext h.1 h.2) ((kept_committed z.ports.ob.committed z.ports.bo.committed).task t z
        (fun h => by rw [ht'] at h; cases h) ⟨rfl, rfl⟩)
    have hquiet : ∀ y : State, y.commits = z.commits → (y.commits = oc ∧ closesLast ts = true) ∨ ∀ u ∈ ts, u.causes = [] := by
      intro y hy
      rcases hc with ⟨hc, hl⟩ | hc
      · rw [closesLast, if_neg ht] at hl
        exact .inl ⟨hy.trans hc, hl⟩
      · exact .inr fun u hu => hc u (by simp [hu])
    cases e : runTask t z with
    | ok y =>
      rw [e] at hfit htr hcom
      have hph : y.seq.phase = z.seq.phase := congrArg (·.2.1) htr
      exact runTasks_lands ts y ⟨m₁, m', hfit, hm, hs, hu, by rw [hph]; exact fun x hx => hR x (List.mem_append_right _ hx),
        hquiet y hcom⟩
    | hold y =>
      rw [e] at hfit htr hcom
      obtain ⟨m₀, f₁, f₂, f₃, f₄⟩ := hfit
      have f₅ : ∀ u ∈ y.seq.tasks, u.isPhase = false := fun u hu => (u.plain_iff.1 (f₄ u hu)).1
      have f₆ : ∀ u ∈ y.seq.tasks, u.closing = false := fun u hu => (u.plain_iff.1 (f₄ u hu)).2
      have hph : y.seq.phase = z.seq.phase := congrArg (·.2.1) htr
      refine ⟨m₀, m', (y.agrees_pushTasks ts).fits f₁, ?_, hs, hu, ?_, ?_⟩
      · show marksAll (y.seq.tasks ++ ts) m₀ = some m'
        rw [marksAll_append, f₂]; exact hm
      · show ∀ x ∈ errorsAll y.seq.phase (y.seq.tasks ++ ts) m₀, x ∈ R
        intro x hx
        rcases errorsAll_append f₅ f₂ x hx with ⟨h₁, u, hu, hc⟩ | h
        · refine hR x (List.mem_append_left _ (List.mem_map.2 ⟨x.1, f₃ u hu _ hc, ?_⟩))
          rw [← hph, ← h₁]
        · rw [hph] at h
          exact hR x (List.mem_append_right _ h)
      · show ((y.commits = oc) ∧ closesLast (y.seq.tasks ++ ts) = true) ∨ ∀ u ∈ y.seq.tasks ++ ts, u.causes = []
        rcases hc with ⟨hc, hl⟩ | hc
        · rw [closesLast, if_neg ht] at hl
          exact .inl ⟨Eq.trans hcom hc, by rw [closesLast_append f₆]; exact hl⟩
        · refine .inr fun u hu => ?_
          rcases List.mem_append.1 hu with hu | hu
          · rw [List.eq_nil_iff_forall_not_mem]
            intro c hcu
            have := t.causesAt_subset m c (f₃ u hu c hcu)
            rw [hc t (by simp)] at this
            cases this
          · exact hc u (by simp [hu])
    | raise c x y u =>
      rw [e] at hfit htr hcom
      refine ⟨hR _ (List.mem_append_left _ (List.mem_map.2 ⟨c, hfit, by rw [← show u.seq.phase = z.seq.phase from congrArg (·.2.1) htr.2]⟩)), ?_⟩
      rcases hc with ⟨hc, -⟩ | hc
      · exact Eq.trans hcom hc
      · have := htr.1
        rw [hc t (by simp)] at this
        cases this
    | fault g => rw [e] at hfit; exact hfit

/-! ### The engine while it is busy, and when it is no more -/

/-- The streams that the cleanup primitives left to do will still close; all others are closed. -/
def Ports.closedBut (ps : Ports) (todo : List Prim) : Prop :=
  (.obAbort ∉ todo → ps.ob.isOpen = false) ∧ (.boAbort ∉ todo → ps.bo.isOpen = false) ∧
    (.ibRelease ∉ todo → ps.ib.isOpen = false) ∧ (.biRelease ∉ todo → ps.bi.isOpen = false)

/-- The error entry of such a command: the error is recorded, with one of the errors `R`, no flag of STATUS[10:4] is 1, and the cleanup
primitives `todo` are still to be answered. -/
structure State.Cleaning (op : Byte) (R : List (Cause × Byte)) (oc : List (List Byte) × List (List Byte)) (todo : List Prim)
    (z : State) : Prop where
  status : z.status = { busy := z.status.busy, err := true, reject := z.status.reject }
  opcode : z.errCause.opcode = op
  cause : (z.errCause.cause, z.errCause.phase) ∈ R
  commits : z.commits = oc
  closed : z.ports.closedBut todo
  prims : ∀ p ∈ todo, p ∈ cleanupPrims

/-- A command with opcode `op` that can raise the errors `R` runs, or its error entry does. -/
structure State.Busy (op : Byte) (R : List (Cause × Byte)) (oc : List (List Byte) × List (List Byte)) (z : State) : Prop where
  busy : z.status.busy = true
  done : z.status.done = false
  memory : z.mem.wf = true
  rest : (z.status.err = false ∧ z.seq.opcode = op ∧ z.Left R oc z.seq.tasks) ∨ z.Cleaning op R oc z.seq.todo

/-- Such a command is over. -/
structure State.Over (op : Byte) (R : List (Cause × Byte)) (oc : List (List Byte) × List (List Byte)) (z : State) : Prop where
  sound : z.sound
  error : z.status.err = true → z.errCause.opcode = op ∧ (z.errCause.cause, z.errCause.phase) ∈ R ∧ z.commits = oc ∧ z.noStream

variable {op : Byte}

theorem Ports.answer_closedBut {ps q : Ports} {p : Prim} {a : Answer} {todo : List Prim} (h : ps.answer p = some (a, q))
    (hp : p ∈ cleanupPrims) (hc : ps.closedBut (p :: todo)) :
    q.closedBut todo ∧ q.ob.committed = ps.ob.committed ∧ q.bo.committed = ps.bo.committed := by
  have hcom : p.closing = false := by
    simp only [cleanupPrims, List.mem_cons, List.not_mem_nil, or_false] at hp
    rcases hp with rfl | rfl | rfl | rfl <;> rfl
  refine ⟨?_, Ports.answer_committed h hcom⟩
  unfold Ports.answer at h
  split at h
  · cases h
  obtain ⟨c₁, c₂, c₃, c₄⟩ := hc
  simp only [cleanupPrims, List.mem_cons, List.not_mem_nil, or_false] at hp
  rcases hp with rfl | rfl | rfl | rfl <;> simp only [Ports.perform, Option.map_some, Option.some.injEq, Prod.mk.injEq] at h <;>
    obtain ⟨-, rfl⟩ := h
  · refine ⟨fun _ => ?_, fun h => c₂ (by simpa using h), fun h => c₃ (by simpa using h), fun h => c₄ (by simpa using h)⟩
    exact (Ports.cleanup_closed ps).2.1
  · refine ⟨fun h => c₁ (by simpa using h), fun _ => ?_, fun h => c₃ (by simpa using h), fun h => c₄ (by simpa using h)⟩
    exact (Ports.cleanup_closed ps).2.2.2
  · refine ⟨fun h => c₁ (by simpa using h), fun h => c₂ (by simpa using h), fun _ => ?_, fun h => c₄ (by simpa using h)⟩
    exact (Ports.cleanup_closed ps).1
  · refine ⟨fun h => c₁ (by simpa using h), fun h => c₂ (by simpa using h), fun h => c₃ (by simpa using h), fun _ => ?_⟩
    exact (Ports.cleanup_closed ps).2.2.1

/-- A state in which no flag of STATUS[10:4] is 1. -/
theorem State.sound_of_clear {s : State} (h₁ : s.status.busy = false) (h₂ : s.seq = {}) (h₃ : s.mem.wf = true)
    (h₄ : s.status.freqValid = false) (h₅ : s.status.heapLoaded = false) (h₆ : s.status.treeValid = false)
    (h₇ : s.status.codesValid = false) (h₈ : s.status.eofWritten = false) : s.sound where
  notBusy := h₁
  noSequence := h₂
  memory := h₃
  freq := fun h => by rw [h₄] at h; cases h
  queue := fun h => by rw [h₅] at h; cases h
  tree := fun h => by rw [h₆] at h; cases h
  codes := fun h => by rw [h₇] at h; cases h
  stream := fun h => by rw [h₈] at h; cases h

theorem cleanUp_lands : ∀ (todo : List Prim) (z : State), z.status.busy = true → z.mem.wf = true → z.Cleaning op R oc todo →
    (z.cleanUp todo).Busy op R oc ∨ (z.cleanUp todo).Over op R oc
  | [], z, _, hm, h => by
    have hst := h.status
    generalize z.status.busy = b, z.status.reject = r at hst
    refine .inr { sound := State.sound_of_clear rfl rfl hm ?_ ?_ ?_ ?_ ?_
                  error := fun _ => ⟨h.opcode, h.cause, h.commits, h.closed.2.2.1 (by simp), h.closed.1 (by simp),
                    h.closed.2.2.2 (by simp), h.closed.2.1 (by simp)⟩ } <;> simp [State.cleanUp, hst]
  | p :: todo, z, hb, hm, h => by
    cases ha : z.ports.answer p with
    | none =>
      rw [State.cleanUp_held ha]
      exact .inl ⟨hb, (congrArg Status.done h.status).trans rfl, hm, .inr ⟨h.status, h.opcode, h.cause, h.commits, h.closed, h.prims⟩⟩
    | some r =>
      rw [State.cleanUp_answered (a := r.1) (q := r.2) ha]
      obtain ⟨h₁, h₂, h₃⟩ := Ports.answer_closedBut (a := r.1) (q := r.2) ha (h.prims p (by simp)) h.closed
      exact cleanUp_lands todo _ hb hm ⟨h.status, h.opcode, h.cause,
        (show (z.setPorts r.2).commits = z.commits from Prod.ext h₂ h₃).trans h.commits, h₁, fun q hq => h.prims q (by simp [hq])⟩

theorem enterError_lands {c : Cause} {e d : Word} {z : State} (hb : z.status.busy = true) (ho : z.seq.opcode = op)
    (hm : z.mem.wf = true) (hR : (c, z.seq.phase) ∈ R) (hc : z.commits = oc) :
    (z.enterError c e d).Busy op R oc ∨ (z.enterError c e d).Over op R oc :=
  cleanUp_lands _ _ hb hm ⟨rfl, ho, hR, hc, by simp [Ports.closedBut, cleanupPrims], fun _ h => h⟩

theorem kept_busy : Kept true fun s : State => s.status.busy = true ∧ s.status.done = false ∧ s.status.err = false := by
  constructor
  case status => intro s st h₁ h₂ h₃ _ _ p; exact ⟨h₁.trans p.1, h₂.trans p.2.1, h₃.trans p.2.2⟩
  all_goals intros; assumption

/-- The parts of a running command, run as far as the ports let them. -/
theorem finish_lands {ts : List Task} {z : State} (hb : z.status.busy = true) (hd : z.status.done = false)
    (he : z.status.err = false) (ho : z.seq.opcode = op) (hm : z.mem.wf = true) (hl : z.Left R oc ts) :
    ∃ u, (runTasks ts z).finish = .next u ∧ (u.Busy op R oc ∨ u.Over op R oc) := by
  have h₁ := runTasks_lands ts z hl
  have h₂ := kept_busy.tasks ts z (fun _ _ _ => rfl) ⟨hb, hd, he⟩
  have h₃ := (kept_opcode op).tasks ts z (fun _ _ _ => rfl) ho
  have h₄ := kept_wf.tasks ts z (fun _ _ _ => rfl) hm
  cases e : runTasks ts z with
  | ok y =>
    rw [e] at h₁ h₂ h₃ h₄
    obtain ⟨m, hy, hs, hu⟩ := h₁
    refine ⟨_, rfl, .inr { sound := ⟨rfl, rfl, h₄, hy.freqOk, hy.queueOk, ?_, hy.codesOk, hy.stream hu⟩, error := ?_ }⟩
    · exact fun h => ⟨hy.root h, hy.cur h (by rw [hs]; nofun)⟩
    · intro h
      have : y.status.err = true := h
      rw [h₂.2.2] at this
      cases this
  | hold y =>
    rw [e] at h₁ h₂ h₃ h₄
    exact ⟨_, rfl, .inl ⟨h₂.1, h₂.2.1, h₄, .inl ⟨h₂.2.2, h₃, h₁⟩⟩⟩
  | raise c x y u =>
    rw [e] at h₁ h₂ h₃ h₄
    exact ⟨_, rfl, enterError_lands h₂.1 h₃ h₄ h₁.1 h₁.2⟩
  | fault g => rw [e] at h₁; cases h₁

namespace State.Busy

variable {z : State} (h : z.Busy op R oc)
include h

/-- Going on with what a port held. -/
theorem resume : ∃ u, z.resume = .next u ∧ (u.Busy op R oc ∨ u.Over op R oc) := by
  rcases h.rest with ⟨he, ho, m, m', hl⟩ | hc
  · rw [State.resume_running h.busy he]
    exact finish_lands h.busy h.done he ho h.memory ⟨m, m', hl.1.setSeq rfl rfl, hl.2⟩
  · rw [State.resume_failing h.busy ((congrArg Status.err hc.status).trans rfl)]
    exact ⟨_, rfl, cleanUp_lands _ _ h.busy h.memory hc⟩

/-- What the host and the collaborators do meanwhile. -/
theorem agrees {t : State} {r : Bool} (h₁ : t.status = { z.status with reject := r }) (h₂ : t.seq = z.seq) (h₃ : t.mem = z.mem)
    (h₄ : t.root = z.root) (h₅ : t.cur = z.cur) (h₆ : t.total = z.total) (h₇ : t.ports.ob = z.ports.ob) (h₈ : t.ports.bo = z.ports.bo)
    (h₉ : t.ports.ib.isOpen = z.ports.ib.isOpen) (h₁₀ : t.ports.bi.isOpen = z.ports.bi.isOpen)
    (h₁₁ : t.errCause = z.errCause) : t.Busy op R oc where
  busy := by rw [h₁]; exact h.busy
  done := by rw [h₁]; exact h.done
  memory := by rw [h₃]; exact h.memory
  rest := by
    have hag : z.Agrees t := ⟨h₃, h₄, h₅, h₆, by rw [h₁], by rw [h₁], by rw [h₁], by rw [h₁], by rw [h₁], by rw [h₇]; exact id,
      by rw [h₂], by rw [h₂]⟩
    have hco : t.commits = z.commits := by rw [State.commits, h₇, h₈]; rfl
    rw [h₂]
    refine h.rest.imp (fun ⟨he, ho, m, m', k₁, k₂, k₃, k₄, k₅, k₆⟩ => ⟨by rw [h₁]; exact he, ho, m, m', hag.fits k₁, k₂, k₃, k₄,
      by rw [h₂]; exact k₅, by rw [hco]; exact k₆⟩) fun hc =>
      ⟨by rw [h₁]; exact congrArg (fun x : Status => { x with reject := r }) hc.status, by rw [h₁₁]; exact hc.opcode,
        by rw [h₁₁]; exact hc.cause, hco.trans hc.commits, ?_, hc.prims⟩
    simpa only [Ports.closedBut, h₇, h₈, h₉, h₁₀] using hc.closed

end State.Busy

/-- A reset ends everything (40_control.md rule R131, 70_reset_and_hazards.md rule R340). -/
theorem State.softReset_over (z : State) : z.softReset.Over op R oc :=
  ⟨State.sound_of_clear rfl rfl (show Memory.wf {} = true by decide) rfl rfl rfl rfl rfl, nofun⟩

theorem State.hardReset_over (z : State) : z.hardReset.Over op R oc :=
  ⟨State.sound_of_clear rfl rfl (show Memory.wf {} = true by decide) rfl rfl rfl rfl rfl, nofun⟩

/-- While the engine is busy a CMD write is rejected, but for SRESET (40_control.md rule R121). -/
theorem issue_busy {z : State} (hb : z.status.busy = true) (w : Word) : issue w z = .next z.softReset ∨ issue w z = .next z.rejectCommand := by
  have ha : z.accepts = false := (State.accepts_eq_false z).2 (.inl hb)
  unfold issue
  cases hd : decode w with
  | ok i =>
    by_cases hi : ∃ x, i = .sreset x
    · obtain ⟨x, rfl⟩ := hi
      exact .inl rfl
    · right
      show exec i z = _
      rw [exec_eq i fun x hx => hi ⟨x, hx⟩]
      exact runCommand_rejected ha
  | error e => right; cases e <;> simp [State.illegalCommand, ha]

namespace State.Busy

/-- One step of a busy engine (20_memory.md rule R66): it is still busy with the same command, or over with it. -/
theorem step {z : State} (h : z.Busy op R oc) (ha : z.alignedNext) : ∃ u, step z = .next u ∧ (u.Busy op R oc ∨ u.Over op R oc) := by
  unfold Machine.step
  split
  · exact h.resume
  · rename_i i rest hi
    have h' : ({ z with inputs := rest } : State).Busy op R oc := h.agrees rfl rfl rfl rfl rfl rfl rfl rfl rfl rfl rfl
    cases i with
    | busWrite o n v =>
      obtain ⟨rfl, hn⟩ := ha.1 o n v rest hi
      simp only [State.react, alignedWord, hn, decide_true, Bool.and_true, if_true, State.writeWindow]
      split
      · rcases issue_busy h'.busy v with e | e
        · exact ⟨_, e, .inr (State.softReset_over _)⟩
        · exact ⟨_, e, .inl (h'.agrees (r := true) rfl rfl rfl rfl rfl rfl rfl rfl rfl rfl rfl)⟩
      · exact ⟨_, rfl, .inl (h'.agrees rfl rfl rfl rfl rfl rfl rfl rfl rfl rfl rfl)⟩
      · exact ⟨_, rfl, .inl h'⟩
    | busRead o n =>
      obtain ⟨rfl, hn⟩ := ha.2 o n rest hi
      simp only [State.react, alignedWord, hn, decide_true, Bool.and_true, if_true]
      refine ⟨_, rfl, .inl ?_⟩
      unfold State.readWindow
      split
      · exact h'.agrees rfl rfl rfl rfl rfl rfl rfl rfl rfl rfl rfl
      · split
        · exact h'.agrees rfl rfl rfl rfl rfl rfl rfl rfl rfl rfl rfl
        · exact h'.agrees rfl rfl rfl rfl rfl rfl rfl rfl rfl rfl rfl
    | hardReset => exact ⟨_, rfl, .inr (State.hardReset_over _)⟩
    | ibPresent b e l => exact State.Busy.resume (h'.agrees rfl rfl rfl rfl rfl rfl rfl rfl rfl rfl rfl)
    | ibSupply b e => exact State.Busy.resume (h'.agrees rfl rfl rfl rfl rfl rfl rfl rfl rfl rfl rfl)
    | biPresent b e => exact State.Busy.resume (h'.agrees rfl rfl rfl rfl rfl rfl rfl rfl rfl rfl rfl)
    | biSupply b e => exact State.Busy.resume (h'.agrees rfl rfl rfl rfl rfl rfl rfl rfl rfl rfl rfl)
    | portCredit c => exact State.Busy.resume (h'.agrees rfl rfl rfl rfl rfl rfl rfl rfl rfl rfl rfl)

end State.Busy

/-! ### From acceptance -/

/-- What a command's prerequisites say of the engine. -/
def startMarks (i : Instr) : Marks :=
  { freq := (needOf i).set.elem .freqValid
    heap := (needOf i).set.elem .heapLoaded
    tree := (needOf i).set.elem .treeValid
    codes := (needOf i).set.elem .codesValid }

/-- The errors that `exec` can raise: those of the command, or the one of an operand that no command word gives. -/
def execErrors (i : Instr) : List (Cause × Byte) := if i.wellFormed then raisable i else [(.illegalOperand, i.opcode)]

/-- Every body runs from what its command's prerequisites say, and raises the errors listed for it alone. -/
theorem body_marks (i : Instr) (hw : i.wellFormed = true) : ∃ m, marksAll (bodyOf i) (startMarks i) = some m ∧ m.stage = .none ∧
    m.shut = false ∧ (∀ x ∈ errorsAll i.opcode (bodyOf i) (startMarks i), x ∈ raisable i) ∧ closesLast (bodyOf i) = true := by
  cases i with
  | sreset x => exact ⟨_, rfl, rfl, rfl, nofun, rfl⟩
  | fcAdd b =>
    refine ⟨_, rfl, rfl, rfl, ?_, rfl⟩
    show ∀ x ∈ [(Cause.cntOverflow, (0x11 : Byte))], x ∈ [(Cause.seqError, (0x11 : Byte)), (.cntOverflow, 0x11)]
    decide
  | fcRead v =>
    have hv : symbolLegal v = true := hw
    refine ⟨startMarks (.fcRead v), ?_, rfl, rfl, nofun, rfl⟩
    show (if (true && symbolLegal v) = true then some _ else none).bind _ = _
    rw [hv]; rfl
  | tbNodeRead n =>
    refine ⟨_, rfl, rfl, rfl, ?_, rfl⟩
    show ∀ x ∈ [(Cause.illegalOperand, (0x23 : Byte))], x ∈ [(Cause.illegalOperand, (0x23 : Byte))]
    decide
  | cgLookup v =>
    have hv : symbolLegal v = true := hw
    refine ⟨startMarks (.cgLookup v), ?_, rfl, rfl, nofun, rfl⟩
    show (if (true && symbolLegal v) = true then some _ else none).bind _ = _
    rw [hv]; rfl
  | enSymbol b =>
    have hv : symbolLegal (symbolOfByte b) = true := decide_eq_true (by rw [symbolOfByte_toNat]; have := b.isLt; omega)
    refine ⟨{ startMarks (.enSymbol b) with sent := true }, ?_, rfl, rfl, ?_, rfl⟩
    · show (if (true && symbolLegal (symbolOfByte b)) = true then some _ else none).bind _ = _
      rw [hv]; rfl
    · show ∀ x ∈ [(Cause.encNoCode, (0x50 : Byte))], x ∈ [(Cause.seqError, (0x50 : Byte)), (.encNoCode, 0x50)]
      decide
  | _ => exact ⟨_, rfl, rfl, rfl, by decide, rfl⟩

/-- A sound engine fits no marks, and those of a command whose prerequisites hold. -/
theorem State.sound.fits {s : State} (h : s.sound) {i : Instr} (hn : (needOf i).holds s.status = true) : s.Fits (startMarks i) := by
  have hset : ∀ f, (needOf i).set.elem f = true → s.status.get f = true := fun f hf => by
    simp only [Need.holds, Bool.and_eq_true, List.all_eq_true] at hn
    exact hn.1 f (List.mem_of_elem_eq_true hf)
  exact {
    freqOk := h.freq
    queueOk := h.queue
    root := fun x => (h.tree x).1
    cur := fun x _ => (h.tree x).2
    codesOk := h.codes
    stream := fun _ => h.stream
    freq := hset .freqValid
    heap := hset .heapLoaded
    tree := hset .treeValid
    codes := hset .codesValid
    distinct := nofun
    sent := nofun
    leaf := nofun
    header := nofun }

/-- What a command does to a sound engine: it ends at once, or a port holds it (40_control.md rules R121 to R127). -/
theorem exec_lands {s : State} (hs : s.sound) (he : s.status.err = false) (i : Instr) : ∃ t, exec i s = .next t ∧
    (t.Busy i.opcode (execErrors i) s.commits ∨ t.Over i.opcode (execErrors i) s.commits) := by
  by_cases hi : ∃ x, i = .sreset x
  · obtain ⟨x, rfl⟩ := hi
    exact ⟨_, rfl, .inr s.softReset_over⟩
  have ha : s.accepts = true := by simp [State.accepts, he, hs.notBusy]
  have ho : (s.accept (encode i)).seq.opcode = i.opcode := opcodeOf_encode i
  rw [exec_eq i fun x hx => hi ⟨x, hx⟩]
  by_cases hw : i.wellFormed = true
  · have hR : execErrors i = raisable i := if_pos hw
    rw [hR]
    by_cases hn : (needOf i).holds s.status = true
    · rw [runCommand_runs ha hw hn]
      obtain ⟨m, h₁, h₂, h₃, h₄, h₅⟩ := body_marks i hw
      refine finish_lands rfl rfl he ho hs.memory ⟨startMarks i, m, ?_, h₁, h₂, h₃, ?_, .inl ⟨rfl, h₅⟩⟩
      · exact State.Fits.setSeq (s := s.setStatus s.status.accepted) ((hs.fits hn).setStatus rfl rfl rfl rfl rfl)
          (by rw [State.setStatus_seq, hs.noSequence]) (by rw [State.setStatus_seq, hs.noSequence])
      · rw [show (s.accept (encode i)).seq.phase = i.opcode from opcodeOf_encode i]; exact h₄
    · rw [runCommand_sequence ha hw (by simpa using hn)]
      exact ⟨_, rfl, enterError_lands rfl ho hs.memory (by
        rw [show (s.accept (encode i)).seq.phase = i.opcode from opcodeOf_encode i]; exact seqError_mem (by simpa using hn)) rfl⟩
  · rw [runCommand_illegal ha (by simpa using hw)]
    refine ⟨_, rfl, enterError_lands rfl ho hs.memory ?_ rfl⟩
    rw [execErrors, if_neg hw]
    exact List.mem_singleton.2 (Prod.ext rfl (opcodeOf_encode i))

/-- The same of a write to CMD (40_control.md rule R120). -/
theorem issue_lands {s : State} (hs : s.sound) (he : s.status.err = false) (w : Word) : ∃ t, issue w s = .next t ∧
    (t.Busy (opcodeOf w) (raisableWord w) s.commits ∨ t.Over (opcodeOf w) (raisableWord w) s.commits) := by
  have ha : s.accepts = true := by simp [State.accepts, he, hs.notBusy]
  unfold issue
  cases hd : decode w with
  | ok i =>
    have hinv := decodeFields_inv hd
    have := exec_lands hs he i
    rw [execErrors, if_pos hinv.1, ← raisableWord_ok hd, show i.opcode = opcodeOf w from BitVec.eq_of_toNat_eq hinv.2.1] at this
    exact this
  | error e =>
    refine ⟨_, rfl, ?_⟩
    cases e <;> simp only [State.illegalCommand, ha, if_true] <;>
      exact enterError_lands rfl rfl hs.memory (by simp only [raisableWord, hd]; exact List.mem_singleton.2 rfl) rfl

/-- In the error state a CMD write is rejected, but for SRESET (40_control.md rule R121). -/
theorem issue_error {s : State} (he : s.status.err = true) (w : Word) : issue w s = .next s.softReset ∨ issue w s = .next s.rejectCommand := by
  have ha : s.accepts = false := (State.accepts_eq_false s).2 (.inr he)
  unfold issue
  cases hd : decode w with
  | ok i =>
    by_cases hi : ∃ x, i = .sreset x
    · obtain ⟨x, rfl⟩ := hi
      exact .inl rfl
    · right
      show exec i s = _
      rw [exec_eq i fun x hx => hi ⟨x, hx⟩]
      exact runCommand_rejected ha
  | error e => right; cases e <;> simp [State.illegalCommand, ha]

/-- What does not touch the engine leaves it sound. -/
theorem State.sound.agrees {s t : State} (h : s.sound) {r : Bool} (h₁ : t.status = { s.status with reject := r }) (h₂ : t.seq = s.seq)
    (h₃ : t.mem = s.mem) (h₄ : t.root = s.root) (h₅ : t.cur = s.cur) (h₆ : t.total = s.total) (h₇ : t.ports.ob = s.ports.ob) :
    t.sound where
  notBusy := by rw [h₁]; exact h.notBusy
  noSequence := h₂.trans h.noSequence
  memory := by rw [h₃]; exact h.memory
  freq := by simpa only [State.freqOk, h₁, h₃, h₆] using h.freq
  queue := by simpa only [State.queueOk, h₁, h₃, h₆] using h.queue
  tree := by simpa only [State.treeOk, State.rootOk, State.curOk, h₁, h₃, h₄, h₅] using h.tree
  codes := by simpa only [State.codesOk, h₁, h₃, h₄] using h.codes
  stream := by simpa only [State.streamOk, h₁, h₇] using h.stream

theorem State.resume_idle {s : State} (h : s.status.busy = false) : s.resume = .next s := by simp [State.resume, h]

theorem State.Over.notBusy {z : State} (h : z.Over op R oc) : z.status.busy = false := h.sound.notBusy

theorem alignedWord_iff (offset size : Nat) : alignedWord offset size = true ↔ size = 4 ∧ offset % 4 = 0 := by
  simp [alignedWord]

theorem alignedNext_of_step {z u : State} (h : step z = .next u) : z.alignedNext := by
  refine ⟨fun o n v rest hi => ?_, fun o n rest hi => ?_⟩ <;>
    (simp only [step, hi, State.react] at h
     split at h
     · exact (alignedWord_iff o n).1 ‹_›
     · cases h)

theorem State.Busy.next {z u : State} (h : z.Busy op R oc) (e : Machine.step z = .next u) : u.Busy op R oc ∨ u.Over op R oc := by
  obtain ⟨v, hv, hz⟩ := h.step (alignedNext_of_step e)
  rw [e] at hv
  cases hv
  exact hz

/-- A command that keeps a sound engine busy. -/
theorem Running.busy {w : Word} {s t : State} (hs : s.sound) (r : Running w s t) :
    s.status.err = false ∧ t.Busy (opcodeOf w) (raisableWord w) s.commits := by
  induction r with
  | held h b =>
    by_cases he : s.status.err = true
    · rcases issue_error he w with e | e <;> rw [e] at h <;> cases h
      · cases b
      · have : s.status.busy = true := b
        rw [hs.notBusy] at this; cases this
    · have he' : s.status.err = false := by simpa using he
      obtain ⟨t', e, h'⟩ := issue_lands hs he' w
      rw [h] at e
      cases e
      refine ⟨he', h'.resolve_right fun o => ?_⟩
      rw [o.notBusy] at b; cases b
  | step r h b ih =>
    refine ⟨ih.1, (ih.2.next h).resolve_right fun o => ?_⟩
    rw [o.notBusy] at b; cases b

/-- A command of a sound engine that is over. -/
theorem Ends.over {w : Word} {s t : State} (hs : s.sound) (he : s.status.err = false) (h : Ends w s t) :
    t.Over (opcodeOf w) (raisableWord w) s.commits := by
  obtain ⟨h | ⟨u, r, e⟩, b⟩ := h
  · obtain ⟨t', e, h'⟩ := issue_lands hs he w
    rw [h] at e
    cases e
    refine h'.resolve_left fun o => ?_
    rw [o.busy] at b; cases b
  · refine ((r.busy hs).2.next e).resolve_left fun o => ?_
    rw [o.busy] at b; cases b

/-! ### Every step -/

/-- One step of a live engine leaves a live one (10_state.md rules R51, R52). -/
theorem step_live {s : State} (h : s.live) (ha : s.alignedNext) : ∃ t, step s = .next t ∧ t.live := by
  rcases h with hs | ⟨w, s₀, hs₀, r⟩
  · unfold step
    split
    · exact ⟨s, State.resume_idle hs.notBusy, .inl hs⟩
    · rename_i i rest hi
      have hz : ({ s with inputs := rest } : State).sound := hs.agrees rfl rfl rfl rfl rfl rfl rfl
      have port : ∀ {z : State}, z.sound → ∃ t, z.resume = .next t ∧ t.live := fun h => ⟨_, State.resume_idle h.notBusy, .inl h⟩
      cases i with
      | busWrite o n v =>
        obtain ⟨rfl, hn⟩ := ha.1 o n v rest hi
        simp only [State.react, alignedWord, hn, decide_true, Bool.and_true, if_true, State.writeWindow]
        split
        · by_cases he : s.status.err = true
          · rcases issue_error (s := { s with inputs := rest }) he v with e | e
            · exact ⟨_, e, .inl (State.softReset_over (op := 0) (R := []) (oc := ([], [])) _).sound⟩
            · exact ⟨_, e, .inl (hz.agrees (r := true) rfl rfl rfl rfl rfl rfl rfl)⟩
          · obtain ⟨t, e, ht⟩ := issue_lands hz (by simpa using he) v
            exact ⟨t, e, ht.elim (fun b => .inr ⟨v, _, hz, .held e b.busy⟩) fun o => .inl o.sound⟩
        · exact ⟨_, rfl, .inl (hz.agrees rfl rfl rfl rfl rfl rfl rfl)⟩
        · exact ⟨_, rfl, .inl hz⟩
      | busRead o n =>
        obtain ⟨rfl, hn⟩ := ha.2 o n rest hi
        simp only [State.react, alignedWord, hn, decide_true, Bool.and_true, if_true]
        refine ⟨_, rfl, .inl ?_⟩
        unfold State.readWindow
        split
        · exact hz.agrees rfl rfl rfl rfl rfl rfl rfl
        · split <;> exact hz.agrees rfl rfl rfl rfl rfl rfl rfl
      | hardReset => exact ⟨_, rfl, .inl (State.hardReset_over (op := 0) (R := []) (oc := ([], [])) _).sound⟩
      | ibPresent b e l => exact port (hz.agrees rfl rfl rfl rfl rfl rfl rfl)
      | ibSupply b e => exact port (hz.agrees rfl rfl rfl rfl rfl rfl rfl)
      | biPresent b e => exact port (hz.agrees rfl rfl rfl rfl rfl rfl rfl)
      | biSupply b e => exact port (hz.agrees rfl rfl rfl rfl rfl rfl rfl)
      | portCredit c => exact port (hz.agrees rfl rfl rfl rfl rfl rfl rfl)
  · obtain ⟨-, hb⟩ := r.busy hs₀
    obtain ⟨u, e, hu⟩ := hb.step ha
    refine ⟨u, e, ?_⟩
    rcases hu with hu | hu
    · exact .inr ⟨w, s₀, hs₀, r.step e hu.busy⟩
    · exact .inl hu.sound

end Sys2Proof.Machine
end

