-- ==== Sys2Proof/Laws/Resume.lean ====
section
/-! SUPPORT. Going on where a port held the engine (20_memory.md rule R66): a command that was held and is answered later does what
it would have done had the answer been there from the start. The same relation tells a composite command from the primitive commands
whose bodies it runs (47_composite.md rule R280). -/

namespace Sys2Proof.Machine

/-! ### A primitive issued again -/

theorem Ports.answer_touch (ps : Ports) (p : Prim) : (ps.touch p).answer p = ps.answer p := by
  cases p with
  | ibRead =>
    simp only [Ports.answer, Ports.touch, Ports.perform, IbPort.read]
    cases ps.ib.left <;> rfl
  | ibRewind =>
    simp only [Ports.answer, Ports.touch, Ports.perform, IbPort.rewind]
    cases ps.ib.later <;> rfl
  | _ => rfl

@[simp] theorem Ports.touch_left (ps : Ports) (p : Prim) : (ps.touch p).ib.left = ps.ib.left := by cases p <;> rfl
@[simp] theorem Ports.touch_bits (ps : Ports) (p : Prim) : (ps.touch p).bi.bits = ps.bi.bits := by cases p <;> rfl

theorem Ports.touch_touch (ps : Ports) (p : Prim) : (ps.touch p).touch p = ps.touch p := by cases p <;> rfl

/-- A primitive that holds and is issued again. -/
theorem State.port_touch (s : State) (p : Prim) (ts : List Task) (k : Answer → State → Flow) :
    (s.setPorts (s.ports.touch p)).port p ts k = s.port p ts k := by
  unfold State.port
  rw [State.setPorts_ports, Ports.answer_touch]
  cases s.ports.answer p with
  | some r => rfl
  | none => simp only [State.waitOn, State.setPorts_ports, Ports.touch_touch]; rfl

/-- Two ways of going on from a primitive that do the same with every answer. -/
theorem State.port_congr {s : State} {p : Prim} {ts : List Task} {k k' : Answer → State → Flow}
    (h : ∀ a q, s.ports.answer p = some (a, q) → k a (s.setPorts q) = k' a (s.setPorts q)) : s.port p ts k = s.port p ts k' := by
  unfold State.port
  split
  · exact h _ _ ‹_›
  · rfl

theorem runTasks_one (t : Task) (s : State) : runTasks [t] s = runTask t s := runTasks_single rfl

/-- A part of a body that begins with a primitive and is held at it goes on with that primitive. -/
theorem runTasks_touch {t : Task} {s : State} {p : Prim} {k : Answer → State → Flow}
    (h : runTask t (s.setPorts (s.ports.touch p)) = (s.setPorts (s.ports.touch p)).port p [t] k) :
    runTasks [t] (s.setPorts (s.ports.touch p)) = s.port p [t] k := by rw [runTasks_one, h, State.port_touch]

/-! ### How much a source has left -/

theorem Ports.answer_ib {ps q : Ports} {b : Byte} (h : ps.answer .ibRead = some (.byte b, q)) :
    ps.ib.left.length = q.ib.left.length + 1 := by
  unfold Ports.answer at h
  split at h
  · cases h
  · simp only [Ports.perform, IbPort.read] at h
    cases hl : ps.ib.left with
    | nil =>
      simp only [hl] at h
      split at h
      · simp at h
      · cases h
    | cons x rest =>
      simp only [hl, Option.map_some, Option.some.injEq, Prod.mk.injEq] at h
      rw [← h.2]
      rfl

theorem Ports.answer_bi {ps q : Ports} {n : Nat} {v : Word} (h : ps.answer (.biRead n) = some (.bits v, q)) :
    ps.bi.bits.length = q.bi.bits.length + n := by
  unfold Ports.answer at h
  split at h
  · cases h
  · simp only [Ports.perform, BiPort.read] at h
    split at h
    · simp only [Option.map_some, Option.some.injEq, Prod.mk.injEq] at h
      rw [← h.2]
      simp [Ports.spend]
      omega
    · split at h
      · simp at h
      · cases h

/-- Primitives of the other ports leave the byte source alone. -/
theorem Ports.answer_ob_ib {ps q : Ports} {n : Nat} {v : Word} {a : Answer} (h : ps.answer (.obWrite n v) = some (a, q)) :
    q.ib = ps.ib := by
  unfold Ports.answer at h
  split at h
  · cases h
  · cases h; rfl

theorem Ports.answer_bo_bi {ps q : Ports} {b : Byte} {a : Answer} (h : ps.answer (.boWrite b) = some (a, q)) : q.bi = ps.bi := by
  unfold Ports.answer at h
  split at h
  · cases h
  · cases h; rfl

theorem writeAll_ib (p : IbPort) : ∀ (ws : List (Nat × Word)) (s : State), s.ports.ib = p → (writeAll ws s).Carries fun y => y.ports.ib = p
  | [], _, h => h
  | (_, _) :: ws, _, h => State.carries_port h fun _ _ e => writeAll_ib p ws _ ((Ports.answer_ob_ib e).trans h)

theorem encodeByte_ib (b : Byte) (s : State) : (encodeByte b s).Carries fun y => y.ports.ib = s.ports.ib :=
  Flow.carries_ofExcept fun c _ => by
    split
    · exact rfl
    · exact Flow.carries_andThen (P := fun y => y.ports.ib = s.ports.ib) (fun _ _ h => h) (writeAll_ib _ _ s rfl) (fun _ h => by exact h) _

/-- A value that is read takes nine bits. -/
theorem hdLeaf_bi (s : State) {y : State} (h : hdLeafBody s = .ok y) : y.ports.bi.bits.length < s.ports.bi.bits.length := by
  unfold hdLeafBody State.port at h
  split at h
  · rename_i a q e
    cases a with
    | bits v =>
      have hb := Ports.answer_bi e
      dsimp only at h
      split at h
      · cases h
      · cases h₁ : ((s.setPorts q).addBitsIn 9).mem.alloc (leafNode (v.setWidth 9) 0) with
        | error g => rw [h₁] at h; cases h
        | ok r =>
          rw [h₁, Flow.ofExcept_ok] at h
          cases h₂ : returnChild r.2 r.1 (s.setPorts q).seq.stack with
          | error g => rw [h₂] at h; cases h
          | ok r' =>
            rw [h₂] at h
            cases h
            show q.bi.bits.length < _
            omega
    | _ => cases h
  · cases h

/-- A step of the decoder takes one bit. -/
theorem deStep_bi (s : State) {y : State} (h : deStepBody s = .ok y) : y.ports.bi.bits.length < s.ports.bi.bits.length := by
  unfold deStepBody State.port at h
  split at h
  · rename_i a q e
    cases a with
    | bits v =>
      have hb := Ports.answer_bi e
      suffices hc : (deMove (v = 1) ((s.setPorts q).addBitsIn 1)).Carries fun y => y.ports.bi = q.bi by
        rw [show deMove (v = 1) ((s.setPorts q).addBitsIn 1) = .ok y from h] at hc
        rw [show y.ports.bi = q.bi from hc]; omega
      refine Flow.carries_ofExcept fun nd _ => Flow.carries_ofExcept fun child _ => ?_
      split
      · refine Flow.carries_ofExcept fun nd _ => ?_
        split
        · exact rfl
        · exact State.carries_port rfl fun _ _ e' => Ports.answer_bo_bi e'
      · exact rfl
    | _ => cases h
  · cases h

/-! ### The loops' bounds -/

theorem scanLoop_fuel (n m : Nat) (s : State) (hn : s.ports.ib.left.length < n) (hm : s.ports.ib.left.length < m) : scanLoop n s = scanLoop m s := by
  induction n generalizing m s with
  | zero => omega
  | succ n ih =>
    obtain ⟨m, rfl⟩ : ∃ k, m = k + 1 := ⟨m - 1, by omega⟩
    refine State.port_congr fun a q e => ?_
    cases a with
    | byte b =>
      have hl := Ports.answer_ib e
      dsimp only [countByte]
      split
      · rfl
      · cases (s.setPorts q).mem.readFreq (symbolOfByte b) with
        | error g => rfl
        | ok c =>
          simp only [Flow.ofExcept_ok]
          exact ih m _ (by show q.ib.left.length < n; omega) (by show q.ib.left.length < m; omega)
    | _ => rfl

theorem encLoop_fuel (n m : Nat) (s : State) (hn : s.ports.ib.left.length < n) (hm : s.ports.ib.left.length < m) : encLoop n s = encLoop m s := by
  induction n generalizing m s with
  | zero => omega
  | succ n ih =>
    obtain ⟨m, rfl⟩ : ∃ k, m = k + 1 := ⟨m - 1, by omega⟩
    refine State.port_congr fun a q e => ?_
    cases a with
    | byte b =>
      have hl := Ports.answer_ib e
      have hc := encodeByte_ib b (s.setPorts q)
      dsimp only
      cases h : encodeByte b (s.setPorts q) with
      | ok y =>
        rw [h] at hc
        simp only [Flow.carries_ok, State.setPorts_ports] at hc
        exact ih m y (by rw [hc]; omega) (by rw [hc]; omega)
      | _ => rfl
    | _ => rfl

theorem hdLoop_fuel (n m : Nat) (s : State) (hn : s.ports.bi.bits.length < n) (hm : s.ports.bi.bits.length < m) : hdLoop n s = hdLoop m s := by
  induction n generalizing m s with
  | zero => omega
  | succ n ih =>
    obtain ⟨m, rfl⟩ : ∃ k, m = k + 1 := ⟨m - 1, by omega⟩
    rw [hdLoop, hdLoop]
    split
    · rfl
    · refine State.port_congr fun a q e => ?_
      cases a with
      | bits v =>
        have hl := Ports.answer_bi e
        dsimp only
        split
        · cases h : hdLeafBody ((s.setPorts q).addBitsIn 1) with
          | ok y =>
            have hy := hdLeaf_bi _ h
            have : y.ports.bi.bits.length < q.bi.bits.length := hy
            exact ih m y (by omega) (by omega)
          | _ => rfl
        · unfold readInternal
          split
          · rfl
          · cases ((s.setPorts q).addBitsIn 1).mem.alloc (internalNode 0 0 0) with
            | error g => rfl
            | ok r => exact ih m _ (by show q.bi.bits.length < n; omega) (by show q.bi.bits.length < m; omega)
      | _ => rfl

theorem deLoop_fuel (n m : Nat) (s : State) (hn : s.ports.bi.bits.length < n) (hm : s.ports.bi.bits.length < m) : deLoop n s = deLoop m s := by
  induction n generalizing m s with
  | zero => omega
  | succ n ih =>
    obtain ⟨m, rfl⟩ : ∃ k, m = k + 1 := ⟨m - 1, by omega⟩
    rw [deLoop, deLoop]
    split
    · rfl
    · cases h : deStepBody s with
      | ok y =>
        have hy := deStep_bi _ h
        exact ih m y (by omega) (by omega)
      | _ => rfl

/-! ### The same engine with more at its ports -/

/-- A state with other ports and another frame: what the collaborators hold, and the hidden state that a body does not read. -/
structure Recast where
  ports : Ports → Ports := id
  opcode : Byte → Byte := id
  flags : Status → Status := id
  stack : List (NodeIdx × Bool) → List (NodeIdx × Bool) := id
  icount : Nat → Nat := id

def Recast.state (r : Recast) (s : State) : State :=
  { s with
    ports := r.ports s.ports
    seq := { s.seq with
      opcode := r.opcode s.seq.opcode, flags := r.flags s.seq.flags, stack := r.stack s.seq.stack, icount := r.icount s.seq.icount } }

/-- The traversal of HD_READ_TREE is as it was. -/
def Recast.reads (r : Recast) : Prop := r.stack = id ∧ r.icount = id

/-- The parts of HD_READ_TREE's body (44_header_codec.md rule R217). -/
def Task.header : Task → Bool
  | .hdStart => true
  | .hdRoot => true
  | .hdTree => true
  | .hdLeaf => true
  | .hdFinish => true
  | _ => false

/-- The engine as it goes on with what a port held. -/
def State.rest (s : State) : State := s.setSeq { s.seq with tasks := [], pending := none }

/-- Nothing is held. -/
def State.fresh (s : State) : Prop := s.seq.tasks = [] ∧ s.seq.pending = none

/-- The primitives and the parts of bodies that end a source. -/
def Prim.releasing : Prim → Bool
  | .ibRelease => true
  | .biRelease => true
  | _ => false

def Task.releasing : Task → Bool
  | .ibRelease => true
  | .biRelease => true
  | _ => false

/-- The recast ports answer what the ports answer, while they are as `I` says; with `e = false` no source ends. -/
structure Recast.Serves (r : Recast) (I : Ports → Prop) (e : Bool) : Prop where
  answer : ∀ {ps p a q}, I ps → ps.answer p = some (a, q) → (p.releasing = true → e = true) →
    (r.ports ps).answer p = some (a, r.ports q) ∧ I q
  touch : ∀ ps p, r.ports (ps.touch p) = (r.ports ps).touch p
  wait : ∀ {ps p}, I ps → I (ps.touch p)

/-- The engine waits on a primitive that has no answer. -/
def State.waits (s : State) : Prop := ∃ p, s.seq.pending = some p ∧ s.ports.answer p = none

/-- The flow `g` of the recast engine is the flow `f` of the engine; where `f` is held, `g` is what comes of going on with it. -/
def Flow.Sim (r : Recast) (I : Ports → Prop) (f g : Flow) : Prop :=
  match f with
  | .ok y => g = .ok (r.state y) ∧ y.fresh ∧ I y.ports
  | .hold y => g = runTasks y.seq.tasks (r.state y.rest) ∧ y.waits ∧ I y.ports
  | .raise c d e y => g = .raise c d e (r.state y) ∧ y.fresh ∧ I y.ports
  | .fault x => g = .fault x

section Sim

variable {r : Recast} {I : Ports → Prop} {e : Bool}

theorem State.rest_push (y : State) (ts : List Task) : (y.pushTasks ts).rest = y.rest := rfl

theorem State.rest_wait {s : State} (h : s.fresh) (p : Prim) (ts : List Task) : (s.waitOn p ts).rest = s.setPorts (s.ports.touch p) := by
  obtain ⟨h₁, h₂⟩ := h
  apply State.ext <;> try rfl
  show { s.seq with tasks := [], pending := none } = s.seq
  rw [← h₁, ← h₂]

theorem Flow.Sim.port (S : r.Serves I e) {s : State} {p : Prim} {ts : List Task} {k k' : Answer → State → Flow} (hf : s.fresh)
    (hI : I s.ports) (hp : p.releasing = true → e = true)
    (hr : runTasks ts ((r.state s).setPorts ((r.state s).ports.touch p)) = (r.state s).port p ts k')
    (hk : ∀ a q, s.ports.answer p = some (a, q) → I q → (k a (s.setPorts q)).Sim r I (k' a (r.state (s.setPorts q)))) :
    (s.port p ts k).Sim r I ((r.state s).port p ts k') := by
  cases ha : s.ports.answer p with
  | some x =>
    obtain ⟨a, q⟩ := x
    obtain ⟨h₁, h₂⟩ := S.answer hI ha hp
    have e₁ : s.port p ts k = k a (s.setPorts q) := by rw [State.port, ha]
    have e₂ : (r.state s).port p ts k' = k' a (r.state (s.setPorts q)) := by
      rw [State.port, show (r.state s).ports = r.ports s.ports from rfl, h₁]; rfl
    rw [e₁, e₂]
    exact hk a q ha h₂
  | none =>
    have e₁ : s.port p ts k = .hold (s.waitOn p ts) := by rw [State.port, ha]
    rw [e₁]
    refine ⟨?_, ⟨p, rfl, (Ports.answer_touch _ _).trans ha⟩, S.wait hI⟩
    show _ = runTasks ts (r.state (s.waitOn p ts).rest)
    rw [State.rest_wait hf, ← hr]
    congr 1
    show _ = { r.state s with ports := r.ports (s.ports.touch p) }
    rw [S.touch]; rfl

theorem Flow.Sim.andThen {f g : Flow} (h : f.Sim r I g) {ts : List Task} {k k' : State → Flow}
    (hk : ∀ y, f = .ok y → y.fresh → I y.ports → (k y).Sim r I (k' (r.state y)))
    (hr : ∀ x y, f = .hold x → g = .ok y → k' y = runTasks ts y) : (f.andThen ts k).Sim r I (g.andThen ts k') := by
  cases f with
  | ok y => obtain ⟨rfl, h₁, h₂⟩ := h; exact hk y rfl h₁ h₂
  | hold y =>
    obtain ⟨h', hw⟩ := h
    refine ⟨?_, hw⟩
    show g.andThen ts k' = runTasks (y.seq.tasks ++ ts) (r.state y.rest)
    rw [runTasks_append, ← h']
    cases g with
    | ok z => exact hr y z rfl rfl
    | _ => rfl
  | raise c d x y => obtain ⟨rfl, h₁⟩ := h; exact ⟨rfl, h₁⟩
  | fault x => cases h; rfl

theorem Flow.Sim.ofExcept {α : Type} {x : Except Fault α} {k k' : α → Flow} (h : ∀ a, x = .ok a → (k a).Sim r I (k' a)) :
    (Flow.ofExcept x k).Sim r I (Flow.ofExcept x k') := by
  cases x with
  | ok a => exact h a rfl
  | error f => rfl

theorem countByte_sim {b : Byte} {s : State} {k k' : Word → State → Flow} (hf : s.fresh) (hI : I s.ports)
    (hk : ∀ c z, z.seq = s.seq → z.ports = s.ports → (k c z).Sim r I (k' c (r.state z))) :
    (countByte b s k).Sim r I (countByte b (r.state s) k') := by
  unfold countByte
  show Flow.Sim r I _ (if s.total = 0xFFFFFFFF then _ else _)
  split
  · exact ⟨rfl, hf, hI⟩
  · exact Flow.Sim.ofExcept (x := s.mem.readFreq (symbolOfByte b)) fun c _ => hk _ ((s.setMem _).setTotal _) rfl rfl

theorem readInternal_sim (hh : r.reads) (s : State) (hf : s.fresh) (hI : I s.ports) {k k' : State → Flow}
    (hk : ∀ z : State, z.fresh → z.ports = s.ports → (k z).Sim r I (k' (r.state z))) :
    (readInternal s k).Sim r I (readInternal (r.state s) k') := by
  obtain ⟨rp, ro, rf, rs, ri⟩ := r
  obtain ⟨rfl, rfl⟩ : rs = id ∧ ri = id := hh
  unfold readInternal
  show Flow.Sim _ I _ (if s.seq.icount = Config.maxInternal then _ else _)
  split
  · exact ⟨rfl, hf, hI⟩
  · exact Flow.Sim.ofExcept (x := s.mem.alloc (internalNode 0 0 0)) fun x _ => hk ((s.setMem x.2).setSeq
      { s.seq with stack := (x.1, false) :: s.seq.stack, icount := s.seq.icount + 1 }) hf rfl

theorem tbStep_sim (s : State) (hf : s.fresh) (hI : I s.ports) : (tbStepBody s).Sim r I (tbStepBody (r.state s)) := by
  refine Flow.Sim.ofExcept (x := s.mem.merge) fun x _ => ?_
  dsimp only
  split <;> exact ⟨rfl, hf, hI⟩

theorem mergeLoop_sim : ∀ (n : Nat) (s : State), s.fresh → I s.ports → (mergeLoop n s).Sim r I (mergeLoop n (r.state s))
  | 0, s, hf, hI => by
    unfold mergeLoop
    show Flow.Sim r I _ (if s.status.heapLoaded = true then _ else _)
    split
    · rfl
    · exact ⟨rfl, hf, hI⟩
  | n + 1, s, hf, hI => by
    unfold mergeLoop
    show Flow.Sim r I _ (if s.status.heapLoaded = true then _ else _)
    split
    · refine (tbStep_sim s hf hI).andThen (fun y _ h₁ h₂ => mergeLoop_sim n y h₁ h₂) fun x y hx _ => ?_
      unfold tbStepBody at hx
      cases hm : s.mem.merge with
      | error g => rw [hm] at hx; cases hx
      | ok z =>
        rw [hm, Flow.ofExcept_ok] at hx
        dsimp only at hx
        split at hx <;> cases hx
    · exact ⟨rfl, hf, hI⟩

variable (S : r.Serves I e)
include S

theorem scanLoop_sim (n m : Nat) (s : State) (hf : s.fresh) (hI : I s.ports) (hn : s.ports.ib.left.length < n)
    (hm : (r.ports s.ports).ib.left.length < m) : (scanLoop n s).Sim r I (scanLoop m (r.state s)) := by
  induction n generalizing m s with
  | zero => omega
  | succ n ih =>
    obtain ⟨m, rfl⟩ : ∃ k, m = k + 1 := ⟨m - 1, by omega⟩
    refine Flow.Sim.port S hf hI nofun ?_ fun a q ha hq => ?_
    · rw [runTasks_one, runTask, scanBody, scanLoop_fuel _ (m + 1) _ (Nat.lt_succ_self _) (by rw [State.setPorts_ports, Ports.touch_left]; exact hm)]
      exact State.port_touch _ _ _ _
    · cases a with
      | byte b =>
        have h₁ := Ports.answer_ib ha
        have h₂ := Ports.answer_ib (S.answer hI ha nofun).1
        refine countByte_sim hf hq fun c z hz hp => ?_
        exact ih m _ (by rw [State.fresh, State.setBytesIn_seq, hz]; exact hf) (by rw [State.setBytesIn_ports, hp]; exact hq)
          (by rw [State.setBytesIn_ports, hp, State.setPorts_ports]; omega) (by rw [State.setBytesIn_ports, hp, State.setPorts_ports]; omega)
      | _ => exact ⟨rfl, hf, hq⟩

theorem writeAll_sim : ∀ (ws : List (Nat × Word)) (s : State), s.fresh → I s.ports → (writeAll ws s).Sim r I (writeAll ws (r.state s))
  | [], _, hf, hI => ⟨rfl, hf, hI⟩
  | (_, _) :: ws, _, hf, hI => Flow.Sim.port S hf hI nofun (runTasks_touch rfl) fun _ _ _ hq =>
      writeAll_sim ws _ hf hq

theorem encodeByte_sim (b : Byte) (s : State) (hf : s.fresh) (hI : I s.ports) :
    (encodeByte b s).Sim r I (encodeByte b (r.state s)) := by
  refine Flow.Sim.ofExcept (x := s.mem.readCode (symbolOfByte b)) fun c _ => ?_
  split
  · exact ⟨rfl, hf, hI⟩
  · exact (writeAll_sim S _ _ hf hI).andThen (fun y _ h₁ h₂ => ⟨rfl, h₁, h₂⟩) fun _ _ _ _ => by rw [runTasks_one]; rfl

theorem enSymbol_sim (v : Symbol) (s : State) (hf : s.fresh) (hI : I s.ports) :
    (enSymbolBody v s).Sim r I (enSymbolBody v (r.state s)) := by
  refine Flow.Sim.ofExcept (x := s.mem.readCode v) fun c _ => ?_
  split
  · exact ⟨rfl, hf, hI⟩
  · exact (writeAll_sim S _ _ hf hI).andThen (fun y _ h₁ h₂ => ⟨rfl, h₁, h₂⟩) fun _ _ _ _ => by rw [runTasks_one]; rfl

theorem encLoop_sim (n m : Nat) (s : State) (hf : s.fresh) (hI : I s.ports) (hn : s.ports.ib.left.length < n)
    (hm : (r.ports s.ports).ib.left.length < m) : (encLoop n s).Sim r I (encLoop m (r.state s)) := by
  induction n generalizing m s with
  | zero => omega
  | succ n ih =>
    obtain ⟨m, rfl⟩ : ∃ k, m = k + 1 := ⟨m - 1, by omega⟩
    refine Flow.Sim.port S hf hI nofun ?_ fun a q ha hq => ?_
    · rw [runTasks_one, runTask, encBody, encLoop_fuel _ (m + 1) _ (Nat.lt_succ_self _) (by rw [State.setPorts_ports, Ports.touch_left]; exact hm)]
      exact State.port_touch _ _ _ _
    · cases a with
      | byte b =>
        have h₁ := Ports.answer_ib ha
        have h₂ := Ports.answer_ib (S.answer hI ha nofun).1
        have hc := encodeByte_ib b (s.setPorts q)
        have hc' := encodeByte_ib b (r.state (s.setPorts q))
        have hq' : (r.state (s.setPorts q)).ports.ib = (r.ports q).ib := rfl
        refine (encodeByte_sim S b (s.setPorts q) hf hq).andThen (fun y hy h₃ h₄ => ?_) fun x y _ hy => ?_
        · have hs := encodeByte_sim (r := r) S b (s.setPorts q) hf (by exact hq)
          rw [hy] at hc hs
          rw [hs.1] at hc'
          rw [Flow.carries_ok] at hc hc'
          exact ih m y h₃ h₄ (by rw [hc, State.setPorts_ports]; omega) (by
            rw [show (r.ports y.ports).ib = (r.ports q).ib from hc']; omega)
        · rw [hy, Flow.carries_ok, hq'] at hc'
          rw [runTasks_one, runTask, encBody]
          exact encLoop_fuel _ _ _ (by rw [hc']; omega) (Nat.lt_succ_self _)
      | _ => exact ⟨rfl, hf, hq⟩

theorem readMagic_sim (s : State) (hf : s.fresh) (hI : I s.ports) : (readMagicBody s).Sim r I (readMagicBody (r.state s)) := by
  refine Flow.Sim.port (s := s.setStatus { s.status with magicOk := false }) S hf hI nofun
    (runTasks_touch rfl) fun a q _ hq => ?_
  cases a with
  | bits v =>
    show Flow.Sim r I (if v = s.magic then _ else _) (if v = s.magic then _ else _)
    split
    · exact ⟨rfl, hf, hq⟩
    · exact ⟨rfl, hf, hq⟩
  | _ => exact ⟨rfl, hf, hq⟩

theorem hdRoot_sim (hh : r.reads) (s : State) (hf : s.fresh) (hI : I s.ports) : (hdRootBody s).Sim r I (hdRootBody (r.state s)) := by
  obtain ⟨rp, ro, rf, rs, ri⟩ := r
  obtain ⟨rfl, rfl⟩ : rs = id ∧ ri = id := hh
  refine Flow.Sim.port S hf hI nofun (runTasks_touch rfl) fun a q _ hq => ?_
  cases a with
  | bits v =>
    dsimp only
    split
    · exact ⟨rfl, hf, hq⟩
    · exact readInternal_sim ⟨rfl, rfl⟩ ((s.setPorts q).addBitsIn 1) hf hq fun z h₁ h₂ => ⟨rfl, h₁, by rw [h₂]; exact hq⟩
  | _ => exact ⟨rfl, hf, hq⟩

theorem hdLeaf_sim (hh : r.reads) (s : State) (hf : s.fresh) (hI : I s.ports) : (hdLeafBody s).Sim r I (hdLeafBody (r.state s)) := by
  obtain ⟨rp, ro, rf, rs, ri⟩ := r
  obtain ⟨rfl, rfl⟩ : rs = id ∧ ri = id := hh
  refine Flow.Sim.port S hf hI nofun (runTasks_touch rfl) fun a q _ hq => ?_
  cases a with
  | bits v =>
    dsimp only
    split
    · exact ⟨rfl, hf, hq⟩
    · exact Flow.Sim.ofExcept (x := s.mem.alloc (leafNode (v.setWidth 9) 0)) fun x _ =>
        Flow.Sim.ofExcept (x := returnChild x.2 x.1 s.seq.stack) fun y _ => ⟨rfl, hf, hq⟩
  | _ => exact ⟨rfl, hf, hq⟩

theorem hdLoop_sim (hh : r.reads) (n m : Nat) (s : State) (hf : s.fresh) (hI : I s.ports) (hn : s.ports.bi.bits.length < n)
    (hm : (r.ports s.ports).bi.bits.length < m) : (hdLoop n s).Sim r I (hdLoop m (r.state s)) := by
  obtain ⟨rp, ro, rf, rs, ri⟩ := r
  obtain ⟨rfl, rfl⟩ : rs = id ∧ ri = id := hh
  induction n generalizing m s with
  | zero => omega
  | succ n ih =>
    obtain ⟨m, rfl⟩ : ∃ k, m = k + 1 := ⟨m - 1, by omega⟩
    by_cases hs : s.seq.stack = []
    · rw [hdLoop, hdLoop, if_pos hs, if_pos (by exact hs)]
      exact ⟨rfl, hf, hI⟩
    rw [hdLoop, hdLoop, if_neg hs, if_neg (by exact hs)]
    refine Flow.Sim.port S hf hI nofun ?_ fun a q ha hq => ?_
    · rw [runTasks_one, runTask, hdTreeBody, hdLoop_fuel _ (m + 1) _ (Nat.lt_succ_self _) (by rw [State.setPorts_ports, Ports.touch_bits]; exact hm), hdLoop, if_neg (by exact hs)]
      exact State.port_touch _ _ _ _
    · cases a with
      | bits v =>
        have h₁ := Ports.answer_bi ha
        have h₂ : (rp s.ports).bi.bits.length = (rp q).bi.bits.length + 1 := Ports.answer_bi (S.answer hI ha nofun).1
        have hm' : (rp s.ports).bi.bits.length < m + 1 := hm
        dsimp only
        split
        · refine (hdLeaf_sim S ⟨rfl, rfl⟩ ((s.setPorts q).addBitsIn 1) hf hq).andThen (fun y hy h₃ h₄ => ?_) fun x y _ hy => ?_
          · have hl : y.ports.bi.bits.length < q.bi.bits.length := hdLeaf_bi _ hy
            have hy' := hdLeaf_sim S ⟨rfl, rfl⟩ ((s.setPorts q).addBitsIn 1) hf hq
            rw [hy] at hy'
            have hl' : (rp y.ports).bi.bits.length < (rp q).bi.bits.length := hdLeaf_bi _ hy'.1
            exact ih m y h₃ h₄ (by omega) (by show (rp y.ports).bi.bits.length < m; omega)
          · have hl : y.ports.bi.bits.length < (rp q).bi.bits.length := hdLeaf_bi _ hy
            rw [runTasks_one, runTask, hdTreeBody]
            exact hdLoop_fuel _ _ _ (by omega) (Nat.lt_succ_self _)
        · exact readInternal_sim ⟨rfl, rfl⟩ ((s.setPorts q).addBitsIn 1) hf hq fun z h₃ h₄ => ih m z h₃ (by rw [h₄]; exact hq)
            (by rw [h₄]; show q.bi.bits.length < n; omega) (by rw [h₄]; show (rp q).bi.bits.length < m; omega)
      | _ => exact ⟨rfl, hf, hq⟩

theorem deEmit_sim (d : Bool) (s : State) (hf : s.fresh) (hI : I s.ports) : (deEmitBody d s).Sim r I (deEmitBody d (r.state s)) := by
  refine Flow.Sim.ofExcept (x := s.mem.readNode s.cur) fun nd h => ?_
  split
  · exact ⟨rfl, hf, hI⟩
  · rename_i hv
    refine Flow.Sim.port S hf hI nofun ?_ fun _ q _ hq => ⟨rfl, hf, hq⟩
    rw [runTasks_one, runTask, deEmitBody, show ((r.state s).setPorts _).mem.readNode ((r.state s).setPorts _).cur = .ok nd from h,
      Flow.ofExcept_ok, if_neg hv]
    exact State.port_touch _ _ _ _

theorem deStep_sim (s : State) (hf : s.fresh) (hI : I s.ports) : (deStepBody s).Sim r I (deStepBody (r.state s)) := by
  refine Flow.Sim.port S hf hI nofun (runTasks_touch rfl) fun a q _ hq => ?_
  cases a with
  | bits v =>
    refine Flow.Sim.ofExcept (x := s.mem.readNode s.cur) fun nd _ =>
      Flow.Sim.ofExcept (x := s.mem.readNode (if decide (v = 1) then nd.right else nd.left)) fun child _ => ?_
    split
    · exact deEmit_sim S _ (((s.setPorts q).addBitsIn 1).setCur _) hf hq
    · exact ⟨rfl, hf, hq⟩
  | _ => exact ⟨rfl, hf, hq⟩

theorem deLoop_sim (n m : Nat) (s : State) (hf : s.fresh) (hI : I s.ports) (hn : s.ports.bi.bits.length < n)
    (hm : (r.ports s.ports).bi.bits.length < m) : (deLoop n s).Sim r I (deLoop m (r.state s)) := by
  induction n generalizing m s with
  | zero => omega
  | succ n ih =>
    obtain ⟨m, rfl⟩ : ∃ k, m = k + 1 := ⟨m - 1, by omega⟩
    unfold deLoop
    show Flow.Sim r I _ (if s.status.eofSeen = true then _ else _)
    split
    · exact ⟨rfl, hf, hI⟩
    · have hst := deStep_sim S s hf hI
      refine hst.andThen (fun y hy h₃ h₄ => ?_) fun x y _ hy => ?_
      · have hl := deStep_bi _ hy
        rw [hy] at hst
        have hl' : (r.ports y.ports).bi.bits.length < (r.ports s.ports).bi.bits.length := deStep_bi _ hst.1
        exact ih m y h₃ h₄ (by omega) (by omega)
      · have hl : y.ports.bi.bits.length < (r.ports s.ports).bi.bits.length := deStep_bi _ hy
        rw [runTasks_one, runTask, deLoopBody]
        exact deLoop_fuel _ _ _ (by omega) (Nat.lt_succ_self _)

/-- One part of a body, run by the engine and by the recast one. -/
theorem task_sim (t : Task) (ht : t.releasing = true → e = true) (hh : t.header = true → r.reads)
    (s : State) (hf : s.fresh) (hI : I s.ports) : (runTask t s).Sim r I (runTask t (r.state s)) := by
  have port : ∀ p : Prim, (p.releasing = true → e = true) → (∀ x : State, runTask t x = x.port p [t] fun _ s' => .ok s') →
      (runTask t s).Sim r I (runTask t (r.state s)) := fun p hp hx => by
    rw [hx, hx]
    exact Flow.Sim.port S hf hI hp (runTasks_touch (hx _)) fun _ _ _ hq => ⟨rfl, hf, hq⟩
  cases t with
  | phase op => exact ⟨rfl, hf, hI⟩
  | fcInit => exact ⟨rfl, hf, hI⟩
  | fcAdd b =>
    show Flow.Sim r I (fcAddBody b s) (fcAddBody b (r.state s))
    unfold fcAddBody
    exact countByte_sim hf hI fun c z hz hp => ⟨rfl, by rw [State.fresh, State.setResult_seq]; exact hz ▸ hf, by
      show I z.ports; rw [hp]; exact hI⟩
  | scanStart => exact ⟨rfl, hf, hI⟩
  | scan => exact scanLoop_sim S _ _ s hf hI (Nat.lt_succ_self _) (Nat.lt_succ_self _)
  | fcRead v => exact Flow.Sim.ofExcept (x := s.mem.readFreq v) fun c _ => ⟨rfl, hf, hI⟩
  | tbLoad => exact Flow.Sim.ofExcept (x := s.mem.load) fun c _ => ⟨rfl, hf, hI⟩
  | tbStep => exact tbStep_sim s hf hI
  | tbMerge => exact mergeLoop_sim _ s hf hI
  | rootResult => exact ⟨rfl, hf, hI⟩
  | nodeRead n =>
    show Flow.Sim r I (nodeReadBody n s) (nodeReadBody n (r.state s))
    unfold nodeReadBody
    show Flow.Sim r I _ (if nodeIndexLegal n s.mem.nodes.length = true then _ else _)
    split
    · exact Flow.Sim.ofExcept (x := s.mem.readNode n) fun c _ => ⟨rfl, hf, hI⟩
    · exact ⟨rfl, hf, hI⟩
  | cgGen =>
    show Flow.Sim r I (cgGenBody s) (cgGenBody (r.state s))
    unfold cgGenBody
    show Flow.Sim r I _ (match walk s.mem.nodes (Config.maxInternal + 1) s.root 0 0 clearedCodes 0 with
      | .ok _ _ => _
      | .dup _ _ => _
      | .fault _ => _)
    cases walk s.mem.nodes (Config.maxInternal + 1) s.root 0 0 clearedCodes 0 with
    | ok codes count => exact ⟨rfl, hf, hI⟩
    | dup codes v => exact ⟨rfl, hf, hI⟩
    | fault f => rfl
  | cgLookup v => exact Flow.Sim.ofExcept (x := s.mem.readCode v) fun c _ => ⟨rfl, hf, hI⟩
  | writeMagic => exact (writeAll_sim S _ s hf hI).andThen (fun y _ h₁ h₂ => ⟨rfl, h₁, h₂⟩) fun _ _ _ _ => by rw [runTasks_one]; rfl
  | writeTree =>
    exact Flow.Sim.ofExcept (x := emit s.mem.nodes (Config.maxInternal + 1) s.root) fun ws _ =>
      (writeAll_sim S _ s hf hI).andThen (fun y _ h₁ h₂ => ⟨rfl, h₁, h₂⟩) fun _ _ _ _ => by rw [runTasks_one]; rfl
  | writes ws => exact writeAll_sim S ws s hf hI
  | setResult v => exact ⟨rfl, hf, hI⟩
  | readMagic => exact readMagic_sim S s hf hI
  | hdStart =>
    obtain ⟨rp, ro, rf, rs, ri⟩ := r
    obtain ⟨rfl, rfl⟩ : rs = id ∧ ri = id := hh rfl
    exact ⟨rfl, hf, hI⟩
  | hdRoot => exact hdRoot_sim S (hh rfl) s hf hI
  | hdTree => exact hdLoop_sim S (hh rfl) _ _ s hf hI (Nat.lt_succ_self _) (Nat.lt_succ_self _)
  | hdLeaf => exact hdLeaf_sim S (hh rfl) s hf hI
  | hdFinish =>
    obtain ⟨rp, ro, rf, rs, ri⟩ := r
    obtain ⟨rfl, rfl⟩ : rs = id ∧ ri = id := hh rfl
    exact ⟨rfl, hf, hI⟩
  | enSymbol v => exact enSymbol_sim S v s hf hI
  | eofWritten => exact ⟨rfl, hf, hI⟩
  | ibRewind => exact port .ibRewind nofun fun _ => rfl
  | bytesInClear => exact ⟨rfl, hf, hI⟩
  | bytesInNext => exact ⟨rfl, hf, hI⟩
  | encLoop => exact encLoop_sim S _ _ s hf hI (Nat.lt_succ_self _) (Nat.lt_succ_self _)
  | bytesInResult => exact ⟨rfl, hf, hI⟩
  | bitsOutResult => exact ⟨rfl, hf, hI⟩
  | obClose => exact port .obClose nofun fun _ => rfl
  | ibRelease => exact port .ibRelease ht fun _ => rfl
  | enClosed => exact ⟨rfl, hf, hI⟩
  | deStep => exact deStep_sim S s hf hI
  | deEmit d => exact deEmit_sim S d s hf hI
  | deLoop => exact deLoop_sim S _ _ s hf hI (Nat.lt_succ_self _) (Nat.lt_succ_self _)
  | bytesOutResult => exact ⟨rfl, hf, hI⟩
  | boClose => exact port .boClose nofun fun _ => rfl
  | biRelease => exact port .biRelease ht fun _ => rfl
  | deClosed => exact ⟨rfl, hf, hI⟩

/-- Some parts of a body, run by the engine and by the recast one. -/
theorem runTasks_sim : ∀ (ts : List Task), (∀ t ∈ ts, (t.releasing = true → e = true) ∧ (t.header = true → r.reads)) →
    ∀ s : State, s.fresh → I s.ports → (runTasks ts s).Sim r I (runTasks ts (r.state s))
  | [], _, _, hf, hI => ⟨rfl, hf, hI⟩
  | t :: ts, h, s, hf, hI => by
    rw [runTasks_cons, runTasks_cons]
    exact (task_sim S t (h t (by simp)).1 (h t (by simp)).2 s hf hI).andThen
      (fun y _ h₁ h₂ => runTasks_sim ts (fun u hu => h u (by simp [hu])) y h₁ h₂) fun _ _ _ _ => rfl

end Sim

end Sys2Proof.Machine
end

