-- ==== Sys2Proof/Laws/Held.lean ====
section
/-! SUPPORT. A command that a port holds, and what it does once the collaborators answer: what it would have done had they been
able to answer when it was accepted (20_memory.md rule R66). -/

namespace Sys2Proof.Machine

/-! ### What the collaborators may bring -/

theorem Ports.perform_credit (ps : Ports) (c : Option Nat) (p : Prim) :
    ({ ps with credit := c } : Ports).perform p = (ps.perform p).map fun x => (x.1, { x.2 with credit := c }) := by
  cases p with
  | ibRead => simp only [Ports.perform]; cases ps.ib.read <;> rfl
  | biRead n => simp only [Ports.perform]; cases ps.bi.read n <;> rfl
  | _ => rfl

theorem Ports.perform_keeps_credit {ps q : Ports} {p : Prim} {a : Answer} (h : ps.perform p = some (a, q)) :
    q.credit = ps.credit := by
  have := Ports.perform_credit ps ps.credit p
  rw [show ({ ps with credit := ps.credit } : Ports) = ps from rfl, h] at this
  simp only [Option.map_some, Option.some.injEq, Prod.mk.injEq, true_and] at this
  rw [this]

/-- The collaborators answer more primitives. -/
def creditMore (d : Option Nat) : Recast where
  ports ps := { ps with credit := match ps.credit with
    | some k => d.map (k + ·)
    | none => none }

theorem creditMore_serves (d : Option Nat) : (creditMore d).Serves (fun _ => True) true where
  answer := by
    intro ps p a q _ h _
    refine ⟨?_, trivial⟩
    unfold Ports.answer at h ⊢
    split at h
    · cases h
    · rename_i hc
      simp only [Option.map_eq_some_iff, Prod.mk.injEq] at h
      obtain ⟨⟨a', q'⟩, hp, rfl, rfl⟩ := h
      have hk := Ports.perform_keeps_credit hp
      simp only [creditMore, Ports.perform_credit, hp, Option.map_some]
      cases hps : ps.credit with
      | none => simp [Ports.spend, hk, hps]
      | some k =>
        have hk0 : k ≠ 0 := fun h => hc (by rw [hps, h])
        cases d with
        | none => simp [Ports.spend, hk, hps]
        | some e =>
          simp only [Ports.spend, hk, hps, Option.map_some]
          rw [if_neg (by simp; omega), show k + e - 1 = k - 1 + e by omega]
  touch := fun ps p => by cases p <;> rfl
  wait := fun _ => trivial

/-- Ports that bring more of a source and leave the collaborators' readiness alone. -/
theorem Recast.serves_of_perform {r : Recast} {I : Ports → Prop} {e : Bool} (hc : ∀ ps, (r.ports ps).credit = ps.credit)
    (hs : ∀ ps, r.ports ps.spend = (r.ports ps).spend) (hI : ∀ ps, I ps → I ps.spend)
    (hp : ∀ {ps p a q}, I ps → ps.perform p = some (a, q) → (p.releasing = true → e = true) →
      (r.ports ps).perform p = some (a, r.ports q) ∧ I q) (ht : ∀ ps p, r.ports (ps.touch p) = (r.ports ps).touch p) (hw : ∀ {ps p}, I ps → I (ps.touch p)) :
    r.Serves I e where
  answer := by
    intro ps p a q h ha hr
    unfold Ports.answer at ha ⊢
    rw [hc]
    split at ha
    · cases ha
    · rename_i h0
      simp only [Option.map_eq_some_iff, Prod.mk.injEq] at ha
      obtain ⟨⟨a', q'⟩, hq, rfl, rfl⟩ := ha
      obtain ⟨h₁, h₂⟩ := hp h hq hr
      rw [if_neg h0, h₁, Option.map_some, hs]
      exact ⟨rfl, hI _ h₂⟩
  touch := ht
  wait := hw

/-- More bits come at port BI. -/
def bitsMore (bits : List Bool) (ended : Bool) : Recast where
  ports ps := { ps with bi := { ps.bi with bits := ps.bi.bits ++ bits, ended := ended } }

theorem bitsMore_serves (bits : List Bool) (ended : Bool) : (bitsMore bits ended).Serves (fun ps => ps.bi.ended = false) false := by
  refine Recast.serves_of_perform (fun _ => rfl) (fun _ => rfl) (fun _ h => h) ?_ (fun ps p => by cases p <;> rfl)
    fun {ps p} h => by cases p <;> exact h
  intro ps p a q hI hp hr
  cases p with
  | biRelease => exact absurd (hr rfl) nofun
  | biRead n =>
    simp only [Ports.perform, BiPort.read] at hp
    split at hp
    · rename_i hn
      cases hp
      refine ⟨?_, hI⟩
      simp only [Ports.perform, BiPort.read, bitsMore, List.length_append]
      rw [if_pos (by omega), List.take_append_of_le_length hn, List.drop_append_of_le_length hn]
      rfl
    · rw [hI] at hp; cases hp
  | ibRead =>
    simp only [Ports.perform] at hp
    cases hib : ps.ib.read with
    | none => rw [hib] at hp; cases hp
    | some x =>
      rw [hib] at hp
      cases hp
      refine ⟨?_, hI⟩
      simp only [Ports.perform, bitsMore, hib]
      rfl
  | _ => cases hp; exact ⟨rfl, hI⟩

/-- More bytes of the pass come at port IB. -/
def bytesMore (bytes : List Byte) (ended : Bool) : Recast where
  ports ps := { ps with ib := { ps.ib with left := ps.ib.left ++ bytes, all := ps.ib.all ++ bytes, ended := ended } }

theorem bytesMore_serves (bytes : List Byte) (ended : Bool) :
    (bytesMore bytes ended).Serves (fun ps => ps.ib.ended = false ∧ ps.ib.later = []) false := by
  refine Recast.serves_of_perform (fun _ => rfl) (fun _ => rfl) (fun _ h => h) ?_ (fun ps p => by cases p <;> rfl)
    fun {ps p} h => by cases p <;> exact h
  intro ps p a q hI hp hr
  cases p with
  | ibRelease => exact absurd (hr rfl) nofun
  | ibRewind =>
    cases hp
    have h₁ : ps.ib.rewind = { ps.ib with left := ps.ib.all, isOpen := true } := by simp [IbPort.rewind, hI.2]
    refine ⟨?_, ?_⟩
    · simp only [Ports.perform, bytesMore, IbPort.rewind, hI.2]
    · show ps.ib.rewind.ended = false ∧ ps.ib.rewind.later = []
      rw [h₁]; exact hI
  | ibRead =>
    simp only [Ports.perform, IbPort.read] at hp
    cases hl : ps.ib.left with
    | nil => simp only [hl, hI.1] at hp; cases hp
    | cons b rest =>
      simp only [hl] at hp
      cases hp
      refine ⟨?_, hI⟩
      simp only [Ports.perform, IbPort.read, bytesMore, hl, List.cons_append]
      rfl
  | biRead n =>
    simp only [Ports.perform] at hp
    cases hbi : ps.bi.read n with
    | none => rw [hbi] at hp; cases hp
    | some x =>
      rw [hbi] at hp
      cases hp
      refine ⟨?_, hI⟩
      simp only [Ports.perform, bytesMore, hbi]
      rfl
  | _ => cases hp; exact ⟨rfl, hI⟩

/-- Nothing comes. -/
theorem same_serves : ({} : Recast).Serves (fun _ => True) true where
  answer := fun _ h _ => ⟨h, trivial⟩
  touch := fun _ _ => rfl
  wait := fun _ => trivial

/-- Collaborators that answer as soon as they can go on so. -/
theorem same_credit : ({} : Recast).Serves (fun ps => ps.credit = none) true where
  answer := fun {ps p a q} h ha _ => ⟨ha, by
    rw [Ports.answer_of_ready h] at ha
    exact (Ports.perform_keeps_credit ha).trans h⟩
  touch := fun _ _ => rfl
  wait := fun {ps p} h => by cases p <;> exact h

/-! ### A command that is held -/

variable {r : Recast} {I : Ports → Prop} {e : Bool}

/-- The parts behind a source's release wait for nothing but the release. -/
def Task.tail : Task → Bool
  | .ibRelease => true
  | .biRelease => true
  | .enClosed => true
  | .deClosed => true
  | _ => false

/-- Every body has its releases at its end. -/
theorem body_releases (i : Instr) : ∃ a b, bodyOf i = a ++ b ∧ (∀ t ∈ a, t.releasing = false) ∧ ∀ t ∈ b, t.tail = true := by
  cases i with
  | enClose => exact ⟨[.bitsOutResult, .obClose], [.ibRelease, .enClosed], rfl, forall_of_all rfl, forall_of_all rfl⟩
  | deClose => exact ⟨[.bytesOutResult, .boClose], [.biRelease, .deClosed], rfl, forall_of_all rfl, forall_of_all rfl⟩
  | compress => exact ⟨[.phase 0x10, .fcInit] ++ .phase 0x12 :: fcScanTasks ++ .phase 0x22 :: tbBuildTasks ++
      [.phase 0x30, .cgGen] ++ [.phase 0x40, .writeMagic] ++ [.phase 0x41, .writeTree] ++ .phase 0x52 :: enBodyTasks ++
      [.phase 0x53, .bitsOutResult, .obClose], [.ibRelease, .enClosed], rfl, forall_of_all rfl, forall_of_all rfl⟩
  | decompress => exact ⟨[.phase 0x42, .readMagic] ++ .phase 0x43 :: hdReadTreeTasks ++ .phase 0x61 :: deBodyTasks ++
      [.phase 0x62, .bytesOutResult, .boClose], [.biRelease, .deClosed], rfl, forall_of_all rfl, forall_of_all rfl⟩
  | _ => exact ⟨_, [], (List.append_nil _).symm, forall_of_all rfl, by simp⟩

theorem runTasks_tail : ∀ (ts : List Task) (s : State), (∀ t ∈ ts, t.tail = true) → ∀ y, runTasks ts s = .hold y →
    ∃ p ∈ cleanupPrims, y.seq.pending = some p
  | [], _, _, _, h => by cases h
  | t :: ts, s, ht, y, h => by
    have rest : ∀ z, (runTasks ts z) = .hold y → ∃ p ∈ cleanupPrims, y.seq.pending = some p :=
      fun z hz => runTasks_tail ts z (fun u hu => ht u (by simp [hu])) y hz
    have port : ∀ p ∈ cleanupPrims, (∀ x : State, runTask t x = x.port p [t] fun _ s' => .ok s') →
        ∃ p ∈ cleanupPrims, y.seq.pending = some p := fun p hp hx => by
      rw [runTasks_cons, hx, State.port] at h
      split at h
      · exact rest _ h
      · cases h; exact ⟨p, hp, rfl⟩
    cases t with
    | ibRelease => exact port .ibRelease (by decide) fun _ => rfl
    | biRelease => exact port .biRelease (by decide) fun _ => rfl
    | enClosed => exact rest _ h
    | deClosed => exact rest _ h
    | _ => exact absurd (ht _ (List.mem_cons_self ..)) nofun

/-- A body that a port holds. -/
theorem body_resume (S : r.Serves I e) (hs : r.reads) (i : Instr) {s y : State} (hf : s.fresh) (hI : I s.ports)
    (h : runTasks (bodyOf i) s = .hold y) (he : e = true ∨ ∀ p ∈ cleanupPrims, y.seq.pending ≠ some p) :
    runTasks (bodyOf i) (r.state s) = runTasks y.seq.tasks (r.state y.rest) ∧ y.waits := by
  by_cases ht : e = true
  · have := runTasks_sim S (bodyOf i) (fun t _ => ⟨fun _ => ht, fun _ => hs⟩) s hf hI
    rw [h] at this
    exact ⟨this.1, this.2.1⟩
  · obtain ⟨a, b, hab, ha, hb⟩ := body_releases i
    have hp := he.resolve_left ht
    have hA := runTasks_sim S a (fun t ht => ⟨fun h => (ne_true_of_eq_false (ha t ht) h).elim, fun _ => hs⟩) s hf hI
    rw [hab, runTasks_append] at h
    rw [hab, runTasks_append]
    cases hx : runTasks a s with
    | ok z =>
      rw [hx] at h
      obtain ⟨p, hp', hz⟩ := runTasks_tail b z hb y h
      exact absurd hz (hp p hp')
    | hold z =>
      rw [hx] at h hA
      cases h
      refine ⟨?_, hA.2.1⟩
      rw [hA.1]
      show _ = runTasks (z.seq.tasks ++ b) _
      rw [runTasks_append]
      rfl
    | raise c x d z => rw [hx] at h; cases h
    | fault g => rw [hx] at h; cases h

/-- Error entry that a port holds. -/
theorem cleanUp_resume (S : r.Serves I true) : ∀ (ps : List Prim) (z : State), I z.ports → (z.cleanUp ps).status.busy = true →
    (z.cleanUp ps).waits ∧ (r.state (z.cleanUp ps)).cleanUp (z.cleanUp ps).seq.todo = (r.state z).cleanUp ps
  | [], z, _, hb => absurd hb nofun
  | p :: ps, z, hI, hb => by
    cases ha : z.ports.answer p with
    | some q =>
      have h := S.answer (a := q.1) (q := q.2) hI ha fun _ => rfl
      have e₁ := State.cleanUp_answered (s := z) (a := q.1) (q := q.2) ha ps
      have e₂ : (r.state z).cleanUp (p :: ps) = (r.state (z.setPorts q.2)).cleanUp ps :=
        State.cleanUp_answered (s := r.state z) (a := q.1) (q := r.ports q.2) h.1 ps
      rw [e₁] at hb
      rw [e₁, e₂]
      exact cleanUp_resume S ps (z.setPorts q.2) h.2 hb
    | none =>
      rw [State.cleanUp_held ha]
      exact ⟨⟨p, rfl, ha⟩, State.cleanUp_seq [] (some p) (p :: ps) (p :: ps) (r.state z)⟩

theorem cleanUp_pending (ps : List Prim) (z : State) (hb : (z.cleanUp ps).status.busy = true) :
    ∃ p ∈ ps, (z.cleanUp ps).seq.pending = some p := by
  obtain ⟨q, e | ⟨p, rest, ⟨done, rfl⟩, _, e⟩⟩ := z.cleanUp_cases ps
  · rw [e] at hb; cases hb
  · exact ⟨p, by simp, by rw [e]; rfl⟩

/-- A command that a port holds, or whose error entry a port holds, once the collaborators bring more: it does what it would have
done had they brought it before. -/
theorem exec_resume (S : r.Serves I e) (ho : r.opcode = id) (hr : r.flags = id) (hs : r.reads) {i : Instr} {s t : State} (h : s.idle)
    (hI : I s.ports) (hx : exec i s = .next t) (hb : t.status.busy = true)
    (he : e = true ∨ ∀ p ∈ cleanupPrims, t.seq.pending ≠ some p) : (r.state t).resume = exec i (r.state s) ∧ t.waits := by
  by_cases hi : ∃ x, i = .sreset x
  · obtain ⟨x, rfl⟩ := hi
    cases hx
    exact absurd hb nofun
  rw [exec_eq i fun x hx => hi ⟨x, hx⟩] at hx ⊢
  have h' : (r.state s).idle := by
    refine ⟨h.1, h.2.1, ?_⟩
    obtain ⟨rp, ro, rf, rs, ri⟩ := r
    obtain ⟨rfl, rfl⟩ : rs = id ∧ ri = id := hs
    subst ho hr
    exact h.2.2
  have hacc : ∀ w, (r.state s).accept w = r.state (s.accept w) := fun w => by
    obtain ⟨rp, ro, rf, rs, ri⟩ := r
    obtain ⟨rfl, rfl⟩ : rs = id ∧ ri = id := hs
    subst ho hr
    rfl
  have fail : ∀ (z : State) (c : Cause) (x d : Word), (e = true → I z.ports) → t = z.enterError c x d →
      (r.state t).resume = .next ((r.state z).enterError c x d) ∧ t.waits := by
    intro z c x d hI ht
    subst ht
    obtain rfl : e = true := he.resolve_right fun hp => by
      obtain ⟨p, hp', e'⟩ := cleanUp_pending cleanupPrims _ hb
      exact hp p hp' e'
    obtain ⟨hw, hc⟩ := cleanUp_resume S cleanupPrims (z.recordError c x d) (hI rfl) hb
    refine ⟨?_, hw⟩
    obtain ⟨b, hst⟩ := (z.enterError_record c x d).1
    rw [State.resume_failing (by exact hb) (by exact (congrArg Status.err hst).trans rfl)]
    refine congrArg Host.Outcome.next (hc.trans (congrArg (fun u : State => u.cleanUp cleanupPrims) ?_))
    obtain ⟨rp, ro, rf, rs, ri⟩ := r
    subst ho
    rfl
  by_cases hw : i.wellFormed = true
  · by_cases hn : (needOf i).holds s.status = true
    · rw [runCommand_runs h.accepts hw hn] at hx
      rw [runCommand_runs h'.accepts hw (by exact hn), hacc]
      have hk := kept_busy.tasks (bodyOf i) (s.accept (encode i)) (fun _ _ _ => rfl) ⟨rfl, rfl, h.2.1⟩
      cases hf : runTasks (bodyOf i) (s.accept (encode i)) with
      | ok y => rw [hf] at hx; cases hx; exact absurd hb nofun
      | hold y =>
        rw [hf] at hx hk
        cases hx
        obtain ⟨h₁, h₂⟩ := body_resume S hs i (s := s.accept (encode i)) ⟨rfl, rfl⟩ hI hf he
        refine ⟨?_, h₂⟩
        rw [h₁, State.resume_running (by exact hb) (by exact hk.2.2)]
        rfl
      | raise c x d y =>
        rw [hf] at hx hk
        cases hx
        have hsim : e = true → _ := fun hte => runTasks_sim S (bodyOf i) (fun t _ => ⟨fun _ => hte, fun _ => hs⟩)
          (s.accept (encode i)) ⟨rfl, rfl⟩ hI
        rw [hf] at hsim
        have := fail y c x d (fun hte => (hsim hte).2.2) rfl
        refine ⟨this.1.trans ?_, this.2⟩
        obtain rfl : e = true := he.resolve_right fun hp => by
          obtain ⟨p, hp', e'⟩ := cleanUp_pending cleanupPrims _ hb
          exact hp p hp' e'
        rw [(hsim rfl).1]
        rfl
      | fault g => rw [hf] at hx; cases hx
    · have hn' : (needOf i).holds s.status = false := by simpa using hn
      rw [runCommand_sequence h.accepts hw hn'] at hx
      rw [runCommand_sequence h'.accepts hw (by exact hn'), hacc]
      cases hx
      exact fail (s.accept _) _ _ _ (fun _ => hI) rfl
  · have hw' : i.wellFormed = false := by simpa using hw
    rw [runCommand_illegal h.accepts hw'] at hx
    rw [runCommand_illegal h'.accepts hw', hacc]
    cases hx
    exact fail (s.accept _) _ _ _ (fun _ => hI) rfl

/-! ### Collaborators that answer -/

/-- They answer every primitive but one on a source that is gone. -/
def Ports.answers (ps : Ports) : Prop :=
  ps.credit = none ∧ ps.ib.ended = true ∧ (∀ p ∈ ps.ib.later, p.2 = true) ∧ ps.bi.ended = true

theorem Ports.answers.some {ps : Ports} (h : ps.answers) (p : Prim) : ps.answer p ≠ none := by
  rw [Ports.answer_of_ready h.1]
  cases p with
  | ibRead =>
    simp only [Ports.perform, IbPort.read, h.2.1]
    cases ps.ib.left <;> nofun
  | biRead n =>
    simp only [Ports.perform, BiPort.read, h.2.2.2]
    split <;> nofun
  | _ => nofun

theorem answers_serves : ({} : Recast).Serves Ports.answers false where
  answer := by
    intro ps p a q h ha hr
    refine ⟨ha, ?_⟩
    rw [Ports.answer_of_ready h.1] at ha
    cases p with
    | ibRelease => exact absurd (hr rfl) nofun
    | biRelease => exact absurd (hr rfl) nofun
    | ibRead =>
      simp only [Ports.perform, IbPort.read, h.2.1] at ha
      cases hl : ps.ib.left <;> simp only [hl] at ha <;> cases ha <;> exact ⟨h.1, rfl, h.2.2.1, h.2.2.2⟩
    | ibRewind =>
      cases ha
      obtain ⟨h₁, h₂, h₃, h₄⟩ := h
      cases hl : ps.ib.later with
      | nil => exact ⟨h₁, by simp [IbPort.rewind, hl, h₂], by simp [IbPort.rewind, hl], h₄⟩
      | cons x rest =>
        rw [hl] at h₃
        exact ⟨h₁, by simpa [IbPort.rewind, hl] using h₃ x (by simp), fun q hq => by
          simp only [IbPort.rewind, hl] at hq
          exact h₃ q (List.mem_cons_of_mem _ hq), h₄⟩
    | biRead n =>
      simp only [Ports.perform, BiPort.read, h.2.2.2] at ha
      split at ha <;> cases ha <;> exact ⟨h.1, h.2.1, h.2.2.1, rfl⟩
    | _ => cases ha; exact h
  touch := fun _ _ => rfl
  wait := fun {ps p} h => by cases p <;> exact h

/-- With collaborators that answer no body is held. -/
theorem body_answered (i : Instr) {s y : State} (hf : s.fresh) (h : s.ports.answers) : runTasks (bodyOf i) s ≠ .hold y := by
  intro hx
  obtain ⟨a, b, hab, ha, hb⟩ := body_releases i
  have hA := runTasks_sim answers_serves a (fun t ht => ⟨fun h => (ne_true_of_eq_false (ha t ht) h).elim, fun _ => ⟨rfl, rfl⟩⟩)
    s hf h
  rw [hab, runTasks_append] at hx
  cases hz : runTasks a s with
  | ok z =>
    rw [hz] at hx hA
    have hc : z.ports.credit = none := hA.2.2.1
    have tail : ∀ (ts : List Task) (z : State), (∀ t ∈ ts, t.tail = true) → z.ports.credit = none → runTasks ts z ≠ .hold y := by
      intro ts
      induction ts with
      | nil => intro z _ _ h; cases h
      | cons t ts ih =>
        intro z ht hc h
        have rest : ∀ (z' : State), runTasks ts z' = .hold y → z'.ports.credit = none → False := fun z' h hc =>
          ih z' (fun u hu => ht u (by simp [hu])) hc h
        rw [runTasks_cons] at h
        cases t with
        | ibRelease => rw [runTask, ibReleaseBody, port_ibRelease hc] at h; exact rest _ h hc
        | biRelease => rw [runTask, biReleaseBody, port_biRelease hc] at h; exact rest _ h hc
        | enClosed => exact rest _ h hc
        | deClosed => exact rest _ h hc
        | _ => exact absurd (ht _ (List.mem_cons_self ..)) nofun
    exact tail b z hb hc hx
  | hold z =>
    rw [hz] at hA
    obtain ⟨-, ⟨p, -, hp⟩, hz⟩ := hA
    exact hz.some p hp
  | raise c x d z => rw [hz] at hx; cases hx
  | fault g => rw [hz] at hx; cases hx

/-- With collaborators that answer every command of an idle engine is over at once (60_exceptions.md rule R325, duty H9). -/
theorem exec_answered {i : Instr} {s t : State} (hb : s.status.busy = false) (h : s.answered) (hx : exec i s = .next t) :
    t.status.busy = false := by
  by_cases hi : ∃ x, i = .sreset x
  · obtain ⟨x, rfl⟩ := hi; cases hx; rfl
  rw [exec_eq i fun x hx => hi ⟨x, hx⟩] at hx
  have fail : ∀ (z : State) c x d, z.ports.credit = none → (z.enterError c x d).status.busy = false := fun z c x d hz => by
    rw [State.enterError_ready hz]; rfl
  by_cases ha : s.accepts = true
  · by_cases hw : i.wellFormed = true
    · by_cases hn : (needOf i).holds s.status = true
      · rw [runCommand_runs ha hw hn] at hx
        cases hf : runTasks (bodyOf i) (s.accept (encode i)) with
        | ok y => rw [hf] at hx; cases hx; rfl
        | hold y => exact absurd hf (body_answered i ⟨rfl, rfl⟩ h)
        | raise c x d y =>
          rw [hf] at hx
          cases hx
          have hk := runTasks_sim same_credit (bodyOf i) (fun t _ => ⟨fun _ => rfl, fun _ => ⟨rfl, rfl⟩⟩) (s.accept (encode i))
            ⟨rfl, rfl⟩ h.1
          rw [hf] at hk
          exact fail y c x d hk.2.2
        | fault g => rw [hf] at hx; cases hx
      · rw [runCommand_sequence ha hw (by simpa using hn)] at hx
        cases hx
        exact fail _ _ _ _ h.1
    · rw [runCommand_illegal ha (by simpa using hw)] at hx
      cases hx
      exact fail _ _ _ _ h.1
  · rw [runCommand_rejected (by simpa using ha)] at hx
    cases hx
    exact hb

end Sys2Proof.Machine
end

