-- ==== Sys2Proof/Laws/SubSteps.lean ====
section
/-! SUPPORT. A composite command is the primitive commands whose bodies it runs, one after the other (47_composite.md rules R280 to
R283), TB_BUILD is TB_LOAD and as many TB_STEPs as it takes (42_tree_builder.md rule R168), and DE_BODY is as many DE_STEPs as it takes
(46_decoder.md rule R262). -/

namespace Sys2Proof.Machine

/-- An idle engine as a composite command has it before a sub-step: OPCODE `op`, the flags `fl` at acceptance, PHASE `ph`. -/
def State.inside (s : State) (op : Byte) (fl : Status) (ph : Byte) : State :=
  (s.setStatus s.status.accepted).setSeq { opcode := op, phase := ph, flags := fl }

/-- A primitive command's engine as a composite command's: OPCODE and the flags at acceptance are the composite's. -/
def within (op : Byte) (fl : Status) : Recast where
  opcode _ := op
  flags _ := fl

theorem within_serves (op : Byte) (fl : Status) : (within op fl).Serves (fun _ => True) true where
  answer := fun _ h _ => ⟨h, trivial⟩
  touch := fun _ _ => rfl
  wait := fun _ => trivial

/-- A traversal that has not begun. -/
def untraversed : Recast where
  stack _ := []
  icount _ := 0

theorem untraversed_serves : untraversed.Serves (fun _ => True) true where
  answer := fun _ h _ => ⟨h, trivial⟩
  touch := fun _ _ => rfl
  wait := fun _ => trivial

/-- The commands that are sub-steps of a composite command. -/
def subSteps : List Instr := compressSteps ++ decompressSteps

theorem subSteps_forms {i : Instr} (h : i ∈ subSteps) : (∀ x, i ≠ .sreset x) ∧ i.wellFormed = true ∧
    (∀ t ∈ bodyOf i, t.isPhase = false) ∧ ((∀ t ∈ bodyOf i, t.header = false) ∨ i = .hdReadTree) := by
  simp only [subSteps, compressSteps, decompressSteps, List.mem_append, List.mem_cons, List.not_mem_nil, or_false] at h
  rcases h with (rfl | rfl | rfl | rfl | rfl | rfl | rfl | rfl) | (rfl | rfl | rfl | rfl) <;>
    exact ⟨nofun, rfl, by decide, by decide⟩

/-- A sub-step ends with no traversal on its way. -/
theorem subStep_untraversed {i : Instr} (hi : i ∈ subSteps) {s y : State} (hf : s.fresh) (h₁ : s.seq.stack = []) (h₂ : s.seq.icount = 0)
    (h : runTasks (bodyOf i) s = .ok y) : y.seq.stack = [] ∧ y.seq.icount = 0 := by
  rcases (subSteps_forms hi).2.2.2 with hh | rfl
  · have hs := runTasks_sim untraversed_serves (bodyOf i) (fun t ht => ⟨fun _ => rfl, fun h => by rw [hh t ht] at h; cases h⟩) s hf trivial
    have he : untraversed.state s = s := by
      apply State.ext <;> try rfl
      show ({ s.seq with stack := [], icount := 0 } : Seq) = s.seq
      rw [← h₁, ← h₂]
    rw [he, h] at hs
    have hy : y = untraversed.state y := by injection hs.1
    exact ⟨by rw [hy]; rfl, by rw [hy]; rfl⟩
  · rw [show bodyOf .hdReadTree = [.hdStart, .hdRoot, .hdTree] ++ [.hdFinish] from rfl, runTasks_append] at h
    cases hx : runTasks [.hdStart, .hdRoot, .hdTree] s with
    | ok z => rw [hx] at h; cases h; exact ⟨rfl, rfl⟩
    | hold z => rw [hx] at h; cases h
    | raise c x d z => rw [hx] at h; cases h
    | fault g => rw [hx] at h; cases h

/-- Error entry that no port holds depends on the hidden state in the recorded OPCODE and PHASE alone (60_exceptions.md rule R303). -/
theorem enterError_setSeq {z : State} (hb : z.status.busy = true) (q : Seq) (c : Cause) (x d : Word)
    (h : (z.enterError c x d).status.busy = false) : (z.setSeq q).enterError c x d =
      { z.enterError c x d with errCause := { cause := c, opcode := q.opcode, phase := q.phase } } := by
  have key : ∀ (e : ErrCause) (ps : List Prim) (z : State), z.status.busy = true → (z.cleanUp ps).status.busy = false →
      ({ z with errCause := e, seq := q } : State).cleanUp ps = { z.cleanUp ps with errCause := e } := by
    intro e ps
    induction ps with
    | nil => intro z _ _; rfl
    | cons p ps ih =>
      intro z hb h
      cases ha : z.ports.answer p with
      | none =>
        rw [State.cleanUp_held ha] at h
        rw [show z.status.busy = false from h] at hb
        cases hb
      | some r =>
        rw [State.cleanUp_answered (s := z) (a := r.1) (q := r.2) ha] at h ⊢
        rw [State.cleanUp_answered (a := r.1) (q := r.2) (by exact ha)]
        exact ih (z.setPorts r.2) hb h
  exact key _ cleanupPrims (z.recordError c x d) hb h

/-- Error entry in a primitive command and in a composite one differ in the recorded OPCODE alone (47_composite.md rule R282). -/
theorem enterError_within {op : Byte} {fl : Status} {z : State} (hb : z.status.busy = true) (c : Cause) (x d : Word)
    (h : (z.enterError c x d).status.busy = false) : ((within op fl).state z).enterError c x d =
      { z.enterError c x d with errCause := { (z.enterError c x d).errCause with opcode := op } } := by
  rw [(z.enterError_record c x d).2]
  exact enterError_setSeq hb { z.seq with opcode := op, flags := fl } c x d h

/-- Error entry that no port holds. -/
theorem enterError_over (z : State) (c : Cause) (x d : Word) :
    (z.enterError c x d).status.err = true ∧ (z.enterError c x d).status.done = false ∧ (z.enterError c x d).errCause.cause = c := by
  obtain ⟨⟨b, h⟩, h'⟩ := z.enterError_record c x d
  rw [h, h']
  exact ⟨rfl, rfl, rfl⟩

/-- One sub-step, run as a primitive command and inside a composite one. -/
theorem subStep {i : Instr} (hi : i ∈ subSteps) {s u : State} (h : s.idle) (hx : exec i s = .next u) (hb : u.status.busy = false)
    (hq : u.status.err = true → u.errCause.cause ≠ .seqError) (op : Byte) (fl : Status) (ph : Byte) :
    (u.idle ∧ u.status.done = true ∧ u.status.reject = false ∧
      runTasks (.phase i.opcode :: bodyOf i) (s.inside op fl ph) = .ok (u.inside op fl i.opcode)) ∨
    (u.status.err = true ∧ u.status.done = false ∧ ∃ y c x d,
      runTasks (.phase i.opcode :: bodyOf i) (s.inside op fl ph) = .raise c x d y ∧
      y.enterError c x d = { u with errCause := { u.errCause with opcode := op } }) := by
  obtain ⟨h₁, h₂, h₃, -⟩ := subSteps_forms hi
  rw [exec_eq i h₁] at hx
  have hrun : runTasks (.phase i.opcode :: bodyOf i) (s.inside op fl ph) = runTasks (bodyOf i) ((within op fl).state (s.accept (encode i))) := by
    rw [runTasks_phase]
    refine congrArg (runTasks (bodyOf i)) ?_
    apply State.ext <;> try rfl
    show ({ opcode := op, phase := i.opcode, flags := fl } : Seq) = { opcode := op, phase := opcodeOf (encode i), flags := fl }
    rw [opcodeOf_encode]
  by_cases hn : (needOf i).holds s.status = true
  · rw [runCommand_runs h.accepts h₂ hn] at hx
    have hs := runTasks_sim (within_serves op fl) (bodyOf i) (fun t _ => ⟨fun _ => rfl, fun _ => ⟨rfl, rfl⟩⟩)
      (s.accept (encode i)) ⟨rfl, rfl⟩ trivial
    have hk := kept_running.tasks (bodyOf i) (s.accept (encode i)) (fun _ _ _ => rfl) ⟨rfl, rfl, h.2.1, rfl⟩
    rw [hrun]
    cases hf : runTasks (bodyOf i) (s.accept (encode i)) with
    | ok y =>
      rw [hf] at hx hs hk
      cases hx
      have ht := tasks_track (bodyOf i) (s.accept (encode i)) ((bodyOf i).flatMap Task.causes) h₃
        (fun t ht c hc => List.mem_flatMap.2 ⟨t, ht, hc⟩) rfl
      rw [hf] at ht
      obtain ⟨k₁, k₂⟩ := subStep_untraversed hi ⟨rfl, rfl⟩ rfl rfl hf
      obtain ⟨e, ⟨k₃, k₄⟩, -⟩ := hs
      obtain ⟨b₁, b₂, b₃, b₄⟩ := hk
      refine .inl ⟨⟨rfl, b₃, rfl⟩, rfl, b₄, e.trans (congrArg Flow.ok ?_)⟩
      apply State.ext <;> try rfl
      · show y.status = { y.status with busy := true, done := false, reject := false }
        generalize y.status = st at b₁ b₂ b₄
        obtain ⟨a, b, c, d⟩ := st
        subst b₁ b₂ b₄
        rfl
      · show ({ y.seq with opcode := op, flags := fl } : Seq) = { opcode := op, phase := i.opcode, flags := fl }
        have hphase : y.seq.phase = i.opcode := (congrArg (·.2.1) ht).trans (opcodeOf_encode i)
        have htodo : y.seq.todo = [] := congrArg (·.2.2.2) ht
        generalize hq : y.seq = q at *
        obtain ⟨a, b, c, d, e, f, g, j⟩ := q
        simp only at hphase htodo k₁ k₂ k₃ k₄
        subst hphase htodo k₁ k₂ k₃ k₄
        rfl
    | hold y =>
      rw [hf] at hx hk
      cases hx
      rw [hk.1] at hb
      cases hb
    | raise c x d y =>
      rw [hf] at hx hs hk
      cases hx
      obtain ⟨e₁, e₂, -⟩ := enterError_over y c x d
      exact .inr ⟨e₁, e₂, _, c, x, d, hs.1, enterError_within hk.1 c x d hb⟩
    | fault g => rw [hf] at hx; cases hx
  · rw [runCommand_sequence h.accepts h₂ (by simpa using hn)] at hx
    cases hx
    obtain ⟨e₁, -, e₃⟩ := enterError_over (s.accept (encode i)) .seqError (needOf i).word s.status.flagWord
    exact absurd e₃ (hq e₁)

/-- A command that is done is over, without an error. -/
theorem subStep_done {i : Instr} (hi : i ∈ subSteps) {s t : State} (h : s.idle) (hx : exec i s = .next t) (hd : t.status.done = true) :
    t.status.busy = false ∧ t.status.err = false := by
  obtain ⟨h₁, h₂, h₃, -⟩ := subSteps_forms hi
  rw [exec_eq i h₁] at hx
  by_cases hn : (needOf i).holds s.status = true
  · rw [runCommand_runs h.accepts h₂ hn] at hx
    have hk := kept_running.tasks (bodyOf i) (s.accept (encode i)) (fun _ _ _ => rfl) ⟨rfl, rfl, h.2.1, rfl⟩
    cases hf : runTasks (bodyOf i) (s.accept (encode i)) with
    | ok y => rw [hf] at hx hk; cases hx; exact ⟨rfl, hk.2.2.1⟩
    | hold y => rw [hf] at hx hk; cases hx; rw [hk.2.1] at hd; cases hd
    | raise c x d y =>
      rw [hf] at hx hk
      cases hx
      rw [show (y.enterError c x d).status.done = false from (enterError_over y c x d).2.1] at hd
      cases hd
    | fault g => rw [hf] at hx; cases hx
  · rw [runCommand_sequence h.accepts h₂ (by simpa using hn)] at hx
    cases hx
    rw [show ((s.accept (encode i)).enterError _ _ _).status.done = false from (enterError_over _ _ _ _).2.1] at hd
    cases hd

/-- The parts of some sub-steps, each with its PHASE (47_composite.md rule R280). -/
def phased (is : List Instr) : List Task := is.flatMap fun i => .phase i.opcode :: bodyOf i

/-- Some sub-steps, run as primitive commands one after the other and inside a composite command. -/
theorem runSteps : ∀ (is : List Instr), (∀ i ∈ is, i ∈ subSteps) → ∀ {s u : State}, s.idle → execAll is s = .next u →
    u.status.busy = false → (u.status.err = true → u.errCause.cause ≠ .seqError) → ∀ (op : Byte) (fl : Status) (ph : Byte),
    (u.idle ∧ (is ≠ [] → u.status.done = true ∧ u.status.reject = false) ∧
      ∃ ph', runTasks (phased is) (s.inside op fl ph) = .ok (u.inside op fl ph')) ∨
    (u.status.err = true ∧ ∃ y c x d, runTasks (phased is) (s.inside op fl ph) = .raise c x d y ∧
      y.enterError c x d = { u with errCause := { u.errCause with opcode := op } })
  | [], _, s, u, h, hx, _, _, op, fl, ph => by
    cases hx
    exact .inl ⟨h, fun h => absurd rfl h, ph, rfl⟩
  | i :: is, hi, s, u, h, hx, hb, hq, op, fl, ph => by
    rw [show phased (i :: is) = (.phase i.opcode :: bodyOf i) ++ phased is from rfl]
    simp only [execAll] at hx
    cases ht : exec i s with
    | next t =>
      rw [ht] at hx
      dsimp only at hx
      by_cases hd : t.status.done = true
      · rw [if_pos hd] at hx
        obtain ⟨hnb, hne⟩ := subStep_done (hi i (by simp)) h ht hd
        rcases subStep (hi i (by simp)) h ht hnb (fun he => by rw [hne] at he; cases he) op fl ph with ⟨h₁, h₂, h₃, h₄⟩ | ⟨h₁, -⟩
        · rw [runTasks_then h₄]
          rcases runSteps is (fun j hj => hi j (by simp [hj])) h₁ hx hb hq op fl i.opcode with ⟨g₁, g₂, g₃⟩ | g
          · refine .inl ⟨g₁, fun _ => ?_, g₃⟩
            by_cases hn : is = []
            · subst hn; cases hx; exact ⟨h₂, h₃⟩
            · exact g₂ hn
          · exact .inr g
        · rw [hne] at h₁; cases h₁
      · rw [if_neg hd] at hx
        cases hx
        rcases subStep (hi i (by simp)) h ht hb hq op fl ph with ⟨h₁, h₂, h₃, h₄⟩ | ⟨h₁, h₂, y, c, x, d, h₃, h₄⟩
        · exact absurd h₂ hd
        · exact .inr ⟨h₁, y, c, x, d, by rw [runTasks_append, h₃]; rfl, h₄⟩
    | fault g => rw [ht] at hx; cases hx
    | refused g => rw [ht] at hx; cases hx

/-- COMPRESS is its sub-steps (47_composite.md rules R280 to R282). -/
theorem compress_steps {s u : State} (h : s.idle) (hw : s.status.eofWritten = false) (hx : execAll compressSteps s = .next u)
    (hb : u.status.busy = false) (hq : u.status.err = true → u.errCause.cause ≠ .seqError) :
    (u.status.err = false ∧ exec .compress s = .next u) ∨
    (u.status.err = true ∧ exec .compress s = .next { u with errCause := { u.errCause with opcode := 0x70 } }) := by
  have hn : (needOf .compress).holds s.status = true := by simp [needOf, needNoEofWritten, Need.holds, Status.get, hw]
  have he : exec .compress s = (runTasks (phased compressSteps) (s.inside 0x70 s.status 0x70)).finish :=
    runCommand_runs h.accepts rfl hn
  rcases runSteps compressSteps (by decide) h hx hb hq 0x70 s.status 0x70 with ⟨h₁, h₂, ph, h₃⟩ | ⟨h₁, y, c, x, d, h₃, h₄⟩
  · refine .inl ⟨h₁.2.1, ?_⟩
    obtain ⟨g₁, g₂⟩ := h₂ (by decide)
    rw [he, h₃]
    refine congrArg Host.Outcome.next ?_
    apply State.ext <;> try rfl
    · show ({ u.status with busy := false, done := true, reject := false } : Status) = u.status
      have g₀ := h₁.1
      generalize u.status = st at g₀ g₁ g₂
      obtain ⟨a, b, c, d⟩ := st
      subst g₀ g₁ g₂
      rfl
    · exact h₁.2.2.symm
  · refine .inr ⟨h₁, ?_⟩
    rw [he, h₃]
    exact congrArg Host.Outcome.next h₄

/-- DECOMPRESS is its sub-steps (47_composite.md rules R280, R282, R283). -/
theorem decompress_steps {s u : State} (h : s.idle) (hw : s.status.eofSeen = false) (hx : execAll decompressSteps s = .next u)
    (hb : u.status.busy = false) (hq : u.status.err = true → u.errCause.cause ≠ .seqError) :
    (u.status.err = false ∧ exec .decompress s = .next u) ∨
    (u.status.err = true ∧ exec .decompress s = .next { u with errCause := { u.errCause with opcode := 0x71 } }) := by
  have hn : (needOf .decompress).holds s.status = true := by simp [needOf, needNoEofSeen, Need.holds, Status.get, hw]
  have he : exec .decompress s = (runTasks (phased decompressSteps) (s.inside 0x71 s.status 0x71)).finish :=
    runCommand_runs h.accepts rfl hn
  rcases runSteps decompressSteps (by decide) h hx hb hq 0x71 s.status 0x71 with ⟨h₁, h₂, ph, h₃⟩ | ⟨h₁, y, c, x, d, h₃, h₄⟩
  · refine .inl ⟨h₁.2.1, ?_⟩
    obtain ⟨g₁, g₂⟩ := h₂ (by decide)
    rw [he, h₃]
    refine congrArg Host.Outcome.next ?_
    apply State.ext <;> try rfl
    · show ({ u.status with busy := false, done := true, reject := false } : Status) = u.status
      have g₀ := h₁.1
      generalize u.status = st at g₀ g₁ g₂
      obtain ⟨a, b, c, d⟩ := st
      subst g₀ g₁ g₂
      rfl
    · exact h₁.2.2.symm
  · refine .inr ⟨h₁, ?_⟩
    rw [he, h₃]
    exact congrArg Host.Outcome.next h₄

/-! ### TB_BUILD -/

/-- The merges of TB_BUILD's loop, and as many TB_STEPs (42_tree_builder.md rule R168). -/
theorem mergeLoop_steps {L : List Symbol} {W : Nat} (hL : L.length ≤ 257) (hW : W < 2 ^ 32) : ∀ (n : Nat) (s z : State), s.idle →
    s.status.heapLoaded = true → Forest s.mem L W → s.mem.heap.length = n + 2 →
    z = (s.setStatus { s.status with busy := true, done := false, reject := false }).setSeq z.seq →
    ∃ u v, mergeLoop (n + 2) z = .ok v ∧ execAll (List.replicate (n + 1) .tbStep) s = .next u ∧ v.complete = u ∧
      v.result = v.root.setWidth 32
  | n, s, z, h, hl, hf, hn, hz => by
    obtain ⟨m', em, hf', hlen, hnodes, hfr, hco, hmem⟩ := hf.merge (by omega) hL hW
    have hzm : z.mem = s.mem := by rw [hz]; rfl
    have hzl : z.status.heapLoaded = true := by rw [hz]; exact hl
    have hx : exec .tbStep s = (runTasks [.tbStep] (s.accept (encode .tbStep))).finish :=
      runCommand_runs h.accepts rfl (by simp [needHeap, Need.holds, Status.get, hl])
    rw [mergeLoop, if_pos hzl, tbStepBody, hzm, em, List.replicate_succ, execAll, hx, runTasks_one, runTask, tbStepBody,
      show (s.accept (encode .tbStep)).mem = s.mem from rfl, em]
    simp only [Flow.ofExcept_ok]
    cases n with
    | zero =>
      have h1 : m'.heap.length = 1 := by omega
      rw [if_pos h1, if_pos h1, Flow.andThen_ok, mergeLoop, if_neg (by simp)]
      refine ⟨_, _, rfl, rfl, ?_, rfl⟩
      rw [hz]
      rfl
    | succ n =>
      have h1 : ¬ m'.heap.length = 1 := by omega
      rw [if_neg h1, if_neg h1, Flow.andThen_ok]
      obtain ⟨u, v, e₁, e₂, e₃, e₄⟩ := mergeLoop_steps hL hW n
        ((((s.accept (encode .tbStep)).setMem m').setResult ((BitVec.ofNat 10 s.mem.nodes.length).setWidth 32)).complete)
        ((z.setMem m').setResult ((BitVec.ofNat 10 s.mem.nodes.length).setWidth 32)) ⟨rfl, h.2.1, rfl⟩ hl hf' (by
          show m'.heap.length = n + 2
          omega) (by rw [hz]; rfl)
      exact ⟨u, v, e₁, e₂, e₃, e₄⟩

/-- TB_BUILD is TB_LOAD and a TB_STEP for each leaf but one (42_tree_builder.md rule R168). -/
theorem tbBuild_steps {s : State} (h : s.idle) (hv : s.status.freqValid = true) (hf : FreqOk s.mem.freq s.total) :
    exec .tbBuild s = execAll (.tbLoad :: List.replicate ((loadedLeaves s.mem.freq).length - 1) .tbStep) s := by
  have hlen := loadedLeaves_length hf
  have hheap : s.mem.loaded.heap.length = (loadedLeaves s.mem.freq).length := by simp [Memory.loaded, firstIndices]
  have hn : (needOf .tbBuild).holds s.status = true := by simp [needOf, needFreq, Need.holds, Status.get, hv]
  have hload : ∀ z : State, z.mem = s.mem → tbLoadBody z = .ok (((z.setMem s.mem.loaded).setStatus
      { z.status.invalidateTree with heapLoaded := true }).setResult s.mem.loaded.heapSizeWord) := fun z hz => by
    rw [tbLoadBody, hz, Memory.load_eq hf.1, Flow.ofExcept_ok]
  obtain ⟨k, hk⟩ : ∃ k, (loadedLeaves s.mem.freq).length = k + 2 := ⟨(loadedLeaves s.mem.freq).length - 2, by omega⟩
  have hx : exec .tbLoad s = (runTasks [.tbLoad] (s.accept (encode .tbLoad))).finish := runCommand_runs h.accepts rfl hn
  have hy : exec .tbBuild s = (runTasks tbBuildTasks (s.accept (encode .tbBuild))).finish := runCommand_runs h.accepts rfl hn
  rw [hy, execAll, hx, runTasks_one, runTask, hload (s.accept (encode .tbLoad)) rfl, tbBuildTasks, runTasks_cons, runTask,
    hload (s.accept (encode .tbBuild)) rfl, Flow.andThen_ok,
    Flow.finish_ok, hk, runTasks_cons, runTask, tbMergeBody]
  rw [show ∀ z : State, (((z.setMem s.mem.loaded).setStatus { z.status.invalidateTree with heapLoaded := true }).setResult
    s.mem.loaded.heapSizeWord).mem.heap.length = k + 2 from fun z => hheap.trans hk]
  obtain ⟨u, v, e₁, e₂, e₃, e₄⟩ := mergeLoop_steps (L := (loadedLeaves s.mem.freq).map fun p => p.1) (by simpa using hlen.2) s.total.isLt k
    ((((s.accept (encode .tbLoad)).setMem s.mem.loaded).setStatus { (s.accept (encode .tbLoad)).status.invalidateTree with
      heapLoaded := true }).setResult s.mem.loaded.heapSizeWord).complete
    ((((s.accept (encode .tbBuild)).setMem s.mem.loaded).setStatus { (s.accept (encode .tbBuild)).status.invalidateTree with
      heapLoaded := true }).setResult s.mem.loaded.heapSizeWord) ⟨rfl, h.2.1, rfl⟩ rfl (by exact Forest.loaded hf) (by exact hheap.trans hk) rfl
  rw [e₁, Flow.andThen_ok]
  show _ = execAll (List.replicate (k + 1) .tbStep) _
  rw [e₂]
  show Host.Outcome.next (State.complete (v.setResult (v.root.setWidth 32))) = _
  rw [← e₄, ← e₃]
  rfl

/-! ### DE_BODY -/

/-- The flow `g` ends or raises as `f` does, with the hidden state `q`. -/
def Flow.Reseq (q : Seq) (f g : Flow) : Prop :=
  (∀ y, f = .ok y → g = .ok (y.setSeq q)) ∧ ∀ c x d y, f = .raise c x d y → g = .raise c x d (y.setSeq q)

namespace Flow.Reseq

variable {q : Seq}

theorem ok (s : State) : (Flow.ok s).Reseq q (.ok (s.setSeq q)) := by
  constructor
  · intro y h; injection h with h; rw [h]
  · intro c x d y h; injection h

theorem raise (c : Cause) (x d : Word) (s : State) : (Flow.raise c x d s).Reseq q (.raise c x d (s.setSeq q)) := by
  constructor
  · intro y h; injection h
  · intro c x d y h; injection h with h₁ h₂ h₃ h₄; rw [h₁, h₂, h₃, h₄]

theorem fault (f : Fault) : (Flow.fault f).Reseq q (.fault f) := by
  constructor
  · intro y h; injection h
  · intro c x d y h; injection h

theorem port {s : State} {p : Prim} {ts : List Task} {k : Answer → State → Flow}
    (h : ∀ a ps, (k a (s.setPorts ps)).Reseq q (k a ((s.setPorts ps).setSeq q))) :
    (s.port p ts k).Reseq q ((s.setSeq q).port p ts k) := by
  unfold State.port
  rw [State.setSeq_ports]
  cases s.ports.answer p with
  | none =>
    constructor
    · intro y h; injection h
    · intro c x d y h; injection h
  | some r => exact h r.1 r.2

theorem ofExcept {α : Type} {e : Except Fault α} {k k' : α → Flow} (h : ∀ a, (k a).Reseq q (k' a)) :
    (Flow.ofExcept e k).Reseq q (Flow.ofExcept e k') := by
  cases e with
  | ok a => exact h a
  | error f => exact fault f

end Flow.Reseq

theorem deEmitBody_setSeq (d : Bool) (s : State) (q : Seq) : (deEmitBody d s).Reseq q (deEmitBody d (s.setSeq q)) := by
  refine Flow.Reseq.ofExcept (e := s.mem.readNode s.cur) fun nd => ?_
  split
  · exact Flow.Reseq.ok _
  · exact Flow.Reseq.port fun a ps => Flow.Reseq.ok _

theorem deMove_setSeq (d : Bool) (s : State) (q : Seq) : (deMove d s).Reseq q (deMove d (s.setSeq q)) := by
  refine Flow.Reseq.ofExcept (e := s.mem.readNode s.cur) fun nd => ?_
  refine Flow.Reseq.ofExcept (e := s.mem.readNode (if d then nd.right else nd.left)) fun child => ?_
  split
  · exact deEmitBody_setSeq d (s.setCur _) q
  · exact Flow.Reseq.ok _

/-- DE_STEP's body does not look at the hidden state. -/
theorem deStepBody_setSeq (s : State) (q : Seq) : (deStepBody s).Reseq q (deStepBody (s.setSeq q)) :=
  Flow.Reseq.port fun a ps => by
    cases a with
    | bits v => exact deMove_setSeq (v = 1) ((s.setPorts ps).addBitsIn 1) q
    | done => exact Flow.Reseq.raise _ _ _ _
    | byte b => exact Flow.Reseq.raise _ _ _ _
    | eos => exact Flow.Reseq.raise _ _ _ _

/-- Some DE_STEPs, and DE_BODY's loop from the same CUR (46_decoder.md rule R262); `q` is DE_BODY's hidden state. -/
theorem deLoop_steps (q : Seq) : ∀ (n m : Nat) (s z u : State), s.idle → (s.status.eofSeen = true → s.status.done = true ∧ s.status.reject = false) →
    z = (s.setStatus s.status.accepted).setSeq q → s.ports.bi.bits.length < m →
    execAll (List.replicate n .deStep) s = .next u → u.status.busy = false → (u.status.err = true → u.errCause.cause ≠ .seqError) →
    (u.status.err = false → u.status.eofSeen = true → ∃ v, deLoop m z = .ok v ∧ v.complete = u) ∧
    (u.status.err = true → ∃ c x d y, deLoop m z = .raise c x d y ∧
      y.enterError c x d = { u with errCause := { u.errCause with opcode := q.opcode, phase := q.phase } })
  | 0, m, s, z, u, h, hd, hz, hm, hx, _, _ => by
    cases hx
    refine ⟨fun _ hs => ⟨z, ?_, ?_⟩, fun he => by rw [h.2.1] at he; cases he⟩
    · have : z.status.eofSeen = true := by rw [hz]; exact hs
      cases m <;> rw [deLoop, if_pos this]
    · obtain ⟨h₁, h₂⟩ := hd hs
      have h₀ := h.1
      rw [hz]
      apply State.ext <;> try rfl
      · show ({ s.status with busy := false, done := true, reject := false } : Status) = s.status
        generalize s.status = st at h₀ h₁ h₂
        obtain ⟨a, b, c, d⟩ := st
        subst h₀ h₁ h₂
        rfl
      · exact h.2.2.symm
  | n + 1, m, s, z, u, h, hd, hz, hm, hx, hb, hq => by
    rw [List.replicate_succ, execAll] at hx
    by_cases hn : (needOf .deStep).holds s.status = true
    · have hf : s.status.eofSeen = false := by
        simp only [needOf, needDecode, Need.holds, Bool.and_eq_true, List.all_cons, List.all_nil, Bool.and_true, Status.get] at hn
        simpa using hn.2
      rw [show exec .deStep s = (runTasks [.deStep] (s.accept (encode .deStep))).finish from runCommand_runs h.accepts rfl hn,
        runTasks_one, runTask] at hx
      obtain ⟨m, rfl⟩ : ∃ k, m = k + 1 := ⟨m - 1, by omega⟩
      have hz' : z = (s.accept (encode .deStep)).setSeq q := hz
      have hk := kept_running.deStep (s := s.accept (encode .deStep)) ⟨rfl, rfl, h.2.1, rfl⟩
      obtain ⟨k₁, k₂⟩ := deStepBody_setSeq (s.accept (encode .deStep)) q
      have hloop : deLoop (m + 1) z = (deStepBody z).andThen [.deLoop] (deLoop m) := by
        rw [deLoop, if_neg (by rw [hz]; simp [Status.accepted, hf])]
      cases hs : deStepBody (s.accept (encode .deStep)) with
      | ok y =>
        rw [hs] at hx hk
        rw [hloop, hz', k₁ y hs, Flow.andThen_ok]
        have hl := deStep_bi _ hs
        obtain ⟨b₁, b₂, b₃, b₄⟩ := hk
        refine deLoop_steps q n m y.complete (y.setSeq q) u ⟨rfl, b₃, rfl⟩ (fun _ => ⟨rfl, b₄⟩) ?_ ?_ hx hb hq
        · apply State.ext <;> try rfl
          show y.status = { y.status with busy := true, done := false, reject := false }
          generalize y.status = st at b₁ b₂ b₄
          obtain ⟨a, b, c, d⟩ := st
          subst b₁ b₂ b₄
          rfl
        · have : y.ports.bi.bits.length < s.ports.bi.bits.length := hl
          show y.ports.bi.bits.length < m
          omega
      | hold y =>
        rw [hs] at hx hk
        rw [Flow.finish_hold] at hx
        dsimp only at hx
        rw [hk.2.1] at hx
        cases hx
        rw [hk.1] at hb; cases hb
      | raise c x d y =>
        rw [hs] at hx hk
        obtain ⟨e₁, e₂, -⟩ := enterError_over y c x d
        rw [Flow.finish_raise] at hx
        dsimp only at hx
        rw [e₂] at hx
        cases hx
        refine ⟨fun h => (Bool.false_ne_true (h.symm.trans e₁)).elim, fun _ => ⟨c, x, d, y.setSeq q, by rw [hloop, hz', k₂ c x d y hs]; rfl, ?_⟩⟩
        rw [enterError_setSeq hk.1 q c x d hb, (y.enterError_record c x d).2]
      | fault g => rw [hs] at hx; cases hx
    · have hn' : needDecode.holds s.status = false := Bool.eq_false_iff.2 hn
      rw [show exec .deStep s = runCommand .deStep needDecode [.deStep] s from rfl, runCommand_sequence h.accepts rfl hn'] at hx
      obtain ⟨e₁, e₂, e₃⟩ := enterError_over (s.accept (encode .deStep)) .seqError needDecode.word s.status.flagWord
      dsimp only at hx
      rw [e₂] at hx
      cases hx
      exact absurd e₃ (hq e₁)

/-- DE_BODY is DE_STEPs up to the one that reaches PSEUDO_EOF, or up to the one at which the bits run out (46_decoder.md rules R262,
R263). -/
theorem deBody_steps {s u : State} {n : Nat} (h : s.idle) (ht : s.status.treeValid = true) (he : s.status.eofSeen = false)
    (hx : execAll (List.replicate n .deStep) s = .next u) (hb : u.status.busy = false)
    (hq : u.status.err = true → u.errCause.cause ≠ .seqError) :
    (u.status.err = false → u.status.eofSeen = true → exec .deBody s = .next { u with result := u.bytesOut }) ∧
    (u.status.err = true → exec .deBody s = .next { u with errCause := { u.errCause with opcode := 0x61, phase := 0x61 } }) := by
  have hn : (needOf .deBody).holds s.status = true := by simp [needOf, needDecode, Need.holds, Status.get, ht, he]
  have hy : exec .deBody s = (runTasks deBodyTasks (s.accept (encode .deBody))).finish := runCommand_runs h.accepts rfl hn
  obtain ⟨k₁, k₂⟩ := deLoop_steps { opcode := 0x61, phase := 0x61, flags := s.status } n (s.ports.bi.bits.length + 1) s
    (s.accept (encode .deBody)) u h (fun h => by rw [he] at h; cases h) rfl (Nat.lt_succ_self _) hx hb hq
  rw [hy, deBodyTasks, runTasks_cons, runTask, deLoopBody, show (s.accept (encode .deBody)).ports = s.ports from rfl]
  refine ⟨fun h₁ h₂ => ?_, fun h₁ => ?_⟩
  · obtain ⟨v, e, rfl⟩ := k₁ h₁ h₂
    rw [e]
    rfl
  · obtain ⟨c, x, d, y, e, hu⟩ := k₂ h₁
    rw [e]
    exact congrArg Host.Outcome.next hu

end Sys2Proof.Machine
end

