-- ==== Sys2Proof/Tests/Slice0.lean ====
section
/-! SUPPORT. Tests: command words written out from 30_encoding.md rule R95, the ill-formed terms that `wellFormed` refuses,
single steps on the engine of 95_test_vectors.md's program P1 (the bytes "ab"), and for each statement a state and operands that
meet its hypotheses. Expected results are the vectors' (V1 to V70, P1 to P7), or read off the rule named. -/

namespace Sys2Proof.Machine

set_option Elab.async false

/-! ### Command words and their checks -/

theorem test_wellFormed_fcRead : (Instr.fcRead 256).wellFormed = true ∧ (Instr.fcRead 257).wellFormed = false := by decide
theorem test_wellFormed_cgLookup :
    (Instr.cgLookup 256).wellFormed = true ∧ (Instr.cgLookup 511).wellFormed = false := by decide

theorem test_decode_control : decode 0x00000000 = .ok .nop ∧ decode 0x01ABCDEF = .ok (.sreset 0xABCDEF) := ⟨rfl, rfl⟩
theorem test_decode_frequency :
    decode 0x10000000 = .ok .fcInit ∧ decode 0x11000041 = .ok (.fcAdd 0x41) ∧ decode 0x12000000 = .ok .fcScan ∧
      decode 0x13000100 = .ok (.fcRead 256) := ⟨rfl, rfl, rfl, rfl⟩
theorem test_decode_tree :
    decode 0x20000000 = .ok .tbLoad ∧ decode 0x21000000 = .ok .tbStep ∧ decode 0x22000000 = .ok .tbBuild ∧
      decode 0x2300000A = .ok (.tbNodeRead 10) := ⟨rfl, rfl, rfl, rfl⟩
theorem test_decode_codes : decode 0x30000000 = .ok .cgGen ∧ decode 0x31000100 = .ok (.cgLookup 256) := ⟨rfl, rfl⟩
theorem test_decode_header :
    decode 0x40000000 = .ok .hsWriteMagic ∧ decode 0x41000000 = .ok .hsWriteTree ∧
      decode 0x42000000 = .ok .hdReadMagic ∧ decode 0x43000000 = .ok .hdReadTree := ⟨rfl, rfl, rfl, rfl⟩
theorem test_decode_encoder :
    decode 0x50000062 = .ok (.enSymbol 0x62) ∧ decode 0x51000000 = .ok .enEof ∧ decode 0x52000000 = .ok .enBody ∧
      decode 0x53000000 = .ok .enClose := ⟨rfl, rfl, rfl, rfl⟩
theorem test_decode_decoder :
    decode 0x60000000 = .ok .deStep ∧ decode 0x61000000 = .ok .deBody ∧ decode 0x62000000 = .ok .deClose :=
  ⟨rfl, rfl, rfl⟩
theorem test_decode_composite : decode 0x70000000 = .ok .compress ∧ decode 0x71000000 = .ok .decompress := ⟨rfl, rfl⟩
/-- Reserved bits, a symbol above 256, and opcodes outside the map (rules R93, R96; V2 to V4, V14, V15). -/
theorem test_decode_rejects :
    decode 0x00000001 = .error .illegalOperand ∧ decode 0x11000141 = .error .illegalOperand ∧
      decode 0x13000101 = .error .illegalOperand ∧ decode 0x23000400 = .error .illegalOperand ∧
      decode 0x02000000 = .error .illegalOpcode ∧ decode 0xFF123456 = .error .illegalOpcode :=
  ⟨rfl, rfl, rfl, rfl, rfl, rfl⟩
theorem test_decodeTableWord : decodeTableWord 32 0x31000100 = some (.cgLookup 256) := rfl

/-! ### Engines to test -/

/-- What a next state holds; nothing after a fault or a refusal. -/
def after {α : Type} (o : Host.Outcome State Fault Refusal) (f : State → α) : Option α :=
  match o with
  | .next t => some (f t)
  | _ => none

/-- The bit string that a test vector writes. -/
def bitsOf (s : String) : List Bool := s.toList.map (· == '1')

/-- An idle engine with the vectors' magic word (95_test_vectors.md). -/
def ready : State := { magic := 0xFACE8201 }

/-- `ready` in the error state, after an FC_SCAN without FREQ_VALID (V18). -/
def broken : State :=
  { ready with
    status := { err := true }, errCause := { cause := .seqError, opcode := 0x12, phase := 0x12 }, errExpected := 0x10 }

/-- A source of bytes at port IB. -/
def State.withIb (s : State) (bytes : List Byte) : State :=
  { s with ports := { s.ports with ib := { left := bytes, all := bytes, ended := true } } }

/-- A source of bits at port BI. -/
def State.withBi (s : State) (bits : List Bool) : State :=
  { s with ports := { s.ports with bi := { bits := bits, ended := true } } }

/-- P1's counters: 'a' and 'b' once each. -/
def abFreq : List Word := List.replicate 97 0 ++ [1, 1] ++ List.replicate 157 0 ++ [1]

/-- P1 after FC_SCAN. -/
def counted : State := { ready with status := { freqValid := true }, mem := { freq := abFreq }, total := 3, bytesIn := 2 }

/-- Counters whose TOTAL cannot grow (V19). -/
def full : State :=
  { counted with mem := { freq := List.replicate 97 0 ++ [0xFFFFFFFE] ++ List.replicate 158 0 ++ [1] }, total := 0xFFFFFFFF }

/-- P1's leaves: a, b, PSEUDO_EOF. -/
def abLeaves : List Node := [leafNode 97 1, leafNode 98 1, leafNode 256 1]

/-- P1 after TB_LOAD. -/
def loaded : State :=
  { counted with
    status := { freqValid := true, heapLoaded := true }, mem := { freq := abFreq, nodes := abLeaves, heap := [0, 1, 2] } }

/-- P1 after the first TB_STEP. -/
def loadedTwo : State :=
  { loaded with mem := { freq := abFreq, nodes := abLeaves ++ [internalNode 2 0 1], heap := [2, 3] } }

/-- P1's nodes after the second TB_STEP. -/
def abNodes : List Node := abLeaves ++ [internalNode 2 0 1, internalNode 3 2 3]

/-- P1's tree: PSEUDO_EOF to the left, then a, then b. -/
def abShape : Shape := .node (.leaf 256) (.node (.leaf 97) (.leaf 98))

/-- P1 after the second TB_STEP. -/
def treed : State :=
  { counted with
    status := { freqValid := true, treeValid := true }, mem := { freq := abFreq, nodes := abNodes, heap := [4] }
    root := 4, cur := 4 }

/-- P1's code table: a "10", b "11", PSEUDO_EOF "0". -/
def abCodes : List Code :=
  List.replicate 97 ({} : Code) ++ [{ len := 2, bits := 2 }, { len := 2, bits := 3 }] ++ List.replicate 157 ({} : Code) ++
    [{ len := 1, bits := 0 }]

/-- P1 after CG_GEN. -/
def coded : State :=
  { treed with
    status := { freqValid := true, treeValid := true, codesValid := true }
    mem := { freq := abFreq, nodes := abNodes, heap := [4], codes := abCodes } }

/-- A tree whose two leaves hold the symbol 1 (V49). -/
def twin : State :=
  { ready with
    status := { treeValid := true }
    mem := { nodes := [internalNode 0 1 2, leafNode 1 0, leafNode 1 0] } }

/-- The stream that COMPRESS makes of "ab" (95_test_vectors.md section 2.7). -/
def abStream : List Byte := [0xFA, 0xCE, 0x82, 0x01, 0x60, 0x09, 0x86, 0x62, 0xB0]

/-- An engine that has seen PSEUDO_EOF and holds two bytes of output (P3 after step 7). -/
def seen : State :=
  { treed with
    status := { treeValid := true, eofSeen := true, magicOk := true }, bitsIn := 69, bytesOut := 2
    ports := { bi := { bits := [false, false, false], ended := true, isOpen := true }, bo := { bytes := [97, 98], isOpen := true } } }

/-- An engine that has written PSEUDO_EOF's code (P1 after step 12). -/
def written : State :=
  { coded with
    status := { freqValid := true, treeValid := true, codesValid := true, eofWritten := true }, bitsOut := 69
    ports := { ob := { bits := (unpackBytes abStream).take 69, isOpen := true } } }

/-! ### Single steps -/

theorem test_nop : after (exec .nop { ready with status := { freqValid := true }, result := 7 })
    (fun t => (t.status.word, t.result)) = some (0x12, 7) := by decide +kernel

/-- V2. -/
theorem test_illegal_operand : after (issue 0x00000001 ready)
    (fun t => (t.status.word, t.errCause.word, t.errExpected, t.errFound)) = some (0x04, 0x21, 0, 1) := by decide +kernel

/-- V4. -/
theorem test_illegal_opcode : after (issue 0xFF123456 ready) (fun t => (t.errCause.word, t.errFound)) =
    some (0x00FFFF20, 0xFF123456) := by decide +kernel

/-- V5, V6. -/
theorem test_reject_and_sreset :
    after (issue 0x10000000 broken) (fun t => (t.status.word, t.errCause.word)) = some (0x0C, 0x00121222) ∧
      after (issue 0x01ABCDEF { broken with ctrl := { ieErr := true } })
        (fun t => (t.status.word, t.errCause.word, t.errExpected, t.ctrl.word)) = some (0x02, 0, 0, 2) := by decide +kernel

/-- V9: IRQ follows DONE and IE_DONE. -/
theorem test_irq : after (issue 0x01000000 { ready with ctrl := { ieDone := true } }) State.irq = some true := by
  decide +kernel

/-- V10. -/
theorem test_fcInit : after (exec .fcInit ready)
    (fun t => (t.result, t.total, t.status.word, t.mem.freq.getD 256 0, t.mem.freq.getD 255 9)) =
      some (1, 1, 0x12, 1, 0) := by decide +kernel

/-- V19. -/
theorem test_fcAdd_overflow : after (exec (.fcAdd 0x41) full)
    (fun t => (t.errCause.word, t.errExpected, t.errFound, t.status.freqValid)) =
      some (0x00111110, 0xFFFFFFFF, 0x41, false) := by decide +kernel
theorem test_fcAdd : after (exec (.fcAdd 97) counted) (fun t => (t.result, t.total)) = some (2, 4) := by decide +kernel

/-- P1 step 2, from the counters of V10. -/
theorem test_fcScan : after (exec .fcScan
    (State.withIb { counted with mem := { freq := initialFreq }, total := 1, bytesIn := 5 } [97, 98]))
      (fun t => (t.result, t.total, t.bytesIn, t.mem.freq)) = some (2, 3, 2, abFreq) := by decide +kernel

/-- V18. -/
theorem test_fcScan_sequence : after (exec .fcScan ready) (fun t => (t.errCause.word, t.errExpected, t.errFound)) =
    some (0x00121222, 0x10, 0) := by decide +kernel
theorem test_fcRead : after (exec (.fcRead 256) counted) (·.result) = some 1 := by decide +kernel

/-- P1 step 3. -/
theorem test_tbLoad : after (exec .tbLoad counted) (fun t => (t.result, t.status.word, t.mem)) =
    some (3, 0x32, loaded.mem) := by decide +kernel

/-- Empty input: the pad leaf (V29). -/
theorem test_tbLoad_pad : after (exec .tbLoad { counted with mem := { freq := initialFreq }, total := 1 })
    (fun t => (t.result, t.mem.nodes)) = some (2, [leafNode 256 1, leafNode 0 0]) := by decide +kernel

/-- P1 steps 4, 5. -/
theorem test_tbStep : after (exec .tbStep loaded) (fun t => (t.result, t.mem)) = some (3, loadedTwo.mem) ∧
    after (exec .tbStep loadedTwo) (fun t => (t.result, t.mem, t.root, t.status.word)) =
      some (4, treed.mem, 4, 0x52) := by decide +kernel

/-- V29: the pad leaf, of the smaller weight, is the left child. -/
theorem test_tbBuild : after (exec .tbBuild { counted with mem := { freq := initialFreq }, total := 1 })
    (fun t => (t.result, t.mem.nodes)) =
      some (2, [leafNode 256 1, leafNode 0 0, internalNode 1 1 0]) := by decide +kernel

/-- V27's form: LEFT 2 and RIGHT 3 of P1's root. -/
theorem test_tbNodeRead : after (exec (.tbNodeRead 4) treed) (fun t => (t.nodeOut, t.result)) =
    some (0x00300800, 3) := by decide +kernel

/-- V28: the index NODE_COUNT. -/
theorem test_tbNodeRead_range : after (exec (.tbNodeRead 5) treed)
    (fun t => (t.errCause.word, t.errExpected, t.errFound)) = some (0x00232321, 5, 5) := by decide +kernel

/-- P1 step 6. -/
theorem test_cgGen : after (exec .cgGen treed) (fun t => (t.result, t.status.word, t.mem.codes)) =
    some (3, 0xD2, abCodes) := by decide +kernel

/-- V39. -/
theorem test_cgGen_dup : after (exec .cgGen twin) (fun t => (t.errCause.word, t.errExpected, t.errFound)) =
    some (0x00303012, 0, 1) := by decide +kernel

/-- P1 step 7, and V35's symbol without a code. -/
theorem test_cgLookup : after (exec (.cgLookup 98) coded) (fun t => (t.result, t.codeOut)) = some (2, 3) ∧
    after (exec (.cgLookup 0x41) { coded with codeOut := 5 }) (fun t => (t.result, t.codeOut)) = some (0, 0) := by
  decide +kernel

/-- V41. -/
theorem test_hsWriteMagic : after (exec .hsWriteMagic ready) (fun t => (t.result, t.bitsOut, packBits t.ports.ob.bits)) =
    some (0xFACE8201, 32, [0xFA, 0xCE, 0x82, 0x01]) := by decide +kernel

/-- The header of "ab" (95_test_vectors.md section 2.7). -/
theorem test_hsWriteTree : after (exec .hsWriteTree treed) (fun t => (t.result, t.ports.ob.bits)) =
    some (32, bitsOf "01100000000010011000011001100010") := by decide +kernel

/-- P3 step 1. -/
theorem test_hdReadMagic : after (exec .hdReadMagic (ready.withBi (unpackBytes abStream)))
    (fun t => (t.result, t.bitsIn, t.status.word)) = some (0xFACE8201, 32, 0x402) := by decide +kernel

/-- V46. -/
theorem test_hdReadMagic_short : after (exec .hdReadMagic (ready.withBi (unpackBytes [0xFA, 0xCE, 0x82])))
    (fun t => (t.errCause.word, t.errExpected, t.errFound)) = some (0x00424202, 32, 0) := by decide +kernel

/-- P3 step 2. -/
theorem test_hdReadTree : after (exec .hdReadTree
    ({ ready with bitsIn := 32 }.withBi (bitsOf "0110000000001001100001100110001010110000")))
      (fun t => (t.result, t.bitsIn, t.mem.nodes)) =
    some (5, 64, [internalNode 0 1 2, leafNode 256 0, internalNode 0 3 4, leafNode 97 0, leafNode 98 0]) := by
  decide +kernel

/-- V51: 33 zero bytes. -/
theorem test_hdReadTree_overflow : after (exec .hdReadTree ({ ready with bitsIn := 32 }.withBi (List.replicate 264 false)))
    (fun t => (t.errCause.word, t.errExpected, t.errFound)) = some (0x00434304, 256, 289) := by decide +kernel

/-- P1 step 10. -/
theorem test_enSymbol : after (exec (.enSymbol 97) coded) (fun t => (t.result, t.bitsOut, t.ports.ob.bits)) =
    some (2, 2, [true, false]) := by decide +kernel

/-- V55. -/
theorem test_enSymbol_noCode : after (exec (.enSymbol 0x41) coded) (fun t => (t.errCause.word, t.errExpected, t.errFound)) =
    some (0x00505011, 0, 0x41) := by decide +kernel

/-- P1 step 12. -/
theorem test_enEof : after (exec .enEof coded) (fun t => (t.result, t.status.word, t.ports.ob.bits)) =
    some (1, 0x1D2, [false]) := by decide +kernel

/-- The body of "ab" (95_test_vectors.md section 2.7); the rewind goes back to the first byte. -/
theorem test_enBody : after (exec .enBody
    { coded with ports := { ib := { left := [], all := [97, 98], ended := true, isOpen := true } } })
      (fun t => (t.result, t.bitsOut, t.ports.ob.bits)) = some (2, 5, bitsOf "10110") := by decide +kernel

/-- P1 step 13. -/
theorem test_enClose : after (exec .enClose written) (fun t => (t.result, t.bitsOut, t.status.word, t.ports.ob.committed)) =
    some (69, 0, 0xD2, [abStream]) := by decide +kernel

/-- A port OB without an open stream commits nothing (20_memory.md rule R70). -/
theorem test_enClose_closed : after (exec .enClose { written with ports := {} }) (fun t => (t.status.eofWritten, t.ports.ob.committed)) =
    some (false, []) := by decide +kernel

/-- P3 steps 6, 7: the leaf 'b', and PSEUDO_EOF, with RESULT's fields (rule R260). -/
theorem test_deStep : after (exec .deStep ({ treed with cur := 3 }.withBi [true]))
    (fun t => (t.result, t.cur, t.ports.bo.bytes)) = some (0xA62, 4, [0x62]) ∧
    after (exec .deStep (treed.withBi [false])) (fun t => (t.result, t.status.eofSeen, t.ports.bo.bytes)) =
      some (0x700, true, []) := by decide +kernel

/-- P3 steps 3 to 7 as one body. -/
theorem test_deBody : after (exec .deBody (treed.withBi (bitsOf "10110000")))
    (fun t => (t.result, t.bitsIn, t.ports.bo.bytes, t.ports.bi.bits)) = some (2, 5, [97, 98], [false, false, false]) := by
  decide +kernel

/-- The form of V69: a body cut off inside a code. -/
theorem test_deBody_short : after (exec .deBody (treed.withBi (bitsOf "101")))
    (fun t => (t.errCause.word, t.errExpected, t.errFound, t.ports.bo.committed)) = some (0x00616107, 1, 3, []) := by
  decide +kernel

/-- P3 step 8'. -/
theorem test_deClose : after (exec .deClose seen)
    (fun t => (t.result, t.status.word, t.bytesOut, t.ports.bo.committed)) = some (2, 0x42, 0, [[97, 98]]) := by
  decide +kernel

/-- P2, and "ab" (95_test_vectors.md section 2.7). -/
theorem test_compress :
    after (exec .compress (ready.withIb [])) (fun t => (t.result, t.ports.ob.committed, t.status.word)) =
      some (54, [[0xFA, 0xCE, 0x82, 0x01, 0x40, 0x18, 0x04]], 0xD2) ∧
    after (exec .compress (ready.withIb [97, 98])) (fun t => (t.result, t.ports.ob.committed)) = some (69, [abStream]) := by
  decide +kernel

/-- P4. -/
theorem test_decompress : after (exec .decompress (ready.withBi (unpackBytes [0xFA, 0xCE, 0x82, 0x01, 0x48, 0x38, 0x02])))
    (fun t => (t.result, t.status.word, t.mem.nodes.length, t.ports.bo.committed)) = some (1, 0x42, 3, [[0x41]]) := by
  decide +kernel

/-- P6. -/
theorem test_decompress_bad_magic : after (exec .decompress (ready.withBi (unpackBytes [0, 0, 0, 0, 0x4C, 0x26])))
    (fun t => (t.errCause.word, t.errExpected, t.errFound, t.bitsIn)) = some (0x00427101, 0xFACE8201, 0, 32) := by
  decide +kernel

/-! ### States that meet the statements' hypotheses -/

theorem next_of_after {α : Type} {o : Host.Outcome State Fault Refusal} {f : State → α} {v : α} (h : after o f = some v) :
    ∃ t, o = .next t ∧ f t = v := by
  cases o <;> simp_all [after]

theorem counted_freqOk : counted.freqOk := fun _ => ⟨by decide +kernel, by decide +kernel, by decide +kernel⟩
theorem full_freqOk : full.freqOk := fun _ => ⟨by decide +kernel, by decide +kernel, by decide +kernel⟩
theorem abShape_at : TreeAt abNodes 4 abShape :=
  ⟨_, rfl, rfl, ⟨_, rfl, rfl, rfl⟩, _, rfl, rfl, ⟨_, rfl, rfl, rfl⟩, _, rfl, rfl, rfl⟩
theorem twin_at : TreeAt twin.mem.nodes twin.root (.node (.leaf 1) (.leaf 1)) :=
  ⟨_, rfl, rfl, ⟨_, rfl, rfl, rfl⟩, _, rfl, rfl, rfl⟩
theorem abCodes_of : CodesOf abCodes abShape := ⟨by decide +kernel, by decide +kernel, by decide +kernel⟩
theorem coded_codesOk : coded.codesOk := fun _ => ⟨rfl, abShape, rfl, by decide, abShape_at, abCodes_of⟩

theorem loaded_queueOk : loaded.queueOk := fun _ => ⟨rfl, by decide, [97, 98, 256], by decide, by decide, by decide, {
  alloc := by decide
  rise := by decide
  trees := ⟨[(0, .leaf 97), (1, .leaf 98), (2, .leaf 256)], .refl _, by
    simp only [List.forall_mem_cons]
    exact ⟨⟨_, rfl, rfl, rfl⟩, ⟨_, rfl, rfl, rfl⟩, ⟨_, rfl, rfl, rfl⟩, by simp⟩, .refl _⟩
  weight := by decide
  count := rfl }⟩

theorem loadedTwo_queueOk : loadedTwo.queueOk := fun _ => ⟨rfl, by decide, [256, 97, 98], by decide, by decide, by decide, {
  alloc := by decide
  rise := by decide
  trees := ⟨[(2, .leaf 256), (3, .node (.leaf 97) (.leaf 98))], .refl _, by
    simp only [List.forall_mem_cons]
    exact ⟨⟨_, rfl, rfl, rfl⟩, ⟨_, rfl, rfl, ⟨_, rfl, rfl, rfl⟩, _, rfl, rfl, rfl⟩, by simp⟩, .refl _⟩
  weight := by decide
  count := rfl }⟩

theorem coded_sound : coded.sound where
  notBusy := rfl
  noSequence := rfl
  memory := by decide +kernel
  freq := counted_freqOk
  queue := fun h => absurd h (by decide)
  tree := fun _ => ⟨⟨abShape, rfl, abShape_at⟩, [], rfl, internalNode 3 2 3, rfl, rfl⟩
  codes := coded_codesOk
  stream := fun h => absurd h (by decide)

/-- `coded` where the collaborators answer no primitive until their next event. -/
def strained : State := { coded with ports := { credit := some 0 }, inputs := [.portCredit none] }

theorem strained_sound : strained.sound :=
  { notBusy := coded_sound.notBusy, noSequence := coded_sound.noSequence, memory := coded_sound.memory, freq := coded_sound.freq,
    queue := coded_sound.queue, tree := coded_sound.tree, codes := coded_sound.codes, stream := fun h => absurd h (by decide) }

/-- A port holds the error entry of EN_SYMBOL in `strained`, which its next event ends. -/
theorem strained_ends : ∃ u t, issue 0x50000041 strained = .next u ∧
    (u.status.busy, u.status.err, u.inputs) = (true, true, [.portCredit none]) ∧
    step u = .next t ∧ (t.status.busy, t.status.err) = (false, true) := by
  obtain ⟨u, h, e⟩ := next_of_after (o := issue 0x50000041 strained)
    (f := fun u => ((u.status.busy, u.status.err, u.inputs), after (step u) fun t => (t.status.busy, t.status.err)))
    (v := ((true, true, [.portCredit none]), some (false, true))) (by decide +kernel)
  obtain ⟨t, h', e'⟩ := next_of_after (congrArg Prod.snd e)
  exact ⟨u, t, h, congrArg Prod.fst e, h', e'⟩

/-- A first pass of the bytes `bytes` at port IB, a second one of the bytes `again`. -/
def State.withPasses (s : State) (bytes again : List Byte) : State :=
  { s with ports := { s.ports with ib := { left := bytes, all := bytes, ended := true, later := [(again, true)] } } }

theorem test_meets_SpecWordsDecode : ready.idle ∧ ready.portsReady := ⟨⟨rfl, rfl, rfl⟩, rfl⟩
theorem test_meets_DecodeOfEncode : (Instr.cgLookup 256).wellFormed = true := rfl
theorem test_meets_EncodeOfDecode : decode 0x13000100 = .ok (.fcRead 256) := rfl

theorem test_meets_StepRunsCommandWord :
    ({ ready with inputs := [.busWrite 0 4 0x01FFFFFF] }.inputs = [.busWrite 0 4 0x01FFFFFF] ∧
      decode 0x01FFFFFF = .ok (.sreset 0xFFFFFF)) ∧
    { ready with inputs := [.busWrite 0 4 0x11000100] }.inputs = [.busWrite 0 4 0x11000100] ∧
      decode 0x11000100 = .error .illegalOperand := ⟨⟨rfl, rfl⟩, rfl, rfl⟩

theorem test_meets_RejectedCommandWord :
    opcodeOf 0x00000000 ≠ 0x01 ∧ broken.status.err = true ∧ { ready with status := { busy := true } }.status.busy = true ∧
      ∃ t, issue 0x01000000 broken = .next t := ⟨by decide, rfl, rfl, _, rfl⟩

/-- FC_SCAN completes with a source, waits without one, and fails without FREQ_VALID; a port holds the error entry of EN_SYMBOL. -/
theorem test_meets_AcceptedCommandOutcome :
    opcodeOf 0x12000000 ≠ 0x01 ∧ ready.status.busy = false ∧ ready.status.err = false ∧
    (∃ t, issue 0x12000000 (counted.withIb [97]) = .next t ∧ t.status.done = true) ∧
    (∃ t, issue 0x12000000 counted = .next t ∧ t.status.busy = true) ∧
    (∃ t, issue 0x12000000 ready = .next t ∧ t.status.err = true) ∧
    ∃ t, issue 0x50000041 strained = .next t ∧ (t.status.busy, t.status.err) = (true, true) :=
  ⟨by decide, rfl, rfl, next_of_after (by decide +kernel), next_of_after (by decide +kernel), next_of_after (by decide +kernel),
    next_of_after (by decide +kernel)⟩

theorem test_meets_IllegalWordsRaise :
    ready.idle ∧ ready.portsReady ∧ opcodeOf 0x02000000 ∉ opcodeMap ∧ opcodeOf 0x72000000 ∉ opcodeMap ∧
    (opcodeOf 0x13000101 ∈ opcodeMap ∧
      ∀ r ∈ opcodeRows, 0x13000101 &&& r.2.1 = r.1 → r.2.2 = true ∧ 256 < ((0x13000101 : Word).extractLsb' 0 9).toNat) ∧
    opcodeOf 0x23000400 ∈ opcodeMap ∧
      ∀ r ∈ opcodeRows, 0x23000400 &&& r.2.1 = r.1 → r.2.2 = true ∧ 256 < ((0x23000400 : Word).extractLsb' 0 9).toNat :=
  ⟨⟨rfl, rfl, rfl⟩, rfl, by decide, by decide, ⟨by decide, by simp [opcodeRows]⟩, by decide, by simp [opcodeRows]⟩

/-- EN_SYMBOL with EOF_WRITTEN = 1, and with the flags it asks for, where it then meets a symbol without a code. -/
theorem test_meets_PrerequisiteCheck :
    (written.idle ∧ (Instr.enSymbol 97).wellFormed = true ∧ written.portsReady ∧
      written.status.word &&& (prerequisite (.enSymbol 97)).2 ≠ 0) ∧
    coded.idle ∧ coded.status.word &&& (prerequisite (.enSymbol 0x41)).1 = (prerequisite (.enSymbol 0x41)).1 ∧
      coded.status.word &&& (prerequisite (.enSymbol 0x41)).2 = 0 ∧
      ∃ t, exec (.enSymbol 0x41) coded = .next t ∧ t.status.err = true :=
  ⟨⟨⟨rfl, rfl, rfl⟩, rfl, rfl, by decide⟩, ⟨rfl, rfl, rfl⟩, by decide, by decide, next_of_after (by decide +kernel)⟩

/-- A running command whose collaborators answer every primitive, the last of the four, and not the last. -/
theorem test_meets_ErrorEntryRecord :
    (∀ n, ready.ports.credit = some n → 4 ≤ n) ∧ (∀ n, ({ credit := some 4 } : Ports).credit = some n → 4 ≤ n) ∧
    ({ ready with status := { busy := true }, ports := { credit := some 3 } } : State).ports.credit = some 3 ∧
    ({ ready with status := { busy := true }, ports := { credit := some 3 } } : State).status.busy = true :=
  ⟨nofun, fun _ h => by cases h; decide, rfl, rfl⟩

/-- An error at once, and one whose entry a port has held. -/
theorem test_meets_ErrorCausesByCommand : coded.idle ∧ (Instr.enSymbol 0x41).wellFormed = true ∧
    (∃ t, exec (.enSymbol 0x41) coded = .next t ∧ t.status.err = true) ∧ strained.sound ∧ strained.status.err = false ∧
    ∃ t, Ends 0x50000041 strained t ∧ t.status.err = true :=
  let ⟨_, t, h, b, h', e⟩ := strained_ends
  ⟨⟨rfl, rfl, rfl⟩, rfl, next_of_after (by decide +kernel), strained_sound, rfl, t,
    ⟨.inr ⟨_, .held h (congrArg Prod.fst b), h'⟩, congrArg Prod.fst e⟩, congrArg Prod.snd e⟩

theorem test_meets_ErrorsCommitNothing : coded.status.busy = false ∧ coded.status.err = false ∧
    (∃ t, issue 0x50000041 coded = .next t ∧ t.status.err = true) ∧ strained.sound ∧ strained.status.err = false ∧
    ∃ t, Ends 0x50000041 strained t ∧ t.status.err = true :=
  ⟨rfl, rfl, next_of_after (by decide +kernel), test_meets_ErrorCausesByCommand.2.2.2⟩

/-- The error state, and each kind of event in it; and an error entry that a port holds. -/
theorem test_meets_ErrorStateExit : broken.errOk ∧ broken.status.err = true ∧ opcodeOf 0x01000000 = 0x01 ∧
    broken.register 0x0C = some 0x00121222 ∧
    (∀ i ∈ [Input.busWrite 0x00 4 0x01000000, .hardReset, .busWrite 0x00 4 0x10000000, .busWrite 0x08 4 2, .busRead 0x0C 4],
      after (step { broken with inputs := [i] }) (·.inputs) = some []) ∧
    ∃ s t : State, s.status.busy = true ∧ s.status.err = true ∧ step s = .next t ∧ t.status.busy = false :=
  ⟨fun _ => ⟨rfl, rfl⟩, rfl, rfl, rfl, by decide +kernel,
    let ⟨u, t, _, b, h', e⟩ := strained_ends
    ⟨u, t, congrArg Prod.fst b, congrArg (·.2.1) b, h', congrArg Prod.fst e⟩⟩

/-- An idle engine, and one that waits on a primitive which its collaborator can answer. -/
theorem test_meets_SoftResetState : ready.status.busy = false ∧ { ready with seq := { pending := some .obClose } }.seq.pending =
    some .obClose ∧ (ready.ports.perform .obClose).isSome = true := ⟨rfl, rfl, rfl⟩

theorem test_meets_HardResetState :
    { ready with inputs := [.hardReset] }.inputs = [.hardReset] ∧ ready.status.busy = false := ⟨rfl, rfl⟩

theorem test_meets_ResetValues : State.reset.register 0x00 = some 0 ∧ State.reset.register 0x7C = some 0 ∧
    State.reset.register 0x40 = some Config.huffMagic := ⟨rfl, rfl, rfl⟩

theorem test_meets_RegisterFields :
    ready.register 0x44 = some 0 ∧ ready.register 0x45 = none ∧ ready.register 0x5F = none ∧
      ready.register 0x60 = some 0 ∧ ready.register 0x7C = some 0 ∧ ready.register 0x7D = none := ⟨rfl, rfl, rfl, rfl, rfl, rfl⟩

/-- An offset between the listed ones and one past them, a listed one, STATUS while BUSY = 1, and accesses that are no aligned
words. -/
theorem test_meets_WindowAccesses :
    { ready with inputs := [.busRead 0x48 4] }.inputs = [.busRead 0x48 4] ∧ ready.register 0x48 = none ∧
      ready.register 0x80 = none ∧ ready.register 0x40 = some 0xFACE8201 ∧
      { ready with status := { busy := true } }.register 0x04 = some 1 ∧
      { ready with inputs := [.busWrite 0x10 4 5] }.inputs = [.busWrite 0x10 4 5] ∧
      { ready with inputs := [.busWrite 0x08 4 3] }.inputs = [.busWrite 0x08 4 3] ∧
      { ready with inputs := [.busRead 0x08 2] }.inputs = [.busRead 0x08 2] ∧
      { ready with inputs := [.busWrite 0x02 4 0] }.inputs = [.busWrite 0x02 4 0] :=
  ⟨rfl, rfl, rfl, rfl, rfl, rfl, rfl, rfl, rfl⟩

theorem test_meets_ControlAndInterrupt : ∃ t, step { ready with inputs := [.busWrite 0x08 4 0xFF] } = .next t ∧
    t.ctrl.word = 3 := next_of_after (by decide +kernel)
theorem test_meets_MagicConstant : ∃ t, step { ready with inputs := [.hardReset] } = .next t ∧ t.status.word = 0 :=
  next_of_after (by decide +kernel)

theorem test_meets_NopCompletes : coded.idle := ⟨rfl, rfl, rfl⟩
theorem test_meets_FcInitCompletes : coded.idle := ⟨rfl, rfl, rfl⟩
theorem test_meets_FcAddCounts :
    (counted.idle ∧ counted.status.freqValid = true ∧ counted.freqOk ∧ counted.total ≠ 0xFFFFFFFF) ∧
      full.idle ∧ full.status.freqValid = true ∧ full.freqOk ∧ full.portsReady ∧ full.total = 0xFFFFFFFF :=
  ⟨⟨⟨rfl, rfl, rfl⟩, rfl, counted_freqOk, by decide⟩, ⟨rfl, rfl, rfl⟩, rfl, full_freqOk, rfl, rfl⟩

/-- A source that still fits, and one whose first byte does not. -/
theorem test_meets_FcScanCounts :
    ((counted.withIb [97]).idle ∧ counted.status.freqValid = true ∧ (counted.withIb [97]).freqOk ∧
      (counted.withIb [97]).portsReady ∧ (counted.withIb [97]).ports.ib.ended = true ∧
      counted.total.toNat + (counted.withIb [97]).ports.ib.left.length < 2 ^ 32) ∧
    (full.withIb [97]).idle ∧ full.status.freqValid = true ∧ (full.withIb [97]).freqOk ∧ (full.withIb [97]).portsReady ∧
      (full.withIb [97]).ports.ib.ended = true ∧ (full.withIb [97]).ports.ib.left = [] ++ 97 :: [] ∧
      full.total.toNat + ([] : List Byte).length = 2 ^ 32 - 1 :=
  ⟨⟨⟨rfl, rfl, rfl⟩, rfl, counted_freqOk, rfl, rfl, by decide⟩, ⟨rfl, rfl, rfl⟩, rfl, full_freqOk, rfl, rfl, rfl, rfl⟩

theorem test_meets_FcReadReturnsCount : counted.idle ∧ counted.status.freqValid = true ∧ counted.freqOk ∧
    (256 : Symbol).toNat ≤ 256 := ⟨⟨rfl, rfl, rfl⟩, rfl, counted_freqOk, by decide⟩
theorem test_meets_TbLoadMakesLeaves : counted.idle ∧ counted.status.freqValid = true ∧ counted.freqOk :=
  ⟨⟨rfl, rfl, rfl⟩, rfl, counted_freqOk⟩
theorem test_meets_TbStepMerges :
    (loaded.idle ∧ loaded.status.heapLoaded = true ∧ loaded.queueOk ∧ 2 < loaded.mem.heap.length) ∧
      loadedTwo.idle ∧ loadedTwo.status.heapLoaded = true ∧ loadedTwo.queueOk ∧ loadedTwo.mem.heap.length = 2 :=
  ⟨⟨⟨rfl, rfl, rfl⟩, rfl, loaded_queueOk, by decide⟩, ⟨rfl, rfl, rfl⟩, rfl, loadedTwo_queueOk, rfl⟩
theorem test_meets_TbBuildMakesTree : counted.idle ∧ counted.status.freqValid = true ∧ counted.freqOk :=
  ⟨⟨rfl, rfl, rfl⟩, rfl, counted_freqOk⟩

/-- The same counters in an engine that has built nothing and in one that has built a tree. -/
theorem test_meets_TbBuildDeterministic :
    counted.idle ∧ treed.idle ∧ counted.status.freqValid = true ∧ treed.status.freqValid = true ∧ counted.freqOk ∧
      treed.freqOk ∧ treed.mem.freq = counted.mem.freq ∧ (∃ t, exec .tbBuild counted = .next t ∧ t.root = 4) ∧
      ∃ t, exec .tbBuild treed = .next t ∧ t.root = 4 :=
  ⟨⟨rfl, rfl, rfl⟩, ⟨rfl, rfl, rfl⟩, rfl, rfl, counted_freqOk, counted_freqOk, rfl, next_of_after (by decide +kernel),
    next_of_after (by decide +kernel)⟩

/-- The last allocated node, and the first index past it. -/
theorem test_meets_TbNodeReadReturns : treed.idle ∧ treed.mem.wf = true ∧
    treed.mem.nodes[(4 : NodeIdx).toNat]? = some (internalNode 3 2 3) ∧ treed.portsReady ∧
    treed.mem.nodes.length ≤ (5 : NodeIdx).toNat :=
  ⟨⟨rfl, rfl, rfl⟩, by decide +kernel, rfl, rfl, by decide⟩

theorem test_meets_CgGenMakesTable :
    (treed.idle ∧ treed.status.treeValid = true ∧ abShape.valid = true ∧ TreeAt treed.mem.nodes treed.root abShape ∧
      abShape.leaves.Nodup) ∧
    twin.idle ∧ twin.portsReady ∧ twin.status.treeValid = true ∧ (Shape.node (.leaf 1) (.leaf 1)).valid = true ∧
      TreeAt twin.mem.nodes twin.root (.node (.leaf 1) (.leaf 1)) ∧
      (Shape.node (.leaf 1) (.leaf 1)).leaves = [1] ++ 1 :: [] ∧ [1#9].Nodup ∧ (1#9) ∈ [1#9] :=
  ⟨⟨⟨rfl, rfl, rfl⟩, rfl, rfl, abShape_at, by decide⟩, ⟨rfl, rfl, rfl⟩, rfl, rfl, rfl, twin_at, rfl,
    by decide, by decide⟩

theorem test_meets_CodesPrefixFree : abShape.valid = true ∧ CodesOf abCodes abShape ∧ (97#9) ≠ 98#9 ∧
    abCodes[(97#9).toNat]? = some { len := 2, bits := 2 } ∧ abCodes[(98#9).toNat]? = some { len := 2, bits := 3 } ∧
    coded.codesOk ∧ coded.status.codesValid = true ∧ (coded.mem.codeOf 97).len ≠ 0 ∧ (coded.mem.codeOf 98).len ≠ 0 :=
  ⟨rfl, abCodes_of, by decide, by decide +kernel, by decide +kernel, coded_codesOk, rfl, by decide +kernel, by decide +kernel⟩

theorem test_meets_CgLookupReturnsCode : coded.idle ∧ coded.status.codesValid = true ∧ coded.codesWhole ∧
    (256 : Symbol).toNat ≤ 256 ∧ coded.codesOk ∧ (coded.mem.codeOf 0x41).len = 0 :=
  ⟨⟨rfl, rfl, rfl⟩, rfl, abCodes_of.1, by decide, coded_codesOk, by decide +kernel⟩

theorem test_meets_HsWriteMagicWrites : ready.idle ∧ ready.portsReady := ⟨⟨rfl, rfl, rfl⟩, rfl⟩
theorem test_meets_HsWriteTreeWrites : treed.idle ∧ treed.portsReady ∧ treed.status.treeValid = true ∧
    abShape.valid = true ∧ TreeAt treed.mem.nodes treed.root abShape := ⟨⟨rfl, rfl, rfl⟩, rfl, rfl, rfl, abShape_at⟩

/-- The least tree, of two leaves. -/
theorem test_meets_HeaderLength : (Shape.node (.leaf 256) (.leaf 0)).valid = true := rfl

theorem test_meets_HdReadMagicChecks :
    ready.idle ∧ ready.portsReady ∧
    (ready.withBi (fieldBits 32 0xFACE8201)).ports.bi.bits = fieldBits 32 ready.magic ++ [] ∧
    ((ready.withBi (fieldBits 32 0xFACE8200)).ports.bi.bits = fieldBits 32 0xFACE8200 ++ [] ∧ 0xFACE8200 ≠ ready.magic) ∧
    (ready.withBi (List.replicate 31 false)).ports.bi.bits.length < 32 ∧ (ready.withBi []).ports.bi.ended = true :=
  ⟨⟨rfl, rfl, rfl⟩, rfl, rfl, ⟨rfl, by decide⟩, by decide, rfl⟩

theorem test_meets_HdReadTreeReads : (ready.withBi (abShape.header ++ [true])).idle ∧
    (ready.withBi (abShape.header ++ [true])).portsReady ∧ abShape.valid = true ∧
    (ready.withBi (abShape.header ++ [true])).ports.bi.bits = abShape.header ++ [true] := ⟨⟨rfl, rfl, rfl⟩, rfl, rfl, rfl⟩

/-- Each error: no bits at all, a leaf root, 257 internal nodes, a value above 256, a read that has to wait, and a header without its
last bit. -/
theorem test_meets_HdReadTreeRejects : (ready.withBi []).idle ∧ (ready.withBi []).portsReady ∧
    ((readHeader (ready.withBi []).ports.bi.bits).error 0 = some (.fmtHdrEos, 1, 0) ∧ (ready.withBi []).ports.bi.ended = true) ∧
    (readHeader (ready.withBi [true]).ports.bi.bits).error 1 = some (.fmtHdrLeafRoot, 0, 1) ∧
    (readHeader (ready.withBi (List.replicate 257 false)).ports.bi.bits).error 257 = some (.fmtHdrOverflow, 256, 257) ∧
    (readHeader (ready.withBi (false :: true :: fieldBits 9 257)).ports.bi.bits).error 11 = some (.fmtHdrBadValue, 256, 257) ∧
    (readHeader [false, true] = .runsOut 9 [] ∧
      ({ ready with ports := { bi := { bits := [false, true] } } } : State).ports.bi.ended = false) ∧
    31 < abShape.header.length ∧ (ready.withBi (abShape.header.take 31)).ports.bi.bits = abShape.header.take 31 :=
  ⟨⟨rfl, rfl, rfl⟩, rfl, ⟨rfl, rfl⟩, rfl, by decide +kernel, by decide +kernel, ⟨by decide, rfl⟩, by decide, rfl⟩

theorem test_meets_HeaderRoundTrip : treed.idle ∧ treed.portsReady ∧ treed.status.treeValid = true ∧ abShape.valid = true ∧
    TreeAt treed.mem.nodes treed.root abShape ∧ treed.ports.ob.bits = [] ∧
    (∃ t, exec .hsWriteTree treed = .next t ∧ t.ports.ob.bits = abShape.header) ∧
    (ready.withBi (abShape.header ++ [true])).idle ∧ (ready.withBi (abShape.header ++ [true])).portsReady ∧
    (ready.withBi (abShape.header ++ [true])).ports.bi.bits = abShape.header ++ [true] :=
  ⟨⟨rfl, rfl, rfl⟩, rfl, rfl, rfl, abShape_at, rfl, next_of_after (by decide +kernel), ⟨rfl, rfl, rfl⟩, rfl, rfl⟩

theorem test_meets_EnSymbolWritesCode : coded.idle ∧ coded.portsReady ∧ coded.status.codesValid = true ∧
    coded.status.eofWritten = false ∧ coded.codesWhole ∧ (coded.mem.codeOf (symbolOfByte 97)).len ≠ 0 ∧
    (coded.mem.codeOf (symbolOfByte 0x41)).len = 0 :=
  ⟨⟨rfl, rfl, rfl⟩, rfl, rfl, rfl, abCodes_of.1, by decide +kernel, by decide +kernel⟩

/-- `coded` without a code for any symbol. -/
def codeless : State := { coded with mem := { coded.mem with codes := clearedCodes } }
theorem codeless_whole : codeless.codesWhole := List.length_replicate

/-- A table with a code for PSEUDO_EOF, and one without. -/
theorem test_meets_EnEofWritesCode : coded.idle ∧ coded.portsReady ∧ coded.status.codesValid = true ∧
    coded.status.eofWritten = false ∧ coded.codesWhole ∧ (coded.mem.codeOf 256).len ≠ 0 ∧
    codeless.codesWhole ∧ (codeless.mem.codeOf 256).len = 0 :=
  ⟨⟨rfl, rfl, rfl⟩, rfl, rfl, rfl, abCodes_of.1, by decide +kernel, codeless_whole, by decide +kernel⟩

/-- The same bytes again, another byte in the second pass that has no code, and no byte and no code for PSEUDO_EOF. -/
theorem test_meets_EnBodyWritesBody : (coded.withIb [97, 98]).idle ∧ (coded.withIb [97, 98]).portsReady ∧
    coded.status.codesValid = true ∧ coded.status.eofWritten = false ∧ (coded.withIb [97, 98]).codesWhole ∧
    ((coded.withIb [97, 98]).ports.ib.later = [] ∧ (coded.withIb [97, 98]).ports.ib.rewind.left = [97, 98] ∧
      (coded.withIb [97, 98]).ports.ib.rewind.ended = true ∧
      (∀ b ∈ [97, 98], (coded.mem.codeOf (symbolOfByte b)).len ≠ 0) ∧ (coded.mem.codeOf 256).len ≠ 0) ∧
    ((coded.withPasses [97] [97, 99]).ports.ib.later = ([97, 99], true) :: [] ∧
      (coded.withPasses [97] [97, 99]).ports.ib.rewind.left = [97] ++ 99 :: [] ∧
      (∀ b ∈ [97], (coded.mem.codeOf (symbolOfByte b)).len ≠ 0) ∧ (coded.mem.codeOf (symbolOfByte 99)).len = 0) ∧
    codeless.codesWhole ∧ (codeless.withIb []).ports.ib.rewind.left = [] ∧ (codeless.withIb []).ports.ib.rewind.ended = true ∧
      (codeless.mem.codeOf 256).len = 0 :=
  ⟨⟨rfl, rfl, rfl⟩, rfl, rfl, rfl, abCodes_of.1, ⟨rfl, rfl, rfl, by decide +kernel, by decide +kernel⟩,
    ⟨rfl, rfl, by decide +kernel, by decide +kernel⟩, codeless_whole, rfl, rfl, by decide +kernel⟩

/-- An open stream at port OB, and none. -/
theorem test_meets_EnCloseCommits : written.idle ∧ written.portsReady ∧ written.status.eofWritten = true ∧
    written.ports.ob.isOpen = true ∧ ({ written with ports := {} } : State).ports.ob.isOpen = false :=
  ⟨⟨rfl, rfl, rfl⟩, rfl, rfl, rfl, rfl⟩

/-- The last bit, a pad bit, of a stream of nine bits. -/
theorem test_meets_StreamBytes : 15 < 8 * (packBits (List.replicate 9 true)).length := by decide

/-- Each bit from the root, a leaf 'a' from node 3, and the end of the source. -/
theorem test_meets_DeStepMoves : treed.idle ∧ treed.portsReady ∧ treed.status.treeValid = true ∧
    treed.status.eofSeen = false ∧ TreeAt treed.mem.nodes treed.cur abShape ∧
    (treed.withBi [false]).ports.bi.bits = false :: [] ∧ (treed.withBi [true]).ports.bi.bits = true :: [] ∧
    (Shape.node (.leaf 97) (.leaf 98)).internal = true ∧
    TreeAt treed.mem.nodes 3 (.node (.leaf 97) (.leaf 98)) ∧ (97#9) ≠ 256 ∧
    (treed.withBi []).ports.bi.bits = [] ∧ (treed.withBi []).ports.bi.ended = true :=
  ⟨⟨rfl, rfl, rfl⟩, rfl, rfl, rfl, abShape_at, rfl, rfl, rfl, ⟨_, rfl, rfl, ⟨_, rfl, rfl, rfl⟩, _, rfl, rfl, rfl⟩, by decide,
    rfl, rfl⟩

/-- EN_SYMBOL at a port OB whose collaborator answers nothing, of a byte with a code and of one without; a source of bits and a source of
bytes that have delivered nothing yet and have not ended; DE_CLOSE and COMPRESS at a port that holds their first primitive. -/
theorem test_meets_HeldCommandResumes :
    (strained.idle ∧ strained.ports.credit = some 0 ∧
      (∃ t, exec (.enSymbol 97) strained = .next t ∧ (t.status.busy, t.ports.credit) = (true, some 0)) ∧
      ∃ t, exec (.enSymbol 0x41) strained = .next t ∧ (t.status.busy, t.status.err) = (true, true)) ∧
    (treed.ports.bi.ended = false ∧ ∃ t, exec .deBody treed = .next t ∧ (t.status.busy, t.seq.pending) = (true, some (.biRead 1))) ∧
    (counted.ports.ib.ended = false ∧ counted.ports.ib.later = [] ∧
      ∃ t, exec .fcScan counted = .next t ∧ (t.status.busy, t.seq.pending) = (true, some .ibRead)) ∧
    ((Instr.deClose, Prim.boClose) ∈ firstPrimitives seen.magic ∧ ({ seen with ports := { credit := some 0 } } : State).idle ∧
      seen.status.word &&& (prerequisite .deClose).1 = (prerequisite .deClose).1 ∧
      seen.status.word &&& (prerequisite .deClose).2 = 0) ∧
    ((Instr.compress, Prim.ibRead) ∈ firstPrimitives coded.magic ∧
      strained.status.word &&& (prerequisite .compress).2 = 0) ∧
    treed.idle ∧ treed.portsReady ∧ treed.status.treeValid = true ∧ treed.status.eofSeen = false ∧ treed.ports.bi.bits = [] ∧
      [true] ≠ [] :=
  ⟨⟨⟨rfl, rfl, rfl⟩, rfl, next_of_after (by decide +kernel), next_of_after (by decide +kernel)⟩,
    ⟨rfl, next_of_after (by decide +kernel)⟩, ⟨rfl, rfl, next_of_after (by decide +kernel)⟩,
    ⟨by decide, ⟨rfl, rfl, rfl⟩, by decide, by decide⟩, ⟨by decide, by decide⟩,
    ⟨rfl, rfl, rfl⟩, rfl, rfl, rfl, rfl, by decide⟩

theorem treed_treeOk (cur : NodeIdx) (n : Node) (path : List Bool) (h : walkTo abNodes 4 path = some cur)
    (hn : abNodes[cur.toNat]? = some n) (hi : n.leaf = false) : ({ treed with cur := cur } : State).treeOk :=
  fun _ => ⟨⟨abShape, rfl, abShape_at⟩, path, h, n, hn, hi⟩

/-- One DE_STEP that reaches PSEUDO_EOF, and one at the end of the source; from the root, and from node 3, part-way down, what the bits
decode to, with PSEUDO_EOF among them or not, and in a source that has ended or not; and a tree without PSEUDO_EOF. -/
theorem test_meets_DeBodyDecodes :
    (treed.idle ∧ (∃ u, execAll (List.replicate 1 .deStep) (treed.withBi [false]) = .next u ∧
        (u.status.busy, u.status.err, u.status.eofSeen) = (false, false, true)) ∧
      ∃ u, execAll (List.replicate 1 .deStep) (treed.withBi []) = .next u ∧
        (u.status.busy, u.status.err, u.errCause.cause) = (false, true, .fmtBodyEos)) ∧
    (treed.portsReady ∧ treed.status.treeValid = true ∧ treed.status.eofSeen = false ∧ treed.treeOk ∧
      ({ treed with cur := 3 } : State).treeOk ∧ decodeBits abNodes 4 3 [true, false, true] = ([98], 4, some [true]) ∧
      decodeBits abNodes 4 4 [true, false, true] = ([97], 3, none) ∧ (treed.withBi []).ports.bi.ended = true ∧
      treed.ports.bi.ended = false ∧ twin.treeOk ∧ TreeAt twin.mem.nodes twin.root (.node (.leaf 1) (.leaf 1)) ∧
      256#9 ∉ (Shape.node (.leaf 1) (.leaf 1)).leaves) ∧
    abShape.valid = true ∧ TreeAt treed.mem.nodes treed.root abShape ∧
    treed.cur = treed.root ∧ 256#9 ∈ abShape.leaves ∧ (∀ b ∈ [97, 98], symbolOfByte b ∈ abShape.leaves) ∧
    (treed.withBi (abShape.body [97, 98] ++ [true])).ports.bi.bits = abShape.body [97, 98] ++ [true] ∧
    4 < (abShape.body [97, 98]).length ∧
    (treed.withBi ((abShape.body [97, 98]).take 4)).ports.bi.bits = (abShape.body [97, 98]).take 4 ∧
    (treed.withBi ((abShape.body [97, 98]).take 4)).ports.bi.ended = true :=
  ⟨⟨⟨rfl, rfl, rfl⟩, next_of_after (by decide +kernel), next_of_after (by decide +kernel)⟩,
    ⟨rfl, rfl, rfl, treed_treeOk 4 _ [] rfl rfl rfl, treed_treeOk 3 _ [true] rfl rfl rfl, by decide, by decide, rfl, rfl,
      fun _ => ⟨⟨_, rfl, twin_at⟩, [], rfl, _, rfl, rfl⟩, twin_at, by decide⟩,
    rfl, abShape_at, rfl, by decide, by decide, rfl, by decide, rfl, rfl⟩

theorem test_meets_DeCloseCommits : seen.idle ∧ seen.portsReady ∧ seen.status.eofSeen = true := ⟨⟨rfl, rfl, rfl⟩, rfl, rfl⟩

/-- The same bytes in both passes, and fewer in the second. -/
theorem test_meets_CompressCommitsStream : (ready.withIb [97, 98]).idle ∧ (ready.withIb [97, 98]).portsReady ∧
    ready.status.eofWritten = false ∧ (ready.withIb [97, 98]).ports.ib.left = [97, 98] ∧
    (ready.withIb [97, 98]).ports.ib.ended = true ∧ (ready.withIb [97, 98]).ports.ib.rewind.left = [97, 98] ∧
    (ready.withIb [97, 98]).ports.ib.rewind.ended = true ∧ [97#8, 98#8].length < 2 ^ 32 - 1 ∧
    (ready.withPasses [97, 98] [98]).ports.ib.rewind.left = [98] ∧ (∀ b ∈ [98#8], b ∈ [97#8, 98#8]) :=
  ⟨⟨rfl, rfl, rfl⟩, rfl, rfl, rfl, rfl, rfl, rfl, by decide, rfl, by decide⟩

theorem test_meets_DecompressCommitsBytes : (ready.withBi (unpackBytes abStream)).idle ∧
    (ready.withBi (unpackBytes abStream)).portsReady ∧ ready.status.eofSeen = false ∧ abShape.valid = true ∧
    256#9 ∈ abShape.leaves ∧ (∀ b ∈ [97, 98], symbolOfByte b ∈ abShape.leaves) ∧
    (ready.withBi (unpackBytes abStream)).ports.bi.bits =
      streamBits ready.magic abShape [97, 98] ++ [false, false, false] :=
  ⟨⟨rfl, rfl, rfl⟩, rfl, rfl, rfl, by decide, by decide, by decide +kernel⟩

/-- "ab", and its stream with a bit after it. -/
theorem test_meets_CompressRoundTrip : (ready.withIb [97, 98]).idle ∧ (ready.withIb [97, 98]).portsReady ∧
    ready.status.eofWritten = false ∧ (ready.withIb [97, 98]).presents [97, 98] ∧ ready.ports.ob.bits = [] ∧
    (ready.withBi (unpackBytes abStream ++ [true])).idle ∧ (ready.withBi (unpackBytes abStream ++ [true])).portsReady ∧
    ready.status.eofSeen = false ∧ ready.bytesOut = 0 ∧ ready.ports.bo.bytes = [] ∧
    (∃ t, exec .compress (ready.withIb [97, 98]) = .next t ∧
      (t.status.done, t.ports.ob.committed) = (true, [] ++ [abStream])) ∧
    (ready.withBi (unpackBytes abStream ++ [true])).ports.bi.bits = unpackBytes abStream ++ [true] :=
  ⟨⟨rfl, rfl, rfl⟩, rfl, rfl, ⟨rfl, rfl, rfl, rfl⟩, rfl, ⟨rfl, rfl, rfl⟩, rfl, rfl, rfl, rfl,
    next_of_after (by decide +kernel), rfl⟩

/-- A fresh engine, and one with other counters. -/
theorem test_meets_CompressDeterministic : (ready.withIb [97]).idle ∧ (counted.withIb [97]).idle ∧
    (ready.withIb [97]).portsReady ∧ (counted.withIb [97]).portsReady ∧ ready.status.eofWritten = false ∧
    counted.status.eofWritten = false ∧ (ready.withIb [97]).presents [97] ∧ (counted.withIb [97]).presents [97] ∧
    counted.magic = ready.magic ∧ ready.ports.ob.bits = [] ∧ counted.ports.ob.bits = [] ∧
    (∃ t, exec .compress (ready.withIb [97]) = .next t ∧ t.status.done = true) ∧
    ∃ t, exec .compress (counted.withIb [97]) = .next t ∧ t.status.done = true :=
  ⟨⟨rfl, rfl, rfl⟩, ⟨rfl, rfl, rfl⟩, rfl, rfl, rfl, rfl, ⟨rfl, rfl, rfl, rfl⟩, ⟨rfl, rfl, rfl, rfl⟩, rfl, rfl, rfl,
    next_of_after (by decide +kernel), next_of_after (by decide +kernel)⟩

theorem test_meets_MemoryFormKept : coded.mem.wf = true ∧ ∃ t, step { coded with inputs := [.busWrite 0 4 0x22000000] } =
    .next t ∧ t.mem.nodes.length = 5 := ⟨by decide +kernel, next_of_after (by decide +kernel)⟩

theorem test_meets_CountersKept : counted.freqOk ∧ counted.status.freqValid = true ∧ 1 ∈ counted.mem.freq ∧
    ∃ t, step { counted with inputs := [.busWrite 0 4 0x110000FF] } = .next t ∧ t.total = 4 :=
  ⟨counted_freqOk, rfl, by decide +kernel, next_of_after (by decide +kernel)⟩

theorem test_meets_StatusFlagsKept : coded.errOk ∧ coded.busyOk ∧ coded.seq = {} ∧
    ∃ t, step { coded with inputs := [.busWrite 0 4 0x50000041] } = .next t ∧ t.status.err = true :=
  ⟨fun h => absurd h (by decide), fun h => absurd h (by decide), rfl, next_of_after (by decide +kernel)⟩

/-- An engine whose collaborators answer everything, and one that a port holds. -/
theorem test_meets_EngineStaysSound :
    (({ coded with ports := { ib := { ended := true }, bi := { ended := true } } } : State).sound ∧
      ({ coded with ports := { ib := { ended := true }, bi := { ended := true } } } : State).answered) ∧
    strained.live ∧ strained.alignedNext ∧ ∃ u : State, u.status.busy = true ∧ u.live ∧ u.alignedNext :=
  let ⟨_, _, h, b, _⟩ := strained_ends
  have hb := congrArg Prod.fst b
  have hi := congrArg (·.2.2) b
  ⟨⟨{ notBusy := coded_sound.notBusy, noSequence := coded_sound.noSequence, memory := coded_sound.memory,
      freq := coded_sound.freq, queue := coded_sound.queue, tree := coded_sound.tree, codes := coded_sound.codes,
      stream := fun h => absurd h (by decide) }, ⟨rfl, rfl, nofun, rfl⟩⟩,
    .inl strained_sound, ⟨fun _ _ _ _ h => (by cases h), fun _ _ _ h => (by cases h)⟩,
    _, hb, .inr ⟨_, _, strained_sound, .held h hb⟩,
    ⟨fun _ _ _ _ h => (by cases hi.symm.trans h), fun _ _ _ h => (by cases hi.symm.trans h)⟩⟩

/-- Composite commands' sub-steps that complete, and ones that fail: a byte of the second pass without a code, and another magic
word. -/
theorem test_meets_CompositeRunsSubSteps :
    ((ready.withIb [97, 98]).idle ∧ ready.status.eofWritten = false ∧ ∃ u, execAll compressSteps (ready.withIb [97, 98]) = .next u ∧
      (u.status.busy, u.status.err, u.ports.ob.committed) = (false, false, [abStream])) ∧
    (∃ u, execAll compressSteps (ready.withPasses [97] [99]) = .next u ∧
      (u.status.busy, u.status.err, u.errCause.cause) = (false, true, .encNoCode)) ∧
    (ready.status.eofSeen = false ∧ ∃ u, execAll decompressSteps (ready.withBi (unpackBytes abStream)) = .next u ∧
      (u.status.busy, u.status.err, u.ports.bo.committed) = (false, false, [[97, 98]])) ∧
    ∃ u, execAll decompressSteps (ready.withBi (List.replicate 32 false)) = .next u ∧
      (u.status.busy, u.status.err, u.errCause.cause) = (false, true, .fmtBadMagic) :=
  ⟨⟨⟨rfl, rfl, rfl⟩, rfl, next_of_after (by decide +kernel)⟩, next_of_after (by decide +kernel),
    ⟨rfl, next_of_after (by decide +kernel)⟩, next_of_after (by decide +kernel)⟩

/-- The first input that is too long; other bytes in the second pass than in the first, the first pass empty and not; each rejected
stream, one of a tree without PSEUDO_EOF among them. -/
theorem test_meets_CompositeRejects :
    (∃ pre : List Byte, (ready.withIb (pre ++ 97 :: [])).idle ∧ (ready.withIb (pre ++ 97 :: [])).portsReady ∧
      (ready.withIb (pre ++ 97 :: [])).ports.ib.left = pre ++ 97 :: [] ∧ pre.length = 2 ^ 32 - 2) ∧
    ready.status.eofWritten = false ∧
    ((ready.withPasses [97] [97, 99]).ports.ib.rewind.left = [97] ++ 99 :: [] ∧ (∀ x ∈ [97#8], x ∈ [97#8]) ∧ 99#8 ∉ [97#8]) ∧
    ((ready.withPasses [] [1]).ports.ib.rewind.left = [] ++ 1 :: [] ∧ 1#8 ∉ ([] : List Byte) ∧
      ¬ (([] : List Byte) = [] ∧ 1#8 = 0)) ∧
    (ready.withBi []).idle ∧ (ready.withBi []).portsReady ∧ ready.status.eofSeen = false ∧
    ((ready.withBi (fieldBits 32 0xFACE8200)).ports.bi.bits = fieldBits 32 0xFACE8200 ++ [] ∧ 0xFACE8200 ≠ ready.magic) ∧
    ((ready.withBi []).ports.bi.bits.length < 32 ∧ (ready.withBi []).ports.bi.ended = true) ∧
    ((ready.withBi (fieldBits 32 0xFACE8201 ++ [true])).ports.bi.bits = fieldBits 32 ready.magic ++ [true] ∧
      (readHeader [true]).error 33 = some (.fmtHdrLeafRoot, 0, 1)) ∧
    (readHeader []).error 32 = some (.fmtHdrEos, 1, 32) ∧
    ((Shape.node (.leaf 1) (.leaf 1)).valid = true ∧
      (ready.withBi (fieldBits 32 0xFACE8201 ++ (Shape.node (.leaf 1) (.leaf 1)).header ++ [true])).ports.bi.bits =
        fieldBits 32 ready.magic ++ (Shape.node (.leaf 1) (.leaf 1)).header ++ [true] ∧
      decodeBits ((Shape.node (.leaf 1) (.leaf 1)).nodesAt 0) 0 0 [true] = ([1], 0, none) ∧
      256#9 ∉ (Shape.node (.leaf 1) (.leaf 1)).leaves) ∧
    abShape.valid = true ∧ 256#9 ∈ abShape.leaves ∧ (∀ b ∈ [97, 98], symbolOfByte b ∈ abShape.leaves) ∧
      4 < (abShape.body [97, 98]).length ∧
      (ready.withBi (fieldBits 32 0xFACE8201 ++ abShape.header ++ (abShape.body [97, 98]).take 4)).ports.bi.bits =
        fieldBits 32 ready.magic ++ abShape.header ++ (abShape.body [97, 98]).take 4 :=
  ⟨⟨List.replicate (2 ^ 32 - 2) 0, ⟨rfl, rfl, rfl⟩, rfl, rfl, List.length_replicate⟩, rfl, ⟨rfl, by decide, by decide⟩,
    ⟨rfl, by decide, by decide⟩, ⟨rfl, rfl, rfl⟩, rfl, rfl, ⟨rfl, by decide⟩, ⟨by decide, rfl⟩, ⟨rfl, rfl⟩, rfl,
    ⟨rfl, rfl, by decide, by decide⟩, rfl, by decide, by decide, by decide, rfl⟩

end Sys2Proof.Machine
end

/-! ## The state, the register window and soundness (10_state.md) -/

namespace Sys2Proof.Machine

/-! ### Commands that are not accepted -/

/-- A command that the engine does not accept is SRESET's reset, or is rejected (40_control.md rule R121). -/
theorem exec_refused {s : State} (ha : s.accepts = false) (i : Instr) :
    exec i s = .next s.softReset ∨ exec i s = .next s.rejectCommand := by
  by_cases hi : ∃ x, i = .sreset x
  · obtain ⟨x, rfl⟩ := hi
    exact .inl rfl
  · right
    rw [exec_eq i fun x hx => hi ⟨x, hx⟩]
    exact runCommand_rejected ha

/-- A CMD write that is not SRESET's, where the engine accepts none (10_state.md rule R27). -/
theorem issue_rejected {s : State} {w : Word} (ha : s.accepts = false) (hw : opcodeOf w ≠ 0x01) :
    issue w s = .next s.rejectCommand := by
  have hnext : ∃ t, issue w s = .next t := by
    rcases (s.accepts_eq_false).1 ha with hb | he
    · exact (issue_busy hb w).elim (fun e => ⟨_, e⟩) fun e => ⟨_, e⟩
    · exact (issue_error he w).elim (fun e => ⟨_, e⟩) fun e => ⟨_, e⟩
  obtain ⟨t, ht⟩ := hnext
  rcases issue_cases ht with ⟨ho, -⟩ | ⟨-, -, rfl⟩ | ⟨-, ha', -⟩ | ⟨-, ha', -⟩
  · exact absurd ho hw
  · exact ht
  · rw [ha] at ha'; cases ha'
  · rw [ha] at ha'; cases ha'

theorem State.noError_of_accepts {s : State} (h : s.accepts = true) : s.status.err = false := by
  simp only [State.accepts, Bool.and_eq_true, Bool.not_eq_true'] at h
  exact h.2

theorem State.accept_reject (s : State) (w : Word) : (s.accept w).status.reject = false := rfl

theorem State.enterError_reject (s : State) (c : Cause) (e f : Word) :
    (s.enterError c e f).status.reject = s.status.reject := by
  obtain ⟨⟨b, h⟩, -⟩ := s.enterError_record c e f
  rw [h]

/-- A body that ends, is held, or raises an error leaves REJECT as acceptance left it. -/
theorem finish_reject {ts : List Task} {s t : State} {w : Word} (h : (runTasks ts (s.accept w)).finish = .next t)
    (ha : s.accepts = true) : t.status.reject = false := by
  refine Flow.finish_of_carries (Q := fun t => t.status.reject = false)
    (kept_running.tasks ts (s.accept w) (fun _ _ _ => rfl) ⟨rfl, rfl, State.noError_of_accepts (s := s) ha, rfl⟩) ?_ ?_ ?_ h
  · exact fun z ⟨_, _, _, hr⟩ => hr
  · exact fun z ⟨_, _, _, hr⟩ => hr
  · exact fun z c e d ⟨_, _, _, hr⟩ => (z.enterError_reject c e d).trans hr

/-- REJECT after a CMD write (10_state.md rule R27). -/
theorem issue_reject_iff {s t : State} {w : Word} (h : issue w s = .next t) :
    t.status.reject = true ↔ opcodeOf w ≠ 0x01 ∧ s.accepts = false := by
  rcases issue_cases h with ⟨ho, rfl⟩ | ⟨hne, ha, rfl⟩ | ⟨-, ha, c, e, d, -, rfl⟩ | ⟨-, ha, i, -, -, hf⟩
  · simp [ho, Status.softReset]
  · exact iff_of_true rfl ⟨hne, ha⟩
  · rw [State.enterError_reject, State.accept_reject, ha]; simp
  · simp [ha, finish_reject hf ha]

/-- Settles O6: what a CMD write can do, by the four cases of `issue_cases`. -/
theorem rejectedCommandWord : Obligations.RejectedCommandWord := by
  unfold Obligations.RejectedCommandWord
  intro s w
  refine ⟨fun hw hb => issue_rejected ((s.accepts_eq_false).2 hb) hw, fun t ht => ?_⟩
  rw [issue_reject_iff ht, s.accepts_eq_false]

/-! ### Soundness -/

theorem State.softReset_sound (s : State) : s.softReset.sound :=
  (s.softReset_over (op := 0) (R := []) (oc := ([], []))).sound

theorem State.sound.rejectCommand {s : State} (h : s.sound) : s.rejectCommand.sound :=
  h.agrees (r := true) rfl rfl rfl rfl rfl rfl rfl

/-- Every command of a sound engine answers a next state, sound where the engine is not busy with it (10_state.md rules R51,
R52). -/
theorem exec_sound {s : State} (h : s.sound) (i : Instr) :
    ∃ t, exec i s = .next t ∧ (t.status.busy = false → t.sound) := by
  by_cases he : s.status.err = true
  · rcases exec_refused ((s.accepts_eq_false).2 (.inr he)) i with e | e
    · exact ⟨_, e, fun _ => s.softReset_sound⟩
    · exact ⟨_, e, fun _ => h.rejectCommand⟩
  · obtain ⟨t, e, hb | ho⟩ := exec_lands h (Bool.eq_false_iff.2 he) i
    · exact ⟨t, e, fun hn => absurd (hb.busy.symm.trans hn) (by decide)⟩
    · exact ⟨t, e, fun _ => ho.sound⟩

/-- Settles O57: a command lands in a sound engine or a busy one (`exec_lands`), it is not busy where the collaborators answer
(`exec_answered`), and every step of a live engine leaves a live one (`step_live`). -/
theorem engineStaysSound : Obligations.EngineStaysSound := by
  unfold Obligations.EngineStaysSound
  refine ⟨fun i s h => exec_sound h i, fun i s h ha => ?_, fun s h ha => step_live h ha⟩
  obtain ⟨t, e, ht⟩ := exec_sound h i
  exact ⟨t, e, ht (exec_answered h.notBusy ha e)⟩

/-- The reset state has no flag set, and no memory entry holds a value. -/
theorem State.reset_sound : State.reset.sound :=
  State.sound_of_clear rfl rfl rfl rfl rfl rfl rfl rfl

/-- Settles O58: after reset no flag is set, so each invariant holds of the empty memories and the idle sequencer. -/
theorem invariantsAtReset : Obligations.InvariantsAtReset := by
  unfold Obligations.InvariantsAtReset
  exact ⟨State.reset_sound.memory, State.reset_sound.freq, nofun, nofun, ⟨rfl, rfl, rfl⟩, State.reset_sound,
    .inl State.reset_sound⟩

/-! ### STATUS -/

/-- No flag of STATUS[10:4] is 1. -/
theorem Status.flagWord_eq_zero_iff (st : Status) : st.flagWord = 0 ↔ ∀ f, st.get f = false := by
  have hmask : (0x7F0 : Word) = Flag.mask .freqValid ||| Flag.mask .heapLoaded ||| Flag.mask .treeValid |||
      Flag.mask .codesValid ||| Flag.mask .eofWritten ||| Flag.mask .eofSeen ||| Flag.mask .magicOk := by decide
  rw [Status.flagWord, hmask]
  simp only [BitVec.and_or_distrib_left, BitVec.ofNat_eq_ofNat, BitVec.or_eq_zero_iff, (st.word_flag _).2]
  constructor
  · rintro ⟨⟨⟨⟨⟨⟨h₁, h₂⟩, h₃⟩, h₄⟩, h₅⟩, h₆⟩, h₇⟩ f
    cases f <;> assumption
  · exact fun h => ⟨⟨⟨⟨⟨⟨h _, h _⟩, h _⟩, h _⟩, h _⟩, h _⟩, h _⟩

/-- A change of BUSY and REJECT leaves the flags of STATUS[10:4]. -/
theorem Status.flagWord_eq_zero_of_get {st st' : Status} (h : st.flagWord = 0) (hg : st'.get = st.get) :
    st'.flagWord = 0 := by
  rw [Status.flagWord_eq_zero_iff] at h ⊢
  rwa [hg]

@[simp] theorem Status.failed_flagWord (st : Status) : st.failed.flagWord = 0 :=
  (Status.flagWord_eq_zero_iff _).2 fun f => by cases f <;> rfl

/-- What every step keeps of STATUS and the hidden sequencer state (10_state.md rules R24 to R26, R48). -/
def State.flagsOk (s : State) : Prop := s.errOk ∧ s.busyOk ∧ (s.status.busy = false → s.seq = {})

/-- An error entry issues its cleanup primitives: BUSY and ERR are 1, every other flag but REJECT is 0 (60_exceptions.md rule
R303). -/
def State.failing (s : State) : Prop :=
  s.status.busy = true ∧ s.status.done = false ∧ s.status.err = true ∧ s.status.flagWord = 0

/-- No error, and the flags of a command that runs. -/
def State.running (s : State) : Prop := s.status.busy = true ∧ s.status.done = false ∧ s.status.err = false

theorem State.running.flagsOk {s : State} (h : s.running) : s.flagsOk := by
  obtain ⟨hb, hd, he⟩ := h
  exact ⟨fun h => absurd (he.symm.trans h) (by decide), fun _ => hd, fun h => absurd (hb.symm.trans h) (by decide)⟩

theorem State.failing.flagsOk {s : State} (h : s.failing) : s.flagsOk := by
  obtain ⟨hb, hd, -, hf⟩ := h
  exact ⟨fun _ => ⟨hd, hf⟩, fun _ => hd, fun h => absurd (hb.symm.trans h) (by decide)⟩

/-- A command runs without an error, error entry goes through `failing` states, and all that ends or holds them is consistent. -/
theorem flagsOk_kept : StepKept State.flagsOk State.running State.failing where
  body := kept_busy
  reject := fun s ⟨he, hb, hs⟩ _ =>
    ⟨fun h => ⟨(he h).1, Status.flagWord_eq_zero_of_get (he h).2 rfl⟩, hb, hs⟩
  accept := fun s _ _ ha => ⟨rfl, rfl, State.noError_of_accepts (s := s) ha⟩
  resume := fun s q ⟨_, hb, _⟩ hbusy herr _ => ⟨hbusy, hb hbusy, herr⟩
  resumeError := fun s ⟨he, hb, _⟩ hbusy herr => ⟨hbusy, hb hbusy, herr, (he herr).2⟩
  complete := fun s ⟨_, _, he⟩ => ⟨fun h => absurd (he.symm.trans h) (by decide), nofun, fun _ => rfl⟩
  hold := fun s h => h.flagsOk
  record := fun s c e d ⟨hb, _, _⟩ => ⟨hb, rfl, rfl, s.status.failed_flagWord⟩
  errorPorts := fun s v h => h
  errorHold := fun s q _ h => State.failing.flagsOk (s := s.setSeq q) h
  errorEnd := fun s ⟨_, hd, _, hf⟩ =>
    ⟨fun _ => ⟨hd, Status.flagWord_eq_zero_of_get hf rfl⟩, nofun, fun _ => rfl⟩
  softReset := fun s _ => ⟨nofun, nofun, fun _ => rfl⟩
  hardReset := fun s _ => ⟨nofun, nofun, fun _ => rfl⟩
  ctrl := fun s c h => h
  readData := fun s v n h => h
  inputs := fun s q h => h
  ports := fun s v h => h

/-- Settles O56, from what each part of a step keeps. -/
theorem statusFlagsKept : Obligations.StatusFlagsKept := by
  unfold Obligations.StatusFlagsKept
  exact fun s t he hb hs h => flagsOk_kept.step ⟨he, hb, hs⟩ h

/-! ### MAGIC and CTRL -/

theorem magic_kept (m : Word) : StepKept (fun s => s.magic = m) (fun s => s.magic = m) (fun s => s.magic = m) where
  body := by constructor <;> intros <;> assumption
  reject := fun _ h _ => h
  accept := fun _ _ h _ => h
  resume := fun _ _ h _ _ _ => h
  resumeError := fun _ h _ _ => h
  complete := fun _ h => h
  hold := fun _ h => h
  record := fun _ _ _ _ h => h
  errorPorts := fun _ _ h => h
  errorHold := fun _ _ _ h => h
  errorEnd := fun _ h => h
  softReset := fun _ h => h
  hardReset := fun _ h => h
  ctrl := fun _ _ h => h
  readData := fun _ _ _ h => h
  inputs := fun _ _ h => h
  ports := fun _ _ h => h

/-- Settles O20: no operation of the engine writes MAGIC. -/
theorem magicConstant : Obligations.MagicConstant := by
  unfold Obligations.MagicConstant
  exact ⟨rfl, fun s => rfl, fun s t h => (magic_kept s.magic).step rfl h⟩

theorem State.cleanUp_ctrl (s : State) (ps : List Prim) : (s.cleanUp ps).ctrl = s.ctrl := by
  obtain ⟨q, e | ⟨_, _, _, _, e⟩⟩ := s.cleanUp_cases ps <;> rw [e] <;> rfl

theorem State.enterError_ctrl (s : State) (c : Cause) (e f : Word) : (s.enterError c e f).ctrl = s.ctrl :=
  (s.recordError c e f).cleanUp_ctrl cleanupPrims

/-- A body leaves CTRL as it is, however it ends. -/
theorem finish_ctrl {ts : List Task} {s t : State} (h : (runTasks ts s).finish = .next t) : t.ctrl = s.ctrl :=
  Flow.finish_of_carries (Q := fun t => t.ctrl = s.ctrl) ((kept_ctrl s.ctrl).tasks ts s (fun _ _ _ => rfl) rfl)
    (fun _ hz => hz) (fun _ hz => hz) (fun z c e d hz => (z.enterError_ctrl c e d).trans hz) h

/-- No command writes CTRL, SRESET included (10_state.md rule R33). -/
theorem issue_ctrl {w : Word} {s t : State} (h : issue w s = .next t) : t.ctrl = s.ctrl := by
  rcases issue_cases h with ⟨-, rfl⟩ | ⟨-, -, rfl⟩ | ⟨-, -, c, e, d, -, rfl⟩ | ⟨-, -, i, -, -, hf⟩
  · rfl
  · rfl
  · exact (s.accept w).enterError_ctrl c e d
  · exact finish_ctrl (s := s.accept w) hf

theorem State.resume_ctrl {s t : State} (h : s.resume = .next t) : t.ctrl = s.ctrl := by
  unfold State.resume at h
  split at h
  · split at h
    · cases h; exact s.cleanUp_ctrl _
    · exact finish_ctrl (s := s.setSeq { s.seq with tasks := [], pending := none }) h
  · cases h; rfl

theorem State.readWindow_frame (s : State) (offset : Nat) :
    { s.readWindow offset with readData := s.readData, draws := s.draws } = s := by
  unfold State.readWindow
  split
  · rfl
  · split <;> rfl

theorem State.readWindow_ctrl (s : State) (offset : Nat) : (s.readWindow offset).ctrl = s.ctrl := by
  have h := congrArg State.ctrl (s.readWindow_frame offset)
  exact h

/-- An event makes the step react to it. -/
theorem step_of_inputs {s : State} {i : Input} {rest : List Input} (h : s.inputs = i :: rest) :
    step s = State.react { s with inputs := rest } i := by
  simp only [step, h]

/-- The only events that change CTRL (10_state.md rule R33, 70_reset_and_hazards.md rule R340). -/
theorem react_ctrl {s t : State} {i : Input} (h : s.react i = .next t) : t.ctrl = s.ctrl ∨
    (∃ v, i = .busWrite 0x08 4 v ∧ t.ctrl = Ctrl.ofWord v) ∨ (i = .hardReset ∧ t.ctrl = {}) := by
  have port : ∀ {ps : Ports}, (s.setPorts ps).resume = .next t → t.ctrl = s.ctrl := fun {ps} h =>
    State.resume_ctrl (s := s.setPorts ps) h
  cases i with
  | busWrite offset size v =>
    simp only [State.react] at h
    split at h
    · rename_i ha
      obtain ⟨rfl, -⟩ := (alignedWord_iff offset size).1 ha
      unfold State.writeWindow at h
      split at h
      · exact .inl (issue_ctrl h)
      · cases h; exact .inr (.inl ⟨v, rfl, rfl⟩)
      · cases h; exact .inl rfl
    · cases h
  | busRead offset size =>
    simp only [State.react] at h
    split at h
    · cases h; exact .inl (s.readWindow_ctrl offset)
    · cases h
  | hardReset => cases h; exact .inr (.inr ⟨rfl, rfl⟩)
  | ibPresent _ _ _ => exact .inl (port h)
  | ibSupply _ _ => exact .inl (port h)
  | biPresent _ _ => exact .inl (port h)
  | biSupply _ _ => exact .inl (port h)
  | portCredit _ => exact .inl (port h)

theorem State.irq_iff (s : State) : s.irq = true ↔
    (s.status.done = true ∧ s.ctrl.ieDone = true) ∨ (s.status.err = true ∧ s.ctrl.ieErr = true) := by
  simp [State.irq]

/-- Settles O19: IRQ by its definition, CTRL by the events that a step can take. -/
theorem controlAndInterrupt : Obligations.ControlAndInterrupt := by
  unfold Obligations.ControlAndInterrupt
  refine ⟨State.irq_iff, fun s t h => ?_⟩
  cases hi : s.inputs with
  | nil =>
    rw [step, hi] at h
    exact .inl (State.resume_ctrl h)
  | cons i rest =>
    rw [step_of_inputs hi] at h
    rcases react_ctrl h with hc | ⟨v, rfl, hc⟩ | ⟨rfl, hc⟩
    · exact .inl hc
    · exact .inr (.inl ⟨v, rest, rfl, hc⟩)
    · exact .inr (.inr ⟨rest, rfl, hc⟩)

/-! ### The register window -/

theorem State.readWindow_none {s : State} {offset : Nat} (h : s.register offset = none) :
    (s.readWindow offset).readData = 0 := by
  simp only [State.readWindow, h]

/-- A read is exact while the engine is not busy, and of STATUS always (10_state.md rule R22). -/
theorem State.readWindow_exact {s : State} {offset : Nat} {r : Word} (h : s.register offset = some r)
    (hb : s.status.busy = false ∨ offset = 0x04) : (s.readWindow offset).readData = r := by
  have hc : (s.status.busy && offset != 0x04) = false := by
    rcases hb with hb | rfl
    · rw [hb]; rfl
    · exact Bool.and_false _
  simp only [State.readWindow, h, hc, Bool.false_eq_true, if_false]

theorem State.writeWindow_other (s : State) (v : Word) {offset : Nat} (h₀ : offset ≠ 0x00) (h₈ : offset ≠ 0x08) :
    s.writeWindow offset v = .next s := by
  unfold State.writeWindow
  split
  · exact absurd rfl h₀
  · exact absurd rfl h₈
  · rfl

theorem react_read {s : State} {offset : Nat} (h : offset % 4 = 0) :
    s.react (.busRead offset 4) = .next (s.readWindow offset) :=
  if_pos ((alignedWord_iff offset 4).2 ⟨rfl, h⟩)

theorem react_write {s : State} {offset : Nat} (v : Word) (h : offset % 4 = 0) :
    s.react (.busWrite offset 4 v) = s.writeWindow offset v :=
  if_pos ((alignedWord_iff offset 4).2 ⟨rfl, h⟩)

/-- Settles O18: reads by `readWindow`'s lemmas, writes by offset, and refusal where the access is no aligned word. -/
theorem windowAccesses : Obligations.WindowAccesses := by
  unfold Obligations.WindowAccesses
  intro s offset size v rest
  refine ⟨fun ho hi => ?_, fun ho h₀ h₈ hi => ?_, fun hi => ?_, fun hu => ⟨fun hi => ?_, fun hi => ?_⟩⟩
  · refine ⟨State.readWindow { s with inputs := rest } offset, ?_, State.readWindow_frame { s with inputs := rest } offset,
      State.readWindow_none (s := { s with inputs := rest }), fun r => State.readWindow_exact (s := { s with inputs := rest })⟩
    rw [step_of_inputs hi, react_read ho]
  · rw [step_of_inputs hi, react_write v ho, State.writeWindow_other _ v h₀ h₈]
  · rw [step_of_inputs hi, react_write v rfl]; rfl
  all_goals
    have ha : ¬ alignedWord offset size = true := fun h => by
      obtain ⟨h₁, h₂⟩ := (alignedWord_iff offset size).1 h
      exact hu.elim (· h₁) (· h₂)
    rw [step_of_inputs hi]
    exact if_neg ha

/-- An offset that has a register is one of the table's (10_state.md rule R21). -/
theorem State.register_range {s : State} {offset : Nat} {v : Word} (h : s.register offset = some v) :
    offset ≤ 0x44 ∨ (0x60 ≤ offset ∧ offset ≤ 0x7C) := by
  unfold State.register at h
  split at h
  case h_27 => cases h
  all_goals omega

/-- The bytes of a word of four. -/
theorem extract_bytes (a b c d : Byte) : (a ++ b ++ c ++ d).extractLsb' 0 8 = d ∧ (a ++ b ++ c ++ d).extractLsb' 8 8 = c ∧
    (a ++ b ++ c ++ d).extractLsb' 16 8 = b ∧ (a ++ b ++ c ++ d).extractLsb' 24 8 = a := by
  refine ⟨BitVec.extractLsb'_append_eq_right, ?_, ?_, ?_⟩
  · rw [BitVec.extractLsb'_append_eq_of_le (by decide)]
    exact BitVec.extractLsb'_append_eq_right
  · rw [BitVec.extractLsb'_append_eq_of_le (by decide), BitVec.extractLsb'_append_eq_of_le (by decide)]
    exact BitVec.extractLsb'_append_eq_right
  · rw [BitVec.extractLsb'_append_eq_of_le (by decide), BitVec.extractLsb'_append_eq_of_le (by decide),
      BitVec.extractLsb'_append_eq_of_le (by decide)]
    exact BitVec.extractLsb'_eq_self

theorem ErrCause.word_fields (e : ErrCause) : e.word.extractLsb' 0 8 = e.cause.code ∧ e.word.extractLsb' 8 8 = e.opcode ∧
    e.word.extractLsb' 16 8 = e.phase ∧ e.word.extractLsb' 24 8 = 0 :=
  extract_bytes 0 e.phase e.opcode e.cause.code

theorem Cause.code_mem (c : Cause) : (c, c.code) ∈ causeCodes := by
  cases c <;> decide

/-- Settles O17: the window's table by evaluation at each offset, the fields by their bits. -/
theorem registerFields : Obligations.RegisterFields := by
  unfold Obligations.RegisterFields
  refine ⟨fun s => ⟨rfl, fun k hk => ?_, fun offset h₁ h₂ => ?_⟩, fun st => ?_, fun c => ?_, fun e => ?_⟩
  · interval_cases k <;> rfl
  · by_contra h
    obtain ⟨v, hv⟩ := Option.ne_none_iff_exists'.1 h
    have := State.register_range hv
    omega
  · rw [show st.word.getLsbD = _ from funext st.word_getLsbD]; rfl
  · rw [show c.word.getLsbD = _ from funext c.word_getLsbD]; rfl
  · obtain ⟨h₁, h₂, h₃, h₄⟩ := e.word_fields
    exact ⟨h₁ ▸ e.cause.code_mem, h₂, h₃, h₄⟩

/-- Settles O16: the reset state's registers, one by one. -/
theorem resetValues : Obligations.ResetValues := by
  unfold Obligations.ResetValues
  refine ⟨fun offset v h => ?_, rfl, rfl⟩
  unfold State.register at h
  split at h <;> cases h <;> rfl

end Sys2Proof.Machine

/-! ## Streams, the memories' form and held commands (20_memory.md) -/

namespace Sys2Proof.Machine

/-! ### The memories' form -/

/-- The memories keep their form through every part of a step; a reset leaves them without values (10_state.md rule R50). -/
theorem memoryForm_kept : StepKept (fun s => s.mem.wf = true) (fun s => s.mem.wf = true) (fun s => s.mem.wf = true) where
  body := kept_wf
  reject := fun _ h _ => h
  accept := fun _ _ h _ => h
  resume := fun _ _ h _ _ _ => h
  resumeError := fun _ h _ _ => h
  complete := fun _ h => h
  hold := fun _ h => h
  record := fun _ _ _ _ h => h
  errorPorts := fun _ _ h => h
  errorHold := fun _ _ _ h => h
  errorEnd := fun _ h => h
  softReset := fun _ _ => rfl
  hardReset := fun _ _ => rfl
  ctrl := fun _ _ h => h
  readData := fun _ _ _ h => h
  inputs := fun _ _ h => h
  ports := fun _ _ h => h

/-- Settles O54: every operation on the memories keeps their form (`kept_wf`), and so does every part of a step. -/
theorem memoryFormKept : Obligations.MemoryFormKept := by
  unfold Obligations.MemoryFormKept
  exact fun s t h e => memoryForm_kept.step h e

/-! ### The bytes of a bit stream -/

/-- A byte of a stream, bit by bit, the most significant first (20_memory.md rule R71). -/
theorem streamByte_getLsbD (bits : List Bool) (k : Nat) {j : Nat} (hj : j < 8) :
    (streamByte bits k).getLsbD (7 - j) = bits.getD (8 * k + j) false := by
  calc (streamByte bits k).getLsbD (7 - j)
      = (fieldBits 8 ((streamByte bits k).setWidth 32)).getD j false := by
        rw [fieldBits_getD]
        simp [hj, show 7 - j < 32 by omega]
    _ = bits.getD (8 * k + j) false := by
        rw [fieldBits_streamByte]
        simp [hj]

theorem packBits_getD {bits : List Bool} {k : Nat} (h : k < (packBits bits).length) :
    (packBits bits).getD k 0 = streamByte bits k := by
  rw [packBits_length] at h
  simp [packBits, h]

/-- Byte `k` of a 32-bit field at the start of a stream (30_encoding.md rule R104). -/
theorem streamByte_field (v : Word) (bits : List Bool) {k : Nat} (hk : k < 4) :
    streamByte (fieldBits 32 v ++ bits) k = v.extractLsb' (24 - 8 * k) 8 := by
  refine BitVec.eq_of_getLsbD_eq fun i hi => ?_
  have hb := streamByte_getLsbD (fieldBits 32 v ++ bits) k (j := 7 - i) (by omega)
  rw [show 7 - (7 - i) = i by omega] at hb
  rw [hb, List.getD_append _ _ _ _ (by simp; omega), fieldBits_getD, BitVec.getLsbD_extractLsb',
    show 32 - 1 - (8 * k + (7 - i)) = 24 - 8 * k + i by omega]
  simp [hi, show 8 * k + (7 - i) < 32 by omega]

theorem packBits_take {bits : List Bool} {n : Nat} (h : n ≤ (packBits bits).length) :
    (packBits bits).take n = (List.range n).map (streamByte bits) := by
  rw [packBits_length] at h
  rw [packBits, ← List.map_take, List.take_range, Nat.min_eq_left h]

/-- Settles O45: each bit by its byte (`streamByte_getLsbD`), and the four bytes of a 32-bit field by `streamByte_field`. -/
theorem streamBytes : Obligations.StreamBytes := by
  unfold Obligations.StreamBytes
  refine ⟨fun bits => ⟨packBits_length bits, fun k hk => ?_⟩, fun v bits => ?_⟩
  · rw [packBits_getD (by omega), streamByte_getLsbD bits (k / 8) (Nat.mod_lt k (by decide)), Nat.div_add_mod]
  · have hlen : 4 ≤ (packBits (fieldBits 32 v ++ bits)).length := by
      rw [packBits_length, List.length_append, fieldBits_length]; omega
    rw [packBits_take hlen]
    calc (List.range 4).map (streamByte (fieldBits 32 v ++ bits))
        = (List.range 4).map fun k => v.extractLsb' (24 - 8 * k) 8 :=
          List.map_congr_left fun k hk => streamByte_field v bits (List.mem_range.1 hk)
      _ = [v.extractLsb' 24 8, v.extractLsb' 16 8, v.extractLsb' 8 8, v.extractLsb' 0 8] := rfl

/-! ### A command that a port holds -/

theorem State.idle.flagsOk {s : State} (h : s.idle) : s.flagsOk := by
  obtain ⟨hb, he, hs⟩ := h
  exact ⟨fun h => absurd (he.symm.trans h) (by decide), fun h => absurd (hb.symm.trans h) (by decide), fun _ => hs⟩

section Held

variable {i : Instr} {s t : State} (h : s.idle) (hx : exec i s = .next t) (hb : t.status.busy = true)
include h hx hb

/-- A held command waits on a primitive without an answer, and going on without one changes nothing (20_memory.md rule R66). -/
theorem exec_held : t.resume = .next t ∧ t.waits := by
  have hr := exec_resume same_serves rfl rfl ⟨rfl, rfl⟩ h trivial hx hb (.inl rfl)
  exact ⟨hr.1.trans hx, hr.2⟩

theorem exec_held_step (hi : t.inputs = []) : step t = .next t := by
  rw [step, hi]
  exact (exec_held h hx hb).1

/-- With ERR = 1 it is the command's error entry that waits (60_exceptions.md rule R303). -/
theorem exec_held_error (he : t.status.err = true) : ∃ p ∈ cleanupPrims, t.seq.pending = some p := by
  by_cases hi : ∃ x, i = .sreset x
  · obtain ⟨x, rfl⟩ := hi
    cases hx
    exact absurd hb nofun
  rw [exec_eq i fun x hx => hi ⟨x, hx⟩] at hx
  rcases runCommand_cases hx with ⟨ha, -⟩ | ⟨-, c, e, d, rfl, -⟩ | ⟨-, -, hf⟩
  · exact absurd (h.accepts.symm.trans ha) (by decide)
  · exact cleanUp_pending cleanupPrims _ hb
  · have hk := kept_busy.tasks (bodyOf i) (s.accept (encode i)) (fun _ _ _ => rfl) ⟨rfl, rfl, h.2.1⟩
    cases hr : runTasks (bodyOf i) (s.accept (encode i)) with
    | ok y => rw [hr] at hf; cases hf; exact absurd hb nofun
    | hold y =>
      rw [hr] at hf hk
      cases hf
      exact absurd (hk.2.2.symm.trans he) (by decide)
    | raise c x d y => rw [hr] at hf; cases hf; exact cleanUp_pending cleanupPrims _ hb
    | fault g => rw [hr] at hf; cases hf

/-- The primitive that a held command waits on has no answer. -/
theorem exec_held_pending :
    ∃ p, t.seq.pending = some p ∧ t.ports.answer p = none ∧ (t.status.err = true → p ∈ cleanupPrims) := by
  obtain ⟨p, hp, ha⟩ := (exec_held h hx hb).2
  refine ⟨p, hp, ha, fun he => ?_⟩
  obtain ⟨q, hq, hp'⟩ := exec_held_error h hx hb he
  exact Option.some.inj (hp.symm.trans hp') ▸ hq

/-- The collaborators answer more primitives, as if they had been ready for them from the start. -/
theorem exec_held_credit {c : Nat} (hc : s.ports.credit = some c) (ht : t.ports.credit = some 0) (d : Option Nat) :
    t.react (.portCredit d) = exec i { s with ports := { s.ports with credit := d.map (c + ·) } } := by
  have hr := (exec_resume (creditMore_serves d) rfl rfl ⟨rfl, rfl⟩ h trivial hx hb (.inl rfl)).1
  have et : (creditMore d).state t = t.setPorts { t.ports with credit := d } := by
    simp [Recast.state, creditMore, ht, State.setPorts]
  have es : (creditMore d).state s = { s with ports := { s.ports with credit := d.map (c + ·) } } := by
    simp [Recast.state, creditMore, hc]
  rw [← es, ← hr, et]
  rfl

/-- Bits arrive at port BI, as if they had been there from the start. -/
theorem exec_held_bits {n : Nat} (hp : t.seq.pending = some (.biRead n)) (he : s.ports.bi.ended = false)
    (bits : List Bool) (ended : Bool) : t.react (.biSupply bits ended) =
      exec i { s with ports := { s.ports with bi := { s.ports.bi with bits := s.ports.bi.bits ++ bits, ended := ended } } } :=
  (exec_resume (bitsMore_serves bits ended) rfl rfl ⟨rfl, rfl⟩ h he hx hb
    (.inr fun q hq e => by cases hp.symm.trans e; exact absurd hq (by simp [cleanupPrims]))).1

/-- Bytes arrive at port IB, as if they had been there from the start. -/
theorem exec_held_bytes (hp : t.seq.pending = some .ibRead) (he : s.ports.ib.ended = false) (hl : s.ports.ib.later = [])
    (bytes : List Byte) (ended : Bool) : t.react (.ibSupply bytes ended) = exec i { s with ports := { s.ports with
      ib := { s.ports.ib with
        left := s.ports.ib.left ++ bytes, all := s.ports.ib.all ++ bytes, ended := ended } } } :=
  (exec_resume (bytesMore_serves bytes ended) rfl rfl ⟨rfl, rfl⟩ h ⟨he, hl⟩ hx hb
    (.inr fun q hq e => by cases hp.symm.trans e; exact absurd hq (by decide))).1

end Held

/-! ### The primitive that a command issues first -/

/-- A command runs at ports that answer nothing. -/
def State.blocked (s : State) : Prop := s.status.busy = true ∧ s.ports.credit = some 0

/-- A port holds the body at primitive `p`, and the collaborators still answer nothing. -/
def Flow.HeldAt (p : Prim) : Flow → Prop
  | .hold y => y.status.busy = true ∧ y.seq.pending = some p ∧ y.ports.credit = some 0
  | _ => False

theorem Flow.HeldAt.andThen {p : Prim} {f : Flow} (h : f.HeldAt p) (ts : List Task) (k : State → Flow) :
    (f.andThen ts k).HeldAt p := by
  cases f with
  | hold y => exact h
  | _ => exact h.elim

theorem Flow.HeldAt.finish {p : Prim} {f : Flow} (h : f.HeldAt p) :
    ∃ t, f.finish = .next t ∧ t.status.busy = true ∧ t.seq.pending = some p ∧ t.ports.credit = some 0 := by
  cases f with
  | hold y => exact ⟨y, rfl, h⟩
  | _ => exact h.elim

@[simp] theorem Ports.touch_credit (ps : Ports) (p : Prim) : (ps.touch p).credit = ps.credit := by cases p <;> rfl

/-- Collaborators that answer nothing hold every primitive (20_memory.md rule R66). -/
theorem State.blocked.port {s : State} (h : s.blocked) (p : Prim) (ts : List Task) (k : Answer → State → Flow) :
    (s.port p ts k).HeldAt p := by
  obtain ⟨hb, hc⟩ := h
  have ha : s.ports.answer p = none := by rw [Ports.answer, if_pos hc]
  rw [State.port, ha]
  exact ⟨hb, rfl, (s.ports.touch_credit p).trans hc⟩

/-- The primitive that a part of a body issues before it does anything else, for the parts at which the commands of
`firstPrimitives` first meet a port. -/
def Task.opening (magic : Word) : Task → Option Prim
  | .scan => some .ibRead
  | .writeMagic => some (.obWrite 32 magic)
  | .readMagic => some (.biRead 32)
  | .hdRoot => some (.biRead 1)
  | .ibRewind => some .ibRewind
  | .obClose => some .obClose
  | .deStep => some (.biRead 1)
  | .boClose => some .boClose
  | _ => none

theorem State.blocked.opens {s : State} (h : s.blocked) {u : Task} {p : Prim} (hu : u.opening s.magic = some p) :
    (runTask u s).HeldAt p := by
  cases u with
  | scan => cases hu; rw [runTask, scanBody, scanLoop]; exact h.port _ _ _
  | writeMagic => cases hu; exact (h.port _ _ _).andThen _ _
  | readMagic =>
    cases hu
    rw [runTask, readMagicBody]
    exact State.blocked.port (s := s.setStatus { s.status with magicOk := false }) h _ _ _
  | hdRoot => cases hu; rw [runTask, hdRootBody]; exact h.port _ _ _
  | ibRewind => cases hu; exact h.port _ _ _
  | obClose => cases hu; exact h.port _ _ _
  | deStep => cases hu; rw [runTask, deStepBody]; exact h.port _ _ _
  | boClose => cases hu; exact h.port _ _ _
  | _ => cases hu

/-- DE_BODY's loop begins with DE_STEP's read (46_decoder.md rule R262). -/
theorem State.blocked.decodes {s : State} (h : s.blocked) (he : s.status.eofSeen = false) :
    (runTask .deLoop s).HeldAt (.biRead 1) := by
  rw [runTask, deLoopBody, deLoop, if_neg (by rw [he]; decide)]
  exact (h.opens (u := .deStep) rfl).andThen _ _

/-- A body waits where its first part does. -/
theorem Flow.HeldAt.head {p : Prim} {u : Task} {s : State} (h : (runTask u s).HeldAt p) (ts : List Task) :
    (runTasks (u :: ts) s).HeldAt p := h.andThen ts _

/-- A body whose first part ends waits where the parts behind it do. -/
theorem Flow.HeldAt.behind {p : Prim} {u : Task} {ts : List Task} {s y : State} (h : (runTasks ts y).HeldAt p)
    (hu : runTask u s = .ok y) : (runTasks (u :: ts) s).HeldAt p := by
  rw [runTasks_cons, hu]
  exact h

/-- At ports that answer nothing the body of a command waits on the primitive that its rule issues first: whatever parts come
before it issue none. DE_BODY reads unless its loop is over. -/
theorem firstPrimitives_heldAt {z : State} (h : z.blocked) : ∀ q ∈ firstPrimitives z.magic,
    (q.1 = .deBody → z.status.eofSeen = false) → (runTasks (bodyOf q.1) z).HeldAt q.2 := by
  have opens : ∀ {y : State} {u : Task} {p : Prim} (ts : List Task), y.blocked → u.opening y.magic = some p →
      (runTasks (u :: ts) y).HeldAt p := fun ts hy hu => (hy.opens hu).head ts
  simp only [firstPrimitives, List.forall_mem_cons]
  refine ⟨fun _ => ?fcScan, fun _ => ?hsWriteMagic, fun _ => ?hdReadMagic, fun _ => ?hdReadTree, fun _ => ?enBody,
    fun _ => ?enClose, fun _ => ?deStep, fun he => ?deBody, fun _ => ?deClose, fun _ => ?compress, fun _ => ?decompress, nofun⟩
  case fcScan => exact (opens _ (by exact h) rfl).behind rfl
  case hsWriteMagic => exact opens _ h rfl
  case hdReadMagic => exact opens _ h rfl
  case hdReadTree => exact (opens _ (by exact h) rfl).behind rfl
  case enBody => exact opens _ h rfl
  case enClose => exact (opens _ (by exact h) rfl).behind rfl
  case deStep => exact opens _ h rfl
  case deBody => exact (h.decodes (he trivial)).head _
  case deClose => exact (opens _ (by exact h) rfl).behind rfl
  case compress => exact ((((opens _ (by exact h) rfl).behind rfl).behind rfl).behind rfl).behind rfl
  case decompress => exact (opens _ (by exact h) rfl).behind rfl

theorem firstPrimitives_wellFormed (magic : Word) :
    ∀ q ∈ firstPrimitives magic, q.1.wellFormed = true ∧ ∀ x, q.1 ≠ .sreset x := by
  simp [firstPrimitives, Instr.wellFormed]

/-- The check of DE_STEP and DE_BODY (40_control.md rule R124). -/
theorem needDecode_holds (st : Status) : needDecode.holds st = true ↔ st.treeValid = true ∧ st.eofSeen = false := by
  simp [needDecode, Need.holds, Status.get]

/-- A command at ports that answer nothing waits on its first primitive (20_memory.md rules R64 to R68). -/
theorem exec_firstPrimitive {i : Instr} {p : Prim} {s : State} (hm : (i, p) ∈ firstPrimitives s.magic) (h : s.idle)
    (hc : s.ports.credit = some 0) (hn : (needOf i).holds s.status = true) :
    ∃ t, exec i s = .next t ∧ t.status.busy = true ∧ t.seq.pending = some p ∧ t.ports.credit = some 0 := by
  obtain ⟨hw, hne⟩ := firstPrimitives_wellFormed _ _ hm
  rw [exec_eq i hne, runCommand_runs h.accepts hw hn]
  refine (firstPrimitives_heldAt (z := s.accept (encode i)) ⟨rfl, hc⟩ _ hm ?_).finish
  rintro rfl
  exact ((needDecode_holds s.status).1 hn).2

/-! ### DE_STEP on a source with nothing to read -/

/-- DE_STEP on a source with neither a bit nor its end waits on `bi_read(1)` (20_memory.md rule R67, 46_decoder.md rule R260). -/
theorem exec_deStep_waits {s : State} (h : s.idle) (hr : s.portsReady) (ht : s.status.treeValid = true)
    (he : s.status.eofSeen = false) (hl : s.ports.bi.bits = []) (hend : s.ports.bi.ended = false) :
    exec .deStep s = .next ((s.accept (encode .deStep)).waitOn (.biRead 1) [.deStep]) := by
  refine runCommand_holds h rfl ((needDecode_holds s.status).2 ⟨ht, he⟩) ?_
  have hshort : (s.accept (encode .deStep)).ports.bi.bits.length < 1 := by
    show s.ports.bi.bits.length < 1
    simp [hl]
  rw [runTasks_one, runTask, deStepBody]
  exact port_biRead_wait (s := s.accept (encode .deStep)) hr hshort hend _ _

/-- Settles O47: what a held command keeps and does later by the lemmas on `exec_resume`, its first primitive by
`exec_firstPrimitive`, and DE_STEP's wait by `exec_deStep_waits`. -/
theorem heldCommandResumes : Obligations.HeldCommandResumes := by
  unfold Obligations.HeldCommandResumes
  refine ⟨fun i s t h hx hb => ?_, fun s i p hm h hc h₁ h₂ => ?_, fun s h hr ht he hl hend => ?_⟩
  · have hdone := (flagsOk_kept.exec i h.flagsOk hx).2.1 hb
    exact ⟨hdone, exec_held_pending h hx hb, exec_held_step h hx hb, fun c d hc ht => exec_held_credit h hx hb hc ht d,
      fun n bits ended hp he => exec_held_bits h hx hb hp he bits ended,
      fun bytes ended hp he hl => exec_held_bytes h hx hb hp he hl bytes ended⟩
  · exact exec_firstPrimitive hm h hc ((needOf_holds i s.status).2 ⟨h₁, h₂⟩)
  · have hx := exec_deStep_waits h hr ht he hl hend
    refine ⟨_, hx, rfl, rfl, rfl, rfl, rfl, rfl, rfl, exec_held_step h hx rfl, fun bits ended _ => ?_⟩
    rw [exec_held_bits h hx rfl rfl hend, hl, List.nil_append]

end Sys2Proof.Machine


/-! ## Command words and headers (30_encoding.md) -/

namespace Sys2Proof.Machine

/-! ### Decoding -/

/-- The opcode map gives a well-formed command back from its two fields. -/
theorem decodeFields_encoded {i : Instr} (h : i.wellFormed = true) : decodeFields i.opcode i.operand = .ok i := by
  cases i with
  | fcAdd b | enSymbol b => exact formB_ok b _
  | fcRead v | cgLookup v => exact formS_ok h _
  | tbNodeRead n => exact formN_ok n _
  | _ => rfl

/-- Settles O2: the word's fields are the command's opcode and operand (`Laws.EncodedFields.all`), and the form that the opcode
names reads the operand back. -/
theorem decodeOfEncode : Obligations.DecodeOfEncode := by
  unfold Obligations.DecodeOfEncode
  intro i h
  obtain ⟨hop, hx⟩ := Laws.EncodedFields.all i
  rw [decode, hop, hx]
  exact decodeFields_encoded h

/-- Settles O3: a command has the fields it was decoded from (`decodeFields_inv`), and its word is those fields side by side. -/
theorem encodeOfDecode : Obligations.EncodeOfDecode := by
  unfold Obligations.EncodeOfDecode
  intro w i h
  obtain ⟨hw, hop, hx⟩ := decodeFields_inv h
  exact ⟨hw, by rw [encode, BitVec.eq_of_toNat_eq hop, hx, opcodeOf_operandOf]⟩

/-! ### The rows of the opcode map -/

/-- What an operand form asks of the operand (30_encoding.md rules R91, R93): the bits that are reserved, and whether the
value is a symbol. -/
structure OperandRule where
  reserved : BitVec 24
  symbol : Bool

/-- The operand has no reserved bit set, and no symbol above 256. -/
def OperandRule.Admits (r : OperandRule) (x : BitVec 24) : Prop :=
  x &&& r.reserved = 0 ∧ (r.symbol = true → (x.extractLsb' 0 9).toNat ≤ 256)

/-- The rule of an opcode's form: forms B, S and N, SRESET's ignored operand, and form Z for all others. -/
def operandRule (op : Byte) : OperandRule :=
  match op.toNat with
  | 0x01 => ⟨0, false⟩
  | 0x11 | 0x50 => ⟨0xFFFF00, false⟩
  | 0x13 | 0x31 => ⟨0xFFFE00, true⟩
  | 0x23 => ⟨0xFFFC00, false⟩
  | _ => ⟨0xFFFFFF, false⟩

/-- The row of an opcode: its match, its mask, and whether its operand is a symbol. -/
def opcodeRow (op : Byte) : Word × Word × Bool := (op ++ 0#24, 0xFF#8 ++ (operandRule op).reserved, (operandRule op).symbol)

theorem opcodeRows_eq : opcodeRows = opcodeMap.map opcodeRow := by decide

/-- The bits from `k` up are 0 exactly if the mask of those bits finds none. -/
theorem extractLsb'_eq_zero_iff {w k n : Nat} (x : BitVec w) (h : k + n = w) :
    x.extractLsb' k n = 0 ↔ x &&& (BitVec.allOnes w <<< k) = 0 := by
  constructor <;> intro e <;> refine BitVec.eq_of_getLsbD_eq fun j hj => ?_
  · by_cases hk : j < k
    · simp [hk]
    · have hb : x.getLsbD j = false := by
        simpa [show j - k < n by omega, show k + (j - k) = j by omega] using congrArg (BitVec.getLsbD · (j - k)) e
      simp [hb]
  · have hb := congrArg (BitVec.getLsbD · (k + j)) e
    simpa [hj, show k + j < w by omega] using hb

/-- `d` is what decoding an operand `x` under this rule comes to: a command where the rule admits `x`, and no illegal opcode. -/
def OperandRule.Governs (r : OperandRule) (x : BitVec 24) (d : Except DecodeError Instr) : Prop :=
  ((∃ i, d = .ok i) ↔ r.Admits x) ∧ d ≠ .error .illegalOpcode

theorem OperandRule.admits_value (m x : BitVec 24) : (OperandRule.mk m false).Admits x ↔ x &&& m = 0 := and_iff_left nofun

theorem OperandRule.governs_check {r : OperandRule} {x : BitVec 24} {p : Prop} [Decidable p] (h : p ↔ r.Admits x) (i : Instr) :
    r.Governs x (if p then .ok i else .error .illegalOperand) := by
  split
  case isTrue hp => exact ⟨iff_of_true ⟨i, rfl⟩ (h.1 hp), nofun⟩
  case isFalse hp => exact ⟨iff_of_false nofun (mt h.2 hp), nofun⟩

theorem formZ_governed (x : BitVec 24) (i : Instr) : (OperandRule.mk 0xFFFFFF false).Governs x (formZ x i) := by
  refine OperandRule.governs_check ?_ i
  rw [OperandRule.admits_value, show x &&& 0xFFFFFF = x from BitVec.and_allOnes]

theorem formB_governed (x : BitVec 24) (f : Byte → Instr) : (OperandRule.mk 0xFFFF00 false).Governs x (formB x f) := by
  refine OperandRule.governs_check ?_ _
  rw [OperandRule.admits_value]
  exact extractLsb'_eq_zero_iff x rfl

theorem formS_governed (x : BitVec 24) (f : Symbol → Instr) : (OperandRule.mk 0xFFFE00 true).Governs x (formS x f) := by
  refine OperandRule.governs_check ?_ _
  rw [Bool.and_eq_true, decide_eq_true_eq, symbolLegal, decide_eq_true_eq]
  exact and_congr (extractLsb'_eq_zero_iff x rfl) (imp_iff_right rfl).symm

theorem formN_governed (x : BitVec 24) (f : NodeIdx → Instr) : (OperandRule.mk 0xFFFC00 false).Governs x (formN x f) := by
  refine OperandRule.governs_check ?_ _
  rw [OperandRule.admits_value]
  exact extractLsb'_eq_zero_iff x rfl

/-- SRESET's operand is ignored (30_encoding.md rule R92). -/
theorem sreset_governed (x : BitVec 24) : (OperandRule.mk 0 false).Governs x (.ok (.sreset x)) :=
  ⟨iff_of_true ⟨_, rfl⟩ ⟨BitVec.and_zero, nofun⟩, nofun⟩

/-- An opcode of the map is legal, and its form's rule decides what becomes of the operand. -/
theorem decodeFields_governed (x : BitVec 24) : ∀ op ∈ opcodeMap, (operandRule op).Governs x (decodeFields op x) := by
  have z := formZ_governed x
  simp only [opcodeMap, List.forall_mem_cons]
  exact ⟨z .nop, sreset_governed x, z .fcInit, formB_governed x .fcAdd, z .fcScan, formS_governed x .fcRead, z .tbLoad,
    z .tbStep, z .tbBuild, formN_governed x .tbNodeRead, z .cgGen, formS_governed x .cgLookup, z .hsWriteMagic,
    z .hsWriteTree, z .hdReadMagic, z .hdReadTree, formB_governed x .enSymbol, z .enEof, z .enBody, z .enClose, z .deStep,
    z .deBody, z .deClose, z .compress, z .decompress, nofun⟩

/-- Any other opcode is illegal (30_encoding.md rule R96). -/
theorem decodeFields_unmapped {op : Byte} (h : op ∉ opcodeMap) (x : BitVec 24) :
    decodeFields op x = .error .illegalOpcode := by
  rw [← List.mem_map_of_injective BitVec.toNat_injective] at h
  unfold decodeFields
  split
  case h_26 => rfl
  all_goals next hop => exact absurd (by rw [hop]; decide) h

theorem decode_illegalOpcode_iff (w : Word) : decode w = .error .illegalOpcode ↔ opcodeOf w ∉ opcodeMap :=
  ⟨fun h hm => (decodeFields_governed _ _ hm).2 h, fun h => decodeFields_unmapped h _⟩

theorem decode_ok_iff (w : Word) :
    (∃ i, decode w = .ok i) ↔ opcodeOf w ∈ opcodeMap ∧ (operandRule (opcodeOf w)).Admits (operandOf w) := by
  by_cases hm : opcodeOf w ∈ opcodeMap
  · rw [and_iff_right hm]
    exact (decodeFields_governed _ _ hm).1
  · simp [hm, (decode_illegalOpcode_iff w).2 hm]

/-- A word matches a row exactly if it has the row's opcode and no reserved bit set. -/
theorem matches_opcodeRow (w : Word) (op : Byte) :
    w &&& (opcodeRow op).2.1 = (opcodeRow op).1 ↔ opcodeOf w = op ∧ operandOf w &&& (operandRule op).reserved = 0 := by
  have hw : w &&& (opcodeRow op).2.1 = opcodeOf w ++ (operandOf w &&& (operandRule op).reserved) := by
    conv_lhs => rw [← opcodeOf_operandOf w]
    rw [opcodeRow, BitVec.and_append, show opcodeOf w &&& 0xFF#8 = opcodeOf w from BitVec.and_allOnes]
  rw [hw]
  constructor
  · intro h
    exact ⟨by simpa [opcodeRow, opcodeOf_append] using congrArg opcodeOf h,
      by simpa [opcodeRow, operandOf_append] using congrArg operandOf h⟩
  · rintro ⟨rfl, hx⟩
    rw [hx]; rfl

/-- Settles O4: the rows are those of the opcodes (`opcodeRows_eq`), a match is an opcode and an operand without reserved bits
(`matches_opcodeRow`), and that is when a word decodes (`decode_ok_iff`). -/
theorem decodeFollowsOpcodeMap : Obligations.DecodeFollowsOpcodeMap := by
  unfold Obligations.DecodeFollowsOpcodeMap
  refine fun w => ⟨?_, decode_illegalOpcode_iff w⟩
  have hsym : w.extractLsb' 0 9 = (operandOf w).extractLsb' 0 9 := (BitVec.extractLsb'_extractLsb'_of_le (by decide)).symm
  rw [decode_ok_iff, opcodeRows_eq, hsym]
  constructor
  · exact fun ⟨hm, hres, hs⟩ => ⟨_, List.mem_map_of_mem hm, (matches_opcodeRow w _).2 ⟨rfl, hres⟩, hs⟩
  · rintro ⟨r, hr, hmatch, hs⟩
    obtain ⟨op, hm, rfl⟩ := List.mem_map.1 hr
    obtain ⟨rfl, hres⟩ := (matches_opcodeRow w op).1 hmatch
    exact ⟨hm, hres, hs⟩

/-! ### The length of a header -/

/-- Settles O36: both lengths of a full tree by induction on it (`Shape.leaves_length`, `Shape.header_length`); a valid one is
internal at its root and has at most 256 internal nodes. -/
theorem headerLength : Obligations.HeaderLength := by
  unfold Obligations.HeaderLength
  intro t
  have hleaves := t.leaves_length
  have hheader := t.header_length
  refine ⟨by omega, by omega, fun hv => ?_⟩
  simp only [Shape.valid, Bool.and_eq_true, decide_eq_true_eq] at hv
  obtain ⟨⟨hroot, hmax⟩, -⟩ := hv
  have hpos : 1 ≤ t.internals := by
    cases t with
    | leaf v => cases hroot
    | node l r => exact Nat.le_add_left 1 _
  have hmax : t.internals ≤ 256 := hmax
  omega

/-! ### Words that are no command -/

/-- The cause of an illegal word (30_encoding.md rules R93, R96). -/
def illegalCause : DecodeError → Cause
  | .illegalOpcode => .illegalOpcode
  | .illegalOperand => .illegalOperand

/-- An accepted illegal word enters its error, with the word as the found word (40_control.md rule R123). -/
theorem State.illegalCommand_accepted {s : State} (h : s.accepts = true) (w : Word) (e : DecodeError) :
    s.illegalCommand w e = (s.accept w).enterError (illegalCause e) 0 w := by
  cases e <;> rw [State.illegalCommand, if_pos h] <;> rfl

/-- A CMD write of an illegal word to an idle engine whose ports answer (40_control.md rule R123). -/
theorem issue_illegal {s : State} (h : s.idle) (hr : s.portsReady) {w : Word} {e : DecodeError} (hd : decode w = .error e) :
    ∃ t, issue w s = .next t ∧ s.failsTo t (opcodeOf w) (opcodeOf w) (illegalCause e) 0 w := by
  refine ⟨s.illegalCommand w e, by rw [issue, hd], ?_⟩
  rw [State.illegalCommand_accepted h.accepts]
  exact State.failsTo_accept h hr w _ 0 w

/-- Settles O1: the words by evaluation, and the errors of the three illegal words by `issue_illegal`. -/
theorem specWordsDecode : Obligations.SpecWordsDecode := by
  unfold Obligations.SpecWordsDecode
  refine ⟨⟨rfl, rfl⟩, ⟨rfl, rfl⟩, ⟨rfl, rfl⟩, ⟨rfl, rfl⟩, fun s h hr => ⟨?_, ?_, ?_⟩⟩
  · exact issue_illegal h hr (w := 0x11000141) (e := .illegalOperand) rfl
  · exact issue_illegal h hr (w := 0x31000101) (e := .illegalOperand) rfl
  · exact issue_illegal h hr (w := 0x02000000) (e := .illegalOpcode) rfl

end Sys2Proof.Machine

/-! ## The command protocol (40_control.md) -/

namespace Sys2Proof.Machine

/-! ### Issuing a command -/

theorem issue_command {w : Word} {i : Instr} (h : decode w = .ok i) (s : State) : issue w s = exec i s := by
  simp only [issue, h]

theorem issue_illegalWord {w : Word} {e : DecodeError} (h : decode w = .error e) (s : State) :
    issue w s = .next (s.illegalCommand w e) := by
  simp only [issue, h]

/-- A step on a CMD write issues its word (40_control.md rule R120). -/
theorem step_commandWrite {s : State} {w : Word} {rest : List Input} (h : s.inputs = .busWrite 0 4 w :: rest) :
    step s = issue w { s with inputs := rest } := by
  rw [step_of_inputs h, react_write w rfl]
  rfl

/-- A fetched word is the next CMD write. -/
theorem State.withFetchWord_inputs (s : State) (w : Word) :
    (s.withFetchWord 32 w.toNat).inputs = .busWrite 0 4 w :: s.inputs := by
  rw [State.withFetchWord, Nat.mod_eq_of_lt w.isLt, BitVec.ofNat_toNat, BitVec.setWidth_eq]

/-- Settles O5: a step on a CMD write is `issue` of its word (`step_commandWrite`), which goes by what the word decodes to. -/
theorem stepRunsCommandWord : Obligations.StepRunsCommandWord := by
  unfold Obligations.StepRunsCommandWord
  refine fun s w rest => ⟨fun hi => ⟨fun i hd => ?_, fun e hd => ?_⟩, fun i hd => ?_⟩
  · rw [step_commandWrite hi, issue_command hd]
  · rw [step_commandWrite hi, issue_illegalWord hd]
  · rw [step_commandWrite (s.withFetchWord_inputs w), issue_command hd]
    rfl

/-! ### Completion -/

/-- Acceptance and completion with nothing between them (40_control.md rules R122, R127, R128). -/
theorem State.complete_accept {s : State} (h : s.seq = {}) (w : Word) :
    (s.accept w).complete = { s with status := s.status.ended } :=
  calc (s.accept w).complete
      = (s.setStatus s.status.ended).setSeq {} := rfl
    _ = (s.setStatus s.status.ended).setSeq s.seq := by rw [h]
    _ = { s with status := s.status.ended } := rfl

/-- Settles O21: NOP asks for no flag and has an empty body, so it is acceptance and completion (`State.complete_accept`). -/
theorem nopCompletes : Obligations.NopCompletes := by
  unfold Obligations.NopCompletes
  intro s h
  have hseq : s.seq = {} := h.2.2
  rw [← State.complete_accept hseq (encode .nop)]
  exact runCommand_done h rfl rfl (runTasks_nil _)

/-! ### Illegal words -/

/-- A word with an opcode of the map that matches no row, or that names a symbol above 256, has an illegal operand (30_encoding.md
rule R93). -/
theorem decode_illegalOperand {w : Word} (hm : opcodeOf w ∈ opcodeMap)
    (hr : ∀ r ∈ opcodeRows, w &&& r.2.1 = r.1 → r.2.2 = true ∧ 256 < (w.extractLsb' 0 9).toNat) :
    decode w = .error .illegalOperand := by
  obtain ⟨hrow, hop⟩ := decodeFollowsOpcodeMap w
  cases hd : decode w with
  | ok i =>
    obtain ⟨r, hmem, hmatch, hs⟩ := hrow.1 ⟨i, hd⟩
    obtain ⟨hsym, hlt⟩ := hr r hmem hmatch
    exact absurd (hs hsym) (Nat.not_le.2 hlt)
  | error e =>
    cases e with
    | illegalOpcode => exact absurd hm (hop.1 hd)
    | illegalOperand => rfl

/-- Settles O8: the opcode map tells which of the two errors the word decodes to, and `issue_illegal` raises it. -/
theorem illegalWordsRaise : Obligations.IllegalWordsRaise := by
  unfold Obligations.IllegalWordsRaise
  exact fun s w h hp => ⟨fun hm => issue_illegal h hp ((decode_illegalOpcode_iff w).2 hm),
    fun hm hr => issue_illegal h hp (decode_illegalOperand hm hr)⟩

/-! ### How an accepted command ends or waits -/

/-- A command runs and has not raised an error: STATUS as acceptance left it, but for the flags of STATUS[10:4] (40_control.md
rule R122). -/
def State.underWay (s : State) : Prop :=
  s.status.busy = true ∧ s.status.done = false ∧ s.status.err = false ∧ s.status.reject = false

theorem State.underWay_accept {s : State} (h : s.accepts = true) (w : Word) : (s.accept w).underWay :=
  ⟨rfl, rfl, State.noError_of_accepts (s := s) h, rfl⟩

/-- The end of a body that runs: completion, a hold, or error entry with a cause of one of its parts (40_control.md rules R126,
R127). -/
theorem finish_cases {ts : List Task} {z t : State} (hz : z.underWay) (h : (runTasks ts z).finish = .next t) :
    (∃ y : State, y.underWay ∧ t = y.complete) ∨ t.underWay ∨
    ∃ (y : State) (c : Cause) (e f : Word), y.underWay ∧ (∃ u ∈ ts, c ∈ u.causes) ∧ t = y.enterError c e f := by
  have hk := kept_running.tasks ts z (fun _ _ _ => rfl) hz
  cases hr : runTasks ts z with
  | ok y => rw [hr] at h hk; cases h; exact .inl ⟨y, hk, rfl⟩
  | hold y => rw [hr] at h hk; cases h; exact .inr (.inl hk)
  | raise c e f y => rw [hr] at h hk; cases h; exact .inr (.inr ⟨y, c, e, f, hk, runTasks_raise_causes ts hr, rfl⟩)
  | fault g => rw [hr] at h; cases h

/-- The error state of 60_exceptions.md rule R303: its entry is over, or a port holds one of the cleanup primitives (20_memory.md rule
R66, assumption log 13). -/
def State.inError (t : State) : Prop :=
  t.status.done = false ∧ t.status.err = true ∧ t.status.flagWord = 0 ∧
    ((t.status.busy = false ∧ t.seq = {}) ∨
      (t.status.busy = true ∧ ∃ p ∈ cleanupPrims, t.seq.pending = some p ∧ t.ports.answer p = none))

/-- Error entry of a running command leads into the error state. -/
theorem State.enterError_inError {s : State} (h : s.status.busy = true) (c : Cause) (e f : Word) :
    (s.enterError c e f).inError := by
  have hflags := s.status.failed_flagWord
  obtain ⟨q, heq | ⟨p, rest, ⟨done, hp⟩, hnone, heq⟩⟩ := (s.recordError c e f).cleanUp_cases cleanupPrims <;>
    rw [State.enterError, heq]
  · exact ⟨rfl, rfl, Status.flagWord_eq_zero_of_get hflags rfl, .inl ⟨rfl, rfl⟩⟩
  · exact ⟨rfl, rfl, hflags, .inr ⟨h, p, by simp [hp], rfl, hnone⟩⟩

/-- Settles O7: an accepted word enters its error at once or runs a body (`issue_cases`), which ends in one of three ways
(`finish_cases`); error entry leads into the error state. -/
theorem acceptedCommandOutcome : Obligations.AcceptedCommandOutcome := by
  unfold Obligations.AcceptedCommandOutcome
  intro s t w hb he hw h
  have ha : s.accepts = true := by simp [State.accepts, hb, he]
  have hstart := State.underWay_accept ha w
  refine ⟨?_, ?_⟩
  · simpa [ha] using issue_reject_iff h
  rcases issue_cases h with ⟨ho, -⟩ | ⟨-, ha', -⟩ | ⟨-, -, c, e, f, -, rfl⟩ | ⟨-, -, i, -, -, hf⟩
  · exact absurd ho hw
  · exact absurd (ha.symm.trans ha') (by decide)
  · exact .inr (.inr (State.enterError_inError hstart.1 c e f))
  · rcases finish_cases hstart hf with ⟨y, ⟨-, -, hy, -⟩, rfl⟩ | ⟨hbusy, hdone, herr, -⟩ | ⟨y, c, e, f, ⟨hy, -⟩, -, rfl⟩
    · exact .inl ⟨rfl, rfl, hy, rfl⟩
    · exact .inr (.inl ⟨hdone, hbusy, herr⟩)
    · exact .inr (.inr (State.enterError_inError hy c e f))

/-! ### Prerequisites -/

/-- SRESET has no prerequisite (40_control.md rule R124). -/
theorem ne_sreset_of_need {i : Instr} {st : Status} (h : (needOf i).holds st = false) (x : BitVec 24) : i ≠ .sreset x := by
  rintro rfl
  cases h

/-- A command without its flags raises SEQ_ERROR, with the two masks and the flags at acceptance. -/
theorem exec_sequence {i : Instr} {s : State} (h : s.idle) (hr : s.portsReady) (hw : i.wellFormed = true)
    (hn : (needOf i).holds s.status = false) :
    ∃ t, exec i s = .next t ∧ s.failsTo t i.opcode i.opcode .seqError (needOf i).word s.status.flagWord := by
  refine ⟨_, (exec_eq i (ne_sreset_of_need hn) s).trans (runCommand_sequence h.accepts hw hn), ?_⟩
  simpa using State.failsTo_accept h hr (encode i) .seqError (needOf i).word s.status.flagWord

theorem State.enterError_cause (s : State) (c : Cause) (e f : Word) : (s.enterError c e f).errCause.cause = c := by
  obtain ⟨-, h⟩ := s.enterError_record c e f
  rw [h]

/-- A command with its flags raises no SEQ_ERROR, neither at its check nor in its body. -/
theorem exec_noSequence {i : Instr} {s t : State} (h : s.idle) (hw : i.wellFormed = true)
    (hn : (needOf i).holds s.status = true) (hx : exec i s = .next t) (he : t.status.err = true) :
    t.errCause.cause ≠ .seqError := by
  by_cases hi : ∃ x, i = .sreset x
  · obtain ⟨x, rfl⟩ := hi
    cases hx
    exact absurd he nofun
  rw [exec_eq i fun x hx => hi ⟨x, hx⟩, runCommand_runs h.accepts hw hn] at hx
  rcases finish_cases (State.underWay_accept h.accepts _) hx with
    ⟨y, ⟨-, -, hy, -⟩, rfl⟩ | ⟨-, -, hy, -⟩ | ⟨y, c, e, f, -, ⟨u, hu, hc⟩, rfl⟩
  · exact absurd (hy.symm.trans he) (by decide)
  · exact absurd (hy.symm.trans he) (by decide)
  · rw [State.enterError_cause]
    rintro rfl
    exact body_noSequence i u hu hc

/-- Settles O9: the two masks are the command's check (`needOf_holds`, `needOf_word`), which alone raises SEQ_ERROR. -/
theorem prerequisiteCheck : Obligations.PrerequisiteCheck := by
  unfold Obligations.PrerequisiteCheck
  refine fun i s h hw => ⟨fun hr hn => ?_, fun h₁ h₂ t hx he => ?_⟩
  · rw [← needOf_holds, Bool.not_eq_true] at hn
    rw [← needOf_word]
    exact exec_sequence h hr hw hn
  · exact exec_noSequence h hw ((needOf_holds i s.status).2 ⟨h₁, h₂⟩) hx he

/-! ### SRESET -/

/-- What SRESET leaves, by the fields that are not at their reset values (40_control.md rule R131). -/
theorem State.softReset_eq (s : State) : s.softReset = { State.reset with
    status := { done := true }
    ctrl := s.ctrl
    magic := s.magic
    ports := s.abandon.ports.cleanup
    inputs := s.inputs
    readData := s.readData
    draws := s.abandon.draws } := rfl

theorem State.softReset_noStream (s : State) : s.softReset.noStream := s.abandon.ports.cleanup_closed

/-- DONE is 1 and ERR is 0 after SRESET (60_exceptions.md rule R320). -/
theorem State.softReset_irq (s : State) : s.softReset.irq = s.ctrl.ieDone := by
  simp [State.irq, Status.softReset]

/-- Settles O14: SRESET is the soft reset in every state; the ports it cleans up are those that an abandoned command leaves
(`State.abandon_ports`). -/
theorem softResetState : Obligations.SoftResetState := by
  unfold Obligations.SoftResetState
  exact fun x s => ⟨s.softReset, s.abandon.ports, rfl, s.softReset_eq, s.softReset_noStream, s.softReset_irq,
    fun hb => congrArg State.ports (State.abandon_idle hb), s.abandon_ports⟩

end Sys2Proof.Machine

/-! ## The frequency counter (41_frequency.md) -/

namespace Sys2Proof.Machine

/-! ### The counters -/

/-- The counters stay a table through every part of a step; errors and resets clear FREQ_VALID (60_exceptions.md rule R303,
40_control.md rule R131). -/
theorem freqOk_kept : StepKept State.freqOk State.freqOk State.freqOk where
  body := kept_freq
  reject := fun _ h _ => h
  accept := fun _ _ h _ => h
  resume := fun _ _ h _ _ _ => h
  resumeError := fun _ h _ _ => h
  complete := fun _ h => h
  hold := fun _ h => h
  record := fun _ _ _ _ _ => nofun
  errorPorts := fun _ _ h => h
  errorHold := fun _ _ _ h => h
  errorEnd := fun _ h => h
  softReset := fun _ _ => nofun
  hardReset := fun _ _ => nofun
  ctrl := fun _ _ h => h
  readData := fun _ _ _ h => h
  inputs := fun _ _ h => h
  ports := fun _ _ h => h

/-- No count of a table exceeds TOTAL (41_frequency.md rule R143). -/
theorem FreqOk.mem_le {freq : List Word} {total : Word} (h : FreqOk freq total) {c : Word} (hc : c ∈ freq) :
    c.toNat ≤ total.toNat := by
  obtain ⟨i, hi, rfl⟩ := List.mem_iff_getElem.1 hc
  simpa only [List.getD_eq_getElem _ _ hi] using h.count_le i

/-- Settles O55: FC_INIT's table sums to TOTAL, an increment of a count goes with one of TOTAL (`kept_freq`), and nothing else in a
step writes either while FREQ_VALID = 1. -/
theorem countersKept : Obligations.CountersKept := by
  unfold Obligations.CountersKept
  exact ⟨fun s t h e => freqOk_kept.step h e, fun s h hv c hc => (h hv).mem_le hc⟩

/-- A counter of a legal symbol holds a value (41_frequency.md rule R146). -/
theorem FreqOk.readFreq_symbol {m : Memory} {total : Word} (h : FreqOk m.freq total) {v : Symbol} (hv : v.toNat ≤ 256) :
    m.readFreq v = .ok (m.freq.getD v.toNat 0) := by
  have hlt : v.toNat < m.freq.length := by rw [h.1, Config.numSymbols]; omega
  simp only [Memory.readFreq, List.getElem?_eq_getElem hlt, List.getD_eq_getElem _ _ hlt]

/-- PSEUDO_EOF's count is 1 (41_frequency.md rule R141). -/
theorem FreqOk.getD_pseudoEof {freq : List Word} {total : Word} (h : FreqOk freq total) : freq.getD 256 0 = 1 := by
  obtain ⟨-, heof, -⟩ := h
  rw [List.getD_eq_getElem?_getD, heof, Option.getD_some]

/-! ### The commands -/

/-- The check of FC_ADD, FC_SCAN and FC_READ (40_control.md rule R124). -/
theorem needFreq_holds (st : Status) : needFreq.holds st = true ↔ st.freqValid = true := by
  simp [needFreq, Need.holds, Status.get]

/-- A command whose body ends completes in a state `m` given by its fields, which has the idle sequencer of the state before
(40_control.md rule R127). -/
theorem runCommand_completes {i : Instr} {need : Need} {body : List Task} {s t m : State} (h : s.idle)
    (hw : i.wellFormed = true) (hn : need.holds s.status = true) (e : runTasks body (s.accept (encode i)) = .ok t)
    (hseq : m.seq = s.seq) (hm : t.complete = m.setSeq {}) : runCommand i need body s = .next m := by
  have hidle : m.setSeq {} = m := by rw [← h.2.2, ← hseq]; rfl
  rw [runCommand_done h hw hn e, hm, hidle]

/-- Settles O22: FC_INIT asks for no flag, and its body writes the initial table. -/
theorem fcInitCompletes : Obligations.FcInitCompletes := by
  unfold Obligations.FcInitCompletes
  exact fun s h => runCommand_completes h rfl rfl (fcInit_run _) rfl rfl

/-- FC_ADD's body where TOTAL can grow (41_frequency.md rule R142). -/
theorem fcAdd_run {s : State} (hf : FreqOk s.mem.freq s.total) (b : Byte) (ht : s.total ≠ 0xFFFFFFFF) :
    runTasks [.fcAdd b] s =
      .ok ((((s.setMem { s.mem with freq := s.mem.freq.set b.toNat (s.mem.freq.getD b.toNat 0 + 1) }).setTotal
        (s.total + 1)).invalidateTree).setResult (s.mem.freq.getD b.toNat 0 + 1)) :=
  runTasks_single (by rw [runTask, fcAddBody, countByte_ok hf b ht])

/-- FC_ADD's body where TOTAL cannot grow (41_frequency.md rule R142). -/
theorem fcAdd_overflow {s : State} (b : Byte) (ht : s.total = 0xFFFFFFFF) :
    runTasks [.fcAdd b] s = .raise .cntOverflow 0xFFFFFFFF (b.setWidth 32) s :=
  runTasks_single (by rw [runTask, fcAddBody, countByte_overflow b ht])

/-- FC_READ's body (41_frequency.md rule R146). -/
theorem fcRead_run {s : State} (hf : FreqOk s.mem.freq s.total) {v : Symbol} (hv : v.toNat ≤ 256) :
    runTasks [.fcRead v] s = .ok (s.setResult (s.mem.freq.getD v.toNat 0)) :=
  runTasks_single (by rw [runTask, fcReadBody, hf.readFreq_symbol hv, Flow.ofExcept_ok])

/-- Settles O23: the body counts the byte (`fcAdd_run`) or raises CNT_OVERFLOW with nothing changed (`fcAdd_overflow`). -/
theorem fcAddCounts : Obligations.FcAddCounts := by
  unfold Obligations.FcAddCounts
  intro b s h hv hf
  have hn := (needFreq_holds _).2 hv
  refine ⟨fun ht => ?_, fun hr ht => ?_⟩
  · exact runCommand_completes h rfl hn (fcAdd_run (s := s.accept (encode (.fcAdd b))) (hf hv) b ht) rfl rfl
  · refine ⟨_, runCommand_raises h rfl hn (fcAdd_overflow b ht), ?_⟩
    have hfails := State.failsTo_accept h hr (encode (.fcAdd b)) .cntOverflow 0xFFFFFFFF (b.setWidth 32)
    rwa [opcodeOf_encode] at hfails

/-- Settles O24: the scan counts every byte up to EOS (`fcScan_run`), or stops at the byte that TOTAL cannot take
(`fcScan_overflow`). -/
theorem fcScanCounts : Obligations.FcScanCounts := by
  unfold Obligations.FcScanCounts
  intro s h hv hf hr he
  have hn := (needFreq_holds _).2 hv
  refine ⟨fun ht => ?_, fun pre b post hl ht => ?_⟩
  · obtain ⟨hrun, -⟩ := fcScan_run (s := s.accept (encode .fcScan)) hr rfl he (hf hv) ht
    exact ⟨countAll s.mem.freq s.ports.ib.left, counted_countAll _ _, runCommand_completes h rfl hn hrun rfl rfl⟩
  · have hrun := fcScan_overflow (s := s.accept (encode .fcScan)) hr hl (hf hv) ht
    refine ⟨countAll s.mem.freq pre, _, counted_countAll _ _, runCommand_raises h rfl hn hrun, ?_⟩
    refine State.failsTo_enterError .cntOverflow _ _ ?_ hr rfl (opcodeOf_encode _) (opcodeOf_encode _) h.2.2
    apply State.ext <;> simp [State.scannedTo]

/-- Settles O25: a legal symbol's counter holds a value (`FreqOk.readFreq_symbol`), and PSEUDO_EOF's is 1. -/
theorem fcReadReturnsCount : Obligations.FcReadReturnsCount := by
  unfold Obligations.FcReadReturnsCount
  intro v s h hv hf hlegal
  refine ⟨?_, ?_⟩
  · have hw : (Instr.fcRead v).wellFormed = true := by simpa [Instr.wellFormed, symbolLegal] using hlegal
    have hn := (needFreq_holds _).2 hv
    have hrun := fcRead_run (s := s.accept (encode (.fcRead v))) (hf hv) hlegal
    exact runCommand_completes h hw hn hrun rfl rfl
  · rintro rfl
    exact (hf hv).getD_pseudoEof

end Sys2Proof.Machine

/-! ## The tree builder (42_tree_builder.md) -/

namespace Sys2Proof.Machine

/-! ### Numbers as the host reads them -/

theorem Memory.heapSizeWord_eq {m : Memory} (h : m.heap.length ≤ Config.heapCap) :
    m.heapSizeWord = BitVec.ofNat 32 m.heap.length :=
  BitVec.setWidth_ofNat_of_le_of_lt (by decide) (h.trans_lt (by decide))

theorem Memory.nodeCountWord_eq {m : Memory} (h : m.nodes.length ≤ Config.maxNodes) :
    m.nodeCountWord = BitVec.ofNat 32 m.nodes.length :=
  BitVec.setWidth_ofNat_of_le_of_lt (by decide) (h.trans_lt (by decide))

/-! ### Reading a node -/

/-- TB_NODE_READ's body on an allocated node (rule R170). -/
theorem nodeRead_run {n : NodeIdx} {s : State} {nd : Node} (h : s.mem.nodes[n.toNat]? = some nd) :
    runTasks [.nodeRead n] s = .ok ((s.setNodeOut nd.word).setResult nd.weight) := by
  have hlegal : nodeIndexLegal n s.mem.nodes.length = true := decide_eq_true (List.getElem?_eq_some_iff.1 h).1
  have hread : s.mem.readNode n = .ok nd := by rw [Memory.readNode, h]
  exact runTasks_single (by rw [runTask, nodeReadBody, if_pos hlegal, hread, Flow.ofExcept_ok])

/-- TB_NODE_READ's body on an index that names no node (30_encoding.md rule R94). -/
theorem nodeRead_illegal {n : NodeIdx} {s : State} (h : s.mem.nodes.length ≤ n.toNat) :
    runTasks [.nodeRead n] s = .raise .illegalOperand s.mem.nodeCountWord (n.setWidth 32) s := by
  have hlegal : ¬ nodeIndexLegal n s.mem.nodes.length = true := by simpa [nodeIndexLegal] using h
  exact runTasks_single (by rw [runTask, nodeReadBody, if_neg hlegal])

/-- Settles O30: the operand check splits the two cases (`nodeRead_run`, `nodeRead_illegal`), and NODE_COUNT fits its word. -/
theorem tbNodeReadReturns : Obligations.TbNodeReadReturns := by
  unfold Obligations.TbNodeReadReturns
  intro n s h hwf
  refine ⟨fun nd hnd => ?_, fun hr hn => ?_⟩
  · exact runCommand_completes h rfl rfl (nodeRead_run (s := s.accept (encode (.tbNodeRead n))) hnd) rfl rfl
  · refine ⟨_, runCommand_raises h rfl rfl (nodeRead_illegal (s := s.accept (encode (.tbNodeRead n))) hn), ?_⟩
    obtain ⟨-, -, hnodes, -⟩ := (Memory.wf_iff _).1 hwf
    have hfails := State.failsTo_accept h hr (encode (.tbNodeRead n)) .illegalOperand
      (BitVec.ofNat 32 s.mem.nodes.length) (n.setWidth 32)
    rw [opcodeOf_encode] at hfails
    rw [← Memory.nodeCountWord_eq hnodes] at hfails ⊢
    exact hfails

/-! ### Loading the leaves -/

@[simp] theorem Memory.loaded_heap_length (m : Memory) : m.loaded.heap.length = (loadedLeaves m.freq).length := by
  simp [Memory.loaded, firstIndices]

/-- TB_LOAD's body on a table of counters (rules R164, R165). -/
theorem tbLoad_run {s : State} (h : FreqOk s.mem.freq s.total) :
    runTasks [.tbLoad] s = .ok (((s.setMem s.mem.loaded).setStatus
      { s.status.invalidateTree with heapLoaded := true }).setResult (BitVec.ofNat 32 (loadedLeaves s.mem.freq).length)) := by
  have hsize : s.mem.loaded.heapSizeWord = BitVec.ofNat 32 (loadedLeaves s.mem.freq).length := by
    rw [Memory.heapSizeWord_eq (by rw [Memory.loaded_heap_length]; exact (loadedLeaves_length h).2),
      Memory.loaded_heap_length]
  exact runTasks_single (by rw [runTask, tbLoadBody, Memory.load_eq h.1, Flow.ofExcept_ok, hsize])

/-- Settles O26: the loop over the symbols makes the loaded leaves (`Memory.load_eq`), and there are 2 to 257 of them. -/
theorem tbLoadMakesLeaves : Obligations.TbLoadMakesLeaves := by
  unfold Obligations.TbLoadMakesLeaves
  intro s h hv hf
  have hfreq := hf hv
  exact ⟨loadedLeaves_length hfreq, runCommand_completes h rfl ((needFreq_holds _).2 hv)
    (tbLoad_run (s := s.accept (encode .tbLoad)) hfreq) rfl rfl⟩

/-! ### One merge -/

/-- The check of TB_STEP (40_control.md rule R124). -/
theorem needHeap_holds (st : Status) : needHeap.holds st = true ↔ st.heapLoaded = true := by
  simp [needHeap, Need.holds, Status.get]

/-- The memories after the merge of `l` and `r` (rule R166). -/
def Memory.merged (m : Memory) (l r : NodeIdx) : Memory :=
  { m with
    nodes := m.nodes ++ [internalNode (m.weightOf l + m.weightOf r) l r]
    heap := (m.heap.erase l).erase r ++ [BitVec.ofNat 10 m.nodes.length] }

/-- A merge lowers HEAP_SIZE by one (rule R167). -/
theorem Memory.merged_heap_length {m : Memory} {l r : NodeIdx} (hl : l ∈ m.heap) (hr : r ∈ m.heap) (hne : r ≠ l) :
    (m.merged l r).heap.length + 1 = m.heap.length := by
  have hr' : r ∈ m.heap.erase l := (List.mem_erase_of_ne hne).2 hr
  calc (m.merged l r).heap.length + 1
      = ((m.heap.erase l).erase r).length + 1 + 1 := by simp [Memory.merged]
    _ = (m.heap.erase l).length + 1 := by rw [List.length_erase_add_one hr']
    _ = m.heap.length := List.length_erase_add_one hl

/-- The last merge leaves the new node alone in the queue. -/
theorem Memory.merged_heap_single {m : Memory} {l r : NodeIdx} (h : (m.merged l r).heap.length = 1) :
    (m.merged l r).heap = [BitVec.ofNat 10 m.nodes.length] := by
  have hnil : (m.heap.erase l).erase r = [] := List.length_eq_zero_iff.1 (by simpa [Memory.merged] using h)
  simp [Memory.merged, hnil]

/-- A queue part-way through a build merges its two smallest keys into a node whose index fits (rules R161, R166, R167). -/
theorem State.queueOk.merges {s : State} (hq : s.queueOk) (h : s.status.heapLoaded = true) :
    s.mem.nodes.length < 513 ∧ ∃ l ∈ s.mem.heap, ∃ r ∈ s.mem.heap, r ≠ l ∧ (∀ y ∈ s.mem.heap, y ≠ l → s.mem.before l y) ∧
      (∀ y ∈ s.mem.heap, y ≠ l → y ≠ r → s.mem.before r y) ∧
      s.mem.merge = .ok (BitVec.ofNat 10 s.mem.nodes.length, s.mem.merged l r) := by
  obtain ⟨-, h2, L, hL, -, -, hforest⟩ := hq h
  have hcount := hforest.count
  have hlen : L.length ≤ 257 := hL
  have hnodes : s.mem.nodes.length < 513 := by omega
  obtain ⟨l, hl, r, hr, hne, hminl, hminr⟩ := Memory.two_minima hforest.alloc hforest.rise h2
  exact ⟨hnodes, l, hl, r, hr, hne, hminl, hminr, Memory.merge_eq hl hr hne hforest.alloc hforest.rise hnodes
    (hforest.heap_le.trans hlen) hminl hminr⟩

/-- TB_STEP's body where trees are left in the queue (rule R166). -/
theorem tbStep_run_more {s : State} {n : NodeIdx} {m : Memory} (e : s.mem.merge = .ok (n, m)) (h : m.heap.length ≠ 1) :
    runTasks [.tbStep] s = .ok ((s.setMem m).setResult (n.setWidth 32)) :=
  runTasks_single (by simp only [runTask, tbStepBody, e, Flow.ofExcept_ok, if_neg h])

/-- TB_STEP's body at the last merge (rule R166). -/
theorem tbStep_run_last {s : State} {n : NodeIdx} {m : Memory} (e : s.mem.merge = .ok (n, m)) (h : m.heap.length = 1) :
    runTasks [.tbStep] s = .ok (s.built m n) :=
  runTasks_single (by simp only [runTask, tbStepBody, e, Flow.ofExcept_ok, if_pos h, State.built])

/-- Settles O27: the two smallest keys are merged (`State.queueOk.merges`), and the queue's length tells whether it was the last
merge. -/
theorem tbStepMerges : Obligations.TbStepMerges := by
  unfold Obligations.TbStepMerges
  intro s h hl hq
  obtain ⟨hnodes, l, hlm, r, hrm, hne, hminl, hminr, hmerge⟩ := hq.merges hl
  have hsize := Memory.merged_heap_length hlm hrm hne
  have hneed := (needHeap_holds _).2 hl
  have hresult : (BitVec.ofNat 10 s.mem.nodes.length).setWidth 32 = BitVec.ofNat 32 s.mem.nodes.length :=
    BitVec.setWidth_ofNat_of_le_of_lt (by decide) (by omega)
  rw [← hresult]
  refine ⟨l, hlm, r, hrm, hne, hminl, hminr, fun h2 => ?_, fun h2 => ?_⟩
  · have hrun := tbStep_run_more (s := s.accept (encode .tbStep)) hmerge (by omega)
    exact runCommand_completes h rfl hneed hrun rfl rfl
  · have hone : (s.mem.merged l r).heap.length = 1 := by omega
    rw [← Memory.merged_heap_single hone]
    exact runCommand_completes h rfl hneed (tbStep_run_last (s := s.accept (encode .tbStep)) hmerge hone) rfl rfl

/-! ### The whole tree -/

/-- Settles O28: TB_BUILD's loop is a TB_STEP for each leaf but one (`tbBuild_steps`), and the one tree of the forest that it
leaves (`tbBuild_run`) is a tree of the loaded leaves (`Forest.tree`). -/
theorem tbBuildMakesTree : Obligations.TbBuildMakesTree := by
  unfold Obligations.TbBuildMakesTree
  intro s h hv hf
  have hfreq := hf hv
  obtain ⟨m, x, hrun, hforest, hheap, hfr, hco, hlast⟩ := tbBuild_run (s := s.accept (encode .tbBuild)) hfreq
  obtain ⟨t, hvalid, hat, hleaves, -, hweight, hcount⟩ := hforest.tree hfreq hheap
  exact ⟨tbBuild_steps h hv hfreq, m, x, t, runCommand_completes h rfl ((needFreq_holds _).2 hv) hrun rfl rfl, hfr, hco,
    hheap, hat, hvalid, hleaves, hweight, by omega, by omega⟩

/-- Settles O29: both builds end with one root in the queue (`tbBuild_run`), and the counters determine the node store and the
queue (`tbBuild_congr`). -/
theorem tbBuildDeterministic : Obligations.TbBuildDeterministic := by
  unfold Obligations.TbBuildDeterministic
  intro s u s' u' h hu hv huv hf huf hfr hs' hu'
  obtain ⟨m, x, hrun, -, hheap, -⟩ := tbBuild_run (s := s.accept (encode .tbBuild)) (hf hv)
  obtain ⟨m', x', hrun', -, hheap', -⟩ := tbBuild_run (s := u.accept (encode .tbBuild)) (huf huv)
  cases (runCommand_done h rfl ((needFreq_holds _).2 hv) hrun).symm.trans hs'
  cases (runCommand_done hu rfl ((needFreq_holds _).2 huv) hrun').symm.trans hu'
  obtain ⟨hnodes, hqueue⟩ := tbBuild_congr (s := s.accept (encode .tbBuild)) (u := u.accept (encode .tbBuild))
    (hf hv) hfr hrun hrun'
  have hroot : [x'] = [x] := hheap'.symm.trans (hqueue.trans hheap)
  exact ⟨hnodes, List.singleton_injective hroot⟩

end Sys2Proof.Machine

/-! ## The code table (43_code_table.md) -/

namespace Sys2Proof.Machine

/-! ### Making the table -/

/-- The check of CG_GEN and HS_WRITE_TREE (40_control.md rule R124). -/
theorem needTree_holds (st : Status) : needTree.holds st = true ↔ st.treeValid = true := by
  simp [needTree, Need.holds, Status.get]

/-- CG_GEN's body on a tree with a repeated symbol: the walk stops at the first leaf whose symbol an earlier one has (rule R190). -/
theorem cgGen_dup {s : State} {t : Shape} (h : TreeAt s.mem.nodes s.root t) (hv : t.valid = true) {pre post : List Symbol}
    {v : Symbol} (hs : t.leaves = pre ++ v :: post) (hnd : pre.Nodup) (hm : v ∈ pre) :
    ∃ codes, cgGenBody s = .raise .cgDupSymbol 0 (v.setWidth 32)
      ((s.setMem { s.mem with codes := codes }).setStatus { s.status with codesValid := false }) := by
  obtain ⟨hroot, hmax, hlegal⟩ := t.valid_iff.1 hv
  obtain ⟨codes, hwalk, -⟩ := walk_dup h hroot hmax hlegal hs hnd hm
  exact ⟨codes, by rw [cgGenBody, hwalk]⟩

/-- Settles O31: the walk visits the leaves in pre-order, and gives each its path as code (`cgGen_run`) or stops at the first repeated
symbol (`cgGen_dup`). -/
theorem cgGenMakesTable : Obligations.CgGenMakesTable := by
  unfold Obligations.CgGenMakesTable
  intro s t h htv hvalid hat
  have hn := (needTree_holds _).2 htv
  refine ⟨fun hnd => ?_, fun pre v post hr hs hnd hm => ?_⟩
  · obtain ⟨codes, hcodes, hbody⟩ := cgGen_run (s := s.accept (encode .cgGen)) hat hvalid hnd
    exact ⟨codes, hcodes, runCommand_completes h rfl hn (runTasks_single hbody) rfl rfl⟩
  · obtain ⟨codes, hbody⟩ := cgGen_dup (s := s.accept (encode .cgGen)) hat hvalid hs hnd hm
    exact ⟨codes, _, runCommand_raises h rfl hn (runTasks_single hbody),
      State.failsTo_enterError _ _ _ rfl hr rfl (opcodeOf_encode _) (opcodeOf_encode _) h.2.2⟩

/-! ### No code begins another one -/

/-- No symbol's path begins another symbol's (rule R191). -/
theorem Shape.code_not_prefix {t : Shape} {u v : Symbol} (hu : u ∈ t.leaves) (hv : v ∈ t.leaves) (hne : u ≠ v) :
    ¬ t.code u <+: t.code v := by
  have hsymm : Std.Symm fun a b : Symbol × List Bool => ¬ a.2 <+: b.2 ∧ ¬ b.2 <+: a.2 := ⟨fun _ _ => And.symm⟩
  have hboth := t.codes_prefixFree.forall (Shape.code_mem hu) (Shape.code_mem hv) fun e => hne (congrArg Prod.fst e)
  exact hboth.1

/-- Only a leaf's symbol has a code in a tree's table (rule R190). -/
theorem CodesOf.mem_leaves {codes : List Code} {t : Shape} (h : CodesOf codes t) {v : Symbol} {c : Code}
    (hc : codes[v.toNat]? = some c) (hlen : c.len ≠ 0) : v ∈ t.leaves := by
  obtain ⟨hsize, -, hnone⟩ := h
  have hlt := (List.getElem?_eq_some_iff.1 hc).1
  rw [hsize, Config.numSymbols] at hlt
  by_contra hv
  cases hc.symm.trans (hnone v (by omega) hv)
  exact hlen rfl

/-- The bits of a leaf's code are its path (10_state.md rule R45). -/
theorem CodesOf.path_eq {codes : List Code} {t : Shape} (h : CodesOf codes t) (hi : t.internals ≤ 256) {v : Symbol} {c : Code}
    (hc : codes[v.toNat]? = some c) (hv : v ∈ t.leaves) : c.path = t.code v := by
  obtain ⟨-, hleaf, -⟩ := h
  cases hc.symm.trans (hleaf _ (Shape.code_mem hv))
  exact ofPath_path (Shape.code_length hi hv)

/-- No code of a tree's table begins another symbol's code (rule R191). -/
theorem CodesOf.not_prefix {codes : List Code} {t : Shape} (h : CodesOf codes t) (hi : t.internals ≤ 256) {u v : Symbol}
    {a b : Code} (hne : u ≠ v) (ha : codes[u.toNat]? = some a) (hb : codes[v.toNat]? = some b) (hla : a.len ≠ 0)
    (hlb : b.len ≠ 0) : ¬ a.path <+: b.path := by
  have hu := h.mem_leaves ha hla
  have hv := h.mem_leaves hb hlb
  rw [h.path_eq hi ha hu, h.path_eq hi hb hv]
  exact Shape.code_not_prefix hu hv hne

/-- A code that is not empty stands in the table. -/
theorem Memory.getElem?_codeOf {m : Memory} {v : Symbol} (h : (m.codeOf v).len ≠ 0) :
    m.codes[v.toNat]? = some (m.codeOf v) := by
  rw [Memory.codeOf, List.getD_eq_getElem?_getD] at h ⊢
  cases hc : m.codes[v.toNat]? with
  | none => rw [hc] at h; exact absurd rfl h
  | some c => rfl

/-- Settles O32: a symbol with a code is a leaf's, and its bits are that leaf's path (`CodesOf.not_prefix`). -/
theorem codesPrefixFree : Obligations.CodesPrefixFree := by
  unfold Obligations.CodesPrefixFree
  refine ⟨fun t codes hvalid hcodes u v a b hne ha hb hla hlb => ?_, fun s hok hcv u v hne hlu hlv => ?_⟩
  · obtain ⟨-, hmax, -⟩ := t.valid_iff.1 hvalid
    exact hcodes.not_prefix hmax hne ha hb hla hlb
  · obtain ⟨-, t, hvalid, -, -, hcodes⟩ := hok hcv
    obtain ⟨-, hmax, -⟩ := t.valid_iff.1 hvalid
    exact hcodes.not_prefix hmax hne (Memory.getElem?_codeOf hlu) (Memory.getElem?_codeOf hlv) hlu hlv

/-! ### Looking a code up -/

/-- The check of CG_LOOKUP (40_control.md rule R124). -/
theorem needCodes_holds (st : Status) : needCodes.holds st = true ↔ st.codesValid = true := by
  simp [needCodes, Need.holds, Status.get]

/-- CG_LOOKUP's body on a legal symbol (rule R192). -/
theorem cgLookup_run {s : State} (hw : s.codesWhole) {v : Symbol} (hv : v.toNat ≤ 256) :
    runTasks [.cgLookup v] s = .ok ((s.setResult ((s.mem.codeOf v).len.setWidth 32)).setCodeOut (s.mem.codeOf v).bits) :=
  runTasks_single (by rw [runTask, cgLookupBody, Memory.readCode_eq hw hv, Flow.ofExcept_ok])

/-- A symbol without a code in a tree's table is no leaf's, so its entry is the cleared one (rule R190). -/
theorem CodesOf.codeOf_eq_empty {m : Memory} {t : Shape} (h : CodesOf m.codes t) (hvalid : t.valid = true) {v : Symbol}
    (hv : v.toNat ≤ 256) (hlen : (m.codeOf v).len = 0) : m.codeOf v = {} := by
  obtain ⟨hroot, hmax, -⟩ := t.valid_iff.1 hvalid
  have hno : v ∉ t.leaves := fun hm => (h.codeOf hmax hroot hm).2 hlen
  obtain ⟨-, -, hnone⟩ := h
  rw [Memory.codeOf, List.getD_eq_getElem?_getD, hnone v hv hno, Option.getD_some]

/-- Settles O33: the body reads the symbol's entry (`cgLookup_run`), which is the cleared one where a tree's table has no code
(`CodesOf.codeOf_eq_empty`). -/
theorem cgLookupReturnsCode : Obligations.CgLookupReturnsCode := by
  unfold Obligations.CgLookupReturnsCode
  intro v s h hcv hw hv
  have hlegal : (Instr.cgLookup v).wellFormed = true := by simpa [Instr.wellFormed, symbolLegal] using hv
  have hrun := cgLookup_run (s := s.accept (encode (.cgLookup v))) hw hv
  have hlookup : exec (.cgLookup v) s = .next { s with
      status := s.status.ended
      result := (s.mem.codeOf v).len.setWidth 32
      codeOut := (s.mem.codeOf v).bits } :=
    runCommand_completes h hlegal ((needCodes_holds _).2 hcv) hrun rfl rfl
  refine ⟨hlookup, fun hok hlen => ?_⟩
  obtain ⟨-, t, hvalid, -, -, hcodes⟩ := hok hcv
  rw [hlookup, hcodes.codeOf_eq_empty hvalid hv hlen]
  rfl

end Sys2Proof.Machine

/-! ## The header codec (44_header_codec.md) -/

namespace Sys2Proof.Machine

/-! ### Serializing -/

/-- The length of a header (30_encoding.md rule R102). -/
theorem Shape.header_length_eq (t : Shape) : t.header.length = 11 * t.leaves.length - 1 :=
  Nat.eq_sub_of_add_eq t.header_length

/-- Settles O34: the body sends the magic word's 32 bits (`writeMagic_run`). -/
theorem hsWriteMagicWrites : Obligations.HsWriteMagicWrites := by
  unfold Obligations.HsWriteMagicWrites
  exact fun s h hr =>
    runCommand_completes h rfl rfl (runTasks_single (writeMagic_run (s := s.accept (encode .hsWriteMagic)) hr)) rfl rfl

/-- Settles O35: the body sends the header of the tree at ROOT (`writeTree_run`), which has 11L - 1 bits. -/
theorem hsWriteTreeWrites : Obligations.HsWriteTreeWrites := by
  unfold Obligations.HsWriteTreeWrites
  intro s t h hr htv hvalid hat
  obtain ⟨-, hmax, -⟩ := t.valid_iff.1 hvalid
  rw [← t.header_length_eq]
  exact runCommand_completes h rfl ((needTree_holds _).2 htv)
    (runTasks_single (writeTree_run (s := s.accept (encode .hsWriteTree)) hr hat hmax)) rfl rfl

/-! ### The magic word -/

/-- Settles O37: the read of 32 bits gives MAGIC (`readMagic_run`), another word (`readMagic_bad`) or EOS (`readMagic_eos`). -/
theorem hdReadMagicChecks : Obligations.HdReadMagicChecks := by
  unfold Obligations.HdReadMagicChecks
  intro s h hr
  refine ⟨fun rest hb => ?magic, fun v rest hb hv => ?other, fun hshort hend => ?short⟩
  case magic =>
    exact runCommand_completes h rfl rfl
      (runTasks_single (readMagic_run (s := s.accept (encode .hdReadMagic)) hr hb)) rfl rfl
  case other =>
    have hrun := readMagic_bad (s := s.accept (encode .hdReadMagic)) hr hb hv
    exact ⟨_, runCommand_raises h rfl rfl (runTasks_single hrun),
      State.failsTo_enterError _ _ _ rfl hr rfl (opcodeOf_encode _) (opcodeOf_encode _) h.2.2⟩
  case short =>
    have hrun := readMagic_eos (s := s.accept (encode .hdReadMagic)) hr hend hshort
    exact ⟨_, runCommand_raises h rfl rfl (runTasks_single hrun),
      State.failsTo_enterError _ _ _ rfl hr rfl (opcodeOf_encode _) (opcodeOf_encode _) h.2.2⟩

/-! ### Reading a valid header -/

/-- A tree of L leaves has 2L - 1 nodes. -/
theorem Shape.size_eq_leaves (t : Shape) : t.size = 2 * t.leaves.length - 1 := by
  rw [t.size_eq, t.leaves_length]
  omega

/-- The nodes that HD_READ_TREE allocates for a valid tree hold that tree at index 0 (rule R217, 92_eei_decisions.md D31). -/
theorem Shape.nodesAt_zero_treeAt {t : Shape} (h : t.valid = true) : TreeAt (t.nodesAt 0) 0 t := by
  obtain ⟨-, hmax, -⟩ := t.valid_iff.1 h
  have hsize := t.size_eq
  simpa using t.nodesAt_treeAt [] [] (by simp only [List.length_nil]; omega)

/-- Settles O38: the loop reads the header and allocates the tree's nodes (`hdReadTree_run`), which hold the tree. -/
theorem hdReadTreeReads : Obligations.HdReadTreeReads := by
  unfold Obligations.HdReadTreeReads
  intro s t rest h hr hvalid hb
  rw [← t.size_eq_leaves]
  exact ⟨⟨Shape.nodesAt_zero_treeAt hvalid, t.nodesAt_length 0⟩,
    runCommand_completes h rfl rfl (hdReadTree_run (s := s.accept (encode .hdReadTree)) hr hvalid hb) rfl rfl⟩

/-! ### Reading any other bits -/

/-- A 257th internal node is refused, however its bits go on (rule R217). -/
theorem readNode_overflow (rest : List Bool) : ∀ (k d ic : Nat), k < d → ic + k = 256 →
    readNode d ic (List.replicate (k + 1) false ++ rest) = .overflow rest
  | _, 0, _, hd, _ => absurd hd (Nat.not_lt_zero _)
  | 0, d + 1, ic, _, hic => if_pos hic
  | k + 1, d + 1, ic, hd, hic => by
    rw [List.replicate_succ, List.cons_append, readNode, if_neg (by omega),
      readNode_overflow rest k d (ic + 1) (by omega) (by omega)]

/-- 257 bits 0 are 257 internal nodes (rule R217). -/
theorem readHeader_overflow (rest : List Bool) : readHeader (List.replicate 257 false ++ rest) = .overflow rest :=
  readNode_overflow rest 256 _ 0 (by rw [List.length_append, List.length_replicate]; omega) rfl

/-- Reading that comes to an error raises it, with the bits read up to there counted (rules R217 to R221). -/
theorem HeaderRead.Stops.raises {r : HeaderRead} {k : Nat} {s : State} {g : Flow} (h : r.Stops k s g) {n : Word}
    (hn : n = s.bitsIn + BitVec.ofNat 32 (s.ports.bi.bits.length - r.rest.length)) {c : Cause} {e f : Word}
    (herr : r.error n = some (c, e, f)) (hend : c = .fmtHdrEos → s.ports.bi.ended = true) :
    ∃ nodes st ic, nodes.length = s.mem.nodes.length + k ∧ g = .raise c e f (s.took r.rest
      (s.ports.bi.bits.length - r.rest.length) { s.mem with nodes := nodes } st ic) := by
  subst hn
  cases r with
  | tree t rest => cases herr
  | runsOut m rest =>
    cases herr
    obtain ⟨-, hraise, -⟩ := h
    obtain ⟨_, rfl, nodes, st, ic, hlen, rfl⟩ := hraise (hend rfl)
    exact ⟨nodes, st, ic, hlen, rfl⟩
  | overflow rest | badValue v rest | leafRoot rest =>
    cases herr
    obtain ⟨_, rfl, nodes, st, ic, hlen, rfl⟩ := h
    exact ⟨nodes, st, ic, hlen, rfl⟩

/-- Error entry releases port BI's open stream, whatever bits it has left (60_exceptions.md rule R303). -/
theorem State.failsTo_of_bits {m u : State} (bits : List Bool) {op ph : Byte} {c : Cause} {e f : Word}
    (hopen : m.ports.bi.isOpen = true)
    (h : (m.setPorts { m.ports with bi := { m.ports.bi with bits := bits } }).failsTo u op ph c e f) :
    m.failsTo u op ph c e f := by
  have hclean : Ports.cleanup { m.ports with bi := { m.ports.bi with bits := bits } } = m.ports.cleanup := by
    simp [Ports.cleanup, BiPort.release, hopen]
  rw [State.failsTo, State.setPorts_ports, hclean] at h
  exact h

/-- HD_READ_TREE raises the error that its bits call for (rules R217 to R221). -/
theorem exec_hdReadTree_raises {s : State} (h : s.idle) (hr : s.portsReady) {n : Word}
    (hn : n = s.bitsIn + BitVec.ofNat 32 (s.ports.bi.bits.length - (readHeader s.ports.bi.bits).rest.length))
    {c : Cause} {e f : Word} (herr : (readHeader s.ports.bi.bits).error n = some (c, e, f))
    (hend : c = .fmtHdrEos → s.ports.bi.ended = true) : ∃ (nodes : List Node) (u : State),
      nodes.length = headerNodes s.ports.bi.bits ∧ exec .hdReadTree s = .next u ∧ State.failsTo { s with
        mem := { s.mem with nodes := nodes, heap := [] }
        bitsIn := n
        ports := { s.ports with bi := { s.ports.bi with isOpen := true } } } u 0x43 0x43 c e f := by
  obtain ⟨nodes, st, ic, hlen, hrun⟩ :=
    (hdReadTree_stops (s := s.accept (encode .hdReadTree)) hr).raises hn herr hend
  subst hn
  exact ⟨nodes, _, hlen.trans (Nat.zero_add _), runCommand_raises h rfl rfl hrun, State.failsTo_of_bits _ rfl
    (State.failsTo_enterError _ _ _ rfl hr rfl (opcodeOf_encode _) (opcodeOf_encode _) h.2.2)⟩

/-- HD_READ_TREE waits for bits that a source still owes (20_memory.md rule R66). -/
theorem exec_hdReadTree_waits {s : State} (h : s.idle) (hr : s.portsReady) {k : Nat} {rest : List Bool}
    (hread : readHeader s.ports.bi.bits = .runsOut k rest) (hend : s.ports.bi.ended = false) :
    ∃ u, exec .hdReadTree s = .next u ∧ u.status.busy = true ∧ u.status.err = false ∧ u.seq.pending = some (.biRead k) := by
  have hstops := hdReadTree_stops (s := s.accept (encode .hdReadTree)) hr
  have hkept := kept_busy.tasks hdReadTreeTasks (s.accept (encode .hdReadTree)) (fun _ _ _ => rfl) ⟨rfl, rfl, h.2.1⟩
  rw [show (s.accept (encode .hdReadTree)).ports.bi.bits = s.ports.bi.bits from rfl, hread] at hstops
  obtain ⟨-, -, hholds⟩ := hstops
  obtain ⟨u, hrun, hpending⟩ := hholds hend
  rw [hrun] at hkept
  obtain ⟨hbusy, -, herr⟩ := hkept
  exact ⟨u, runCommand_holds h rfl rfl hrun, hbusy, herr, hpending⟩

/-- Settles O39: `readHeader` gives a tree exactly on its header (`readHeader_tree_iff`), HD_READ_TREE follows it
(`exec_hdReadTree_raises`, `exec_hdReadTree_waits`), and a header cut off runs out of bits (`readHeader_take`). -/
theorem hdReadTreeRejects : Obligations.HdReadTreeRejects := by
  unfold Obligations.HdReadTreeRejects
  refine ⟨fun bits t rest => readHeader_tree_iff, fun rest => ⟨rfl, readHeader_overflow rest⟩,
    fun s n h hr hn => ⟨fun c e f herr hend => exec_hdReadTree_raises h hr hn herr hend,
      fun k rest hread hend => exec_hdReadTree_waits h hr hread hend⟩,
    fun s t k h hr hend hvalid hk hb => ?_⟩
  obtain ⟨m, rest, hread, hcut⟩ := readHeader_take hvalid hk
  rw [← hb] at hread ⊢
  have hlen : s.ports.bi.bits.length = k := by rw [hb, List.length_take, Nat.min_eq_left hk.le]
  obtain ⟨nodes, u, hnodes, hexec, hfails⟩ := exec_hdReadTree_raises h hr (c := .fmtHdrEos) (e := BitVec.ofNat 32 m)
    (n := s.bitsIn + BitVec.ofNat 32 (k - rest.length)) (by rw [hread, hlen]; rfl) (by rw [hread]; rfl) fun _ => hend
  refine ⟨nodes, BitVec.ofNat 32 m, k - rest.length, u, hnodes, hexec, hfails, ?_⟩
  rcases hcut with ⟨rfl, rfl⟩ | ⟨rfl, hrest⟩
  · exact .inl ⟨rfl, rfl⟩
  · exact .inr ⟨rfl, by omega, by omega⟩

/-! ### The round trip -/

/-- The table that a walk leaves. -/
def Walk.table : Walk → List Code
  | .ok codes _ => codes
  | .dup codes _ => codes
  | .fault _ => []

/-- CG_GEN's walk of the tree at index `n` of a node store (43_code_table.md rule R190). -/
def treeWalk (nodes : List Node) (n : NodeIdx) : Walk := walk nodes (Config.maxInternal + 1) n 0 0 clearedCodes 0

/-- The walk depends on the tree alone, wherever a node store holds it. -/
theorem treeWalk_eq {nodes : List Node} {n : NodeIdx} {t : Shape} (h : TreeAt nodes n t) (hvalid : t.valid = true) :
    treeWalk nodes n = walkList t.codes clearedCodes 0 := by
  obtain ⟨-, hmax, -⟩ := t.valid_iff.1 hvalid
  have hdepth : t.depth < Config.maxInternal + 1 := Nat.lt_succ_of_le (t.depth_le.trans hmax)
  have hwalk := walk_eq h _ hdepth [] clearedCodes 0
  simp only [List.nil_append, List.map_id'] at hwalk
  exact hwalk

/-- The walk of a valid tree never stops the model: it ends, or at the first repeated symbol (43_code_table.md rule R190). -/
theorem treeWalk_ne_fault {nodes : List Node} {n : NodeIdx} {t : Shape} (h : TreeAt nodes n t) (hvalid : t.valid = true)
    (g : Fault) : treeWalk nodes n ≠ .fault g := by
  obtain ⟨hroot, hmax, hlegal⟩ := t.valid_iff.1 hvalid
  by_cases hnd : t.leaves.Nodup
  · obtain ⟨codes, hwalk, -⟩ := walk_codesOf h hmax hlegal hnd
    rw [treeWalk, hwalk]
    exact nofun
  · obtain ⟨pre, v, post, hsplit, hpre, hmem⟩ := exists_first_dup _ hnd
    obtain ⟨codes, hwalk, -⟩ := walk_dup h hroot hmax hlegal hsplit hpre hmem
    rw [treeWalk, hwalk]
    exact nofun

/-- CG_GEN's body where the walk ends (43_code_table.md rule R190). -/
theorem cgGenBody_ok {s : State} {codes : List Code} {count : Nat} (hw : treeWalk s.mem.nodes s.root = .ok codes count) :
    cgGenBody s = .ok (((s.setMem { s.mem with codes := codes }).setStatus { s.status with codesValid := true }).setResult
      (BitVec.ofNat 32 count)) := by
  rw [cgGenBody, ← treeWalk, hw]

/-- CG_GEN's body where the walk meets a symbol again (43_code_table.md rule R190). -/
theorem cgGenBody_dup {s : State} {codes : List Code} {v : Symbol} (hw : treeWalk s.mem.nodes s.root = .dup codes v) :
    cgGenBody s = .raise .cgDupSymbol 0 (v.setWidth 32)
      ((s.setMem { s.mem with codes := codes }).setStatus { s.status with codesValid := false }) := by
  rw [cgGenBody, ← treeWalk, hw]

/-- An idle engine whose ports answer holds the tree `t` at ROOT, and TREE_VALID says so (10_state.md rule R52). -/
structure State.HoldsTree (s : State) (t : Shape) : Prop where
  idle : s.idle
  ready : s.portsReady
  treeValid : s.status.treeValid = true
  valid : t.valid = true
  tree : TreeAt s.mem.nodes s.root t

/-- CG_GEN leaves the table of the tree's walk, whether it completes or raises CG_DUP_SYMBOL (43_code_table.md rule R190). -/
theorem State.HoldsTree.generates {s : State} {t : Shape} (h : s.HoldsTree t) :
    ∃ a, exec .cgGen s = .next a ∧ a.mem.codes = (walkList t.codes clearedCodes 0).table := by
  have hn := (needTree_holds _).2 h.treeValid
  rw [← treeWalk_eq h.tree h.valid]
  cases hw : treeWalk s.mem.nodes s.root with
  | ok codes count =>
    exact ⟨_, runCommand_done h.idle rfl hn (runTasks_single (cgGenBody_ok (s := s.accept (encode .cgGen)) hw)), rfl⟩
  | dup codes v =>
    refine ⟨_, runCommand_raises h.idle rfl hn (runTasks_single (cgGenBody_dup (s := s.accept (encode .cgGen)) hw)), ?_⟩
    rw [State.enterError_ready (by exact h.ready)]
    rfl
  | fault g => exact absurd hw (treeWalk_ne_fault h.tree h.valid g)

/-- HS_WRITE_TREE writes the tree's header and leaves the tree (rule R211). -/
theorem State.HoldsTree.writes {s : State} {t : Shape} (h : s.HoldsTree t) :
    ∃ s', exec .hsWriteTree s = .next s' ∧ s'.HoldsTree t ∧ s'.ports.ob.bits = s.ports.ob.bits ++ t.header :=
  ⟨_, hsWriteTreeWrites s t h.idle h.ready h.treeValid h.valid h.tree,
    ⟨⟨rfl, h.idle.2⟩, h.ready, h.treeValid, h.valid, h.tree⟩, rfl⟩

/-- HD_READ_TREE of a valid tree's header leaves an engine that holds the tree, and nothing written (rules R217, R219). -/
theorem exec_hdReadTree_holdsTree {u : State} {t : Shape} {rest : List Bool} (h : u.idle) (hr : u.portsReady)
    (hvalid : t.valid = true) (hb : u.ports.bi.bits = t.header ++ rest) :
    ∃ u', exec .hdReadTree u = .next u' ∧ u'.HoldsTree t ∧ u'.ports.bi.bits = rest ∧ u'.ports.ob = u.ports.ob := by
  obtain ⟨⟨htree, -⟩, hexec⟩ := hdReadTreeReads u t rest h hr hvalid hb
  exact ⟨_, hexec, ⟨⟨rfl, h.2⟩, hr, rfl, hvalid, htree⟩, rfl, rfl⟩

/-- Settles O40: the header that is written reads back as the tree, so the reader holds what the writer holds
(`exec_hdReadTree_holdsTree`): it writes the same header, and CG_GEN's table is that of the tree alone. -/
theorem headerRoundTrip : Obligations.HeaderRoundTrip := by
  unfold Obligations.HeaderRoundTrip
  intro s u t rest h hr htv hvalid hat hob hu hur
  obtain ⟨s', hwrite, hs', hbits⟩ := State.HoldsTree.writes ⟨h, hr, htv, hvalid, hat⟩
  rw [hob, List.nil_append] at hbits
  refine ⟨s', hwrite, fun hb => ?_⟩
  rw [hbits] at hb ⊢
  obtain ⟨u', hread, hu', hrest, hob'⟩ := exec_hdReadTree_holdsTree hu hur hvalid hb
  obtain ⟨u'', hwrite', -, hbits'⟩ := hu'.writes
  obtain ⟨a, ha, hcodes⟩ := hs'.generates
  obtain ⟨b, hb, hcodes'⟩ := hu'.generates
  exact ⟨u', hread, hu'.tree, hrest, ⟨u'', hwrite', hob' ▸ hbits'⟩, a, b, ha, hb, hcodes'.trans hcodes.symm⟩

end Sys2Proof.Machine

/-! ## The encoder (45_encoder.md) -/

namespace Sys2Proof.Machine

/-! ### The checks, and a body that changes nothing -/

/-- The check of EN_SYMBOL, EN_EOF and EN_BODY (40_control.md rule R124). -/
theorem needEncode_holds (st : Status) : needEncode.holds st = true ↔ st.codesValid = true ∧ st.eofWritten = false := by
  simp [needEncode, Need.holds, Status.get]

/-- The check of EN_CLOSE (40_control.md rule R124). -/
theorem needEofWritten_holds (st : Status) : needEofWritten.holds st = true ↔ st.eofWritten = true := by
  simp [needEofWritten, Need.holds, Status.get]

/-- A command whose body raises an error before it changes anything (60_exceptions.md rule R303). -/
theorem runCommand_fails {i : Instr} {need : Need} {body : List Task} {s : State} {c : Cause} {x y : Word} (h : s.idle)
    (hr : s.portsReady) (hw : i.wellFormed = true) (hn : need.holds s.status = true)
    (e : runTasks body (s.accept (encode i)) = .raise c x y (s.accept (encode i))) :
    ∃ t, runCommand i need body s = .next t ∧ s.failsTo t i.opcode i.opcode c x y := by
  have hfails := State.failsTo_accept h hr (encode i) c x y
  rw [opcodeOf_encode] at hfails
  exact ⟨_, runCommand_raises h hw hn e, hfails⟩

/-! ### One symbol -/

/-- A byte's symbol and the byte are the same word (rule R240). -/
theorem symbolOfByte_setWidth (b : Byte) : (symbolOfByte b).setWidth 32 = b.setWidth 32 := by
  apply BitVec.eq_of_toNat_eq
  rw [BitVec.toNat_setWidth, BitVec.toNat_setWidth, symbolOfByte_toNat]

theorem symbolOfByte_legal (b : Byte) : (symbolOfByte b).toNat ≤ 256 := by
  rw [symbolOfByte_toNat]
  omega

/-- Settles O41: the body writes the symbol's code (`enSymbol_run`), or raises ENC_NO_CODE with nothing changed
(`enSymbol_noCode`). -/
theorem enSymbolWritesCode : Obligations.EnSymbolWritesCode := by
  unfold Obligations.EnSymbolWritesCode
  intro b s h hr hcv hew hw
  have hn := (needEncode_holds _).2 ⟨hcv, hew⟩
  refine ⟨fun hlen => ?_, fun hlen => ?_⟩
  · have hrun := enSymbol_run (s := s.accept (encode (.enSymbol b))) hr hw (symbolOfByte_legal b) hlen
    rw [BitVec.ofNat_toNat] at hrun
    exact runCommand_completes h rfl hn (runTasks_single hrun) rfl rfl
  · have hrun := enSymbol_noCode (s := s.accept (encode (.enSymbol b))) hw (symbolOfByte_legal b) hlen
    rw [symbolOfByte_setWidth] at hrun
    exact runCommand_fails h hr rfl hn (runTasks_single hrun)

/-! ### The end marker -/

/-- EN_EOF's body where PSEUDO_EOF has no code (rule R242). -/
theorem enEof_noCode {s : State} (hw : s.codesWhole) (hlen : (s.mem.codeOf 256).len = 0) :
    runTasks enEofTasks s = .raise .encNoCode 0 256 s := by
  have hbody : enSymbolBody Config.pseudoEof s = .raise .encNoCode 0 256 s := enSymbol_noCode hw (by decide) hlen
  rw [enEofTasks, runTasks_cons, runTask, hbody, Flow.andThen_raise]

/-- Settles O42: the body writes PSEUDO_EOF's code and sets EOF_WRITTEN (`enEof_run`), or raises ENC_NO_CODE with nothing changed
(`enEof_noCode`). -/
theorem enEofWritesCode : Obligations.EnEofWritesCode := by
  unfold Obligations.EnEofWritesCode
  intro s h hr hcv hew hw
  have hn := (needEncode_holds _).2 ⟨hcv, hew⟩
  refine ⟨fun hlen => ?_, fun hlen => ?_⟩
  · have hrun := enEof_run (s := s.accept (encode .enEof)) hr hw hlen
    rw [BitVec.ofNat_toNat] at hrun
    exact runCommand_completes h rfl hn hrun rfl rfl
  · exact runCommand_fails h hr rfl hn (enEof_noCode (s := s.accept (encode .enEof)) hw hlen)

/-! ### The whole body -/

/-- A code that is not empty has bits. -/
theorem Code.path_ne_nil {c : Code} (h : c.len ≠ 0) : c.path ≠ [] := by
  rw [← List.length_pos_iff, Code.path_length]
  exact Nat.pos_of_ne_zero fun e => h (BitVec.eq_of_toNat_eq e)

/-- Bytes that all have codes come to no bits only where there are no bytes. -/
theorem Memory.bytePaths_isEmpty {m : Memory} {bs : List Byte} (hc : ∀ b ∈ bs, (m.codeOf (symbolOfByte b)).len ≠ 0) :
    (bs.flatMap fun b => (m.codeOf (symbolOfByte b)).path).isEmpty = bs.isEmpty := by
  cases bs with
  | nil => rfl
  | cons b bs => simp [Code.path_ne_nil (hc b List.mem_cons_self)]

/-- EN_BODY raises ENC_NO_CODE behind the codes `body` of the bytes `bs`, which it counts, with the bytes `left` not read (rule
R244). -/
theorem exec_enBody_raises {s : State} (h : s.idle) (hr : s.portsReady) (hn : needEncode.holds s.status = true)
    {bs left : List Byte} {body : List Bool} (hempty : body.isEmpty = bs.isEmpty) {f : Word}
    (hrun : runTasks enBodyTasks (s.accept (encode .enBody)) = .raise .encNoCode 0 f
      ((((s.accept (encode .enBody)).setPorts { s.ports with ib := s.ports.ib.rewind }).setBytesIn 0).encoded left bs.length
        body)) :
    ∃ t, exec .enBody s = .next t ∧ State.failsTo { s with
      bytesIn := BitVec.ofNat 32 bs.length
      bitsOut := s.bitsOut + BitVec.ofNat 32 body.length
      ports := { s.ports with
        ib := { s.ports.ib.rewind with left := left }
        ob := { s.ports.ob with
          bits := s.ports.ob.bits ++ body, isOpen := s.ports.ob.isOpen || !bs.isEmpty } } } t 0x52 0x52 .encNoCode 0 f := by
  refine ⟨_, runCommand_raises h rfl hn hrun,
    State.failsTo_enterError .encNoCode 0 f ?_ hr rfl (opcodeOf_encode _) (opcodeOf_encode _) h.2.2⟩
  apply State.ext <;> simp [State.encoded, hempty]

/-- Settles O43: the loop writes each byte's code and EN_EOF's body PSEUDO_EOF's (`enBody_codes`), up to the first symbol without
one, PSEUDO_EOF (`enBody_noEof`) or a byte's (`enBody_noCode`). -/
theorem enBodyWritesBody : Obligations.EnBodyWritesBody := by
  unfold Obligations.EnBodyWritesBody
  refine ⟨fun p => ⟨fun hl => ?same, fun bytes ended rest hl => ?other⟩, fun s bytes h hr hcv hew hw hb => ?_⟩
  case same => rw [IbPort.rewind, hl]
  case other => rw [IbPort.rewind, hl]
  have hn := (needEncode_holds _).2 ⟨hcv, hew⟩
  refine ⟨fun hend hc => ⟨fun heof => ?whole, fun heof => ?noEof⟩, fun pre b post hsplit hc hlen => ?noCode⟩
  case whole =>
    have hrun := enBody_codes (s := s.accept (encode .enBody)) hr hw hc heof hb hend
    exact ⟨_, rfl, runCommand_completes h rfl hn hrun rfl rfl⟩
  case noEof =>
    have hrun := enBody_noEof (s := s.accept (encode .enBody)) hr hw hc heof hb hend
    obtain ⟨t, hexec, hfails⟩ := exec_enBody_raises h hr hn (Memory.bytePaths_isEmpty hc) hrun
    exact ⟨_, t, rfl, hexec, hfails⟩
  case noCode =>
    have hrun := enBody_noCode (s := s.accept (encode .enBody)) hr hw hc hlen (hb.trans hsplit)
    obtain ⟨t, hexec, hfails⟩ := exec_enBody_raises h hr hn (Memory.bytePaths_isEmpty hc) hrun
    exact ⟨_, t, rfl, hexec, hfails⟩

/-! ### Closing the stream -/

/-- Settles O44: `ob_close()` and `ib_release()` act on open streams only (rule R70), and the body clears BITS_OUT and EOF_WRITTEN
(`enClose_run`). -/
theorem enCloseCommits : Obligations.EnCloseCommits := by
  unfold Obligations.EnCloseCommits
  exact fun s h hr hew => runCommand_completes h rfl ((needEofWritten_holds _).2 hew)
    (enClose_run (s := s.accept (encode .enClose)) hr) rfl rfl

end Sys2Proof.Machine

/-! ## The decoder (46_decoder.md) -/

namespace Sys2Proof.Machine

/-! ### Trees, checks and errors -/

/-- The child that a bit chooses (rule R260). -/
theorem Shape.child_eq_ite (d : Bool) (l r : Shape) : Shape.child d l r = if d then r else l := by
  cases d <;> rfl

/-- Where TREE_VALID = 1, CUR names an internal node's subtree of the valid tree at ROOT (10_state.md rule R52). -/
theorem State.treeOk.subtree {s : State} (h : s.treeOk) (ht : s.status.treeValid = true) :
    ∃ t u : Shape, t.internal = true ∧ TreeAt s.mem.nodes s.root t ∧ u.internal = true ∧ TreeAt s.mem.nodes s.cur u ∧
      ∀ v ∈ u.leaves, v ∈ t.leaves := by
  obtain ⟨⟨t, hvalid, hroot⟩, p, hp, nd, hnd, hinner⟩ := h ht
  obtain ⟨u, hu, hleaves⟩ := walkTo_treeAt hroot hp
  refine ⟨t, u, (t.valid_iff.1 hvalid).1, hroot, ?_, hu, hleaves⟩
  cases u with
  | node l r => rfl
  | leaf v =>
    obtain ⟨nd', hnd', hleaf, -⟩ := hu
    rw [hnd] at hnd'
    cases hnd'
    exact absurd (hinner.symm.trans hleaf) (by decide)

/-- The check of DE_CLOSE (40_control.md rule R124). -/
theorem needEofSeen_holds (st : Status) : needEofSeen.holds st = true ↔ st.eofSeen = true := by
  simp [needEofSeen, Need.holds, Status.get]

/-- RESULT after an error is any value, so what it was before does not matter (10_state.md rule R36). -/
theorem State.failsTo_of_result {m u : State} (v : Word) {op ph : Byte} {c : Cause} {e f : Word}
    (h : (m.setResult v).failsTo u op ph c e f) : m.failsTo u op ph c e f :=
  congrArg (State.setResult · m.result) h

/-! ### One bit -/

/-- A step that emits no byte leaves port BO and BYTES_OUT as they are (rule R261). -/
theorem State.fed_nil (s : State) (rest : List Bool) (n : Nat) (cur : NodeIdx) (res : Word) :
    s.fed rest n [] cur res = { s with
      cur := cur
      bitsIn := s.bitsIn + BitVec.ofNat 32 n
      result := res
      ports := { s.ports with bi := { s.ports.bi with bits := rest, isOpen := true } } } := by
  apply State.ext <;> simp [State.fed]

/-- A step that emits a byte opens port BO (rule R261; 20_memory.md rule R70). -/
theorem State.fed_singleton (s : State) (rest : List Bool) (n : Nat) (b : Byte) (cur : NodeIdx) (res : Word) :
    s.fed rest n [b] cur res = { s with
      cur := cur
      bitsIn := s.bitsIn + BitVec.ofNat 32 n
      bytesOut := s.bytesOut + 1
      result := res
      ports := { s.ports with
        bi := { s.ports.bi with bits := rest, isOpen := true }
        bo := { s.ports.bo with bytes := s.ports.bo.bytes ++ [b], isOpen := true } } } := by
  apply State.ext <;> simp [State.fed]

/-- DE_STEP's RESULT at an internal node is the bit alone (rule R260). -/
theorem stepResult_internal (d : Bool) : stepResult d false false 0 = 0#20 ++ BitVec.ofBool d ++ 0#11 := by
  cases d <;> rfl

/-- DE_STEP at the end of the source (rule R260). -/
theorem deStep_eos {s : State} (hr : s.ports.credit = none) (hb : s.ports.bi.bits = []) (hend : s.ports.bi.ended = true) :
    deStepBody s = .raise .fmtBodyEos 1 s.bitsIn
      (s.setPorts { s.ports with bi := { s.ports.bi with isOpen := true } }) := by
  rw [deStepBody, port_biRead_eos hr (by rw [hb]; decide) hend]
  rfl

/-- Settles O46: at a leaf by `deStep_leaf`, at an internal node by `deStep_internal`, and at the end of the source by
`deStep_eos`. -/
theorem deStepMoves : Obligations.DeStepMoves := by
  unfold Obligations.DeStepMoves
  intro s l r h hr htv hes hat
  have hn := (needDecode_holds _).2 ⟨htv, hes⟩
  refine ⟨fun d rest hb => ?_, fun hb hend => ?eos⟩
  · rw [← Shape.child_eq_ite]
    refine ⟨fun v hleaf hv => ?eof, fun v hleaf hv => ?byte, fun hinner => ?inner⟩
    case eof =>
      have hrun := deStep_leaf (s := s.accept (encode .deStep)) hr hb hat hleaf
      rw [State.reached, if_pos (show v = Config.pseudoEof from hv), State.fed_nil] at hrun
      exact runCommand_completes h rfl hn (runTasks_single hrun) rfl rfl
    case byte =>
      have hrun := deStep_leaf (s := s.accept (encode .deStep)) hr hb hat hleaf
      rw [State.reached, if_neg (show v ≠ Config.pseudoEof from hv), State.fed_singleton] at hrun
      exact runCommand_completes h rfl hn (runTasks_single hrun) rfl rfl
    case inner =>
      obtain ⟨x, n, hx, -, rfl, hchild, hrun⟩ := deStep_internal (s := s.accept (encode .deStep)) hr hb hat hinner
      rw [State.fed_nil, stepResult_internal] at hrun
      exact ⟨x, hx, hchild, runCommand_completes h rfl hn (runTasks_single hrun) rfl rfl⟩
  case eos =>
    have hrun := deStep_eos (s := s.accept (encode .deStep)) hr hb hend
    exact ⟨_, runCommand_raises h rfl hn (runTasks_single hrun),
      State.failsTo_enterError _ _ _ rfl hr rfl (opcodeOf_encode _) (opcodeOf_encode _) h.2.2⟩

/-! ### The whole body -/

/-- DE_BODY's body is its loop, and then RESULT <- BYTES_OUT (rule R262). -/
theorem deBodyTasks_run (s : State) :
    runTasks deBodyTasks s = (deLoopBody s).andThen [.bytesOutResult] bytesOutResultBody := rfl

/-- DE_BODY whose loop reaches PSEUDO_EOF completes: `k` bits are read, `out` is emitted, and CUR is at `c` (rule R262). -/
theorem exec_deBody_completes {s : State} (h : s.idle) (hn : needDecode.holds s.status = true) {rest : List Bool} {k : Nat}
    {out : List Byte} {c : NodeIdx} {res : Word}
    (hloop : deLoopBody (s.accept (encode .deBody)) = .ok (((s.accept (encode .deBody)).fed rest k out c res).setStatus
      { (s.accept (encode .deBody)).status with eofSeen := true })) :
    exec .deBody s = .next { s with
      status := { s.status.ended with eofSeen := true }
      cur := c
      bitsIn := s.bitsIn + BitVec.ofNat 32 k
      bytesOut := s.bytesOut + BitVec.ofNat 32 out.length
      result := s.bytesOut + BitVec.ofNat 32 out.length
      ports := { s.ports with
        bi := { s.ports.bi with bits := rest, isOpen := true }
        bo := { s.ports.bo with
          bytes := s.ports.bo.bytes ++ out, isOpen := s.ports.bo.isOpen || !out.isEmpty } } } := by
  have hrun := deBodyTasks_run (s.accept (encode .deBody))
  rw [hloop, Flow.andThen_ok] at hrun
  exact runCommand_completes h rfl hn hrun rfl rfl

/-- DE_BODY whose loop runs out of bits raises FMT_BODY_EOS: `k` bits are read, `out` is emitted (rules R262, R263). -/
theorem exec_deBody_raises {s : State} (h : s.idle) (hr : s.portsReady) (hn : needDecode.holds s.status = true) {k : Nat}
    {out : List Byte} {c : NodeIdx} {res f : Word}
    (hloop : deLoopBody (s.accept (encode .deBody)) = .raise .fmtBodyEos 1 f ((s.accept (encode .deBody)).fed [] k out c res)) :
    ∃ u, exec .deBody s = .next u ∧ State.failsTo { s with
      cur := c
      bitsIn := s.bitsIn + BitVec.ofNat 32 k
      bytesOut := s.bytesOut + BitVec.ofNat 32 out.length
      ports := { s.ports with
        bi := { s.ports.bi with bits := [], isOpen := true }
        bo := { s.ports.bo with
          bytes := s.ports.bo.bytes ++ out, isOpen := s.ports.bo.isOpen || !out.isEmpty } } }
      u 0x61 0x61 .fmtBodyEos 1 f := by
  have hrun := deBodyTasks_run (s.accept (encode .deBody))
  rw [hloop, Flow.andThen_raise] at hrun
  exact ⟨_, runCommand_raises h rfl hn hrun, State.failsTo_of_result res
    (State.failsTo_enterError _ _ _ rfl hr rfl (opcodeOf_encode _) (opcodeOf_encode _) h.2.2)⟩

/-- DE_BODY whose loop a port holds waits as the loop does (20_memory.md rule R66). -/
theorem exec_deBody_waits {s y : State} (h : s.idle) (hn : needDecode.holds s.status = true)
    (hloop : deLoopBody (s.accept (encode .deBody)) = .hold y) :
    ∃ u, exec .deBody s = .next u ∧ u.status.busy = true ∧ u.status.err = false ∧ u.seq.pending = y.seq.pending := by
  have hkept := kept_busy.task .deLoop (s.accept (encode .deBody)) (fun _ => rfl) ⟨rfl, rfl, h.2.1⟩
  rw [runTask, hloop] at hkept
  obtain ⟨hbusy, -, herr⟩ := hkept
  have hrun := deBodyTasks_run (s.accept (encode .deBody))
  rw [hloop, Flow.andThen_hold] at hrun
  exact ⟨_, runCommand_holds h rfl hn hrun, hbusy, herr, rfl⟩

/-- DE_BODY's loop on the bits that port BI has, from an internal node of the tree at ROOT (rules R262, R265). -/
theorem deLoopBody_decodes {s : State} (hr : s.portsReady) (htv : s.status.treeValid = true) (hes : s.status.eofSeen = false)
    (hok : s.treeOk) {x : List Byte × NodeIdx × Option (List Bool)}
    (hx : decodeBits s.mem.nodes s.root s.cur s.ports.bi.bits = x) : Decodes s s.ports.bi.bits x (deLoopBody s) := by
  obtain ⟨t, u, htin, hroot, huin, hcur, -⟩ := hok.subtree htv
  rw [← hx]
  exact deLoop_decodes htin _ s u _ hr hes huin hcur hroot rfl (Nat.lt_succ_self _)

/-- On a tree without PSEUDO_EOF the bits run out (rule R262). -/
theorem State.treeOk.decodeBits_never {s : State} (hok : s.treeOk) (htv : s.status.treeValid = true) {t : Shape}
    (hat : TreeAt s.mem.nodes s.root t) (heof : Config.pseudoEof ∉ t.leaves) (bits : List Bool) :
    (decodeBits s.mem.nodes s.root s.cur bits).2.2 = none := by
  obtain ⟨t', u, htin, hroot, huin, hcur, hleaves⟩ := hok.subtree htv
  cases hroot.unique hat
  exact Machine.decodeBits_never hat htin heof bits s.cur u hcur huin hleaves

/-- Settles O48: DE_STEPs by `deBody_steps`, any bits from any CUR by `deLoopBody_decodes`, and a body, whole or cut off, by
`deLoop_body` and `deLoop_bodyCut`. -/
theorem deBodyDecodes : Obligations.DeBodyDecodes := by
  unfold Obligations.DeBodyDecodes
  refine ⟨fun s u n h htv hes hx hb hq => deBody_steps h htv hes hx hb hq,
    fun s out c behind h hr htv hes hok hx => ?bits,
    fun s t bytes h hr htv hes hvalid hat hcur heof hbytes => ?body⟩
  case bits =>
    have hn := (needDecode_holds _).2 ⟨htv, hes⟩
    have hdec := deLoopBody_decodes (s := s.accept (encode .deBody)) hr htv hes hok hx
    refine ⟨?reached, ?runsOut, ?waits, fun t hat heof => ?never⟩
    case reached =>
      rintro rest rfl
      obtain ⟨-, res, hloop⟩ := hdec
      exact exec_deBody_completes h hn hloop
    case runsOut =>
      rintro rfl hend
      obtain ⟨res, hloop⟩ := hdec.1 hend
      exact exec_deBody_raises h hr hn hloop
    case waits =>
      rintro rfl hend
      obtain ⟨y, hloop, hpending⟩ := hdec.2 hend
      obtain ⟨u, hexec, hbusy, herr, hp⟩ := exec_deBody_waits h hn hloop
      exact ⟨u, hexec, hbusy, herr, hp.trans hpending⟩
    case never =>
      have hnever := hok.decodeBits_never htv hat heof s.ports.bi.bits
      rwa [hx] at hnever
  case body =>
    have hn := (needDecode_holds _).2 ⟨htv, hes⟩
    have htin := (t.valid_iff.1 hvalid).1
    refine ⟨fun rest hb => ?whole, fun k hk hb hend => ?cut⟩
    case whole =>
      obtain ⟨res, hloop⟩ := deLoop_body htin heof bytes (s.accept (encode .deBody)) rest (s.ports.bi.bits.length + 1) hbytes hr
        hes hcur hat hb (by rw [hb, List.length_append]; omega)
      exact exec_deBody_completes h hn (c := s.cur) (hcur ▸ hloop)
    case cut =>
      have hlen : s.ports.bi.bits.length = k := by rw [hb, List.length_take, Nat.min_eq_left hk.le]
      obtain ⟨out, c, res, hout, hle, hlt, hwalk, hloop⟩ := deLoop_bodyCut htin heof bytes (s.accept (encode .deBody)) k
        (s.ports.bi.bits.length + 1) hbytes hr hend hes hcur hat hk hb (by omega)
      obtain ⟨u, hexec, hfails⟩ := exec_deBody_raises h hr hn hloop
      exact ⟨out, c, u, hout, hle, hlt, hwalk, hexec, hfails⟩

/-! ### Closing the stream -/

/-- Settles O49: `bo_close()` opens the output's stream where no byte has (assumption log 11) and commits it, `bi_release()` acts on
an open source, and the body clears the counters and flags (`deClose_run`). -/
theorem deCloseCommits : Obligations.DeCloseCommits := by
  unfold Obligations.DeCloseCommits
  exact fun s h hr hes => runCommand_completes h rfl ((needEofSeen_holds _).2 hes)
    (deClose_run (s := s.accept (encode .deClose)) hr) rfl rfl

end Sys2Proof.Machine

/-! ## Composite commands (47_composite.md) -/

namespace Sys2Proof.Machine

/-- The check of COMPRESS (40_control.md rule R124). -/
theorem needNoEofWritten_holds (st : Status) : needNoEofWritten.holds st = true ↔ st.eofWritten = false := by
  simp [needNoEofWritten, Need.holds, Status.get]

/-- The check of DECOMPRESS (40_control.md rule R124). -/
theorem needNoEofSeen_holds (st : Status) : needNoEofSeen.holds st = true ↔ st.eofSeen = false := by
  simp [needNoEofSeen, Need.holds, Status.get]

/-! ### COMPRESS and the tree of its source -/

/-- The memories hold the tree `t` that the counts of `bytes` call for, its root at `x`, and its code table
(42_tree_builder.md rules R164 to R168, 43_code_table.md rule R190). -/
structure TreeOfBytes (bytes : List Byte) (m : Memory) (x : NodeIdx) (t : Shape) : Prop where
  freq : m.freq = countAll initialFreq bytes
  heap : m.heap = [x]
  tree : TreeAt m.nodes x t
  valid : t.valid = true
  nodup : t.leaves.Nodup
  leaves : t.leaves.Perm ((loadedLeaves m.freq).map (·.1))
  codes : CodesOf m.codes t
  size : m.nodes.length + 1 = 2 * t.leaves.length
  built : ∃ v v' : State, FreqOk v.mem.freq v.total ∧ v.mem.freq = m.freq ∧ runTasks tbBuildTasks v = .ok v' ∧
    v'.mem.nodes = m.nodes ∧ v'.mem.heap = m.heap

namespace TreeOfBytes

variable {bytes : List Byte} {m m' : Memory} {x x' : NodeIdx} {t t' : Shape}

theorem mem_leaves (h : TreeOfBytes bytes m x t) (hlen : bytes.length < 2 ^ 32 - 1) {b : Byte} (hb : b ∈ bytes) :
    symbolOfByte b ∈ t.leaves := by
  rw [h.leaves.mem_iff, h.freq]
  exact mem_loadedLeaves_of_mem hlen hb

theorem pseudoEof_mem_leaves (h : TreeOfBytes bytes m x t) : Config.pseudoEof ∈ t.leaves := by
  obtain ⟨v, -, hfreq, heq, -⟩ := h.built
  rw [h.leaves.mem_iff, ← heq]
  exact pseudoEof_mem_loadedLeaves hfreq

/-- The bytes determine their tree: the counters determine the node store and the root (`tbBuild_congr`). -/
theorem unique (h : TreeOfBytes bytes m x t) (h' : TreeOfBytes bytes m' x' t') : t = t' := by
  obtain ⟨v, w, hfreq, hv, hrun, hnodes, hheap⟩ := h.built
  obtain ⟨v', w', -, hv', hrun', hnodes', hheap'⟩ := h'.built
  obtain ⟨hn, hq⟩ := tbBuild_congr hfreq (hv'.trans (h'.freq.trans (h.freq.symm.trans hv.symm))) hrun hrun'
  have hstore : m'.nodes = m.nodes := hnodes'.symm.trans (hn.trans hnodes)
  have hroot : [x'] = [x] := h'.heap.symm.trans (hheap'.symm.trans (hq.trans (hheap.trans h.heap)))
  have htree := h'.tree
  rw [hstore, List.singleton_injective hroot] at htree
  exact h.tree.unique htree

end TreeOfBytes

/-- What COMPRESS leaves of the engine `s` where the first pass is `bytes` and the second `out`, with their tree `t` at `x` in the
memories `m` (47_composite.md rule R281; assumption log 9, 28). -/
def State.compressed (s : State) (bytes out : List Byte) (m : Memory) (x : NodeIdx) (t : Shape) : State :=
  { s with
    status := { s.status.ended with
      freqValid := true, heapLoaded := false, treeValid := true, codesValid := true, eofWritten := false, eofSeen := false }
    mem := m
    root := x
    cur := x
    total := BitVec.ofNat 32 (bytes.length + 1)
    bytesIn := BitVec.ofNat 32 out.length
    bitsOut := 0
    result := s.bitsOut + BitVec.ofNat 32 (streamBits s.magic t out).length
    ports := { s.ports with
      ib := {}
      ob := { s.ports.ob with
        bits := [], isOpen := false,
        committed := s.ports.ob.committed ++ [packBits (s.ports.ob.bits ++ streamBits s.magic t out)] } } }

/-- COMPRESS where every byte of the second pass is one of the first completes, with the tree of the first (47_composite.md rule
R281). -/
theorem exec_compress_completes {s : State} {bytes out : List Byte} (h : s.idle) (hr : s.portsReady)
    (hw : s.status.eofWritten = false) (hleft : s.ports.ib.left = bytes) (hend : s.ports.ib.ended = true)
    (hleft' : s.ports.ib.rewind.left = out) (hend' : s.ports.ib.rewind.ended = true) (hout : ∀ b ∈ out, b ∈ bytes)
    (hlen : bytes.length < 2 ^ 32 - 1) :
    ∃ m x t, exec .compress s = .next (s.compressed bytes out m x t) ∧ TreeOfBytes bytes m x t := by
  obtain ⟨m, x, t, hvalid, hnodup, htree, hleaves, hcodes, hfreq, hheap, -, hsize, -, hbuilt, hrun⟩ :=
    compress_run (s := s.accept (encode .compress)) hr hleft hend hleft' hend' hlen
      fun b hb => mem_loadedLeaves_of_mem hlen (hout b hb)
  rw [← hfreq] at hleaves hbuilt
  exact ⟨m, x, t, runCommand_completes h rfl ((needNoEofWritten_holds _).2 hw) hrun rfl rfl,
    ⟨hfreq, hheap, htree, hvalid, hnodup, hleaves, hcodes, hsize, hbuilt⟩⟩

/-- Settles O50: COMPRESS completes with the tree of the first pass's bytes (`exec_compress_completes`). -/
theorem compressCommitsStream : Obligations.CompressCommitsStream := by
  unfold Obligations.CompressCommitsStream
  intro s bytes out h hr hw hleft hend hleft' hend' hout hlen
  obtain ⟨m, x, t, hexec, ht⟩ := exec_compress_completes h hr hw hleft hend hleft' hend' hout hlen
  have hcounted : Counted (List.replicate 256 0 ++ [1]) m.freq bytes := ht.freq ▸ counted_countAll initialFreq bytes
  have hsize := ht.size
  exact ⟨m, x, t, hexec, hcounted, ht.heap, ht.tree, ht.valid, ht.nodup, ht.leaves, ht.codes, by omega⟩

/-- A command whose body raises an error from a state `t` fails to what error entry makes of `m`, where `t` differs from `m` only in
RESULT, in STATUS and in the sequencer (60_exceptions.md rule R303). -/
theorem runCommand_failsTo {i : Instr} {need : Need} {body : List Task} {s m t : State} {c : Cause} {x y : Word} {ph : Byte}
    (h : s.idle) (hw : i.wellFormed = true) (hn : need.holds s.status = true)
    (hrun : runTasks body (s.accept (encode i)) = .raise c x y t)
    (ht : t = ((m.setResult t.result).setStatus t.status).setSeq t.seq) (hready : t.ports.credit = none)
    (hreject : t.status.reject = false) (hop : t.seq.opcode = i.opcode) (hph : t.seq.phase = ph) (hm : m.seq = {}) :
    ∃ u, runCommand i need body s = .next u ∧ m.failsTo u i.opcode ph c x y :=
  ⟨_, runCommand_raises h hw hn hrun,
    State.failsTo_of_result t.result (State.failsTo_enterError c x y ht hready hreject hop hph hm)⟩

/-- After an error ERR is 1 and every other flag 0 (60_exceptions.md rule R303). -/
theorem State.status_of_failsTo {s t : State} {op ph : Byte} {c : Cause} {e f : Word} (h : s.failsTo t op ph c e f) :
    t.status = { err := true } := congrArg State.status h

/-- COMPRESS raises CNT_OVERFLOW at the byte that TOTAL cannot take (47_composite.md rule R281, 41_frequency.md rule R144). -/
theorem exec_compress_overflow {s : State} (h : s.idle) (hr : s.portsReady) (hw : s.status.eofWritten = false)
    {pre post : List Byte} {b : Byte} (hleft : s.ports.ib.left = pre ++ b :: post) (hlen : pre.length = 2 ^ 32 - 2) :
    ∃ u, exec .compress s = .next u ∧ State.failsTo { s with
      mem := { s.mem with freq := countAll initialFreq pre }
      total := 0xFFFFFFFF
      bytesIn := BitVec.ofNat 32 pre.length
      ports := { s.ports with ib := { s.ports.ib with left := post, isOpen := true } } }
      u 0x70 0x12 .cntOverflow 0xFFFFFFFF (b.setWidth 32) := by
  have hrun := (congrArg (runTasks · (s.accept (encode .compress))) compressTasks_eq).trans
    (runTasks_raise (count_overflow (s := s.accept (encode .compress)) hr hleft hlen))
  refine runCommand_failsTo h rfl ((needNoEofWritten_holds _).2 hw) hrun ?_ hr rfl (opcodeOf_encode .compress) rfl h.2.2
  apply State.ext <;> simp [State.scannedTo, State.invalidateTree]

/-- COMPRESS completes only on sources of fewer than 2^32 - 1 bytes. -/
theorem exec_compress_done_length {s s' : State} {bytes : List Byte} (h : s.idle) (hr : s.portsReady)
    (hw : s.status.eofWritten = false) (hleft : s.ports.ib.left = bytes) (hexec : exec .compress s = .next s')
    (hdone : s'.status.done = true) : bytes.length < 2 ^ 32 - 1 := by
  by_contra hlong
  obtain ⟨b, post, hdrop⟩ : ∃ b post, bytes.drop (2 ^ 32 - 2) = b :: post :=
    List.exists_cons_of_length_pos (by rw [List.length_drop]; omega)
  have hsplit := (List.take_append_drop (2 ^ 32 - 2) bytes).symm
  rw [hdrop] at hsplit
  obtain ⟨u, hu, hfails⟩ := exec_compress_overflow h hr hw (hleft.trans hsplit) (by rw [List.length_take]; omega)
  cases hu.symm.trans hexec
  rw [State.status_of_failsTo hfails] at hdone
  cases hdone

/-- A source that presents `bytes` presents them again after a rewind (20_memory.md rule R64, 60_exceptions.md duty H4). -/
theorem State.presents.rewind {s : State} {bytes : List Byte} (h : s.presents bytes) :
    s.ports.ib.rewind.left = bytes ∧ s.ports.ib.rewind.ended = true := by
  obtain ⟨-, hall, hend, hlater⟩ := h
  simp [IbPort.rewind, hlater, hall, hend]

/-- COMPRESS of a source that presents `bytes` completes with their tree (47_composite.md rule R281). -/
theorem State.presents.compress {s : State} {bytes : List Byte} (hp : s.presents bytes) (h : s.idle) (hr : s.portsReady)
    (hw : s.status.eofWritten = false) (hlen : bytes.length < 2 ^ 32 - 1) :
    ∃ m x t, exec .compress s = .next (s.compressed bytes bytes m x t) ∧ TreeOfBytes bytes m x t := by
  obtain ⟨hleft', hend'⟩ := hp.rewind
  obtain ⟨hleft, -, hend, -⟩ := hp
  exact exec_compress_completes h hr hw hleft hend hleft' hend' (fun _ hb => hb) hlen

/-- A COMPRESS that completed, of a source that presents `bytes`, left what it leaves with their tree. -/
theorem State.presents.compressed {s s' : State} {bytes : List Byte} (hp : s.presents bytes) (h : s.idle) (hr : s.portsReady)
    (hw : s.status.eofWritten = false) (hexec : exec .compress s = .next s') (hdone : s'.status.done = true) :
    ∃ m x t, s' = s.compressed bytes bytes m x t ∧ TreeOfBytes bytes m x t ∧ bytes.length < 2 ^ 32 - 1 := by
  have hlen := exec_compress_done_length h hr hw hp.1 hexec hdone
  obtain ⟨m, x, t, hrun, ht⟩ := hp.compress h hr hw hlen
  cases hexec.symm.trans hrun
  exact ⟨m, x, t, rfl, ht, hlen⟩

/-- From an empty port OB the committed stream is MAGIC, header and body, padded (30_encoding.md rules R100 to R104). -/
theorem State.compressed_committed {s : State} (hob : s.ports.ob.bits = []) (bytes out : List Byte) (m : Memory) (x : NodeIdx)
    (t : Shape) : (s.compressed bytes out m x t).ports.ob.committed =
      s.ports.ob.committed ++ [packBits (streamBits s.magic t out)] := by
  simp [State.compressed, hob]

/-- Settles O53: both engines complete with the one tree of the bytes (`TreeOfBytes.unique`), and so commit one stream. -/
theorem compressDeterministic : Obligations.CompressDeterministic := by
  unfold Obligations.CompressDeterministic
  intro bytes s u s' u' h hu hr hur hw huw hp hup hmagic hob huob hs' hu' hdone hudone
  obtain ⟨m, x, t, rfl, ht, -⟩ := hp.compressed h hr hw hs' hdone
  obtain ⟨m', x', t', rfl, ht', -⟩ := hup.compressed hu hur huw hu' hudone
  cases ht.unique ht'
  exact ⟨_, State.compressed_committed hob .., hmagic ▸ State.compressed_committed huob ..⟩

/-! ### DECOMPRESS of a compressed stream -/

/-- Settles O51: the bits are MAGIC, the tree's header and a body of its codes, whatever follows (`decompress_run`). -/
theorem decompressCommitsBytes : Obligations.DecompressCommitsBytes := by
  unfold Obligations.DecompressCommitsBytes
  intro s t bytes rest h hr hes hvalid heof hbytes hb
  exact ⟨Shape.nodesAt_root hvalid, runCommand_completes h rfl ((needNoEofSeen_holds _).2 hes)
    (decompress_run (s := s.accept (encode .decompress)) hr hvalid heof hbytes hb) rfl rfl⟩

/-- Settles O52: COMPRESS commits a stream of the bytes' tree, which has all their symbols and PSEUDO_EOF (`TreeOfBytes.mem_leaves`,
`TreeOfBytes.pseudoEof_mem_leaves`), and DECOMPRESS takes its pad for what follows (`unpackBytes_packBits`). -/
theorem compressRoundTrip : Obligations.CompressRoundTrip := by
  unfold Obligations.CompressRoundTrip
  intro bytes s u trail h hr hw hp hob hu hur hes hmagic hbytesOut hbo
  refine ⟨fun hlen => ?completes, fun s' hexec hdone => ?inverts⟩
  case completes =>
    obtain ⟨m, x, t, hexec, -⟩ := hp.compress h hr hw hlen
    exact ⟨_, hexec, rfl⟩
  case inverts =>
    obtain ⟨m, x, t, rfl, ht, hlen⟩ := hp.compressed h hr hw hexec hdone
    refine ⟨_, State.compressed_committed hob .., fun hb => ?_⟩
    rw [unpackBytes_packBits, List.append_assoc, ← hmagic] at hb
    obtain ⟨-, hexec'⟩ := decompressCommitsBytes u t bytes _ hu hur hes ht.valid ht.pseudoEof_mem_leaves
      (fun b hb => ht.mem_leaves hlen hb) hb
    exact ⟨_, hexec', rfl, by rw [hbo]; rfl, by rw [hbytesOut]; exact BitVec.zero_add _⟩

/-! ### Sub-steps -/

/-- One of two cases that a flag tells apart, as two implications. -/
theorem imp_and_imp_of_or {b : Bool} {p q : Prop} (h : b = false ∧ p ∨ b = true ∧ q) :
    (b = false → p) ∧ (b = true → q) := by
  rcases h with ⟨rfl, hp⟩ | ⟨rfl, hq⟩
  · exact ⟨fun _ => hp, nofun⟩
  · exact ⟨nofun, fun _ => hq⟩

/-- Settles O59: a composite command is its sub-steps in turn (`compress_steps`, `decompress_steps`). -/
theorem compositeRunsSubSteps : Obligations.CompositeRunsSubSteps := by
  unfold Obligations.CompositeRunsSubSteps
  exact ⟨fun s u h hw hx hb hq => imp_and_imp_of_or (compress_steps h hw hx hb hq),
    fun s u h hes hx hb hq => imp_and_imp_of_or (decompress_steps h hes hx hb hq)⟩

/-! ### What COMPRESS refuses -/

/-- COMPRESS raises ENC_NO_CODE at the first byte of the second pass that was not in the first, but for the pad leaf's
(47_composite.md rule R281, 45_encoder.md rule R244, 42_tree_builder.md rule R165). -/
theorem exec_compress_noCode {s : State} (h : s.idle) (hr : s.portsReady) (hw : s.status.eofWritten = false)
    {bytes pre post : List Byte} {b : Byte} (hleft : s.ports.ib.left = bytes) (hend : s.ports.ib.ended = true)
    (hlen : bytes.length < 2 ^ 32 - 1) (hleft' : s.ports.ib.rewind.left = pre ++ b :: post) (hpre : ∀ x ∈ pre, x ∈ bytes)
    (hb : b ∉ bytes) (hpad : ¬ (bytes = [] ∧ b = 0)) :
    ∃ (m : Memory) (x : NodeIdx) (t : Shape) (bits : List Bool),
      Counted initialFreq m.freq bytes ∧ TreeAt m.nodes x t ∧ t.valid = true ∧ CodesOf m.codes t ∧
      bits = fieldBits 32 s.magic ++ t.header ++ pre.flatMap (fun y => t.code (symbolOfByte y)) ∧
      ∃ u, exec .compress s = .next u ∧ State.failsTo { s with
        mem := m
        root := x
        cur := x
        total := BitVec.ofNat 32 (bytes.length + 1)
        bytesIn := BitVec.ofNat 32 pre.length
        bitsOut := s.bitsOut + BitVec.ofNat 32 bits.length
        ports := { s.ports with
          ib := { s.ports.ib.rewind with left := post }
          ob := { s.ports.ob with bits := s.ports.ob.bits ++ bits, isOpen := true } } }
        u 0x70 0x52 .encNoCode 0 (b.setWidth 32) := by
  obtain ⟨-, hfreqOk⟩ := count_run hr hleft hend hlen
  obtain ⟨m, x, t, hvalid, htree, -, hcodes, hfreq, -, hrun⟩ :=
    compress_noCode (s := s.accept (encode .compress)) hr hleft hend hleft' hlen
      (fun y hy => mem_loadedLeaves_of_mem hlen (hpre y hy)) (not_mem_loadedLeaves hlen hfreqOk hb hpad)
  refine ⟨m, x, t, _, hfreq ▸ counted_countAll initialFreq bytes, htree, hvalid, hcodes, rfl,
    runCommand_failsTo h rfl ((needNoEofWritten_holds _).2 hw) hrun ?_ hr rfl (opcodeOf_encode .compress) rfl h.2.2⟩
  apply State.ext <;> simp [State.headed, State.encoded, BitVec.add_assoc, BitVec.ofNat_add]

/-! ### What DECOMPRESS refuses -/

/-- DECOMPRESS's sub-steps from DE_BODY's body on. -/
def decompressBodyTasks : List Task := deBodyTasks ++ .phase 0x62 :: deCloseTasks

/-- DECOMPRESS's state at HD_READ_TREE, `bits` left behind the magic word. -/
def State.magicRead (s : State) (bits : List Bool) : State :=
  { s with
    status := { s.status with magicOk := true }
    result := s.magic
    bitsIn := s.bitsIn + 32
    seq := { s.seq with phase := 0x43 }
    ports := { s.ports with bi := { s.ports.bi with bits := bits, isOpen := true } } }

/-- DECOMPRESS's state at DE_BODY, `bits` left behind the header of `t`. -/
def State.headerRead (s : State) (t : Shape) (bits : List Bool) : State :=
  { s with
    status := { s.status with heapLoaded := false, treeValid := true, codesValid := false, eofSeen := false, magicOk := true }
    result := BitVec.ofNat 32 t.size
    root := 0
    cur := 0
    bitsIn := s.bitsIn + 32 + BitVec.ofNat 32 t.header.length
    mem := { s.mem with nodes := t.nodesAt 0, heap := [] }
    seq := { s.seq with phase := 0x61, stack := [], icount := 0 }
    ports := { s.ports with bi := { s.ports.bi with bits := bits, isOpen := true } } }

/-- DECOMPRESS behind the magic word (47_composite.md rule R283). -/
theorem decompress_magic {s : State} (hr : s.ports.credit = none) {bits : List Bool}
    (hb : s.ports.bi.bits = fieldBits 32 s.magic ++ bits) :
    runTasks decompressTasks s = runTasks (hdReadTreeTasks ++ .phase 0x61 :: decompressBodyTasks) (s.magicRead bits) := by
  have hread := runTasks_single (t := .readMagic) (readMagic_run (s := s.setSeq { s.seq with phase := 0x42 }) hr hb)
  rw [decompressTasks_eq, List.cons_append, runTasks_phase, runTasks_then hread]
  rfl

/-- DECOMPRESS behind the magic word and a valid header (47_composite.md rule R283). -/
theorem decompress_header {s : State} (hr : s.ports.credit = none) {t : Shape} (hvalid : t.valid = true) {bits : List Bool}
    (hb : s.ports.bi.bits = fieldBits 32 s.magic ++ t.header ++ bits) :
    runTasks decompressTasks s = runTasks decompressBodyTasks (s.headerRead t bits) := by
  rw [List.append_assoc] at hb
  rw [decompress_magic hr hb, runTasks_then (hdReadTree_run (s := s.magicRead (t.header ++ bits)) hr hvalid rfl), runTasks_phase]
  rfl

/-- DECOMPRESS whose loop runs out of bits behind a valid header raises FMT_BODY_EOS: `k` bits of the body are read, `out` is
emitted, and CUR is at `c` (47_composite.md rule R283, 46_decoder.md rule R262). -/
theorem exec_decompress_bodyEos {s z : State} (h : s.idle) (hr : s.portsReady) (hes : s.status.eofSeen = false) {t : Shape}
    (hvalid : t.valid = true) {bits : List Bool} (hb : s.ports.bi.bits = fieldBits 32 s.magic ++ t.header ++ bits)
    (hz : z = (s.accept (encode .decompress)).headerRead t bits) {k : Nat} {out : List Byte} {c : NodeIdx} {res n : Word}
    (hn : n = s.bitsIn + 32 + BitVec.ofNat 32 (t.header.length + k))
    (hloop : deLoopBody z = .raise .fmtBodyEos 1 (z.bitsIn + BitVec.ofNat 32 k) (z.fed [] k out c res)) :
    ∃ u, exec .decompress s = .next u ∧ State.failsTo { s with
      mem := { s.mem with nodes := t.nodesAt 0, heap := [] }
      root := 0
      cur := c
      bitsIn := n
      bytesOut := s.bytesOut + BitVec.ofNat 32 out.length
      ports := { s.ports with
        bi := { s.ports.bi with bits := [], isOpen := true }
        bo := { s.ports.bo with
          bytes := s.ports.bo.bytes ++ out, isOpen := s.ports.bo.isOpen || !out.isEmpty } } }
      u 0x71 0x61 .fmtBodyEos 1 n := by
  have hcount : z.bitsIn + BitVec.ofNat 32 k = n := by
    rw [hz, hn, BitVec.ofNat_add, ← BitVec.add_assoc]
    rfl
  have hbody := deBodyTasks_run z
  rw [hloop, Flow.andThen_raise, hcount] at hbody
  subst hz
  have hrun := (decompress_header (s := s.accept (encode .decompress)) hr hvalid hb).trans (runTasks_raise hbody)
  refine runCommand_failsTo h rfl ((needNoEofSeen_holds _).2 hes) hrun ?_ hr rfl (opcodeOf_encode .decompress) rfl h.2.2
  apply State.ext <;> simp [State.fed, State.headerRead, ← hcount]

/-- DECOMPRESS raises the error that the bits behind the magic word call for (47_composite.md rule R283, 44_header_codec.md
rules R217 to R221). -/
theorem exec_decompress_header_raises {s : State} (h : s.idle) (hr : s.portsReady) (hes : s.status.eofSeen = false)
    {bits : List Bool} {n : Word} {c : Cause} {e f : Word} (hb : s.ports.bi.bits = fieldBits 32 s.magic ++ bits)
    (hn : n = s.bitsIn + 32 + BitVec.ofNat 32 (bits.length - (readHeader bits).rest.length))
    (herr : (readHeader bits).error n = some (c, e, f)) (hend : c = .fmtHdrEos → s.ports.bi.ended = true) :
    ∃ (nodes : List Node) (u : State), nodes.length = headerNodes bits ∧ exec .decompress s = .next u ∧ State.failsTo { s with
      mem := { s.mem with nodes := nodes, heap := [] }
      bitsIn := n
      ports := { s.ports with bi := { s.ports.bi with isOpen := true } } } u 0x71 0x43 c e f := by
  obtain ⟨nodes, st, ic, hlen, hread⟩ :=
    (hdReadTree_stops (s := (s.accept (encode .decompress)).magicRead bits) hr).raises hn herr hend
  have hrun := (decompress_magic (s := s.accept (encode .decompress)) hr hb).trans (runTasks_raise hread)
  obtain ⟨u, hexec, hfails⟩ := runCommand_failsTo h rfl ((needNoEofSeen_holds _).2 hes) hrun (ph := 0x43) (m := { s with
    mem := { s.mem with nodes := nodes, heap := [] }
    bitsIn := n
    ports := { s.ports with bi := { s.ports.bi with bits := (readHeader bits).rest, isOpen := true } } })
    (by rw [hn]; rfl) hr rfl (opcodeOf_encode .decompress) rfl h.2.2
  exact ⟨nodes, u, hlen.trans (Nat.zero_add _), hexec, State.failsTo_of_bits _ rfl hfails⟩

/-- DECOMPRESS raises what HD_READ_MAGIC's body raises (47_composite.md rule R283). -/
theorem decompress_magic_raises {s t : State} {c : Cause} {e f : Word}
    (hread : readMagicBody (s.setSeq { s.seq with phase := 0x42 }) = .raise c e f t) :
    runTasks decompressTasks s = .raise c e f t := by
  rw [decompressTasks_eq, List.cons_append, runTasks_phase, runTasks_raise (runTasks_single (t := .readMagic) hread)]

/-- Settles O60: each refusal by the lemma on the sub-step that raises it; a body runs out of bits as its loop does
(`deLoop_decodes`, `deLoop_bodyCut`). -/
theorem compositeRejects : Obligations.CompositeRejects := by
  unfold Obligations.CompositeRejects
  refine ⟨fun s h hr hw => ⟨fun pre b post hleft hlen => ?overflow,
    fun bytes pre b post hleft hend hlen hleft' hpre hb hpad => ?noCode⟩,
    fun s h hr hes => ⟨fun v rest hb hv => ?badMagic, fun hshort hend => ?magicEos, fun bits n c e f hb hn herr hend => ?header,
      fun t bits out c behind n hvalid hb hend hdec hn => ?bits,
      fun t bytes k hvalid heof hbytes hk hb hend => ?cut⟩⟩
  case overflow =>
    obtain ⟨u, hexec, hfails⟩ := exec_compress_overflow h hr hw hleft hlen
    exact ⟨_, u, counted_countAll initialFreq pre, hexec, hfails⟩
  case noCode =>
    obtain ⟨m, x, t, bits, hcounted, htree, hvalid, hcodes, hbits, u, hexec, hfails⟩ :=
      exec_compress_noCode h hr hw hleft hend hlen hleft' hpre hb hpad
    exact ⟨m, x, t, bits, u, hcounted, htree, hvalid, hcodes, hbits, hexec, hfails⟩
  case badMagic =>
    exact runCommand_failsTo h rfl ((needNoEofSeen_holds _).2 hes) (decompress_magic_raises
      (readMagic_bad (s := (s.accept _).setSeq _) hr hb hv)) rfl hr rfl (opcodeOf_encode .decompress) rfl h.2.2
  case magicEos =>
    exact runCommand_failsTo h rfl ((needNoEofSeen_holds _).2 hes) (decompress_magic_raises
      (readMagic_eos (s := (s.accept _).setSeq _) hr hend hshort)) rfl hr rfl (opcodeOf_encode .decompress) rfl h.2.2
  case header => exact exec_decompress_header_raises h hr hes hb hn herr hend
  case bits =>
    have htin := (t.valid_iff.1 hvalid).1
    have hat := Shape.nodesAt_root hvalid
    refine ⟨fun heof => ?never, ?runsOut⟩
    case never =>
      have hnever := decodeBits_never hat htin heof bits 0 t hat htin fun _ hv => hv
      rwa [hdec] at hnever
    case runsOut =>
      rintro rfl
      have hloop : Decodes _ bits (out, c, none) _ := hdec ▸ deLoop_decodes htin bits
        ((s.accept (encode .decompress)).headerRead t bits) t _ hr rfl htin hat hat rfl (Nat.lt_succ_self _)
      obtain ⟨res, hraise⟩ := hloop.1 hend
      exact exec_decompress_bodyEos h hr hes hvalid hb rfl hn hraise
  case cut =>
    have hlen : ((t.body bytes).take k).length = k := by rw [List.length_take, Nat.min_eq_left hk.le]
    obtain ⟨out, c, res, hout, hle, hlt, hwalk, hraise⟩ := deLoop_bodyCut (t.valid_iff.1 hvalid).1 heof bytes
      ((s.accept (encode .decompress)).headerRead t ((t.body bytes).take k)) k (((t.body bytes).take k).length + 1) hbytes hr
      hend rfl rfl (Shape.nodesAt_root hvalid) hk rfl (by omega)
    obtain ⟨u, hexec, hfails⟩ := exec_decompress_bodyEos h hr hes hvalid hb rfl rfl hraise
    exact ⟨out, c, _, u, hout, hle, hlt, hwalk, rfl, hexec, hfails⟩

end Sys2Proof.Machine

/-! ## Exceptions (60_exceptions.md) -/

namespace Sys2Proof.Machine

/-! ### Error entry's cleanup -/

/-- The ports after some primitives that are answered in turn. -/
def Ports.performAll (ps : Ports) : List Prim → Ports
  | [] => ps
  | p :: l => (((ps.perform p).map (·.2)).getD ps).spend.performAll l

/-- A cleanup primitive is answered unless the collaborators answer no more (20_memory.md rules R65 to R68). -/
theorem Ports.answer_cleanup {ps : Ports} {p : Prim} (hp : p ∈ cleanupPrims) (hc : ps.credit ≠ some 0) :
    ∃ a, ps.answer p = some (a, ps.performAll [p]) := by
  rw [Ports.answer, if_neg hc]
  simp only [cleanupPrims, List.mem_cons, List.not_mem_nil, or_false] at hp
  rcases hp with rfl | rfl | rfl | rfl <;> exact ⟨_, rfl⟩

theorem Ports.performAll_credit (ps : Ports) {p : Prim} (hp : p ∈ cleanupPrims) :
    (ps.performAll [p]).credit = ps.credit.map (· - 1) := by
  simp only [cleanupPrims, List.mem_cons, List.not_mem_nil, or_false] at hp
  rcases hp with rfl | rfl | rfl | rfl <;> rfl

/-- Cleanup goes on past the primitives that the collaborators answer. -/
theorem State.cleanUp_append {rest : List Prim} : ∀ (l : List Prim) (z : State), (∀ p ∈ l, p ∈ cleanupPrims) →
    (∀ n, z.ports.credit = some n → l.length ≤ n) →
    z.cleanUp (l ++ rest) = (z.setPorts (z.ports.performAll l)).cleanUp rest
  | [], _, _, _ => rfl
  | p :: l, z, hp, hc => by
    obtain ⟨a, ha⟩ := Ports.answer_cleanup (ps := z.ports) (hp p (by simp)) fun h => absurd (hc 0 h) (by simp)
    rw [List.cons_append, State.cleanUp_answered ha]
    refine State.cleanUp_append l (z.setPorts (z.ports.performAll [p])) (fun q hq => hp q (by simp [hq])) fun n hn => ?_
    rw [State.setPorts_ports, Ports.performAll_credit _ (hp p (by simp)), Option.map_eq_some_iff] at hn
    obtain ⟨k, hk, rfl⟩ := hn
    exact Nat.le_sub_one_of_lt (hc k hk)

theorem State.cleanUp_all {l : List Prim} {z : State} (hp : ∀ p ∈ l, p ∈ cleanupPrims)
    (hc : ∀ n, z.ports.credit = some n → l.length ≤ n) : z.cleanUp l = (z.setPorts (z.ports.performAll l)).endError := by
  have h := State.cleanUp_append (rest := []) l z hp hc
  rwa [List.append_nil] at h

/-- All four cleanup primitives, answered in turn (60_exceptions.md rule R303). -/
theorem Ports.performAll_cleanup (ps : Ports) :
    ps.performAll cleanupPrims = { ps.cleanup with credit := ps.credit.map (· - 4) } := by
  have hcredit : (((ps.credit.map (· - 1)).map (· - 1)).map (· - 1)).map (· - 1) = ps.credit.map (· - 4) := by
    cases ps.credit <;> rfl
  rw [← hcredit]
  rfl

/-- Where the collaborators answer `n` primitives, and all others later, they have answered all four. -/
theorem Ports.performAll_split (ps : Ports) {n : Nat} (hn : n < 4) :
    ({ ps.performAll (cleanupPrims.take n) with credit := none } : Ports).performAll (cleanupPrims.drop n) =
      { ps.cleanup with credit := none } := by
  interval_cases n <;> rfl

/-- Collaborators that answer `n` of the four primitives have none left to answer. -/
theorem Ports.performAll_take_credit {ps : Ports} {n : Nat} (hn : n < 4) (hc : ps.credit = some n) :
    (ps.performAll (cleanupPrims.take n)).credit = some 0 := by
  obtain ⟨ib, ob, bi, bo, credit⟩ := ps
  cases hc
  interval_cases n <;> rfl

/-- Error entry that is over (60_exceptions.md rule R303). -/
theorem State.failedAs_endError (s : State) (c : Cause) (e f : Word) (credit : Option Nat) {ps : Ports}
    (h : ps = { s.ports.cleanup with credit := credit }) :
    s.failedAs ((s.recordError c e f).setPorts ps).endError c e f credit := by
  subst h
  rfl

theorem State.enterError_failedAs {s : State} (h : ∀ n, s.ports.credit = some n → 4 ≤ n) (c : Cause) (e f : Word) :
    s.failedAs (s.enterError c e f) c e f (s.ports.credit.map (· - 4)) := by
  rw [State.enterError, State.cleanUp_all (fun _ hp => hp) (by exact h)]
  exact s.failedAs_endError c e f _ s.ports.performAll_cleanup

theorem State.failedAs.noStream {s t : State} {c : Cause} {e f : Word} {credit : Option Nat} (h : s.failedAs t c e f credit) :
    t.noStream := by
  have hports : t.ports = { s.ports.cleanup with credit := credit } := congrArg State.ports h
  rw [State.noStream, hports]
  exact s.ports.cleanup_closed

theorem State.failedAs.register {s t : State} {c : Cause} {e f : Word} {credit : Option Nat} (h : s.failedAs t c e f credit) :
    t.register 0x0C = some (0#8 ++ s.seq.phase ++ s.seq.opcode ++ c.code) := by
  have hrecord : t.errCause = { cause := c, opcode := s.seq.opcode, phase := s.seq.phase } := congrArg State.errCause h
  show some t.errCause.word = _
  rw [hrecord]
  rfl

/-- Error entry that a port holds: what it has written, and the cleanup primitives still to be answered (20_memory.md rule R66,
assumption log 13). -/
theorem State.enterError_held {s : State} {n : Nat} (hc : s.ports.credit = some n) (hn : n < 4) (c : Cause) (e f : Word) :
    s.enterError c e f = ((s.recordError c e f).setPorts (s.ports.performAll (cleanupPrims.take n))).setSeq { s.seq with
      tasks := [], pending := cleanupPrims[n]?, todo := cleanupPrims.drop n } := by
  have hlt : n < cleanupPrims.length := hn
  have hdrop : cleanupPrims.drop n = cleanupPrims[n] :: cleanupPrims.drop (n + 1) := List.drop_eq_getElem_cons hlt
  have hnone : (s.ports.performAll (cleanupPrims.take n)).answer cleanupPrims[n] = none :=
    if_pos (Ports.performAll_take_credit hn hc)
  calc s.enterError c e f
      = (s.recordError c e f).cleanUp (cleanupPrims.take n ++ cleanupPrims.drop n) := by rw [List.take_append_drop]; rfl
    _ = ((s.recordError c e f).setPorts (s.ports.performAll (cleanupPrims.take n))).cleanUp (cleanupPrims.drop n) :=
        State.cleanUp_append _ (s.recordError c e f) (fun p hp => List.mem_of_mem_take hp) fun k hk => by
          cases hc.symm.trans hk
          exact List.length_take_le ..
    _ = _ := by rw [hdrop, State.cleanUp_held (by exact hnone), List.getElem?_eq_getElem hlt]; rfl

/-- A held error entry ends once the collaborators answer. -/
theorem State.enterError_answered_later {s : State} {n : Nat} (hc : s.ports.credit = some n) (hn : n < 4) (hb : s.status.busy = true)
    (c : Cause) (e f : Word) :
    ∃ t, (s.enterError c e f).react (.portCredit none) = .next t ∧ s.failedAs t c e f none := by
  rw [State.enterError_held hc hn]
  refine ⟨_, State.resume_failing (by exact hb) rfl, ?_⟩
  rw [State.cleanUp_all (by exact fun p hp => List.mem_of_mem_drop hp) (by exact nofun)]
  exact s.failedAs_endError c e f none (s.ports.performAll_split hn)

/-- Settles O10: where four primitives are answered by `State.enterError_failedAs`, else by `State.enterError_held`. -/
theorem errorEntryRecord : Obligations.ErrorEntryRecord := by
  unfold Obligations.ErrorEntryRecord
  refine fun s c e f => ⟨fun h => ?_, fun n hc hn => ⟨?_, ?_, fun hb => State.enterError_answered_later hc hn hb c e f⟩⟩
  · have hfailed := State.enterError_failedAs h c e f
    exact ⟨hfailed, hfailed.noStream, c.code, c.code_mem, hfailed.register⟩
  · rw [State.enterError_held hc hn]
    rfl
  · rw [State.enterError_held hc hn]
    rfl

/-! ### Which errors a command raises -/

/-- The parts of a primitive command raise the errors that the cause table lists for it, and start no sub-step (60_exceptions.md
rule R301). -/
theorem primitive_causes {i : Instr} (h₁ : i ≠ .compress) (h₂ : i ≠ .decompress) :
    ∀ u ∈ bodyOf i, u.isPhase = false ∧ ∀ c ∈ u.causes, (c, i.opcode) ∈ raisable i := by
  cases i with
  | compress => exact absurd rfl h₁
  | decompress => exact absurd rfl h₂
  | _ => simp [bodyOf, Task.isPhase, Task.causes, headerCauses, raisable, Instr.opcode, fcScanTasks, tbBuildTasks, hdReadTreeTasks,
      enEofTasks, enBodyTasks, enCloseTasks, deBodyTasks, deCloseTasks]

/-- A body raises the errors that the cause table lists for its command, each with its PHASE (60_exceptions.md rule R301, 10_state.md
rule R34). -/
theorem body_raised {i : Instr} {z y : State} {c : Cause} {e f : Word} (hz : z.seq.phase = i.opcode)
    (h : runTasks (bodyOf i) z = .raise c e f y) : (c, y.seq.phase) ∈ raisable i := by
  by_cases h₁ : i = .compress
  · subst h₁
    exact List.mem_cons_of_mem _ (compress_raised h)
  by_cases h₂ : i = .decompress
  · subst h₂
    exact List.mem_cons_of_mem _ (decompress_raised h)
  have hparts := primitive_causes h₁ h₂
  have htrack := tasks_track (bodyOf i) z ((bodyOf i).flatMap Task.causes) (fun u hu => (hparts u hu).1)
    (fun u hu c hc => List.mem_flatMap.2 ⟨u, hu, hc⟩) rfl
  obtain ⟨hc, hframe⟩ := htrack.raised h
  obtain ⟨u, hu, hcu⟩ := List.mem_flatMap.1 hc
  have hphase : y.seq.phase = i.opcode := (congrArg (·.2.1) hframe).trans hz
  rw [hphase]
  exact (hparts u hu).2 c hcu

/-- Only error entry sets ERR: a body that runs without an error and ends with one has raised it. -/
theorem finish_failed {ts : List Task} {z t : State} (hz : z.underWay) (h : (runTasks ts z).finish = .next t)
    (he : t.status.err = true) : ∃ c e f y, runTasks ts z = .raise c e f y ∧ t = y.enterError c e f := by
  have hk := kept_running.tasks ts z (fun _ _ _ => rfl) hz
  cases hr : runTasks ts z with
  | ok y =>
    rw [hr] at h hk
    cases h
    exact absurd (hk.2.2.1.symm.trans he) (by decide)
  | hold y =>
    rw [hr] at h hk
    cases h
    exact absurd (hk.2.2.1.symm.trans he) (by decide)
  | raise c e f y =>
    rw [hr] at h
    cases h
    exact ⟨c, e, f, y, rfl, rfl⟩
  | fault g => rw [hr] at h; cases h

/-- A CMD write that the engine accepts and that leaves ERR = 1: error entry at once, or out of the command's body (40_control.md
rules R123, R124, R126). -/
theorem issue_failed {w : Word} {s t : State} (ha : s.accepts = true) (h : issue w s = .next t) (he : t.status.err = true) :
    ∃ c e f y, t = y.enterError c e f ∧ ((y = s.accept w ∧ (c, opcodeOf w) ∈ raisableWord w) ∨
      ∃ i, decode w = .ok i ∧ runTasks (bodyOf i) (s.accept w) = .raise c e f y) := by
  rcases issue_cases h with ⟨-, rfl⟩ | ⟨-, ha', -⟩ | ⟨-, -, c, e, f, hc, rfl⟩ | ⟨-, -, i, hd, -, hf⟩
  · cases he
  · exact absurd (ha.symm.trans ha') (by decide)
  · exact ⟨c, e, f, s.accept w, rfl, .inl ⟨rfl, hc⟩⟩
  · obtain ⟨c, e, f, y, hr, rfl⟩ := finish_failed (State.underWay_accept ha w) hf he
    exact ⟨c, e, f, y, rfl, .inr ⟨i, hd, hr⟩⟩

/-- The record that an accepted CMD write leaves where it leaves ERR = 1 (60_exceptions.md rules R301, R303). -/
theorem issue_failed_record {w : Word} {s t : State} (ha : s.accepts = true) (h : issue w s = .next t)
    (he : t.status.err = true) :
    t.errCause.opcode = opcodeOf w ∧ (t.errCause.cause, t.errCause.phase) ∈ raisableWord w := by
  obtain ⟨c, e, f, y, rfl, hy⟩ := issue_failed ha h he
  obtain ⟨-, hrecord⟩ := y.enterError_record c e f
  rw [hrecord]
  rcases hy with ⟨rfl, hc⟩ | ⟨i, hd, hr⟩
  · exact ⟨rfl, hc⟩
  · have hop : i.opcode = opcodeOf w := BitVec.eq_of_toNat_eq (decodeFields_inv hd).2.1
    have hopcode := (kept_opcode (opcodeOf w)).tasks (bodyOf i) (s.accept w) (fun _ _ _ => rfl) rfl
    rw [hr] at hopcode
    rw [raisableWord_ok hd]
    exact ⟨hopcode, body_raised (z := s.accept w) hop.symm hr⟩

/-- Settles O11: at once by `issue_failed_record` for the command's own word, and where ports held it by `Ends.over`. -/
theorem errorCausesByCommand : Obligations.ErrorCausesByCommand := by
  unfold Obligations.ErrorCausesByCommand
  refine ⟨fun i s t h hw hx he => ?_, fun w s t hs he h ht => ?_⟩
  · have hd := decodeOfEncode i hw
    have hrecord := issue_failed_record h.accepts ((issue_command hd s).trans hx) he
    rwa [opcodeOf_encode, raisableWord_ok hd] at hrecord
  · obtain ⟨hop, hc, -, -⟩ := (h.over hs he).error ht
    exact ⟨hop, hc⟩

/-! ### What an error commits and leaves open -/

/-- A body that raises an error has committed nothing (60_exceptions.md rule R304). -/
theorem body_raised_commits {i : Instr} {z y : State} {c : Cause} {e f : Word} (h : runTasks (bodyOf i) z = .raise c e f y) :
    y.commits = z.commits := by
  obtain ⟨a, b, hab, hopen, hquiet⟩ := body_halves i
  rw [hab] at h
  rcases runTasks_append_raise h with h | ⟨u, -, h⟩
  · have hk := (kept_committed z.ports.ob.committed z.ports.bo.committed).tasks a z
      (fun t ht hc => absurd ((hopen t ht).symm.trans hc) (by decide)) ⟨rfl, rfl⟩
    rw [h] at hk
    exact Prod.ext hk.1 hk.2
  · obtain ⟨u, hu, hc⟩ := runTasks_raise_causes b h
    rw [hquiet u hu] at hc
    cases hc

/-- Cleanup commits nothing, and where it is over no stream is open (60_exceptions.md rules R304, R305). -/
theorem State.cleanUp_commits : ∀ (todo : List Prim) (z : State), z.status.busy = true → (∀ p ∈ todo, p ∈ cleanupPrims) →
    z.ports.closedBut todo →
    (z.cleanUp todo).commits = z.commits ∧ ((z.cleanUp todo).status.busy = false → (z.cleanUp todo).noStream)
  | [], z, _, _, ⟨hob, hbo, hib, hbi⟩ => ⟨rfl, fun _ => ⟨hib nofun, hob nofun, hbi nofun, hbo nofun⟩⟩
  | p :: todo, z, hb, hp, hc => by
    cases ha : z.ports.answer p with
    | none =>
      rw [State.cleanUp_held ha]
      exact ⟨rfl, fun hn => absurd (hb.symm.trans hn) (by decide)⟩
    | some r =>
      rw [State.cleanUp_answered (a := r.1) (q := r.2) ha]
      obtain ⟨hclosed, hob, hbo⟩ := Ports.answer_closedBut (a := r.1) (q := r.2) ha (hp p (by simp)) hc
      obtain ⟨hcom, hstream⟩ := State.cleanUp_commits todo (z.setPorts r.2) hb (fun q hq => hp q (by simp [hq])) hclosed
      exact ⟨hcom.trans (Prod.ext hob hbo), hstream⟩

theorem State.enterError_commits {y : State} (hb : y.status.busy = true) (c : Cause) (e f : Word) :
    (y.enterError c e f).commits = y.commits ∧ ((y.enterError c e f).status.busy = false → (y.enterError c e f).noStream) :=
  State.cleanUp_commits cleanupPrims (y.recordError c e f) hb (fun _ h => h) (by simp [Ports.closedBut, cleanupPrims])

/-- Settles O12: a body that raises an error has committed nothing (`body_raised_commits`), and neither does its cleanup
(`State.enterError_commits`); where ports held the command, `Ends.over`. -/
theorem errorsCommitNothing : Obligations.ErrorsCommitNothing := by
  unfold Obligations.ErrorsCommitNothing
  refine ⟨fun s t w hb he h ht => ?_, fun w s t hs he h ht => ?_⟩
  · have ha : s.accepts = true := by simp [State.accepts, hb, he]
    obtain ⟨c, e, f, y, rfl, hy⟩ := issue_failed ha h ht
    have hy' : y.status.busy = true ∧ y.commits = s.commits := by
      rcases hy with ⟨rfl, -⟩ | ⟨i, -, hr⟩
      · exact ⟨rfl, rfl⟩
      · have hk := kept_running.tasks (bodyOf i) (s.accept w) (fun _ _ _ => rfl) (State.underWay_accept ha w)
        rw [hr] at hk
        exact ⟨hk.1, body_raised_commits (z := s.accept w) hr⟩
    obtain ⟨hcom, hstream⟩ := State.enterError_commits hy'.1 c e f
    have heq := hcom.trans hy'.2
    exact ⟨hstream, congrArg Prod.fst heq, congrArg Prod.snd heq⟩
  · obtain ⟨-, -, hcom, hstream⟩ := (h.over hs he).error ht
    exact ⟨hstream, congrArg Prod.fst hcom, congrArg Prod.snd hcom⟩

/-! ### The error state -/

/-- The error state `s` stays in `t`: nothing changes but BUSY and REJECT, CTRL, the ports and the model's own fields, and while
BUSY = 0 the hidden sequencer state stays too (60_exceptions.md rule R310). -/
structure State.ErrorStays (s t : State) : Prop where
  status : ∃ b r, t.status = { s.status with busy := b, reject := r } ∧ (s.status.busy = false → b = false)
  frame : { t with
    status := s.status, ctrl := s.ctrl, ports := s.ports, inputs := s.inputs, readData := s.readData, seq := s.seq,
    draws := s.draws } = s
  hidden : s.status.busy = false → t.seq = s.seq ∧ t.draws = s.draws

/-- What the outside world does is no part of the error state. -/
theorem State.ErrorStays.of_outside {s t : State} {ps : Ports} {is : List Input}
    (h : State.ErrorStays { s with ports := ps, inputs := is } t) : s.ErrorStays t where
  status := h.status
  frame := congrArg (fun z : State => { z with ports := s.ports, inputs := s.inputs }) h.frame
  hidden := h.hidden

theorem State.ErrorStays.refl (s : State) : s.ErrorStays s := ⟨⟨_, _, rfl, id⟩, rfl, fun _ => ⟨rfl, rfl⟩⟩

theorem State.cleanUp_errorStays {s : State} (hb : s.status.busy = true) (l : List Prim) : s.ErrorStays (s.cleanUp l) := by
  have hidden : s.status.busy = false → (s.cleanUp l).seq = s.seq ∧ (s.cleanUp l).draws = s.draws :=
    fun h => absurd (hb.symm.trans h) (by decide)
  obtain ⟨q, h | ⟨p, rest, -, -, h⟩⟩ := s.cleanUp_cases l <;> rw [h] at hidden ⊢
  · exact ⟨⟨false, _, rfl, fun _ => rfl⟩, rfl, hidden⟩
  · exact ⟨⟨_, _, rfl, id⟩, rfl, hidden⟩

theorem State.resume_errorStays {s t : State} (he : s.status.err = true) (h : s.resume = .next t) : s.ErrorStays t := by
  cases hb : s.status.busy with
  | false =>
    rw [State.resume_idle hb] at h
    cases h
    exact State.ErrorStays.refl s
  | true =>
    rw [State.resume_failing hb he] at h
    cases h
    exact State.cleanUp_errorStays hb _

theorem State.readWindow_errorStays (s : State) (offset : Nat) : s.ErrorStays (s.readWindow offset) := by
  unfold State.readWindow
  split
  · exact ⟨⟨_, _, rfl, id⟩, rfl, fun _ => ⟨rfl, rfl⟩⟩
  split
  · rename_i h
    have hb : s.status.busy = true := (Bool.and_eq_true _ _ ▸ h).1
    exact ⟨⟨_, _, rfl, id⟩, rfl, fun h => absurd (hb.symm.trans h) (by decide)⟩
  · exact ⟨⟨_, _, rfl, id⟩, rfl, fun _ => ⟨rfl, rfl⟩⟩

theorem State.writeWindow_errorStays {s t : State} {offset : Nat} {v : Word} (he : s.status.err = true)
    (hw : offset = 0x00 → opcodeOf v ≠ 0x01) (h : s.writeWindow offset v = .next t) : s.ErrorStays t := by
  unfold State.writeWindow at h
  split at h
  · rw [issue_rejected ((s.accepts_eq_false).2 (.inr he)) (hw rfl)] at h
    cases h
    exact ⟨⟨_, true, rfl, id⟩, rfl, fun _ => ⟨rfl, rfl⟩⟩
  · cases h
    exact ⟨⟨_, _, rfl, id⟩, rfl, fun _ => ⟨rfl, rfl⟩⟩
  · cases h
    exact State.ErrorStays.refl s

/-- The events that leave the error state (60_exceptions.md rule R310). -/
def Input.resets (i : Input) : Prop := (∃ w, i = .busWrite 0x00 4 w ∧ opcodeOf w = 0x01) ∨ i = .hardReset

/-- Every other event leaves the error as it is. -/
theorem State.react_errorStays {s t : State} {i : Input} (he : s.status.err = true) (hi : ¬ i.resets) (h : s.react i = .next t) :
    s.ErrorStays t := by
  have port : ∀ {ps : Ports}, (s.setPorts ps).resume = .next t → s.ErrorStays t := fun {ps} h =>
    State.ErrorStays.of_outside (is := s.inputs) (State.resume_errorStays (s := s.setPorts ps) he h)
  cases i with
  | busWrite offset size v =>
    simp only [State.react] at h
    split at h
    · rename_i ha
      obtain ⟨rfl, -⟩ := (alignedWord_iff offset size).1 ha
      exact State.writeWindow_errorStays he (fun ho hv => hi (.inl ⟨v, by rw [ho], hv⟩)) h
    · cases h
  | busRead offset size =>
    simp only [State.react] at h
    split at h
    · cases h; exact s.readWindow_errorStays offset
    · cases h
  | hardReset => exact absurd (.inr rfl) hi
  | ibPresent _ _ _ => exact port h
  | ibSupply _ _ => exact port h
  | biPresent _ _ => exact port h
  | biSupply _ _ => exact port h
  | portCredit _ => exact port h

/-- A step without a reset leaves the error as it is. -/
theorem step_errorStays {s t : State} (he : s.status.err = true) (hi : ∀ i rest, s.inputs = i :: rest → ¬ i.resets)
    (h : step s = .next t) : s.ErrorStays t := by
  cases hs : s.inputs with
  | nil =>
    rw [step, hs] at h
    exact State.resume_errorStays he h
  | cons i rest =>
    rw [step_of_inputs hs] at h
    exact State.ErrorStays.of_outside (ps := s.ports)
      (State.react_errorStays (s := { s with inputs := rest }) he (hi i rest hs) h)

theorem issue_sreset {w : Word} {s t : State} (ho : opcodeOf w = 0x01) (h : issue w s = .next t) : t = s.softReset := by
  rcases issue_cases h with ⟨-, rfl⟩ | ⟨hne, -⟩ | ⟨hne, -⟩ | ⟨hne, -⟩
  · rfl
  all_goals exact absurd ho hne

/-- Settles O13: a reset clears the record; any other step leaves the error as it is (`step_errorStays`). -/
theorem errorStateExit : Obligations.ErrorStateExit := by
  unfold Obligations.ErrorStateExit
  intro s t _ he h
  refine ⟨?_, fun hreset => ?_⟩
  · rintro (⟨w, rest, hi, ho⟩ | ⟨rest, hi⟩)
    · rw [step_commandWrite hi] at h
      rw [issue_sreset ho h]
      exact ⟨rfl, rfl, rfl, rfl⟩
    · rw [step_of_inputs hi] at h
      cases h
      exact ⟨rfl, rfl, rfl, rfl⟩
  have hno : ∀ i rest, s.inputs = i :: rest → ¬ i.resets := by
    rintro i rest hi (⟨w, rfl, ho⟩ | rfl)
    · exact hreset (.inl ⟨w, rest, hi, ho⟩)
    · exact hreset (.inr ⟨rest, hi⟩)
  have hstays := step_errorStays he hno h
  obtain ⟨b, r, hst, hb⟩ := hstays.status
  refine ⟨by rw [hst]; exact he, ⟨b, r, hst, hb⟩, hstays.frame, hstays.hidden, fun w rest hi => ?_, fun v rest hi => ?_,
    fun offset rest r hi hr hb => ?_⟩
  · rw [step_commandWrite hi] at h
    have hw : opcodeOf w ≠ 0x01 := fun ho => hreset (.inl ⟨w, rest, hi, ho⟩)
    exact (issue_reject_iff h).2 ⟨hw, (State.accepts_eq_false _).2 (.inr he)⟩
  · rw [step_of_inputs hi, react_write v rfl] at h
    cases h
    rfl
  · have hread := h
    rw [step_of_inputs hi] at hread
    simp only [State.react] at hread
    split at hread
    · cases hread
      exact State.readWindow_exact (s := { s with inputs := rest }) hr hb
    · cases hread

end Sys2Proof.Machine

/-! ## Hardware reset (70_reset_and_hazards.md) -/

namespace Sys2Proof.Machine

/-- What hardware reset leaves, by the fields that are not at their reset values (70_reset_and_hazards.md rules R340, R341). -/
theorem State.hardReset_eq (s : State) : s.hardReset = { State.reset with
    magic := s.magic
    ports := s.abandon.ports.cleanup
    inputs := s.inputs
    readData := s.readData
    draws := s.abandon.draws } := rfl

theorem State.hardReset_noStream (s : State) : s.hardReset.noStream := s.abandon.ports.cleanup_closed

theorem State.hardReset_irq (s : State) : s.hardReset.irq = false := rfl

theorem step_hardReset {s : State} {rest : List Input} (h : s.inputs = .hardReset :: rest) :
    step s = .next (State.hardReset { s with inputs := rest }) := step_of_inputs h

/-- Settles O15: the step is the hardware reset; the ports it cleans up are those that an abandoned command leaves
(`State.abandon_ports`). -/
theorem hardResetState : Obligations.HardResetState := by
  unfold Obligations.HardResetState
  exact fun s rest hi => ⟨State.hardReset { s with inputs := rest }, (State.abandon { s with inputs := rest }).ports,
    step_hardReset hi, State.hardReset_eq _, State.hardReset_noStream _, State.hardReset_irq _,
    fun hb => (congrArg State.ports (State.abandon_idle (s := { s with inputs := rest }) hb)).trans rfl,
    State.abandon_ports _⟩

end Sys2Proof.Machine
